-- ==== Sys2Proof/Word.lean ====
section
/-! DEFINITION. The element widths of `00_scope.md` R9: u8, u16, u32 and u64. -/

namespace Sys2Proof

/-- u8 (R9). -/
abbrev Byte := BitVec 8

/-- u16 and s16 (R9). -/
abbrev Half := BitVec 16

/-- u32 and s32 (R9). -/
abbrev Word := BitVec 32

/-- u64 (R9): a host address, an argument or a result register. -/
abbrev DWord := BitVec 64

end Sys2Proof
end

