-- ==== Sys2Proof/Syntax.lean ====
section
/-! DEFINITION. The command set (`30_encoding.md` R110, R116): one constructor per row of the opcode table. A
constructor carries the command-word fields its row uses, as the 4-bit fields and the flag they are; their ranges
(R115) are checked in WellFormed.lean. Operands are registers, so no constructor carries them. -/

namespace Sys2Proof

inductive Instr where
  /-- `NOP` (R590). -/
  | nop
  /-- `RESET` (R591). -/
  | reset
  /-- `CLRERR` (R592). -/
  | clrerr
  /-- `BW_INIT` (R153): A0 addr, A1 cap. -/
  | bwInit
  /-- `BW_ADD` (R154): A0 value, A1 n. -/
  | bwAdd
  /-- `BW_FLUSH` (R155). -/
  | bwFlush
  /-- `BW_CLOSE` (R157): results RES0 size. -/
  | bwClose
  /-- `BR_INIT` (R162): A0 addr, A1 len. -/
  | brInit
  /-- `BR_PEEK` (R166): A0 n; results RES0 bits. -/
  | brPeek
  /-- `BR_READ` (R167): A0 n; results RES0 bits. -/
  | brRead
  /-- `BR_LOAD` (R168): results RES0 status. -/
  | brLoad
  /-- `HIST` (R200): A0 addr, A1 len; results RES0 maxSym, RES1 largest. -/
  | hist
  /-- `FSE_OPTLOG` (R202): A0 maxLog, A1 n, A2 maxSym; results RES0 log. -/
  | fseOptlog
  /-- `FSE_NORM` (R210): A0 log, A1 total, A2 maxSym. -/
  | fseNorm
  /-- `FSE_WRNC` (R221): A0 addr, A1 cap; results RES0 size. -/
  | fseWrnc
  /-- `FSE_RDNC` (R222): A0 addr, A1 len, A2 maxSym, A3 maxLog; results RES0 used, RES1 log, RES2 maxSym. -/
  | fseRdnc
  /-- `FSE_LDDEF` (R225). -/
  | fseLddef (sel : BitVec 4)
  /-- `FSE_BUILD_CT` (R236). -/
  | fseBuildCt (slot : BitVec 4)
  /-- `FSE_RLE_CT` (R238): A0 sym. -/
  | fseRleCt (slot : BitVec 4)
  /-- `FSE_BUILD_DT` (R240). -/
  | fseBuildDt (slot : BitVec 4)
  /-- `FSE_RLE_DT` (R242): A0 sym. -/
  | fseRleDt (slot : BitVec 4)
  /-- `FSE_SETCOUNT` (R245): A0 sym, A1 count. -/
  | fseSetcount
  /-- `FSE_SETNORM` (R246): A0 sym, A1 value, A2 maxSym, A3 log. -/
  | fseSetnorm
  /-- `FSE_GETNORM` (R247): A0 sym; results RES0 value, RES1 NMAX, RES2 NLOG, RES3 NVALID. -/
  | fseGetnorm
  /-- `FSE_GETCOUNT` (R248): A0 sym; results RES0 count, RES1 HMAX, RES2 HLARGEST. -/
  | fseGetcount
  /-- `FSE_GETDT` (R249): A0 state; results RES0 sym, RES1 nb, RES2 ns, RES3 log. -/
  | fseGetdt (slot : BitVec 4)
  /-- `FSE_GETCT` (R250): A0 sym, A1 index; results RES0 dNB, RES1 dFS, RES2 nextState, RES3 info. -/
  | fseGetct (slot : BitVec 4)
  /-- `FSE_ENC_BEGIN` (R261): A0 sym. -/
  | fseEncBegin (slot sel : BitVec 4)
  /-- `FSE_ENC` (R263): A0 sym. -/
  | fseEnc (slot sel : BitVec 4)
  /-- `FSE_ENC_FINISH` (R265). -/
  | fseEncFinish (slot sel : BitVec 4)
  /-- `FSE_DEC_INIT` (R266). -/
  | fseDecInit (slot sel : BitVec 4)
  /-- `FSE_DEC` (R267): results RES0 sym. -/
  | fseDec (slot sel : BitVec 4) (u : Bool)
  /-- `FSE_COMPRESS2` (R270): A0 src, A1 n, A2 dst, A3 cap; results RES0 size. -/
  | fseCompress2 (slot : BitVec 4)
  /-- `FSE_DECOMPRESS2` (R275): A0 src, A1 len, A2 dst, A3 cap; results RES0 count. -/
  | fseDecompress2 (slot : BitVec 4)
  /-- `FSE_GETSTATE` (R280): results RES0 ES[E], RES1 DS[E]. -/
  | fseGetstate (sel : BitVec 4)
  /-- `HUF_OPTLOG` (R300): A0 maxBits, A1 n, A2 maxSym; results RES0 log. -/
  | hufOptlog
  /-- `HUF_BUILD` (R305): A0 maxBits, A1 maxSym; results RES0 maxBits used. -/
  | hufBuild
  /-- `HUF_WRITE` (R322): A0 dst, A1 cap; results RES0 size. -/
  | hufWrite (sel : BitVec 4)
  /-- `HUF_READ` (R330): A0 src, A1 len; results RES0 used, RES1 log, RES2 nsym. -/
  | hufRead
  /-- `HUF_ENC1` (R350): A0 src, A1 n, A2 dst, A3 cap; results RES0 size. -/
  | hufEnc1 (sel : BitVec 4)
  /-- `HUF_ENC4` (R352): A0 src, A1 n, A2 dst, A3 cap; results RES0 size. -/
  | hufEnc4 (sel : BitVec 4)
  /-- `HUF_DEC1` (R355): A0 src, A1 len, A2 dst, A3 n. -/
  | hufDec1
  /-- `HUF_DEC4` (R357): A0 src, A1 len, A2 dst, A3 n. -/
  | hufDec4
  /-- `HUF_EST` (R360): A0 maxSym; results RES0 estimate, RES1 canEncode. -/
  | hufEst (sel : BitVec 4)
  /-- `HUF_COMMIT` (R362). -/
  | hufCommit
  /-- `HUF_DISCARD` (R363). -/
  | hufDiscard
  /-- `HUF_GETCODE` (R340): A0 sym; results RES0 len, RES1 val, RES2 maxSym, RES3 maxBits. -/
  | hufGetcode (sel : BitVec 4)
  /-- `HUF_GETDT` (R341): A0 index; results RES0 sym, RES1 nb, RES2 log. -/
  | hufGetdt
  /-- `LIT_ENCODE` (R375): A0 dst, A1 cap; results RES0 size, RES1 type. -/
  | litEncode
  /-- `LIT_DECODE` (R380): A0 src, A1 len; results RES0 used, RES1 size, RES2 type. -/
  | litDecode
  /-- `LIT_GET` (R385): A0 index; results RES0 byte, RES1 DLITN. -/
  | litGet
  /-- `MF_RESET` (R400): A0 ctxBase, A1 cfg. -/
  | mfReset
  /-- `MF_WINDOW` (R401): A0 blockEnd. -/
  | mfWindow
  /-- `MF_BLOCK` (R410): A0 start, A1 size; results RES0 last literals. -/
  | mfBlock
  /-- `SS_RESET` (R420). -/
  | ssReset
  /-- `SS_STORE` (R421): A0 litAddr, A1 LL, A2 offsetCode, A3 mlBase. -/
  | ssStore
  /-- `SS_APPEND` (R425): A0 addr, A1 n. -/
  | ssAppend
  /-- `SS_CODES` (R430). -/
  | ssCodes
  /-- `REP_INIT` (R435). -/
  | repInit
  /-- `REP_COMMIT` (R436). -/
  | repCommit
  /-- `SS_GET` (R440): A0 index; results RES0 LL, RES1 mlBase, RES2 OFV, RES3 codes. -/
  | ssGet
  /-- `REP_GET` (R441): results RES0 r0, RES1 r1, RES2 t0, RES3 t1. -/
  | repGet
  /-- `SS_INFO` (R442): results RES0 LITN, RES1 SEQN, RES2 LONGF, RES3 LONGP. -/
  | ssInfo
  /-- `MF_GET` (R443): A0 index; results RES0 entry, RES1 WBO, RES2 CTXBASE. -/
  | mfGet (sel : BitVec 4)
  /-- `SS_GETLIT` (R444): A0 index; results RES0 byte. -/
  | ssGetlit
  /-- `SEQ_ENCODE` (R465): A0 dst, A1 cap; results RES0 size. -/
  | seqEncode
  /-- `SEQ_DECODE` (R475): A0 src, A1 len; results RES0 used, RES1 nbSeq. -/
  | seqDecode
  /-- `DREP_INIT` (R490). -/
  | drepInit
  /-- `SQ_GET` (R491): A0 index; results RES0 LL, RES1 ML, RES2 offset. -/
  | sqGet
  /-- `DREP_GET` (R492): results RES0 rep0, RES1 rep1, RES2 rep2. -/
  | drepGet
  /-- `REPLAY` (R521): A0 base, A1 produced, A2 cap, A3 window; results RES0 size. -/
  | replay
deriving DecidableEq, Repr

end Sys2Proof
end

