-- ==== Sys2Proof/WellFormed.lean ====
section
/-! DEFINITION. The field ranges of `30_encoding.md` R115: what decode step (6) of R110 accepts. -/

namespace Sys2Proof

/-- `SLOT` is 0..3 for every command that uses it (R115). -/
abbrev slotOk (slot : BitVec 4) : Bool := slot.toNat ≤ 3

/-- `SEL` of an FSE state select is 0..3 (R115). -/
abbrev stateSelOk (sel : BitVec 4) : Bool := sel.toNat ≤ 3

/-- `SEL` of `FSE_LDDEF`'s field select is 0..2 (R115). -/
abbrev fieldSelOk (sel : BitVec 4) : Bool := sel.toNat ≤ 2

/-- `SEL` of a Huffman table select, and of `MF_GET`, is 0..1 (R115). -/
abbrev tableSelOk (sel : BitVec 4) : Bool := sel.toNat ≤ 1

/-- Every field the instruction carries is inside its range (R115). -/
def Instr.wf (i : Instr) : Bool :=
  match i with
  | .nop => true
  | .reset => true
  | .clrerr => true
  | .bwInit => true
  | .bwAdd => true
  | .bwFlush => true
  | .bwClose => true
  | .brInit => true
  | .brPeek => true
  | .brRead => true
  | .brLoad => true
  | .hist => true
  | .fseOptlog => true
  | .fseNorm => true
  | .fseWrnc => true
  | .fseRdnc => true
  | .fseLddef sel => fieldSelOk sel
  | .fseBuildCt slot => slotOk slot
  | .fseRleCt slot => slotOk slot
  | .fseBuildDt slot => slotOk slot
  | .fseRleDt slot => slotOk slot
  | .fseSetcount => true
  | .fseSetnorm => true
  | .fseGetnorm => true
  | .fseGetcount => true
  | .fseGetdt slot => slotOk slot
  | .fseGetct slot => slotOk slot
  | .fseEncBegin slot sel => slotOk slot && stateSelOk sel
  | .fseEnc slot sel => slotOk slot && stateSelOk sel
  | .fseEncFinish slot sel => slotOk slot && stateSelOk sel
  | .fseDecInit slot sel => slotOk slot && stateSelOk sel
  | .fseDec slot sel _ => slotOk slot && stateSelOk sel
  | .fseCompress2 slot => slotOk slot
  | .fseDecompress2 slot => slotOk slot
  | .fseGetstate sel => stateSelOk sel
  | .hufOptlog => true
  | .hufBuild => true
  | .hufWrite sel => tableSelOk sel
  | .hufRead => true
  | .hufEnc1 sel => tableSelOk sel
  | .hufEnc4 sel => tableSelOk sel
  | .hufDec1 => true
  | .hufDec4 => true
  | .hufEst sel => tableSelOk sel
  | .hufCommit => true
  | .hufDiscard => true
  | .hufGetcode sel => tableSelOk sel
  | .hufGetdt => true
  | .litEncode => true
  | .litDecode => true
  | .litGet => true
  | .mfReset => true
  | .mfWindow => true
  | .mfBlock => true
  | .ssReset => true
  | .ssStore => true
  | .ssAppend => true
  | .ssCodes => true
  | .repInit => true
  | .repCommit => true
  | .ssGet => true
  | .repGet => true
  | .ssInfo => true
  | .mfGet sel => tableSelOk sel
  | .ssGetlit => true
  | .seqEncode => true
  | .seqDecode => true
  | .drepInit => true
  | .sqGet => true
  | .drepGet => true
  | .replay => true

end Sys2Proof
end

