-- ==== Sys2Proof/Decode.lean ====
section
/-! DEFINITION. Command decode: steps (3) to (6) of `30_encoding.md` R110 over the opcode map R116, total on every
32-bit word and rejecting by name; and the encoder of the same map. Steps (1) and (2), which look at `STATUS`, are
in Machine/Issue.lean. -/

namespace Sys2Proof

/-- Why a command word is rejected: steps (3), (4), (5) and (6) of R110. -/
inductive DecodeError where
  /-- Steps (3) and (5): a reserved bit, or a field the command does not use, is nonzero. -/
  | reservedBits
  /-- Step (4): `OPC` is not in the opcode map. -/
  | illegalOpcode
  /-- Step (6): a used field is outside its range (R115). -/
  | argRange
deriving DecidableEq, Repr

/-- `CMD[7:0]` (R110). -/
def fieldOpc (w : BitVec 32) : BitVec 8 := w.extractLsb' 0 8

/-- `CMD[11:8]` (R110). -/
def fieldSlot (w : BitVec 32) : BitVec 4 := w.extractLsb' 8 4

/-- `CMD[15:12]` (R110). -/
def fieldSel (w : BitVec 32) : BitVec 4 := w.extractLsb' 12 4

/-- `CMD[23:16]` (R110). -/
def fieldFlags (w : BitVec 32) : BitVec 8 := w.extractLsb' 16 8

/-- `CMD[31:24]` (R110). -/
def fieldReserved (w : BitVec 32) : BitVec 8 := w.extractLsb' 24 8

/-- One row of the opcode map R116: which fields the command uses, the largest legal `SEL` (R115), and the
instruction its fields make. -/
structure CommandRow where
  usesSlot : Bool
  /-- `none`: `SEL` unused. -/
  selMax : Option Nat
  /-- Only `FSE_DEC` defines a flag, bit 0 (R111). -/
  usesFlag : Bool
  make : BitVec 4 → BitVec 4 → Bool → Instr

/-- A command that uses no field. -/
def CommandRow.plain (i : Instr) : CommandRow :=
  { usesSlot := false, selMax := none, usesFlag := false, make := fun _ _ _ => i }

/-- A command that uses `SLOT` only. -/
def CommandRow.slotted (f : BitVec 4 → Instr) : CommandRow :=
  { usesSlot := true, selMax := none, usesFlag := false, make := fun slot _ _ => f slot }

/-- A command that uses `SEL` only, `0..m`. -/
def CommandRow.selected (m : Nat) (f : BitVec 4 → Instr) : CommandRow :=
  { usesSlot := false, selMax := some m, usesFlag := false, make := fun _ sel _ => f sel }

/-- A command that uses `SLOT` and an FSE state select. -/
def CommandRow.slotSel (f : BitVec 4 → BitVec 4 → Instr) : CommandRow :=
  { usesSlot := true, selMax := some 3, usesFlag := false, make := fun slot sel _ => f slot sel }

/-- The opcode map of R116; every opcode not listed is illegal. -/
def commandRow (opc : Nat) : Option CommandRow :=
  match opc with
  | 0x00 => some (.plain .nop)
  | 0x01 => some (.plain .reset)
  | 0x02 => some (.plain .clrerr)
  | 0x10 => some (.plain .bwInit)
  | 0x11 => some (.plain .bwAdd)
  | 0x12 => some (.plain .bwFlush)
  | 0x13 => some (.plain .bwClose)
  | 0x18 => some (.plain .brInit)
  | 0x19 => some (.plain .brPeek)
  | 0x1A => some (.plain .brRead)
  | 0x1B => some (.plain .brLoad)
  | 0x20 => some (.plain .hist)
  | 0x21 => some (.plain .fseOptlog)
  | 0x22 => some (.plain .fseNorm)
  | 0x23 => some (.plain .fseWrnc)
  | 0x24 => some (.plain .fseRdnc)
  | 0x25 => some (.selected 2 .fseLddef)
  | 0x26 => some (.slotted .fseBuildCt)
  | 0x27 => some (.slotted .fseRleCt)
  | 0x28 => some (.slotted .fseBuildDt)
  | 0x29 => some (.slotted .fseRleDt)
  | 0x2A => some (.plain .fseSetcount)
  | 0x2B => some (.plain .fseSetnorm)
  | 0x2C => some (.plain .fseGetnorm)
  | 0x2D => some (.plain .fseGetcount)
  | 0x2E => some (.slotted .fseGetdt)
  | 0x2F => some (.slotted .fseGetct)
  | 0x30 => some (.slotSel .fseEncBegin)
  | 0x31 => some (.slotSel .fseEnc)
  | 0x32 => some (.slotSel .fseEncFinish)
  | 0x33 => some (.slotSel .fseDecInit)
  | 0x34 => some { usesSlot := true, selMax := some 3, usesFlag := true, make := fun slot sel u => .fseDec slot sel u }
  | 0x35 => some (.slotted .fseCompress2)
  | 0x36 => some (.slotted .fseDecompress2)
  | 0x37 => some (.selected 3 .fseGetstate)
  | 0x40 => some (.plain .hufOptlog)
  | 0x41 => some (.plain .hufBuild)
  | 0x42 => some (.selected 1 .hufWrite)
  | 0x43 => some (.plain .hufRead)
  | 0x44 => some (.selected 1 .hufEnc1)
  | 0x45 => some (.selected 1 .hufEnc4)
  | 0x46 => some (.plain .hufDec1)
  | 0x47 => some (.plain .hufDec4)
  | 0x48 => some (.selected 1 .hufEst)
  | 0x49 => some (.plain .hufCommit)
  | 0x4A => some (.plain .hufDiscard)
  | 0x4B => some (.selected 1 .hufGetcode)
  | 0x4C => some (.plain .hufGetdt)
  | 0x50 => some (.plain .litEncode)
  | 0x51 => some (.plain .litDecode)
  | 0x52 => some (.plain .litGet)
  | 0x60 => some (.plain .mfReset)
  | 0x61 => some (.plain .mfWindow)
  | 0x62 => some (.plain .mfBlock)
  | 0x63 => some (.plain .ssReset)
  | 0x64 => some (.plain .ssStore)
  | 0x65 => some (.plain .ssAppend)
  | 0x66 => some (.plain .ssCodes)
  | 0x67 => some (.plain .repInit)
  | 0x68 => some (.plain .repCommit)
  | 0x69 => some (.plain .ssGet)
  | 0x6A => some (.plain .repGet)
  | 0x6B => some (.plain .ssInfo)
  | 0x6C => some (.selected 1 .mfGet)
  | 0x6D => some (.plain .ssGetlit)
  | 0x70 => some (.plain .seqEncode)
  | 0x71 => some (.plain .seqDecode)
  | 0x72 => some (.plain .drepInit)
  | 0x73 => some (.plain .sqGet)
  | 0x74 => some (.plain .drepGet)
  | 0x78 => some (.plain .replay)
  | _ => none

/-- The bits of `FLAGS` a row defines (R111). -/
def CommandRow.flagMask (r : CommandRow) : BitVec 8 := if r.usesFlag then 1 else 0

/-- Step (5) of R110: a field the command does not use is nonzero. -/
def CommandRow.unusedNonzero (r : CommandRow) (w : BitVec 32) : Bool :=
  (!r.usesSlot && fieldSlot w != 0) || (r.selMax.isNone && fieldSel w != 0)
    || (fieldFlags w &&& ~~~ r.flagMask) != 0

/-- Step (6) of R110: a used field is outside its range (R115). -/
def CommandRow.outOfRange (r : CommandRow) (w : BitVec 32) : Bool :=
  (r.usesSlot && 3 < (fieldSlot w).toNat)
    || (match r.selMax with
        | some m => decide (m < (fieldSel w).toNat)
        | none => false)

/-- Steps (3) to (6) of R110. -/
def decode (w : BitVec 32) : Except DecodeError Instr :=
  if fieldReserved w != 0 then .error .reservedBits
  else
    match commandRow (fieldOpc w).toNat with
    | none => .error .illegalOpcode
    | some r =>
      if r.unusedNonzero w then .error .reservedBits
      else if r.outOfRange w then .error .argRange
      else .ok (r.make (fieldSlot w) (fieldSel w) (fieldFlags w != 0))

/-- The command word with the given fields and a zero reserved field (R110, R117). -/
def commandWord (opc : BitVec 8) (slot sel : BitVec 4) (flags : BitVec 8) : BitVec 32 :=
  (0 : BitVec 8) ++ flags ++ sel ++ slot ++ opc

/-- The command word of an instruction (R116, R117). -/
def encode (i : Instr) : BitVec 32 :=
  match i with
  | .nop => commandWord 0x00 0 0 0
  | .reset => commandWord 0x01 0 0 0
  | .clrerr => commandWord 0x02 0 0 0
  | .bwInit => commandWord 0x10 0 0 0
  | .bwAdd => commandWord 0x11 0 0 0
  | .bwFlush => commandWord 0x12 0 0 0
  | .bwClose => commandWord 0x13 0 0 0
  | .brInit => commandWord 0x18 0 0 0
  | .brPeek => commandWord 0x19 0 0 0
  | .brRead => commandWord 0x1A 0 0 0
  | .brLoad => commandWord 0x1B 0 0 0
  | .hist => commandWord 0x20 0 0 0
  | .fseOptlog => commandWord 0x21 0 0 0
  | .fseNorm => commandWord 0x22 0 0 0
  | .fseWrnc => commandWord 0x23 0 0 0
  | .fseRdnc => commandWord 0x24 0 0 0
  | .fseLddef sel => commandWord 0x25 0 sel 0
  | .fseBuildCt slot => commandWord 0x26 slot 0 0
  | .fseRleCt slot => commandWord 0x27 slot 0 0
  | .fseBuildDt slot => commandWord 0x28 slot 0 0
  | .fseRleDt slot => commandWord 0x29 slot 0 0
  | .fseSetcount => commandWord 0x2A 0 0 0
  | .fseSetnorm => commandWord 0x2B 0 0 0
  | .fseGetnorm => commandWord 0x2C 0 0 0
  | .fseGetcount => commandWord 0x2D 0 0 0
  | .fseGetdt slot => commandWord 0x2E slot 0 0
  | .fseGetct slot => commandWord 0x2F slot 0 0
  | .fseEncBegin slot sel => commandWord 0x30 slot sel 0
  | .fseEnc slot sel => commandWord 0x31 slot sel 0
  | .fseEncFinish slot sel => commandWord 0x32 slot sel 0
  | .fseDecInit slot sel => commandWord 0x33 slot sel 0
  | .fseDec slot sel u => commandWord 0x34 slot sel (if u then 1 else 0)
  | .fseCompress2 slot => commandWord 0x35 slot 0 0
  | .fseDecompress2 slot => commandWord 0x36 slot 0 0
  | .fseGetstate sel => commandWord 0x37 0 sel 0
  | .hufOptlog => commandWord 0x40 0 0 0
  | .hufBuild => commandWord 0x41 0 0 0
  | .hufWrite sel => commandWord 0x42 0 sel 0
  | .hufRead => commandWord 0x43 0 0 0
  | .hufEnc1 sel => commandWord 0x44 0 sel 0
  | .hufEnc4 sel => commandWord 0x45 0 sel 0
  | .hufDec1 => commandWord 0x46 0 0 0
  | .hufDec4 => commandWord 0x47 0 0 0
  | .hufEst sel => commandWord 0x48 0 sel 0
  | .hufCommit => commandWord 0x49 0 0 0
  | .hufDiscard => commandWord 0x4A 0 0 0
  | .hufGetcode sel => commandWord 0x4B 0 sel 0
  | .hufGetdt => commandWord 0x4C 0 0 0
  | .litEncode => commandWord 0x50 0 0 0
  | .litDecode => commandWord 0x51 0 0 0
  | .litGet => commandWord 0x52 0 0 0
  | .mfReset => commandWord 0x60 0 0 0
  | .mfWindow => commandWord 0x61 0 0 0
  | .mfBlock => commandWord 0x62 0 0 0
  | .ssReset => commandWord 0x63 0 0 0
  | .ssStore => commandWord 0x64 0 0 0
  | .ssAppend => commandWord 0x65 0 0 0
  | .ssCodes => commandWord 0x66 0 0 0
  | .repInit => commandWord 0x67 0 0 0
  | .repCommit => commandWord 0x68 0 0 0
  | .ssGet => commandWord 0x69 0 0 0
  | .repGet => commandWord 0x6A 0 0 0
  | .ssInfo => commandWord 0x6B 0 0 0
  | .mfGet sel => commandWord 0x6C 0 sel 0
  | .ssGetlit => commandWord 0x6D 0 0 0
  | .seqEncode => commandWord 0x70 0 0 0
  | .seqDecode => commandWord 0x71 0 0 0
  | .drepInit => commandWord 0x72 0 0 0
  | .sqGet => commandWord 0x73 0 0 0
  | .drepGet => commandWord 0x74 0 0 0
  | .replay => commandWord 0x78 0 0 0

/-- The instruction the decoder reads from a row of the opcode table, its word given as a number (R117, R119: every
command is one 32-bit word). -/
def decodeTableWord (nbits w : Nat) : Option Instr :=
  if nbits ≤ 32 ∧ w < 2 ^ 32 then (decode (BitVec.ofNat 32 w)).toOption else none

end Sys2Proof
end

