-- ==== Sys2Proof/Config.lean ====
section
/-! DEFINITION. What the implementation fixes (`00_scope.md` R6) and the free values: constants without a body for
every value the spec leaves open. A statement proved about this model holds whatever the free values are. -/

namespace Sys2Proof.Config

/-! ### Fixed parameters (R6) -/

/-- `LEN_MAX + 1`: a window or count operand is below it (R82, R114). -/
abbrev lenLimit : Nat := 2 ^ 31

/-- Host addresses are below it (R6 `HOST_ADDR_W`, R80). -/
abbrev addrLimit : Nat := 2 ^ 64

/-- `BLOCK_MAX` (R6). -/
abbrev blockMax : Nat := 131072

/-- `SEQ_MAX` (R6). -/
abbrev seqMax : Nat := 43690

/-- `FSE_MIN_LOG` (R6). -/
abbrev fseMinLog : Nat := 5

/-- `FSE_MAX_LOG` (R6). -/
abbrev fseMaxLog : Nat := 12

/-- `W_MAX_LOG` (R6): the largest table log of a Huffman-weight FSE table. -/
abbrev weightMaxLog : Nat := 6

/-- `HUF_MAX_BITS` (R6). -/
abbrev hufMaxBits : Nat := 11

/-- `HUF_DEC_MAX_LOG` (R6). -/
abbrev hufDecMaxLog : Nat := 11

/-- `BW_SLACK` (R6). -/
abbrev bwSlack : Nat := 8

/-- `BW_ACC` (R6). -/
abbrev bwAcc : Nat := 64

/-- `BR_WINDOW` (R6). -/
abbrev brWindow : Nat := 57

/-- `MIN_GAIN_LOG` (R6). -/
abbrev minGainLog : Nat := 6

/-- `LIT_RAW_MAX` (R6). -/
abbrev litRawMax : Nat := 63

/-! ### Open parameters (R6, `93_implementation_defined.md` section 1) -/

/-- `HUF_TIE`: which node the tree builder takes when a leaf and an internal node have equal count (R307). -/
inductive HufTie where
  | leaf
  | internal
deriving DecidableEq, Repr

/-- Which rule bounds the count of `FSE_SETCOUNT`, where the spec's own rules differ: R114, below 2^31 for every count
operand, or R245, below 2^32 (log entry 11). -/
inductive CountBound where
  | general
  | command
deriving DecidableEq, Repr

/-- The parameters the spec marks OPEN, and the one point where two of its rules differ without a ruling. State carries
one value of this type, which no command changes, so a statement about every state is a statement about every choice of
them (log entries 11 and 12). -/
structure Params where
  /-- `HUF_TIE`. -/
  hufTie : HufTie
  /-- `SEL_FACTOR`. -/
  selFactor : Nat
  /-- The bound on the count of `FSE_SETCOUNT` (the model's own, log entry 11). -/
  setcount : CountBound
deriving DecidableEq, Repr

/-- The spec's defaults: `HUF_TIE = LEAF`, `SEL_FACTOR = 9`; and R114's bound on counts, which R114 lets a rule only
tighten (log entry 11). -/
def Params.spec : Params := { hufTie := .leaf, selFactor := 9, setcount := .general }

/-! ### Free values

The first argument of each is the counter `State.free` (or the tag a span of memory carries), so that two draws are
unrelated. None has a body: nothing can be proved about which value it is. -/

/-- `RES<i>` after a failing command (R34, R551, I1). -/
opaque freeRes : Nat → Nat → DWord

/-- The byte at an address of a span that holds any value (R84, R96, I2, I3). -/
opaque freeByte : Nat → Nat → Byte

/-- The three code bytes of SS_GET while `CODESV = 0` (R440, I6). -/
opaque freeCodes : Nat → BitVec 24

/-- The code value HUF_GETCODE reads for a symbol that has no code (log entry 15). -/
opaque freeCodeValue : Nat → Half

/-- `dNB` (index 0) and `dFS` (index 1) that FSE_GETCT reads where FSE_RLE_CT wrote none (log entry 15). -/
opaque freeDelta : Nat → Nat → Word

/-- The byte MF_BLOCK's search sees at a position outside its window (log entry 13). -/
opaque freeSearchByte : Nat → Nat → Byte

/-- An Offset_Value or offset that does not fit its register, by the index of its sequence (log entries 13, 14). -/
opaque freeOffset : Nat → Nat → Nat

/-- The size of a table description that R220 does not give (log entry 21). -/
opaque freeHeaderSize : Nat → Nat

/-- A length SEQ_DECODE computes for a code that has no baseline (log entry 14). -/
opaque freeLength : Nat → Nat → Word

/-- The number of extra bits SEQ_DECODE reads for a code that has no baseline (log entry 14). -/
opaque freeExtraBits : Nat → Nat → Nat

end Sys2Proof.Config
end

