-- ==== Sys2Proof/Machine/State.lean ====
section
/-! DEFINITION. The architectural state of ZCORE (`10_state.md`), as plain data, and its value after power-on reset
(R52, R593). A table whose `valid` bit is 0 has contents that are any value and are never read (R42, R53): it is
`none`. A buffer's entries at or beyond its count are never read (R49, R50): the buffer is the list of its entries and
its count is the list's length (log entry 16). -/

namespace Sys2Proof.Machine

/-! ### Host memory (`20_memory.md` R80) -/

/-- A span `[lo, hi)` of addresses whose bytes hold any value (R84, R96): `tag` says which draw made it. -/
structure FreeSpan where
  lo : Nat
  hi : Nat
  tag : Nat
deriving DecidableEq, Repr

/-- Host memory: the listed bytes, strictly rising and never 0 (an address in neither list reads 0, log entry 4),
and the spans whose bytes hold any value (log entry 5). -/
structure Memory where
  cells : List Host.Cell
  free : List FreeSpan
deriving DecidableEq, Repr

/-! ### Bit cursors (R38, R39) -/

/-- The bit writer `BW` (R38). -/
structure BitWriter where
  acc : DWord
  cnt : Nat
  base : DWord
  cap : Word
  cur : Word
  ovf : Bool
  valid : Bool
deriving DecidableEq, Repr

/-- The bit reader `BR` (R39). -/
structure BitReader where
  base : DWord
  len : Word
  pos : Int
  unl : Nat
  valid : Bool
deriving DecidableEq, Repr

/-! ### FSE tables (R42, R43) -/

/-- A valid FSE compression table (R42); `nextState` holds the `2 ^ max log 1` entries that can be read. -/
structure FseCT where
  log : Nat
  maxSym : Byte
  present : Vector Bool 256
  nextState : List Half
  dNB : Vector Word 256
  dFS : Vector Word 256
deriving DecidableEq, Repr

/-- One state of an FSE decoding table (R43). -/
structure FseEntry where
  sym : Byte
  nb : BitVec 4
  ns : Half
deriving DecidableEq, Repr

/-- A valid FSE decoding table (R43), with its `2 ^ log` states. -/
structure FseDT where
  log : Nat
  entries : List FseEntry
deriving DecidableEq, Repr

/-! ### Huffman tables (R45, R46) -/

/-- A valid Huffman compression table (R45). -/
structure HufTable where
  maxSym : Byte
  maxBits : BitVec 4
  len : Vector (BitVec 4) 256
  val : Vector Half 256
deriving DecidableEq, Repr

/-- One index of the Huffman decoding table (R46). -/
structure HufEntry where
  sym : Byte
  nb : BitVec 4
deriving DecidableEq, Repr

/-- The valid Huffman decoding table `HD` (R46), with its `2 ^ log` entries. -/
structure HufDec where
  log : Nat
  entries : List HufEntry
deriving DecidableEq, Repr

/-! ### Repeated offsets, sequence store and decoder buffers (R48 to R50) -/

/-- A pair of encoder repeated offsets (R48). -/
structure RepPair where
  r0 : Word
  r1 : Word
deriving DecidableEq, Repr

/-- The decoder's repeated-offset history `DREP[0..2]` (R50). -/
structure DecRep where
  r0 : Word
  r1 : Word
  r2 : Word
deriving DecidableEq, Repr

/-- One stored sequence: `SS.LLA[i]`, `SS.MLA[i]`, `SS.OFA[i]` (R49). -/
structure StoredSeq where
  lla : Half
  mla : Half
  ofa : Word
deriving DecidableEq, Repr

/-- `SS.LONGF` (R49). -/
inductive LongField where
  | none
  | literalLength
  | matchLength
deriving DecidableEq, Repr

/-- One entry of the code arrays: `SS.LLC[i]`, `SS.MLC[i]`, `SS.OFC[i]` (R49). -/
structure SeqCodes where
  llc : Byte
  mlc : Byte
  ofc : Byte
deriving DecidableEq, Repr

/-- The sequence store `SS` (R49): `LITN` and `SEQN` are the lists' lengths, and `codes` is `none` while
`CODESV = 0`. -/
structure SeqStore where
  lit : List Byte
  seqs : List StoredSeq
  longF : LongField
  longP : Word
  codes : Option (List SeqCodes)
deriving DecidableEq, Repr

/-- One decoded sequence: `SQLL[i]`, `SQML[i]`, `SQOF[i]` (R50). -/
structure DecodedSeq where
  ll : Word
  ml : Word
  off : Word
deriving DecidableEq, Repr

/-! ### The host (R30, R31) -/

/-- What the host does between two commands: the writes R32, R33 and R80 give it. -/
inductive HostAction where
  /-- A write of argument register `Ai` (R33). -/
  | setArg (i : Fin 8) (v : DWord)
  /-- A write of a byte of host memory (R80, R617). -/
  | setByte (addr : DWord) (b : Byte)
  /-- A write of `CMD`, which starts the command it encodes (R32). -/
  | command (w : BitVec 32)
deriving DecidableEq, Repr

/-! ### The state -/

/-- Everything the spec gives the machine, and the model's own `host`, `free` and `params`. -/
structure State where
  /-- The host's coming actions, the next one first (model's own, log entry 1). -/
  host : List HostAction
  /-- `CMD`: the word last written (R32, log entry 17). -/
  cmd : BitVec 32
  /-- `A0`..`A7` (R33). -/
  args : Vector DWord 8
  /-- `RES0`..`RES3` (R34). -/
  res : Vector DWord 4
  /-- `STATUS.ERRKIND` (R35). -/
  errKind : BitVec 2
  /-- `STATUS.ERRCODE` (R35). -/
  errCode : Byte
  /-- `ERROFF` (R36). -/
  errOff : DWord
  /-- `MFCFG` (R37). -/
  mfcfg : Word
  /-- `BW` (R38). -/
  bw : BitWriter
  /-- `BR` (R39). -/
  br : BitReader
  /-- `COUNTS` (R40). -/
  counts : Vector Word 256
  /-- `HMAX` (R40). -/
  hmax : Byte
  /-- `HLARGEST` (R40). -/
  hlargest : Word
  /-- `NORM`, two's complement (R41). -/
  norm : Vector Half 256
  /-- `NMAX` (R41). -/
  nmax : Byte
  /-- `NLOG` (R41). -/
  nlog : BitVec 4
  /-- `NVALID` (R41). -/
  nvalid : Bool
  /-- `CT[0..3]`, `none` where `valid = 0` (R42). -/
  ct : Vector (Option FseCT) 4
  /-- `DT[0..3]`, `none` where `valid = 0` (R43). -/
  dt : Vector (Option FseDT) 4
  /-- `ES[0..3]` (R44). -/
  es : Vector Half 4
  /-- `DS[0..3]` (R44). -/
  ds : Vector Half 4
  /-- `HT[0..1]`, `none` where `valid = 0` (R45). -/
  ht : Vector (Option HufTable) 2
  /-- `HPEND` (R45). -/
  hpend : Bool
  /-- `HD`, `none` where `valid = 0` (R46). -/
  hd : Option HufDec
  /-- The nonzero entries of `LH`, by rising index (R47). -/
  lh : List (Nat × Word)
  /-- The nonzero entries of `SH`, by rising index (R47). -/
  sh : List (Nat × Word)
  /-- `CTXBASE` (R47). -/
  ctxBase : DWord
  /-- `WBO` (R47). -/
  wbo : Word
  /-- `MF_VALID` (R47). -/
  mfValid : Bool
  /-- `REP.live` (R48). -/
  repLive : RepPair
  /-- `REP.stage` (R48). -/
  repStage : RepPair
  /-- `SS` (R49). -/
  ss : SeqStore
  /-- `DREP[0..2]` (R50). -/
  drep : DecRep
  /-- `DLIT[0..DLITN-1]` (R50). -/
  dlit : List Byte
  /-- `SQLL`, `SQML`, `SQOF` for `i < SQN` (R50). -/
  sq : List DecodedSeq
  /-- Host memory (R80). -/
  mem : Memory
  /-- The counter free values are drawn with (model's own, log entry 3). -/
  free : Nat
  /-- `HUF_TIE` and `SEL_FACTOR` (R6, log entry 12), and the bound on `FSE_SETCOUNT`'s count (log entry 11). -/
  params : Config.Params
deriving DecidableEq, Repr

/-- Why the machine could stop. ZCORE never does: "Every command completes" (`93_implementation_defined.md`, R559),
an error is a next state (R551). So no reason exists, and no definition can raise one. -/
inductive Fault where
deriving DecidableEq, Repr

/-- Why the model could have no meaning for an instruction. -/
inductive Refusal where
  /-- Raised by `exec` alone, for an instruction without a meaning; safe, since nothing is claimed. No arm raises it. -/
  | notModelled (mnemonic : String)
deriving DecidableEq, Repr

/-- A writer as R52 resets it. -/
def BitWriter.reset : BitWriter :=
  { acc := 0, cnt := 0, base := 0, cap := 0, cur := 0, ovf := false, valid := false }

/-- A reader as R52 resets it. -/
def BitReader.reset : BitReader := { base := 0, len := 0, pos := 0, unl := 0, valid := false }

/-- The empty store (R52, R420). -/
def SeqStore.reset : SeqStore := { lit := [], seqs := [], longF := .none, longP := 0, codes := none }

/-- Encoder repeated offsets at reset and frame start (R48). -/
def RepPair.initial : RepPair := { r0 := 1, r1 := 4 }

/-- Decoder repeated offsets at reset and frame start (R50). -/
def DecRep.initial : DecRep := { r0 := 1, r1 := 4, r2 := 8 }

/-- Memory in which no address has been written. -/
def Memory.blank : Memory := { cells := [], free := [] }

/-- Power-on reset (R52, R593), with the spec's default parameters and a host that has nothing to do. -/
def State.reset : State where
  host := []
  cmd := 0
  args := Vector.replicate 8 0
  res := Vector.replicate 4 0
  errKind := 0
  errCode := 0
  errOff := 0
  mfcfg := 0
  bw := .reset
  br := .reset
  counts := Vector.replicate 256 0
  hmax := 0
  hlargest := 0
  norm := Vector.replicate 256 0
  nmax := 0
  nlog := 0
  nvalid := false
  ct := Vector.replicate 4 none
  dt := Vector.replicate 4 none
  es := Vector.replicate 4 0
  ds := Vector.replicate 4 0
  ht := Vector.replicate 2 none
  hpend := false
  hd := none
  lh := []
  sh := []
  ctxBase := 0
  wbo := 0
  mfValid := false
  repLive := .initial
  repStage := .initial
  ss := .reset
  drep := .initial
  dlit := []
  sq := []
  mem := .blank
  free := 0
  params := .spec

end Sys2Proof.Machine
end

