-- ==== Sys2Proof/Machine/Flags.lean ====
section
/-! DEFINITION. `STATUS` and the error codes: the numbering of `60_exceptions.md` R553, the mirror bits of R552, the
layout of `10_state.md` R35, and the status `BR_LOAD` reports (`40_bitstream.md` R168). -/

namespace Sys2Proof.Machine

/-- The error codes of R553. The six marked never raised are held for the host's frame codec (I10). -/
inductive ErrCode where
  | inputTooShort
  /-- Never raised. -/
  | badMagic
  /-- Never raised. -/
  | dictUnsupported
  /-- Never raised. -/
  | badBlockType
  /-- Never raised. -/
  | badLiteralsType
  | badSeqType
  | tableLogTooLarge
  | fseCorrupt
  | outputTooSmall
  /-- Never raised. -/
  | checksum
  | bitstreamNoEndMark
  | bitstreamNotConsumed
  | hufCorrupt
  | offsetOutOfRange
  | literalsOverrun
  | repeatTableAbsent
  | symbolOutOfRange
  | seqCountTooLarge
  | literalsSize
  | dstTooSmall
  /-- Never raised. -/
  | badLevel
  | illegalOpcode
  | reservedBits
  | argRange
  | stateInvalid
  | needsRle
  | bwAccFull
  | longFieldTwice
  | hufNoTableForm
  | brNeedsLoad
  | strategyUnsupported
deriving DecidableEq, Repr

/-- The `ERRCODE` value of a code (R553). -/
def ErrCode.byte : ErrCode → Byte
  | .inputTooShort => 0x01
  | .badMagic => 0x02
  | .dictUnsupported => 0x03
  | .badBlockType => 0x04
  | .badLiteralsType => 0x05
  | .badSeqType => 0x06
  | .tableLogTooLarge => 0x07
  | .fseCorrupt => 0x08
  | .outputTooSmall => 0x09
  | .checksum => 0x0A
  | .bitstreamNoEndMark => 0x0B
  | .bitstreamNotConsumed => 0x0C
  | .hufCorrupt => 0x0D
  | .offsetOutOfRange => 0x0E
  | .literalsOverrun => 0x0F
  | .repeatTableAbsent => 0x10
  | .symbolOutOfRange => 0x11
  | .seqCountTooLarge => 0x12
  | .literalsSize => 0x13
  | .dstTooSmall => 0x40
  | .badLevel => 0x41
  | .illegalOpcode => 0x42
  | .reservedBits => 0x43
  | .argRange => 0x44
  | .stateInvalid => 0x45
  | .needsRle => 0x46
  | .bwAccFull => 0x47
  | .longFieldTwice => 0x48
  | .hufNoTableForm => 0x49
  | .brNeedsLoad => 0x4A
  | .strategyUnsupported => 0x80

/-- `ERRKIND` of the code with a given value: MalformedInput below 0x40, InvalidArgument below 0x80, Unsupported
from there (R550, R553). -/
def errKindOf (code : Byte) : BitVec 2 :=
  if code = 0 then 0 else if code.toNat < 0x40 then 1 else if code.toNat < 0x80 then 2 else 3

/-- The kind of a code (R550, R553). -/
def ErrCode.kind (c : ErrCode) : BitVec 2 := errKindOf c.byte

/-- `BR_OVF` (R552). -/
def State.brOvf (s : State) : Bool := s.br.valid && decide (s.br.pos < 0)

/-- `BR_EOS` (R552). -/
def State.brEos (s : State) : Bool := s.br.valid && decide (s.br.pos = 0)

/-- `STATUS` (R35): the stored error fields and the seven mirror bits of R552; reserved bits read 0. -/
def State.status (s : State) : BitVec 32 :=
  (0 : BitVec 9) ++ BitVec.ofBool s.mfValid ++ BitVec.ofBool s.hpend ++ BitVec.ofBool s.bw.valid
    ++ BitVec.ofBool s.br.valid ++ BitVec.ofBool s.bw.ovf ++ BitVec.ofBool s.brEos ++ BitVec.ofBool s.brOvf
    ++ s.errCode ++ (0 : BitVec 6) ++ s.errKind

/-- The reader status `BR_LOAD` returns for a position (R168). -/
def loadStatus (pos : Int) : DWord :=
  if pos < 0 then 3 else if pos = 0 then 2 else if pos < 57 then 1 else 0

end Sys2Proof.Machine
end

