-- ==== Sys2Proof/Machine/Ops.lean ====
section
/-! DEFINITION. The operations every command is made of: integers and byte order (`00_scope.md` R10, R12,
`20_memory.md` R87, R88), host memory (R80), result registers (R34), raising an error and clearing it
(`60_exceptions.md` R551, R555), the bit writer's steps (`40_bitstream.md` R152, R155) and the private cursors of
composite commands (R165, R173). -/

namespace Sys2Proof.Machine

/-! ### Integers, bytes and byte order -/

/-- `highestBit(v)` for `v ≥ 1` (R12). -/
def highestBit (v : Nat) : Nat := Nat.log2 v

/-- The little-endian value of a byte string (R10, R87). -/
def leValue : List Byte → Nat
  | [] => 0
  | b :: bs => b.toNat + 256 * leValue bs

/-- The `n` low bytes of a value, least significant first (R10). -/
def leBytes : Nat → Nat → List Byte
  | 0, _ => []
  | n + 1, v => BitVec.ofNat 8 v :: leBytes n (v / 256)

/-- A 256-entry register array given by its entries. -/
def tab256 {α : Type} (f : Nat → α) : Vector α 256 := ⟨⟨(List.range 256).map f⟩, by simp⟩

/-- Entry `i` of a 256-entry register array, for a checked index. -/
def at256 {α : Type} (t : Vector α 256) (i : Nat) (dflt : α) : α := if h : i < 256 then t[i] else dflt

/-- A 256-entry register array with entry `i` replaced, for a checked index. -/
def set256 {α : Type} (t : Vector α 256) (i : Nat) (v : α) : Vector α 256 :=
  if h : i < 256 then t.set i v h else t

/-! ### Sparse arrays

A list of (index, value) pairs, indexes strictly rising, no value 0; an index not listed holds 0. Host memory's bytes
and the two hash tables are held so. -/

/-- The canonical form. -/
abbrev sparseWf {w : Nat} (l : List (Nat × BitVec w)) : Prop :=
  l.Pairwise (fun x y => x.1 < y.1) ∧ ∀ c ∈ l, c.2 ≠ 0

/-- The value at an index. -/
def sparseRead {w : Nat} (i : Nat) : List (Nat × BitVec w) → BitVec w
  | [] => 0
  | (k, v) :: rest => if k = i then v else sparseRead i rest

/-- The entries of consecutive values from index `i`. -/
def sparseCells {w : Nat} (i : Nat) : List (BitVec w) → List (Nat × BitVec w)
  | [] => []
  | v :: vs => if v = 0 then sparseCells (i + 1) vs else (i, v) :: sparseCells (i + 1) vs

/-- The entries outside `[lo, hi)`, with others put between them. -/
def sparseSplice {w : Nat} (lo hi : Nat) (new l : List (Nat × BitVec w)) : List (Nat × BitVec w) :=
  l.filter (fun c => decide (c.1 < lo)) ++ new ++ l.filter (fun c => decide (hi ≤ c.1))

/-- Consecutive values written from index `i`. -/
def sparseWrite {w : Nat} (i : Nat) (vs : List (BitVec w)) (l : List (Nat × BitVec w)) : List (Nat × BitVec w) :=
  sparseSplice i (i + vs.length) (sparseCells i vs) l

/-! ### Host memory (R80) -/

/-- A span's part outside `[lo, hi)`. -/
def spanCut (lo hi : Nat) (r : FreeSpan) : List FreeSpan :=
  (if r.lo < min r.hi lo then [{ lo := r.lo, hi := min r.hi lo, tag := r.tag }] else [])
    ++ (if max r.lo hi < r.hi then [{ lo := max r.lo hi, hi := r.hi, tag := r.tag }] else [])

/-- The spans' parts outside `[lo, hi)`. -/
def spansCut (lo hi : Nat) (l : List FreeSpan) : List FreeSpan := l.flatMap (spanCut lo hi)

/-- Whether a span holds an address. -/
def spanHolds (a : Nat) (r : FreeSpan) : Bool := decide (r.lo ≤ a) && decide (a < r.hi)

/-- The canonical form of memory: bytes as `sparseWf` says, spans rising, not empty and apart, no listed byte inside a
span, and every address below 2^64. -/
abbrev Memory.wf (m : Memory) : Prop :=
  sparseWf m.cells ∧ (∀ c ∈ m.cells, c.1 < Config.addrLimit)
    ∧ m.free.Pairwise (fun x y => x.hi ≤ y.lo)
    ∧ (∀ r ∈ m.free, r.lo < r.hi ∧ r.hi ≤ Config.addrLimit)
    ∧ ∀ c ∈ m.cells, ∀ r ∈ m.free, spanHolds c.1 r = false

/-- `MemByte(a)` (R10): a byte of a free span holds any value. -/
def Memory.read (m : Memory) (a : Nat) : Byte :=
  match m.free.find? (spanHolds a) with
  | some r => Config.freeByte r.tag a
  | none => sparseRead a m.cells

/-- The `n` bytes from address `a`. -/
def Memory.readBytes (m : Memory) (a : Nat) : Nat → List Byte
  | 0 => []
  | n + 1 => m.read a :: Memory.readBytes m (a + 1) n

/-- Bytes written from address `a` on. -/
def Memory.writeBytes (m : Memory) (a : Nat) (bs : List Byte) : Memory :=
  if bs.length = 0 then m
  else { cells := sparseWrite a bs m.cells, free := spansCut a (a + bs.length) m.free }

/-- The `n` bytes from address `a` hold any value afterwards. -/
def Memory.clobber (m : Memory) (a n tag : Nat) : Memory :=
  if n = 0 then m
  else
    let cut := spansCut a (a + n) m.free
    { cells := sparseSplice a (a + n) [] m.cells
      free := cut.filter (fun r => decide (r.lo < a)) ++ { lo := a, hi := a + n, tag := tag }
        :: cut.filter (fun r => decide (a ≤ r.lo)) }

/-! ### Result registers (R34) -/

/-- What a command answers. -/
abbrev Out := Host.Outcome State Fault Refusal

/-- `RES0 ← v`; the other result registers keep their values. -/
def State.setRes0 (s : State) (v : DWord) : State := { s with res := s.res.set 0 v }

/-- `RES1 ← v`. -/
def State.setRes1 (s : State) (v : DWord) : State := { s with res := s.res.set 1 v }

/-- `RES2 ← v`. -/
def State.setRes2 (s : State) (v : DWord) : State := { s with res := s.res.set 2 v }

/-- `RES3 ← v`. -/
def State.setRes3 (s : State) (v : DWord) : State := { s with res := s.res.set 3 v }

/-- An unsigned value in a 64-bit result register. -/
def res64 (v : Nat) : DWord := BitVec.ofNat 64 v

/-! ### Errors (R550 to R556) -/

/-- An error a command can end with: its code, and for MalformedInput the offset R554 gives. -/
structure Err where
  code : ErrCode
  off : Nat
deriving DecidableEq, Repr

/-- `RES0`-`RES3` after a failing command: any values (R551 step 2). -/
def freeResults (tag : Nat) : Vector DWord 4 :=
  #v[Config.freeRes tag 0, Config.freeRes tag 1, Config.freeRes tag 2, Config.freeRes tag 3]

/-- Taking an error (R551 steps 1 and 2): `ERRKIND`, `ERRCODE` and `ERROFF` are written, the result registers hold any
value, and all else is unchanged. The destination window and the state a rule names "on failure" are the caller's
(steps 3 and 4). -/
def State.fail (s : State) (e : Err) : State :=
  { s with
    errKind := e.code.kind
    errCode := e.code.byte
    errOff := BitVec.ofNat 64 e.off
    res := freeResults s.free
    free := s.free + 1 }

/-- Leaving an error (R555, R592): the three error fields are cleared and nothing else changes. -/
def State.clearError (s : State) : State := { s with errKind := 0, errCode := 0, errOff := 0 }

/-- `raise InvalidArgument(code)` or `raise Unsupported(code)`: `ERROFF` is 0 (R554). -/
def raise (c : ErrCode) (s : State) : Out := .next (s.fail { code := c, off := 0 })

/-- `raise MalformedInput(code, off)`, or an error passed on from a nested step. -/
def raiseErr (e : Err) (s : State) : Out := .next (s.fail e)

/-- The bytes of a destination window hold any value (R551 step 3). -/
def State.clobber (s : State) (addr len : Nat) : State :=
  { s with mem := s.mem.clobber addr len s.free, free := s.free + 1 }

/-- An error of a command that has a destination window. -/
def raiseDst (e : Err) (addr len : Nat) (s : State) : Out := .next ((s.clobber addr len).fail e)

/-- A successful command's output: the bytes at the start of the destination window, any value in the rest of it
(R84, D40). -/
def State.writeOut (s : State) (addr cap : Nat) (out : List Byte) : State :=
  { s with mem := (s.mem.clobber addr cap s.free).writeBytes addr out, free := s.free + 1 }

/-- An error of a nested step, its offset moved by the start of the nested source (R554). -/
def shiftErr {α : Type} (base : Nat) : Except Err α → Except Err α
  | .ok a => .ok a
  | .error e => .error { e with off := base + e.off }

/-! ### The bit writer's steps -/

/-- The accumulator with `n` more bits (the last line of R154). -/
def BitWriter.add (w : BitWriter) (v n : Nat) : BitWriter :=
  { w with acc := w.acc ||| (BitVec.ofNat 64 v <<< w.cnt), cnt := w.cnt + n }

/-- The largest cursor: `cap - BW_SLACK` (R152). -/
def BitWriter.limit (w : BitWriter) : Nat := w.cap.toNat - Config.bwSlack

/-- The writer after a flush (R155). -/
def BitWriter.flushed (w : BitWriter) : BitWriter :=
  let cur := w.cur.toNat + w.cnt / 8
  { w with
    acc := w.acc >>> (8 * (w.cnt / 8))
    cnt := w.cnt % 8
    cur := BitVec.ofNat 32 (min cur w.limit)
    ovf := w.ovf || decide (w.limit < cur) }

/-- The steps of BW_FLUSH (R155): the accumulator's 8 bytes are written at the cursor. -/
def State.flushWriter (s : State) : State :=
  { s with
    mem := s.mem.writeBytes (s.bw.base.toNat + s.bw.cur.toNat) (leBytes 8 s.bw.acc.toNat)
    bw := s.bw.flushed }

/-- The size BW_CLOSE returns, for the writer after its last flush (R157). -/
def BitWriter.closedSize (w : BitWriter) : Nat :=
  if w.ovf || decide (w.limit ≤ w.cur.toNat) then 0 else w.cur.toNat + (if 0 < w.cnt then 1 else 0)

/-! ### Private streams (R158, R173)

A composite command's writer is the list of the fields it writes: "the flush schedule is not visible" (R158, R270,
R350, R465), so the fields and the capacity decide the bytes and the overflow (log entry 19). -/

/-- A field of a bit stream: its value, below `2 ^ width`. -/
structure BitField where
  val : Nat
  width : Nat
deriving DecidableEq, Repr

/-- The fields packed least significant bit first (R150), after `cnt` bits (fewer than 8) that are held in `acc`. -/
def packBits (acc cnt : Nat) : List BitField → List Byte
  | [] => if cnt = 0 then [] else [BitVec.ofNat 8 acc]
  | f :: fs =>
    let a := acc ||| (f.val <<< cnt)
    let n := cnt + f.width
    leBytes (n / 8) a ++ packBits (a >>> (8 * (n / 8))) (n % 8) fs

/-- The number of bits of a list of fields. -/
def totalBits (fs : List BitField) : Nat := (fs.map BitField.width).sum

/-- `wInit`, the `wAdd`s and `wClose` (R173): the stream with its end mark, or no bytes where it does not fit (R158;
a capacity below `BW_SLACK` never fits, D47). -/
def closedStream (fs : List BitField) (cap : Nat) : List Byte :=
  if (totalBits fs + 1) / 8 + Config.bwSlack < cap then packBits 0 0 (fs ++ [{ val := 1, width := 1 }]) else []

/-- `bits(pos, n)` of a backward stream of value `v` (R165). -/
def streamBits (v : Nat) (pos : Int) (n : Nat) : Nat :=
  if n = 0 then 0
  else if (n : Int) ≤ pos then (v >>> (pos - n).toNat) % 2 ^ n
  else if 0 ≤ pos then (v % 2 ^ pos.toNat) <<< (n - pos.toNat)
  else 0

/-- A private reader: the stream's value and the payload bits not yet consumed (R165, R173). -/
structure Stream where
  v : Nat
  pos : Int
deriving DecidableEq, Repr

/-- `rInit` (R161, R162, R173). -/
def openStream (bs : List Byte) : Except Err Stream :=
  match bs.getLast? with
  | none => .error { code := .inputTooShort, off := 0 }
  | some last =>
    if last = 0 then .error { code := .bitstreamNoEndMark, off := bs.length - 1 }
    else .ok { v := leValue bs, pos := 8 * ((bs.length : Int) - 1) + highestBit last.toNat }

/-- `rPeek` (R173). -/
def Stream.peek (r : Stream) (n : Nat) : Nat := streamBits r.v r.pos n

/-- The reader after `n` bits are consumed (R165). -/
def Stream.skip (r : Stream) (n : Nat) : Stream := { r with pos := r.pos - n }

end Sys2Proof.Machine
end

