-- ==== Sys2Proof/Machine/Operands.lean ====
section
/-! DEFINITION. Operand forms: the argument registers (`30_encoding.md` R113, R114), the command-word selects (R115)
and the windows (`20_memory.md` R82, R85). -/

namespace Sys2Proof.Machine

/-- `A0`, read as a full 64-bit unsigned value (R113). -/
def State.a0 (s : State) : Nat := (s.args[0]).toNat

/-- `A1` (R113). -/
def State.a1 (s : State) : Nat := (s.args[1]).toNat

/-- `A2` (R113). -/
def State.a2 (s : State) : Nat := (s.args[2]).toNat

/-- `A3` (R113). -/
def State.a3 (s : State) : Nat := (s.args[3]).toNat

/-- A symbol operand is 0..255 (R114). -/
def symbolOk (n : Nat) : Bool := n ≤ 255

/-- A length or count operand is below 2^31 (R114). -/
def countOk (n : Nat) : Bool := decide (n < Config.lenLimit)

/-- The range of R113 for a signed operand: `A1[63:16] = 0`. -/
def signedOk (n : Nat) : Bool := decide (n < 2 ^ 16)

/-- The two's complement value of a signed operand's low 16 bits (R113). -/
def signedValue (n : Nat) : Int := (BitVec.ofNat 16 n).toInt

/-- The window check of R82. -/
def windowOk (addr len : Nat) : Bool := decide (len < Config.lenLimit) && decide (addr + len ≤ Config.addrLimit)

/-- The two windows share no byte (R85); an empty window covers none (R82). -/
def windowsDisjoint (a la b lb : Nat) : Bool := decide (min (a + la) (b + lb) ≤ max a b) || la == 0 || lb == 0

/-- "check windows (a, la) and (b, lb), disjoint". -/
def windowPairOk (a la b lb : Nat) : Bool := windowOk a la && windowOk b lb && windowsDisjoint a la b lb

/-- The bytes of the window `(addr, len)`. -/
def State.window (s : State) (addr len : Nat) : List Byte := s.mem.readBytes addr len

/-- A command of the slot or state register `k` (R115: 0..3, else ARG_RANGE). -/
def withFour (k : BitVec 4) (s : State) (f : Fin 4 → Out) : Out :=
  if h : k.toNat < 4 then f ⟨k.toNat, h⟩ else raise .argRange s

/-- A command of table `e` of a pair (R115: 0..1, else ARG_RANGE). -/
def withTwo (e : BitVec 4) (s : State) (f : Fin 2 → Out) : Out :=
  if h : e.toNat < 2 then f ⟨e.toNat, h⟩ else raise .argRange s

end Sys2Proof.Machine
end

