-- ==== Sys2Proof/Machine/Bitstream.lean ====
section
/-! DEFINITION. The bit writer and reader commands (`40_bitstream.md`). -/

namespace Sys2Proof.Machine

/-! ### Writer -/

/-- `BW_INIT` (R153). -/
def execBwInit (s : State) : Out :=
  if !windowOk s.a0 s.a1 then raise .argRange s
  else if s.a1 < Config.bwSlack then raise .dstTooSmall s
  else .next { s with bw :=
    { acc := 0, cnt := 0, base := s.args[0], cap := BitVec.ofNat 32 s.a1, cur := 0, ovf := false, valid := true } }

/-- `BW_ADD` (R154). -/
def execBwAdd (s : State) : Out :=
  if !s.bw.valid then raise .stateInvalid s
  else if 57 < s.a1 then raise .argRange s
  else if 2 ^ s.a1 ≤ s.a0 then raise .argRange s
  else if Config.bwAcc < s.bw.cnt + s.a1 then raise .bwAccFull s
  else .next { s with bw := s.bw.add s.a0 s.a1 }

/-- `BW_FLUSH` (R155). -/
def execBwFlush (s : State) : Out :=
  if !s.bw.valid then raise .stateInvalid s
  else .next s.flushWriter

/-- The writer's state after the steps of BW_CLOSE (R157): the end mark, a flush, the result and `valid ← 0`; the
window holds any value at and beyond the returned size (R156). -/
def State.closeWriter (s : State) : State :=
  let t := { s with bw := s.bw.add 1 1 }.flushWriter
  let size := t.bw.closedSize
  let u := t.clobber (t.bw.base.toNat + size) (t.bw.cap.toNat - size)
  { u with bw := { u.bw with valid := false } }.setRes0 (res64 size)

/-- `BW_CLOSE` (R157). -/
def execBwClose (s : State) : Out :=
  if !s.bw.valid then raise .stateInvalid s
  else if Config.bwAcc < s.bw.cnt + 1 then raise .bwAccFull s
  else .next s.closeWriter

/-! ### Reader -/

/-- `BR_INIT` (R162, errors of R161). -/
def execBrInit (s : State) : Out :=
  if !windowOk s.a0 s.a1 then raise .argRange s
  else if s.a1 = 0 then raiseErr { code := .inputTooShort, off := 0 } s
  else
    let last := s.mem.read (s.a0 + s.a1 - 1)
    if last = 0 then raiseErr { code := .bitstreamNoEndMark, off := s.a1 - 1 } s
    else .next { s with br :=
      { base := s.args[0], len := BitVec.ofNat 32 s.a1
        pos := 8 * ((s.a1 : Int) - 1) + highestBit last.toNat, unl := 0, valid := true } }

/-- `bits(BR.pos, n)` of the architectural reader, whose stream is in host memory (R162, R165). -/
def State.readerBits (s : State) (n : Nat) : Nat :=
  streamBits (leValue (s.window s.br.base.toNat s.br.len.toNat)) s.br.pos n

/-- The checks of `BR_PEEK` and `BR_READ` (R166, R172): the error, if any. -/
def State.readerCheck (s : State) (n : Nat) : Option ErrCode :=
  if !s.br.valid then some .stateInvalid
  else if Config.brWindow < n then some .argRange
  else if Config.brWindow < s.br.unl + n then some .brNeedsLoad
  else none

/-- `n` bits consumed (R167). -/
def State.readerSkip (s : State) (n : Nat) : State :=
  { s with br := { s.br with pos := s.br.pos - n, unl := s.br.unl + n } }

/-- `BR_PEEK` (R166). -/
def execBrPeek (s : State) : Out :=
  match s.readerCheck s.a0 with
  | some c => raise c s
  | none => .next (s.setRes0 (res64 (s.readerBits s.a0)))

/-- `BR_READ` (R167). -/
def execBrRead (s : State) : Out :=
  match s.readerCheck s.a0 with
  | some c => raise c s
  | none => .next ((s.readerSkip s.a0).setRes0 (res64 (s.readerBits s.a0)))

/-- `BR_LOAD` (R168). -/
def execBrLoad (s : State) : Out :=
  if !s.br.valid then raise .stateInvalid s
  else .next ({ s with br := { s.br with unl := 0 } }.setRes0 (loadStatus s.br.pos))

end Sys2Proof.Machine
end

