-- ==== Sys2Proof/Machine/FseTables.lean ====
section
/-! DEFINITION. The FSE table builder (`41_fse_tables.md`): histogram, table log, normalization, table description,
spread, table construction, and the commands over them. Symbol-indexed arrays are lists here, entry `s` at place `s`,
as long as the rule's `0..maxSym`. -/

namespace Sys2Proof.Machine

/-! ### Histogram (R200) -/

/-- How often each of the 256 symbols occurs. -/
def histogram (bs : List Byte) : List Nat := (List.range 256).map fun s => bs.count (BitVec.ofNat 8 s)

/-- The highest index with a nonzero entry, 0 if there is none. -/
def lastNonzero (l : List Nat) : Nat :=
  (l.zipIdx.foldl (fun best x => if 0 < x.1 then x.2 else best) 0)

/-- The largest entry, 0 if there is none. -/
def listMax (l : List Nat) : Nat := l.foldl max 0

/-- The first index whose entry is greatest, as a strict-`>` scan from 0 finds it (R212). -/
def firstMax (l : List Int) : Nat :=
  (l.zipIdx.foldl (fun (b : Int × Nat) x => if b.1 < x.1 then x else b) (0, 0)).2

/-! ### Table log (R201, R202) -/

/-- `minTableLog(n, maxSym)` (R201). -/
def minTableLog (n maxSym : Nat) : Nat :=
  min (highestBit (n - 1) + 1) (if maxSym = 0 then 1 else highestBit maxSym + 2)

/-- `optimalTableLog(maxLog, n, maxSym, minus)` (R202). -/
def optimalTableLog (maxLog n maxSym minus : Nat) : Nat :=
  min (max (max (min maxLog (highestBit (n - 1) - minus)) (minTableLog n maxSym)) Config.fseMinLog)
    Config.fseMaxLog

/-! ### Normalization (R211 to R214) -/

/-- `REST_TO_BEAT` (R213). -/
def restToBeat : List Nat := [0, 473195, 504333, 520860, 550000, 700000, 750000, 830000]

/-- One symbol's share in R211. -/
def normShare (tl total c : Nat) : Int :=
  if c = 0 then 0
  else if c ≤ total >>> tl then -1
  else
    let scale := 62 - tl
    let prod := c * (2 ^ 62 / total)
    let p := prod >>> scale
    if p < 8 ∧ 2 ^ (scale - 20) * restToBeat.getD p 0 < prod - (p <<< scale) then (p : Int) + 1 else p

/-- The part of the table's states a normalized count takes: `-1` takes one (R215). -/
def countSlots (c : Int) : Nat := c.natAbs

/-- The states a list of normalized counts takes. -/
def totalSlots (norm : List Int) : Nat := (norm.map countSlots).sum

/-- "Not yet assigned" (R214). -/
def notYet : Int := -2

/-- The number of symbols R214 has given a share of one state. -/
def assignedSlots (norm : List Int) : Nat := norm.countP fun x => x != 0 && x != notYet

/-- The counts of the symbols R214 has not assigned. -/
def unassignedTotal (count : List Nat) (norm : List Int) : Nat :=
  ((count.zip norm).map fun x => if x.2 = notYet then x.1 else 0).sum

/-- The first pass of R214. -/
def norm2First (tl total : Nat) (count : List Nat) : List Int :=
  count.map fun c =>
    if c = 0 then 0
    else if c ≤ total >>> tl then -1
    else if c ≤ (total * 3) >>> (tl + 1) then 1
    else notYet

/-- The second pass of R214: unassigned symbols no larger than `lowOne` get one state. -/
def norm2Second (lowOne : Nat) (count : List Nat) (norm : List Int) : List Int :=
  (count.zip norm).map fun x => if x.2 = notYet ∧ x.1 ≤ lowOne then 1 else x.2

/-- The round-robin loop of R214 for `total = 0`. -/
def norm2RoundRobin : Nat → Nat → Nat → List Int → List Int
  | 0, _, _, norm => norm
  | fuel + 1, toDist, s, norm =>
    if toDist = 0 then norm
    else
      let next := (s + 1) % norm.length
      if 0 < norm.getD s 0 then norm2RoundRobin fuel (toDist - 1) next (norm.set s (norm.getD s 0 + 1))
      else norm2RoundRobin fuel toDist next norm

/-- The final loop of R214. -/
def norm2Share (vlog rstep : Nat) : Nat → List (Nat × Int) → Except Err (List Int)
  | _, [] => .ok []
  | acc, (c, n) :: rest =>
    if n = notYet then
      let e := acc + c * rstep
      let w := (e >>> vlog) - (acc >>> vlog)
      if w < 1 then .error { code := .argRange, off := 0 }
      else
        match norm2Share vlog rstep e rest with
        | .ok l => .ok ((w : Int) :: l)
        | .error x => .error x
    else
      match norm2Share vlog rstep acc rest with
      | .ok l => .ok (n :: l)
      | .error x => .error x

/-- `normalize2` (R214). A quotient by `toDist = 0` decides nothing there: every symbol is then assigned
(log entry 18). -/
def normalize2 (count : List Nat) (tl total : Nat) : Except Err (List Int) :=
  let first := norm2First tl total count
  let total1 := unassignedTotal count first
  let toDist1 := 2 ^ tl - assignedSlots first
  let norm :=
    if (total * 3) >>> (tl + 1) < total1 / toDist1 then norm2Second (total1 * 3 / (toDist1 * 2)) count first
    else first
  let total2 := unassignedTotal count norm
  let toDist := 2 ^ tl - assignedSlots norm
  if assignedSlots norm = count.length then
    let m := firstMax (count.map fun c => (c : Int))
    .ok (norm.set m (norm.getD m 0 + toDist))
  else if total2 = 0 then .ok (norm2RoundRobin (toDist * norm.length) toDist 0 norm)
  else
    let vlog := 62 - tl
    let mid := 2 ^ (vlog - 1) - 1
    norm2Share vlog ((2 ^ vlog * toDist + mid) / total2) mid (count.zip norm)

/-- `normalize` (R211). -/
def normalize (count : List Nat) (tl total : Nat) : Except Err (List Int) :=
  let norm := count.map (normShare tl total)
  let still := (2 ^ tl : Int) - totalSlots norm
  let largest := firstMax norm
  if norm.getD largest 0 / 2 ≤ -still then normalize2 count tl total
  else .ok (norm.set largest (norm.getD largest 0 + still))

/-! ### Table description (R220, R223) -/

/-- The number of leading zero counts. -/
def leadingZeros : List Int → Nat
  | [] => 0
  | c :: cs => if c = 0 then leadingZeros cs + 1 else 0

/-- The repeat codes for `z` further zero counts (R220). -/
def zeroRun (z : Nat) : List BitField :=
  List.replicate (z / 24) { val := 0xFFFF, width := 16 } ++ List.replicate (z % 24 / 3) { val := 3, width := 2 }
    ++ [{ val := z % 3, width := 2 }]

/-- `while remaining < threshold: nb ← nb - 1; threshold ← threshold >> 1` (R220, R223): `(threshold, nb)`. -/
def shrink (remaining : Int) : Nat → Nat → Nat → Nat × Nat
  | 0, threshold, nb => (threshold, nb)
  | fuel + 1, threshold, nb =>
    if remaining < threshold then shrink remaining fuel (threshold / 2) (nb - 1) else (threshold, nb)

/-- The loop of R220 over the counts not yet written; `none` where it has no meaning: the counts run out, or one is
larger than what remains (log entry 21). -/
def ncountLoop : Nat → Int → Nat → Nat → Bool → List Int → Option (List BitField)
  | 0, _, _, _, _, _ => none
  | fuel + 1, remaining, threshold, nb, prev0, norm =>
    if remaining ≤ 1 then (if remaining = 1 then some [] else none)
    else
      let z := if prev0 then leadingZeros norm else 0
      match norm.drop z with
      | [] => none
      | c :: rest =>
        let maxv : Int := 2 * threshold - 1 - remaining
        let left := remaining - c.natAbs
        let v0 := c + 1
        let v := if (threshold : Int) ≤ v0 then v0 + maxv else v0
        let width := if v < maxv then nb - 1 else nb
        let (th', nb') := shrink left 14 threshold nb
        match ncountLoop fuel left th' nb' (v == 1) rest with
        | none => none
        | some fs => some ((if prev0 then zeroRun z else []) ++ { val := v.toNat, width := width } :: fs)

/-- The header fields of `(norm, tl)` (R220). -/
def ncountFields (norm : List Int) (tl : Nat) : Option (List BitField) :=
  match ncountLoop (norm.length + 1) (2 ^ tl + 1) (2 ^ tl) (tl + 1) false norm with
  | none => none
  | some fs => some ({ val := tl - 5, width := 4 } :: fs)

/-- The header bytes of `(norm, tl)` (R220). -/
def ncountBytes (norm : List Int) (tl : Nat) : Option (List Byte) :=
  match ncountFields norm tl with
  | none => none
  | some fs => some (packBits 0 0 fs)

/-- What `readNCount` returns (R223): the counts, the highest symbol described, the log and the bytes used. -/
structure NCount where
  norm : List Int
  maxSym : Nat
  log : Nat
  used : Nat
deriving DecidableEq, Repr

/-- `field(k)` at a bit position (R223). -/
def ncField (v bits k : Nat) : Nat := (v >>> bits) % 2 ^ k

/-- `consume(k)` (R223): the new bit position. -/
def ncConsume (len bits k : Nat) : Except Err Nat :=
  if 8 * len < bits + k then .error { code := .inputTooShort, off := len } else .ok (bits + k)

/-- `while field(2) = 3: consume(2); n0 ← n0 + 3` (R223): the bit position and `n0`. -/
def ncRepeat (v len : Nat) : Nat → Nat → Nat → Except Err (Nat × Nat)
  | 0, bits, n0 => .ok (bits, n0)
  | fuel + 1, bits, n0 =>
    if ncField v bits 2 = 3 then
      match ncConsume len bits 2 with
      | .error e => .error e
      | .ok b => ncRepeat v len fuel b (n0 + 3)
    else .ok (bits, n0)

/-- The zero run at the head of R223's loop: the bit position and the number of the next symbol. -/
def ncZeros (v len maxSym bits s : Nat) : Except Err (Nat × Nat) :=
  match ncRepeat v len (4 * len + 1) bits s with
  | .error e => .error e
  | .ok (b, n0) =>
    let n1 := n0 + ncField v b 2
    match ncConsume len b 2 with
    | .error e => .error e
    | .ok b' => if maxSym < n1 then .error { code := .fseCorrupt, off := b' >>> 3 } else .ok (b', n1)

/-- One count of R223's loop: the bit position and the count. -/
def ncCount (v len bits threshold nb : Nat) (remaining : Int) : Except Err (Nat × Int) :=
  let maxv : Int := 2 * threshold - 1 - remaining
  let small := ncField v bits (nb - 1) % threshold
  if (small : Int) < maxv then
    match ncConsume len bits (nb - 1) with
    | .error e => .error e
    | .ok b => .ok (b, (small : Int) - 1)
  else
    let big := ncField v bits nb % (2 * threshold)
    match ncConsume len bits nb with
    | .error e => .error e
    | .ok b => .ok (b, (if threshold ≤ big then (big : Int) - maxv else big) - 1)

/-- The loop of R223; `norm` holds the counts read so far, in order. -/
def ncLoop (v len maxSym : Nat) :
    Nat → Nat → Int → Nat → Nat → Bool → List Int → Except Err (Nat × Int × List Int)
  | 0, bits, remaining, _, _, _, norm => .ok (bits, remaining, norm)
  | fuel + 1, bits, remaining, threshold, nb, prev0, norm =>
    if remaining ≤ 1 ∨ maxSym < norm.length then .ok (bits, remaining, norm)
    else
      match (if prev0 then ncZeros v len maxSym bits norm.length else .ok (bits, norm.length)) with
      | .error e => .error e
      | .ok (b, s) =>
        match ncCount v len b threshold nb remaining with
        | .error e => .error e
        | .ok (b', c) =>
          let left := remaining - c.natAbs
          let (th', nb') := shrink left 14 threshold nb
          ncLoop v len maxSym fuel b' left th' nb' (c == 0)
            (norm ++ List.replicate (s - norm.length) 0 ++ [c])

/-- `readNCount` over the bytes of its window (R223). -/
def readNCount (bs : List Byte) (maxSym maxLog : Nat) : Except Err NCount :=
  let v := leValue bs
  let len := bs.length
  match ncConsume len 0 4 with
  | .error e => .error e
  | .ok b =>
    let tl := ncField v 0 4 + 5
    if maxLog < tl then .error { code := .tableLogTooLarge, off := 0 }
    else
      match ncLoop v len maxSym (maxSym + 2) b (2 ^ tl + 1) (2 ^ tl) (tl + 1) false [] with
      | .error e => .error e
      | .ok (bits, remaining, norm) =>
        if remaining ≠ 1 then .error { code := .fseCorrupt, off := bits >>> 3 }
        else .ok { norm := norm, maxSym := norm.length - 1, log := tl, used := (bits + 7) / 8 }

/-! ### Predefined distributions (R230) -/

/-- The Basic literal-length distribution. -/
def defaultLL : List Int :=
  [4, 3, 2, 2, 2, 2, 2, 2, 2, 2, 2, 2, 2, 1, 1, 1, 2, 2, 2, 2, 2, 2, 2, 2, 2, 3, 2, 1, 1, 1, 1, 1, -1, -1, -1, -1]

/-- The Basic match-length distribution. -/
def defaultML : List Int :=
  [1, 4, 3, 2, 2, 2, 2, 2, 2, 1, 1, 1, 1, 1, 1, 1, 1, 1, 1, 1, 1, 1, 1, 1, 1, 1, 1, 1, 1, 1, 1, 1, 1, 1, 1, 1, 1, 1,
    1, 1, 1, 1, 1, 1, 1, 1, -1, -1, -1, -1, -1, -1, -1]

/-- The Basic offset distribution. -/
def defaultOF : List Int :=
  [1, 1, 1, 1, 1, 1, 2, 2, 2, 1, 1, 1, 1, 1, 1, 1, 1, 1, 1, 1, 1, 1, 1, 1, -1, -1, -1, -1, -1]

/-- `DEFAULT[f]`: 0 literal length, 1 offset, 2 match length, with its log (R225, R230). -/
def defaultDist (f : Nat) : List Int × Nat :=
  match f with
  | 0 => (defaultLL, 6)
  | 1 => (defaultOF, 5)
  | _ => (defaultML, 6)

/-! ### Spread and table construction (R235 to R242) -/

/-- The `-1` symbols placed from the top (R235): the table, and how many places are left below them. -/
def spreadLow (norm : List Int) (size : Nat) : List Nat × Nat :=
  norm.zipIdx.foldl (fun (t : List Nat × Nat) x => if x.1 = -1 then (t.1.set (t.2 - 1) x.2, t.2 - 1) else t)
    (List.replicate size 0, size)

/-- `pos ← (pos + step) & mask` until it is below the reserved places (R235). -/
def spreadNext (size free : Nat) : Nat → Nat → Nat
  | 0, pos => pos
  | fuel + 1, pos =>
    let next := (pos + ((size >>> 1) + (size >>> 3) + 3)) % size
    if next < free then next else spreadNext size free fuel next

/-- `spread(norm, maxSym, tl)` (R235): the symbol at every state, `none` where the walk does not end at 0. -/
def spread (norm : List Int) (tl : Nat) : Option (List Nat) :=
  let size := 2 ^ tl
  let (table, free) := spreadLow norm size
  let syms := norm.zipIdx.flatMap fun x => List.replicate x.1.toNat x.2
  let (t, pos) := syms.foldl (fun (t : List Nat × Nat) s => (t.1.set t.2 s, spreadNext size free size t.2)) (table, 0)
  if pos = 0 then some t else none

/-- The check of R236: every count is at least `-1` and they fill the table. -/
def normConsistent (norm : List Int) (tl : Nat) : Bool :=
  norm.all (fun c => decide (-1 ≤ c)) && totalSlots norm == 2 ^ tl

/-- `cum[s]` (R237). -/
def cumulative : Nat → List Int → List Nat
  | _, [] => []
  | acc, c :: cs => acc :: cumulative (acc + countSlots c) cs

/-- The `nextState` array of R237. -/
def nextStates (norm : List Int) (syms : List Nat) (size : Nat) : List Half :=
  (syms.zipIdx.foldl
    (fun (t : List Half × List Nat) x =>
      let at_ := t.2.getD x.1 0
      (t.1.set at_ (BitVec.ofNat 16 (size + x.2)), t.2.set x.1 (at_ + 1)))
    (List.replicate size 0, cumulative 0 norm)).1

/-- `(dNB[s], dFS[s])` of R237, for the symbols from `total` states on. -/
def deltas (tl : Nat) : Nat → List Int → List (Int × Int)
  | _, [] => []
  | total, c :: cs =>
    let size : Int := 2 ^ tl
    if c = 0 then ((((tl : Int) + 1) * 65536 - size), 0) :: deltas tl total cs
    else if c = -1 ∨ c = 1 then ((tl : Int) * 65536 - size, (total : Int) - 1) :: deltas tl (total + 1) cs
    else
      let mbo := tl - highestBit (c - 1).toNat
      ((mbo : Int) * 65536 - c * 2 ^ mbo, (total : Int) - c) :: deltas tl (total + c.toNat) cs

/-- Compression table construction (R237). -/
def buildCT (norm : List Int) (tl : Nat) : Option FseCT :=
  match spread norm tl with
  | none => none
  | some syms =>
    let ds := deltas tl 0 norm
    some
      { log := tl
        maxSym := BitVec.ofNat 8 (norm.length - 1)
        present := tab256 fun s => norm.getD s 0 != 0
        nextState := nextStates norm syms (2 ^ tl)
        dNB := tab256 fun s => BitVec.ofInt 32 (ds.getD s (0, 0)).1
        dFS := tab256 fun s => BitVec.ofInt 32 (ds.getD s (0, 0)).2 }

/-- The one-symbol compression table (R238). R238 writes `dNB` and `dFS` of its symbol only: the model takes the
slot's table as a new one, so what an earlier build left for other symbols is gone, and FSE_GETCT reads free values for
them (the model's choice, log entry 15). -/
def rleCT (sym : Nat) : FseCT :=
  { log := 0
    maxSym := BitVec.ofNat 8 sym
    present := tab256 fun s => s == sym
    nextState := [0, 0]
    dNB := tab256 fun _ => 0
    dFS := tab256 fun _ => 0 }

/-- The states of R241. -/
def dtEntries (tl : Nat) : Nat → List Nat → List Nat → List FseEntry
  | _, _, [] => []
  | u, next, s :: syms =>
    let x := next.getD s 0
    let nb := tl - highestBit x
    { sym := BitVec.ofNat 8 s, nb := BitVec.ofNat 4 nb, ns := BitVec.ofNat 16 ((x <<< nb) - 2 ^ tl) }
      :: dtEntries tl (u + 1) (next.set s (x + 1)) syms

/-- Decoding table construction (R241). -/
def buildDT (norm : List Int) (tl : Nat) : Option FseDT :=
  match spread norm tl with
  | none => none
  | some syms => some { log := tl, entries := dtEntries tl 0 (norm.map countSlots) syms }

/-- The one-symbol decoding table (R242). -/
def rleDT (sym : Nat) : FseDT := { log := 0, entries := [{ sym := BitVec.ofNat 8 sym, nb := 0, ns := 0 }] }

/-- `countSlots` of a table's description, checked and built as R240 and R236 do. -/
def checkedCT (norm : List Int) (tl : Nat) : Except Err FseCT :=
  if !normConsistent norm tl then .error { code := .fseCorrupt, off := 0 }
  else
    match buildCT norm tl with
    | none => .error { code := .fseCorrupt, off := 0 }
    | some t => .ok t

/-- As `checkedCT`, for a decoding table. -/
def checkedDT (norm : List Int) (tl : Nat) : Except Err FseDT :=
  if !normConsistent norm tl then .error { code := .fseCorrupt, off := 0 }
  else
    match buildDT norm tl with
    | none => .error { code := .fseCorrupt, off := 0 }
    | some t => .ok t

/-! ### The commands -/

/-- `NORM[0..255]` holding a list of counts, 0 beyond it. -/
def normRegisters (norm : List Int) : Vector Half 256 := tab256 fun s => BitVec.ofInt 16 (norm.getD s 0)

/-- `NORM`, `NMAX`, `NLOG` and `NVALID` set to a description of at least one symbol (R210, R222, R225). -/
def State.setNorm (s : State) (norm : List Int) (log : Nat) : State :=
  { s with norm := normRegisters norm, nmax := BitVec.ofNat 8 (norm.length - 1), nlog := BitVec.ofNat 4 log, nvalid := true }

/-- The 256 counts in `NORM`. -/
def State.normAll (s : State) : List Int := s.norm.toList.map BitVec.toInt

/-- `NORM[0..NMAX]`. -/
def State.normList (s : State) : List Int := s.normAll.take (s.nmax.toNat + 1)

/-- `COUNTS[0..maxSym]`. -/
def State.countList (s : State) (maxSym : Nat) : List Nat := (s.counts.toList.map BitVec.toNat).take (maxSym + 1)

/-- `HIST` (R200). -/
def execHist (s : State) : Out :=
  if !windowOk s.a0 s.a1 then raise .argRange s
  else
    let h := histogram (s.window s.a0 s.a1)
    let hmax := lastNonzero h
    let largest := listMax h
    .next (({ s with
      counts := tab256 fun i => BitVec.ofNat 32 (h.getD i 0)
      hmax := BitVec.ofNat 8 hmax
      hlargest := BitVec.ofNat 32 largest }.setRes0 (res64 hmax)).setRes1 (res64 largest))

/-- `FSE_OPTLOG` (R202; the sample count is a count operand, R114, log entry 11). -/
def execFseOptlog (s : State) : Out :=
  if s.a0 < 1 || 12 < s.a0 || !symbolOk s.a2 || !countOk s.a1 then raise .argRange s
  else if s.a1 < 2 then raise .needsRle s
  else .next (s.setRes0 (res64 (optimalTableLog s.a0 s.a1 s.a2 2)))

/-- What `FSE_NORM` computes: its checks in the order of R210, then the counts. -/
def normCommand (count : List Nat) (log total maxSym : Nat) : Except Err (List Int) :=
  if !symbolOk maxSym || log < 5 || 12 < log || !countOk total then .error { code := .argRange, off := 0 }
  else if total ≠ count.sum then .error { code := .argRange, off := 0 }
  else if total < 2 || count.any (fun c => c == total) then .error { code := .needsRle, off := 0 }
  else if log < minTableLog total maxSym then .error { code := .argRange, off := 0 }
  else normalize count log total

/-- `FSE_NORM` (R210): on any error `NVALID ← 0`. -/
def execFseNorm (s : State) : Out :=
  match normCommand (s.countList s.a2) s.a0 s.a1 s.a2 with
  | .error e => raiseErr e { s with nvalid := false }
  | .ok norm => .next (s.setNorm norm s.a0)

/-- `FSE_WRNC` (R221). Where R220 gives `NORM` no description, its size is a free value and so are its bytes
(log entry 21). -/
def execFseWrnc (s : State) : Out :=
  if !s.nvalid then raise .stateInvalid s
  else if !windowOk s.a0 s.a1 then raise .argRange s
  else
    match ncountBytes s.normAll s.nlog.toNat with
    | some hdr =>
      if s.a1 < hdr.length then raiseDst { code := .dstTooSmall, off := 0 } s.a0 s.a1 s
      else .next ((s.writeOut s.a0 s.a1 hdr).setRes0 (res64 hdr.length))
    | none =>
      let size := Config.freeHeaderSize s.free
      if s.a1 < size then raiseDst { code := .dstTooSmall, off := 0 } s.a0 s.a1 s
      else .next ((s.clobber s.a0 s.a1).setRes0 (res64 size))

/-- `FSE_RDNC` (R222). -/
def execFseRdnc (s : State) : Out :=
  if !windowOk s.a0 s.a1 || !symbolOk s.a2 || s.a3 < 5 || 12 < s.a3 then raise .argRange s
  else
    match readNCount (s.window s.a0 s.a1) s.a2 s.a3 with
    | .error e => raiseErr e { s with nvalid := false }
    | .ok d =>
      .next ((((s.setNorm d.norm d.log).setRes0 (res64 d.used)).setRes1 (res64 d.log)).setRes2 (res64 d.maxSym))

/-- `FSE_LDDEF` (R225). -/
def execFseLddef (sel : BitVec 4) (s : State) : Out :=
  if 2 < sel.toNat then raise .argRange s
  else .next (s.setNorm (defaultDist sel.toNat).1 (defaultDist sel.toNat).2)

/-- `CT[k]` replaced. -/
def State.setCT (s : State) (k : Fin 4) (t : Option FseCT) : State := { s with ct := s.ct.set k t }

/-- `DT[k]` replaced. -/
def State.setDT (s : State) (k : Fin 4) (t : Option FseDT) : State := { s with dt := s.dt.set k t }

/-- `FSE_BUILD_CT` (R236). -/
def execFseBuildCt (slot : BitVec 4) (s : State) : Out :=
  withFour slot s fun k =>
    if !s.nvalid then raise .stateInvalid s
    else
      match checkedCT s.normList s.nlog.toNat with
      | .error e => raiseErr e (s.setCT k none)
      | .ok t => .next (s.setCT k (some t))

/-- `FSE_RLE_CT` (R238). -/
def execFseRleCt (slot : BitVec 4) (s : State) : Out :=
  withFour slot s fun k =>
    if !symbolOk s.a0 then raise .argRange s else .next (s.setCT k (some (rleCT s.a0)))

/-- `FSE_BUILD_DT` (R240): on any error `DT[k].valid ← 0`. -/
def execFseBuildDt (slot : BitVec 4) (s : State) : Out :=
  withFour slot s fun k =>
    if !s.nvalid then raise .stateInvalid (s.setDT k none)
    else
      match checkedDT s.normList s.nlog.toNat with
      | .error e => raiseErr e (s.setDT k none)
      | .ok t => .next (s.setDT k (some t))

/-- `FSE_RLE_DT` (R242). -/
def execFseRleDt (slot : BitVec 4) (s : State) : Out :=
  withFour slot s fun k =>
    if !symbolOk s.a0 then raise .argRange s else .next (s.setDT k (some (rleDT s.a0)))

/-- What the count of `FSE_SETCOUNT` stays below: R114's bound, or R245's (log entry 11). -/
def setcountLimit (b : Config.CountBound) : Nat :=
  match b with
  | .general => 2 ^ 31
  | .command => 2 ^ 32

/-- `FSE_SETCOUNT` (R245; R114 and R245 bound its count differently, a parameter says which applies: log entry 11). -/
def execFseSetcount (s : State) : Out :=
  if !symbolOk s.a0 || decide (setcountLimit s.params.setcount ≤ s.a1) then raise .argRange s
  else .next { s with counts := set256 s.counts s.a0 (BitVec.ofNat 32 s.a1) }

/-- `FSE_SETNORM` (R246, R113). -/
def execFseSetnorm (s : State) : Out :=
  if !signedOk s.a1 || decide (s.a2 < s.a0) || !symbolOk s.a2 || s.a3 < 5 || 12 < s.a3
      || decide (signedValue s.a1 < -1) || decide ((2 ^ s.a3 : Int) < signedValue s.a1) then raise .argRange s
  else .next { s with
    norm := set256 s.norm s.a0 (BitVec.ofNat 16 s.a1)
    nmax := BitVec.ofNat 8 s.a2
    nlog := BitVec.ofNat 4 s.a3
    nvalid := true }

/-- `FSE_GETNORM` (R247). -/
def execFseGetnorm (s : State) : Out :=
  if !symbolOk s.a0 then raise .argRange s
  else .next ((((s.setRes0 ((at256 s.norm s.a0 0).signExtend 64)).setRes1 (res64 s.nmax.toNat)).setRes2
    (res64 s.nlog.toNat)).setRes3 (res64 s.nvalid.toNat))

/-- `FSE_GETCOUNT` (R248). -/
def execFseGetcount (s : State) : Out :=
  if !symbolOk s.a0 then raise .argRange s
  else .next (((s.setRes0 (res64 (at256 s.counts s.a0 0).toNat)).setRes1 (res64 s.hmax.toNat)).setRes2
    (res64 s.hlargest.toNat))

/-- State `i` of a decoding table. -/
def FseDT.entry (t : FseDT) (i : Nat) : FseEntry := t.entries.getD i { sym := 0, nb := 0, ns := 0 }

/-- `FSE_GETDT` (R249). -/
def execFseGetdt (slot : BitVec 4) (s : State) : Out :=
  withFour slot s fun k =>
    match s.dt[k] with
    | none => raise .stateInvalid s
    | some t =>
      if 2 ^ t.log ≤ s.a0 then raise .argRange s
      else .next ((((s.setRes0 (res64 (t.entry s.a0).sym.toNat)).setRes1 (res64 (t.entry s.a0).nb.toNat)).setRes2
        (res64 (t.entry s.a0).ns.toNat)).setRes3 (res64 t.log))

/-- Whether no rule wrote `dNB` and `dFS` of a symbol: a symbol below the one of an RLE table (R238). -/
def FseCT.deltaUnset (t : FseCT) (sym : Nat) : Bool :=
  t.log == 0 && !(at256 t.present sym false) && decide (sym ≤ t.maxSym.toNat)

/-- `dNB` (`i = 0`) or `dFS` (`i = 1`) as FSE_GETCT reads it (R250): 0 above `maxSym`, a free value where nothing
wrote it (log entry 15). -/
def FseCT.deltaRead (t : FseCT) (tag i sym : Nat) : DWord :=
  if t.deltaUnset sym then (Config.freeDelta tag i).signExtend 64
  else if !(at256 t.present sym false) && decide (t.maxSym.toNat < sym) then 0
  else (at256 (if i = 0 then t.dNB else t.dFS) sym 0).signExtend 64

/-- `FSE_GETCT` (R250); the table's validity is checked before the operands (log entry 24). -/
def execFseGetct (slot : BitVec 4) (s : State) : Out :=
  withFour slot s fun k =>
    match s.ct[k] with
    | none => raise .stateInvalid s
    | some t =>
      if !symbolOk s.a0 || decide (2 ^ max t.log 1 ≤ s.a1) then raise .argRange s
      else
        .next (((({ s with free := s.free + 1 }.setRes0 (t.deltaRead s.free 0 s.a0)).setRes1
          (t.deltaRead s.free 1 s.a0)).setRes2 (res64 (t.nextState.getD s.a1 0).toNat)).setRes3
          (res64 ((at256 t.present s.a0 false).toNat ||| (t.log <<< 8) ||| (t.maxSym.toNat <<< 16))))

end Sys2Proof.Machine
end

