-- ==== Sys2Proof/Machine/FseCodec.lean ====
section
/-! DEFINITION. The FSE encoder and decoder (`42_fse_codec.md`): the step functions of R260, R262 and R264, the step
commands on the architectural cursors, and whole-string coding with two interleaved states. -/

namespace Sys2Proof.Machine

/-! ### Encoder functions -/

/-- `dNB[s]`, a signed value (R42). -/
def FseCT.deltaNb (t : FseCT) (s : Nat) : Int := (at256 t.dNB s 0).toInt

/-- `dFS[s]`, a signed value (R42). -/
def FseCT.deltaFs (t : FseCT) (s : Nat) : Int := (at256 t.dFS s 0).toInt

/-- `nextState[i]`. -/
def FseCT.next (t : FseCT) (i : Int) : Nat := (t.nextState.getD i.toNat 0).toNat

/-- `present[s]`, 0 for a value that is no symbol. -/
def FseCT.has (t : FseCT) (s : Nat) : Bool := at256 t.present s false

/-- `encBegin(T, s)` (R260). -/
def encBegin (t : FseCT) (s : Nat) : Nat :=
  let ob := (t.deltaNb s + 2 ^ 15) / 2 ^ 16
  t.next ((ob * 2 ^ 16 - t.deltaNb s) / 2 ^ ob.toNat + t.deltaFs s)

/-- `n` of `encStep(T, state, s)` (R262). -/
def encWidth (t : FseCT) (state s : Nat) : Nat := (((state : Int) + t.deltaNb s) / 2 ^ 16).toNat

/-- `(value, n)` of `encStep` (R262): the low bits of the state. -/
def encField (t : FseCT) (state s : Nat) : BitField :=
  { val := state % 2 ^ encWidth t state s, width := encWidth t state s }

/-- `state'` of `encStep` (R262). -/
def encNext (t : FseCT) (state s : Nat) : Nat :=
  t.next (((state >>> encWidth t state s : Nat) : Int) + t.deltaFs s)

/-- `encFinish(T, state)` (R264). -/
def encFinish (t : FseCT) (state : Nat) : BitField := { val := state % 2 ^ t.log, width := t.log }

/-- Whether a state register holds a state of the table (R263). -/
def FseCT.stateOk (t : FseCT) (state : Nat) : Bool :=
  if t.log = 0 then state == 0 else decide (2 ^ t.log ≤ state) && decide (state < 2 ^ (t.log + 1))

/-! ### Step commands -/

/-- `ES[e] ← v`. -/
def State.setES (s : State) (e : Fin 4) (v : Nat) : State := { s with es := s.es.set e (BitVec.ofNat 16 v) }

/-- `DS[e] ← v`. -/
def State.setDS (s : State) (e : Fin 4) (v : Nat) : State := { s with ds := s.ds.set e (BitVec.ofNat 16 v) }

/-- A field added to the bit writer (R154). -/
def State.addField (s : State) (f : BitField) : State := { s with bw := s.bw.add f.val f.width }

/-- `FSE_ENC_BEGIN` (R261). -/
def execFseEncBegin (slot sel : BitVec 4) (s : State) : Out :=
  withFour slot s fun k => withFour sel s fun e =>
    match s.ct[k] with
    | none => raise .stateInvalid s
    | some t =>
      if !t.has s.a0 then raise .argRange s
      else .next (s.setES e (encBegin t s.a0))

/-- `FSE_ENC` (R263). -/
def execFseEnc (slot sel : BitVec 4) (s : State) : Out :=
  withFour slot s fun k => withFour sel s fun e =>
    match s.ct[k] with
    | none => raise .stateInvalid s
    | some t =>
      let st := (s.es[e]).toNat
      if !s.bw.valid then raise .stateInvalid s
      else if !t.stateOk st then raise .stateInvalid s
      else if !t.has s.a0 then raise .argRange s
      else if Config.bwAcc < s.bw.cnt + (encField t st s.a0).width then raise .bwAccFull s
      else .next ((s.addField (encField t st s.a0)).setES e (encNext t st s.a0))

/-- `FSE_ENC_FINISH` (R265). -/
def execFseEncFinish (slot sel : BitVec 4) (s : State) : Out :=
  withFour slot s fun k => withFour sel s fun e =>
    match s.ct[k] with
    | none => raise .stateInvalid s
    | some t =>
      let st := (s.es[e]).toNat
      if !s.bw.valid then raise .stateInvalid s
      else if !t.stateOk st then raise .stateInvalid s
      else if Config.bwAcc < s.bw.cnt + (encFinish t st).width then raise .bwAccFull s
      else .next (s.addField (encFinish t st)).flushWriter

/-- `FSE_DEC_INIT` (R266). -/
def execFseDecInit (slot sel : BitVec 4) (s : State) : Out :=
  withFour slot s fun k => withFour sel s fun e =>
    match s.dt[k] with
    | none => raise .stateInvalid s
    | some t =>
      if !s.br.valid then raise .stateInvalid s
      else if Config.brWindow < s.br.unl + t.log then raise .brNeedsLoad s
      else .next ((s.readerSkip t.log).setDS e (s.readerBits t.log))

/-- `FSE_DEC` (R267); `u` is the update flag. -/
def execFseDec (slot sel : BitVec 4) (u : Bool) (s : State) : Out :=
  withFour slot s fun k => withFour sel s fun e =>
    match s.dt[k] with
    | none => raise .stateInvalid s
    | some t =>
      let st := (s.ds[e]).toNat
      let x := t.entry st
      if 2 ^ t.log ≤ st then raise .stateInvalid s
      else if !u then .next (s.setRes0 (res64 x.sym.toNat))
      else if !s.br.valid then raise .stateInvalid s
      else if Config.brWindow < s.br.unl + x.nb.toNat then raise .brNeedsLoad s
      else
        .next (((s.readerSkip x.nb.toNat).setDS e (x.ns.toNat + s.readerBits x.nb.toNat)).setRes0
          (res64 x.sym.toNat))

/-! ### Two-state whole-string coding -/

/-- The loop of R270 over the symbols before the last two, last first. `a` is the state of the next symbol's parity
and `b` the other one; the fields end with the final states, `st[1]` then `st[0]`. -/
def compress2Loop (t : FseCT) : List Byte → Nat → Nat → List BitField
  | [], a, b => [encFinish t a, encFinish t b]
  | x :: xs, a, b => encField t a x.toNat :: compress2Loop t xs b (encNext t a x.toNat)

/-- The fields `FSE_COMPRESS2` writes for a string of at least two symbols (R270). -/
def compress2Fields (t : FseCT) (xs : List Byte) : List BitField :=
  match xs.reverse with
  | y1 :: y2 :: rest => compress2Loop t rest (encBegin t y1.toNat) (encBegin t y2.toNat)
  | _ => []

/-- The body of `FSE_COMPRESS2` (R270): the stream, empty where it does not fit. -/
def compress2 (t : FseCT) (xs : List Byte) (cap : Nat) : List Byte := closedStream (compress2Fields t xs) cap

/-- `FSE_COMPRESS2` (R270). A source byte the table does not hold raises ARG_RANGE, as R270 says, though R560 says that data
in a source window does not (log entry 28). -/
def execFseCompress2 (slot : BitVec 4) (s : State) : Out :=
  withFour slot s fun k =>
    if !windowPairOk s.a0 s.a1 s.a2 s.a3 then raise .argRange s
    else
      match s.ct[k] with
      | none => raiseDst { code := .stateInvalid, off := 0 } s.a2 s.a3 s
      | some t =>
        let xs := s.window s.a0 s.a1
        if s.a1 < 2 || xs.any (fun x => !t.has x.toNat) then raiseDst { code := .argRange, off := 0 } s.a2 s.a3 s
        else
          let out := compress2 t xs s.a3
          .next ((s.writeOut s.a2 s.a3 out).setRes0 (res64 out.length))

/-- The loop of R275. `sa` is the state that gives the next symbol, `sb` the other one, `o` the symbols written; the
fuel is the capacity (R276). -/
def decompress2Loop (t : FseDT) (cap len : Nat) : Nat → Stream → Nat → Nat → Nat → Except Err (List Byte)
  | 0, _, _, _, _ => .error { code := .outputTooSmall, off := len }
  | fuel + 1, r, sa, sb, o =>
    if cap < o + 2 then .error { code := .outputTooSmall, off := len }
    else
      let x := t.entry sa
      let r' := r.skip x.nb.toNat
      if r'.pos < 0 then .ok [x.sym, (t.entry sb).sym]
      else
        match decompress2Loop t cap len fuel r' sb (x.ns.toNat + r.peek x.nb.toNat) (o + 1) with
        | .error e => .error e
        | .ok l => .ok (x.sym :: l)

/-- The body of `FSE_DECOMPRESS2` over the bytes of its source (R275). -/
def decompress2 (t : FseDT) (bs : List Byte) (cap : Nat) : Except Err (List Byte) :=
  match openStream bs with
  | .error e => .error e
  | .ok r =>
    let r1 := r.skip t.log
    decompress2Loop t cap bs.length (cap + 1) (r1.skip t.log) (r.peek t.log) (r1.peek t.log) 0

/-- `FSE_DECOMPRESS2` (R275). -/
def execFseDecompress2 (slot : BitVec 4) (s : State) : Out :=
  withFour slot s fun k =>
    if !windowPairOk s.a0 s.a1 s.a2 s.a3 then raise .argRange s
    else
      match s.dt[k] with
      | none => raiseDst { code := .stateInvalid, off := 0 } s.a2 s.a3 s
      | some t =>
        match decompress2 t (s.window s.a0 s.a1) s.a3 with
        | .error e => raiseDst e s.a2 s.a3 s
        | .ok out => .next ((s.writeOut s.a2 s.a3 out).setRes0 (res64 out.length))

/-- `FSE_GETSTATE` (R280). -/
def execFseGetstate (sel : BitVec 4) (s : State) : Out :=
  withFour sel s fun e =>
    .next ((s.setRes0 (res64 (s.es[e]).toNat)).setRes1 (res64 (s.ds[e]).toNat))

end Sys2Proof.Machine
end

