-- ==== Sys2Proof/Machine/HufBuild.lean ====
section
/-! DEFINITION. The Huffman table builder (`43_huffman_build.md`): code lengths, the length limit, canonical values,
the table description written and read, and the commands over them. -/

namespace Sys2Proof.Machine

/-! ### Tree and depths (R306 to R308) -/

/-- A leaf of R306: a symbol and its count. -/
structure HufLeaf where
  sym : Nat
  count : Nat
deriving DecidableEq, Repr

/-- A node of the tree of R307: a leaf, by its rank, or an internal node with its two children. -/
inductive HufTree where
  | leaf (rank : Nat)
  | node (a b : HufTree)
deriving DecidableEq, Repr

/-- A tree and its count. -/
structure HufNode where
  tree : HufTree
  count : Nat
deriving DecidableEq, Repr

/-- One step of the stable descending sort: a leaf goes after every leaf of no smaller count (R306). -/
def insertLeaf (x : HufLeaf) : List HufLeaf → List HufLeaf
  | [] => [x]
  | y :: ys => if x.count ≤ y.count then y :: insertLeaf x ys else x :: y :: ys

/-- `h[0..m-1]`: the counted symbols by descending count, ties by ascending symbol (R306). -/
def rankedLeaves (counts : List Nat) : List HufLeaf :=
  (counts.zipIdx.filter fun x => decide (0 < x.1)).foldl (fun l x => insertLeaf { sym := x.2, count := x.1 } l) []

/-- `pick()` (R307): the node taken, and the leaves (lowest count first) and internal nodes (oldest first) left. -/
def pickNode (tie : Config.HufTie) : List HufNode → List HufNode → Option (HufNode × List HufNode × List HufNode)
  | [], [] => none
  | [], n :: ns => some (n, [], ns)
  | l :: ls, [] => some (l, ls, [])
  | l :: ls, n :: ns =>
    if l.count < n.count ∨ (l.count = n.count ∧ tie = .leaf) then some (l, ls, n :: ns)
    else some (n, l :: ls, ns)

/-- The loop of R307; the last internal node made is the root. -/
def mergeNodes (tie : Config.HufTie) : Nat → List HufNode → List HufNode → List HufNode × List HufNode
  | 0, leaves, nodes => (leaves, nodes)
  | fuel + 1, leaves, nodes =>
    match pickNode tie leaves nodes with
    | none => (leaves, nodes)
    | some (a, leaves1, nodes1) =>
      match pickNode tie leaves1 nodes1 with
      | none => (leaves, nodes)
      | some (b, leaves2, nodes2) =>
        mergeNodes tie fuel leaves2 (nodes2 ++ [{ tree := .node a.tree b.tree, count := a.count + b.count }])

/-- The rank and depth of every leaf of a tree whose root has depth `d` (R308). -/
def treeDepths (d : Nat) : HufTree → List (Nat × Nat)
  | .leaf r => [(r, d)]
  | .node a b => treeDepths (d + 1) a ++ treeDepths (d + 1) b

/-- The length of every rank before limiting (R307, R308). -/
def rankLengths (tie : Config.HufTie) (h : List HufLeaf) : List Nat :=
  let leaves := (h.zipIdx.map fun x => ({ tree := .leaf x.2, count := x.1.count } : HufNode)).reverse
  let depths := (mergeNodes tie (h.length - 1) leaves []).2.flatMap fun n => treeDepths 0 n.tree
  (List.range h.length).map fun r => (depths.lookup r).getD 0

/-! ### Length limiting (R310) -/

/-- The last rank whose length is `v`. -/
def lastRankOf (nb : List Nat) (v : Nat) : Option Nat :=
  nb.zipIdx.foldl (fun b x => if x.1 = v then some x.2 else b) none

/-- `rankLast[0..13]` after its first loop: entry `k ≥ 1` is the last rank of length `maxNb - k`. -/
def rankLastInit (nb : List Nat) (maxNb : Nat) : List (Option Nat) :=
  (List.range 14).map fun k => if 1 ≤ k ∧ k < maxNb then lastRankOf nb (maxNb - k) else none

/-- `while k > 1` of the repaying loop. -/
def repayDown (rankLast : List (Option Nat)) (count : Nat → Nat) : Nat → Nat
  | 0 => 0
  | k + 1 =>
    if k = 0 then 1
    else
      match rankLast.getD (k + 1) none, rankLast.getD k none with
      | none, _ => repayDown rankLast count k
      | some _, none => k + 1
      | some hi, some lo => if count hi ≤ 2 * count lo then k + 1 else repayDown rankLast count k

/-- `while k ≤ 12 and rankLast[k] = NONE`. -/
def repayUp (rankLast : List (Option Nat)) : Nat → Nat → Nat
  | 0, k => k
  | fuel + 1, k => if k ≤ 12 ∧ rankLast.getD k none = none then repayUp rankLast fuel (k + 1) else k

/-- What the limiting loops change. -/
structure LimitState where
  nb : List Nat
  rankLast : List (Option Nat)
  cost : Int
deriving DecidableEq, Repr

/-- One round of `while cost > 0`. A `NONE` at the rank chosen cannot occur (log entry 20). -/
def repayStep (count : Nat → Nat) (maxNb : Nat) (t : LimitState) : LimitState :=
  let k := repayUp t.rankLast 13 (repayDown t.rankLast count (highestBit t.cost.toNat + 1))
  match t.rankLast.getD k none with
  | none => { t with cost := 0 }
  | some pos =>
    let nb := t.nb.set pos (t.nb.getD pos 0 + 1)
    let below := if t.rankLast.getD (k - 1) none = none then t.rankLast.set (k - 1) (some pos) else t.rankLast
    let left := if pos = 0 then none else if nb.getD (pos - 1) 0 + k ≠ maxNb then none else some (pos - 1)
    { nb := nb, rankLast := below.set k left, cost := t.cost - 2 ^ (k - 1) }

/-- `while cost > 0`; every round lowers `cost` by at least 1. -/
def repayLoop (count : Nat → Nat) (maxNb : Nat) : Nat → LimitState → LimitState
  | 0, t => t
  | fuel + 1, t => if 0 < t.cost then repayLoop count maxNb fuel (repayStep count maxNb t) else t

/-- `while h[n].nb = maxNb: n ← n - 1`, of `n + 1` (log entry 20). -/
def dropFull (nb : List Nat) (maxNb : Nat) : Nat → Nat
  | 0 => 0
  | n + 1 => if nb.getD n 0 = maxNb then dropFull nb maxNb n else n + 1

/-- `while cost < 0`, over the lengths, `n + 1`, `rankLast[1]` and how often it runs. -/
def overshootLoop (maxNb : Nat) : Nat → List Nat → Nat → Option Nat → List Nat
  | 0, nb, _, _ => nb
  | fuel + 1, nb, n1, last1 =>
    match last1 with
    | none =>
      let m := dropFull nb maxNb n1
      overshootLoop maxNb fuel (nb.set m (nb.getD m 0 - 1)) m (some m)
    | some r => overshootLoop maxNb fuel (nb.set (r + 1) (nb.getD (r + 1) 0 - 1)) n1 (some (r + 1))

/-- `setMaxHeight(h, last, maxNb)` (R310), on lengths nondecreasing in rank. -/
def setMaxHeight (counts nb : List Nat) (maxNb : Nat) : List Nat :=
  let largest := listMax nb
  if largest ≤ maxNb then nb
  else
    let debt := (nb.map fun b => if maxNb < b then 2 ^ (largest - maxNb) - 2 ^ (largest - b) else 0).sum
    let clamped := nb.map fun b => min b maxNb
    let t0 : LimitState :=
      { nb := clamped, rankLast := rankLastInit clamped maxNb, cost := ((debt >>> (largest - maxNb) : Nat) : Int) }
    let t := repayLoop (fun r => counts.getD r 0) maxNb t0.cost.toNat t0
    overshootLoop maxNb (-t.cost).toNat t.nb (clamped.countP fun b => decide (b < maxNb)) (t.rankLast.getD 1 none)

/-- `buildLengths(COUNTS, maxSym, maxBits)` (R306 to R310): the length of every symbol. -/
def buildLengths (tie : Config.HufTie) (counts : List Nat) (maxBits : Nat) : List Nat :=
  let h := rankedLeaves counts
  let nb := setMaxHeight (h.map HufLeaf.count) (rankLengths tie h) maxBits
  let bySym := h.zipIdx.map fun x => (x.1.sym, nb.getD x.2 0)
  (List.range counts.length).map fun s => (bySym.lookup s).getD 0

/-! ### Canonical values (R312) -/

/-- `start[M - d]`. -/
def canonicalStart (lens : List Nat) (M : Nat) : Nat → Nat
  | 0 => 0
  | d + 1 => (canonicalStart lens M d + lens.count (M - d)) / 2

/-- `val[s]` for a symbol of length `r > 0` that follows `before` symbols of the same length. -/
def canonicalValue (lens : List Nat) (M r before : Nat) : Nat := canonicalStart lens M (M - r) + before

/-- `canonical(len)` (R312); 0 where the symbol has no code. -/
def canonical (lens : List Nat) : List Nat :=
  (lens.zipIdx).map fun x =>
    if x.1 = 0 then 0 else canonicalValue lens (listMax lens) x.1 ((lens.take x.2).count x.1)

/-- The table of a list of code lengths (R305). -/
def hufTableOf (lens : List Nat) : HufTable :=
  { maxSym := BitVec.ofNat 8 (lens.length - 1)
    maxBits := BitVec.ofNat 4 (listMax lens)
    len := tab256 fun s => BitVec.ofNat 4 (lens.getD s 0)
    val := tab256 fun s => BitVec.ofNat 16 ((canonical lens).getD s 0) }

/-- The table R305 and R375 build from a histogram. -/
def buildHuf (tie : Config.HufTie) (counts : List Nat) (maxBits : Nat) : HufTable :=
  hufTableOf (buildLengths tie counts maxBits)

/-- `len[s]`. -/
def HufTable.lenOf (t : HufTable) (s : Nat) : Nat := (at256 t.len s 0).toNat

/-- `val[s]`. -/
def HufTable.valOf (t : HufTable) (s : Nat) : Nat := (at256 t.val s 0).toNat

/-! ### Writing a table description (R320 to R322) -/

/-- The weight of a symbol (R320). -/
def HufTable.weight (t : HufTable) (s : Nat) : Nat :=
  if t.lenOf s = 0 then 0 else t.maxBits.toNat + 1 - t.lenOf s

/-- The weights of symbols `0 .. maxSym - 1` (R320). -/
def HufTable.weights (t : HufTable) : List Nat := (List.range t.maxSym.toNat).map t.weight

/-- `compressWeights(w, room)` (R321). -/
def compressWeights (w : List Nat) (room : Nat) : Except Err (Option (List Byte)) :=
  let c := w.length
  let cnt := (List.range 13).map fun x => w.count x
  let ms := lastNonzero cnt
  let largest := listMax cnt
  if c ≤ 1 ∨ largest = c ∨ largest = 1 then .ok none
  else
    let tl := optimalTableLog 6 c ms 2
    match normalize (cnt.take (ms + 1)) tl c with
    | .error e => .error e
    | .ok norm =>
      match ncountBytes norm tl, buildCT norm tl with
      | some hdr, some t =>
        let body := compress2 t (w.map fun x => BitVec.ofNat 8 x) (room - hdr.length)
        if body.length = 0 then .ok none else .ok (some (hdr ++ body))
      | _, _ => .error { code := .fseCorrupt, off := 0 }

/-- The raw form's bytes: two 4-bit weights to a byte, the first in the high nibble (R124, R322). -/
def packNibbles : List Nat → List Byte
  | [] => []
  | [a] => [BitVec.ofNat 8 (a * 16)]
  | a :: b :: rest => BitVec.ofNat 8 (a * 16 + b) :: packNibbles rest

/-- The raw form (R322), or why there is none. -/
def writeRawWeights (c : Nat) (w : List Nat) (cap : Nat) : Except Err (List Byte) :=
  if 128 < c then .error { code := .hufNoTableForm, off := 0 }
  else if cap < (c + 1) / 2 + 1 then .error { code := .dstTooSmall, off := 0 }
  else .ok (BitVec.ofNat 8 (127 + c) :: packNibbles w)

/-- The body of `HUF_WRITE` (R322). -/
def hufDescription (t : HufTable) (cap : Nat) : Except Err (List Byte) :=
  let c := t.maxSym.toNat
  let w := t.weights
  match (if 1 < cap then compressWeights w (cap - 1) else .ok none) with
  | .error e => .error e
  | .ok (some comp) =>
    if 1 < comp.length ∧ comp.length < c / 2 then .ok (BitVec.ofNat 8 comp.length :: comp)
    else writeRawWeights c w cap
  | .ok none => writeRawWeights c w cap

/-! ### Reading a table description (R330 to R332) -/

/-- The 4-bit values of the raw form. -/
def unpackNibbles : List Byte → List Nat
  | [] => []
  | b :: bs => b.toNat / 16 :: b.toNat % 16 :: unpackNibbles bs

/-- The transmitted weights and the bytes used (R330). -/
def readWeights (bs : List Byte) : Except Err (List Nat × Nat) :=
  match bs with
  | [] => .error { code := .inputTooShort, off := 0 }
  | b :: rest =>
    let h := b.toNat
    if 128 ≤ h then
      let c := h - 127
      let used := 1 + (c + 1) / 2
      if bs.length < used then .error { code := .inputTooShort, off := bs.length }
      else .ok ((unpackNibbles rest).take c, used)
    else if bs.length < 1 + h then .error { code := .inputTooShort, off := bs.length }
    else
      let src := rest.take h
      match shiftErr 1 (readNCount src 255 Config.weightMaxLog) with
      | .error e => .error e
      | .ok d =>
        match buildDT d.norm d.log with
        | none => .error { code := .fseCorrupt, off := 0 }
        | some t =>
          match shiftErr (1 + d.used) (decompress2 t (src.drop d.used) 255) with
          | .error e => .error e
          | .ok w => .ok (w.map BitVec.toNat, 1 + h)

/-- The sum of R331. -/
def weightTotal (w : List Nat) : Nat := (w.map fun x => 2 ^ x / 2).sum

/-- The checks of R331: the table log and all weights, the implicit one last. -/
def completeWeights (w : List Nat) : Except Err (Nat × List Nat) :=
  let total := weightTotal w
  let log := highestBit total + 1
  let rest := 2 ^ log - total
  let all := w ++ [highestBit rest + 1]
  if w.any (fun x => decide (12 ≤ x)) then .error { code := .hufCorrupt, off := 0 }
  else if total = 0 then .error { code := .hufCorrupt, off := 0 }
  else if Config.hufDecMaxLog < log then .error { code := .tableLogTooLarge, off := 0 }
  else if 2 ^ highestBit rest ≠ rest then .error { code := .hufCorrupt, off := 0 }
  else if 256 < all.length then .error { code := .hufCorrupt, off := 0 }
  else if all.count 1 < 2 ∨ all.count 1 % 2 = 1 then .error { code := .hufCorrupt, off := 0 }
  else .ok (log, all)

/-- The entries of R332: for each weight in rising order, each symbol of that weight fills `2^(w-1)` indexes. -/
def hufEntries (log : Nat) (w : List Nat) : List HufEntry :=
  (List.range log).flatMap fun x =>
    w.zipIdx.flatMap fun y =>
      if y.1 = x + 1 then List.replicate (2 ^ x) { sym := BitVec.ofNat 8 y.2, nb := BitVec.ofNat 4 (log - x) }
      else []

/-- `decodeTable(w)` (R331, R332). -/
def decodeHufTable (w : List Nat) : Except Err HufDec :=
  match completeWeights w with
  | .error e => .error e
  | .ok (log, all) => .ok { log := log, entries := hufEntries log all }

/-- What the body of `HUF_READ` returns: the table, the bytes used and the number of symbols. -/
structure HufDescription where
  table : HufDec
  used : Nat
  symbols : Nat
deriving DecidableEq, Repr

/-- The body of `HUF_READ` over the bytes of its window (R330). -/
def readHuf (bs : List Byte) : Except Err HufDescription :=
  match readWeights bs with
  | .error e => .error e
  | .ok (w, used) =>
    match decodeHufTable w with
    | .error e => .error e
    | .ok t => .ok { table := t, used := used, symbols := w.length + 1 }

/-! ### The commands -/

/-- `HUF_OPTLOG` (R300; the sample count is a count operand, R114, log entry 11). -/
def execHufOptlog (s : State) : Out :=
  if s.a0 < 1 || Config.hufMaxBits < s.a0 || !symbolOk s.a2 || !countOk s.a1 then raise .argRange s
  else if s.a1 < 2 then raise .needsRle s
  else .next (s.setRes0 (res64 (optimalTableLog s.a0 s.a1 s.a2 1)))

/-- `HT[1]` holding a new table that awaits commit. -/
def State.setPending (s : State) (t : HufTable) : State := { s with ht := s.ht.set 1 (some t), hpend := true }

/-- The checks of `HUF_BUILD` (R305). -/
def hufBuildCheck (counts : List Nat) (maxBits maxSym : Nat) : Option ErrCode :=
  let m := counts.countP fun c => decide (0 < c)
  if maxBits < 1 || Config.hufMaxBits < maxBits || !symbolOk maxSym then some .argRange
  else if m < 2 then some .needsRle
  else if counts.getD maxSym 0 = 0 || decide (2 ^ maxBits < m) then some .argRange
  else none

/-- `HUF_BUILD` (R305). -/
def execHufBuild (s : State) : Out :=
  match hufBuildCheck (s.countList s.a1) s.a0 s.a1 with
  | some c => raise c s
  | none =>
    let t := buildHuf s.params.hufTie (s.countList s.a1) s.a0
    .next ((s.setPending t).setRes0 (res64 t.maxBits.toNat))

/-- `HUF_WRITE` (R322). -/
def execHufWrite (sel : BitVec 4) (s : State) : Out :=
  withTwo sel s fun e =>
    if !windowOk s.a0 s.a1 then raise .argRange s
    else
      match s.ht[e] with
      | none => raiseDst { code := .stateInvalid, off := 0 } s.a0 s.a1 s
      | some t =>
        match hufDescription t s.a1 with
        | .error x => raiseDst x s.a0 s.a1 s
        | .ok out => .next ((s.writeOut s.a0 s.a1 out).setRes0 (res64 out.length))

/-- `HUF_READ` (R330): `HD.valid ← 0` before the description is read. -/
def execHufRead (s : State) : Out :=
  if !windowOk s.a0 s.a1 then raise .argRange s
  else
    match readHuf (s.window s.a0 s.a1) with
    | .error e => raiseErr e { s with hd := none }
    | .ok d =>
      .next ((({ s with hd := some d.table }.setRes0 (res64 d.used)).setRes1 (res64 d.table.log)).setRes2
        (res64 d.symbols))

/-- `val[s]` as `HUF_GETCODE` reads it: a free value where the symbol has no code (log entry 15). -/
def HufTable.valRead (t : HufTable) (tag s : Nat) : Nat :=
  if t.lenOf s = 0 then (Config.freeCodeValue tag).toNat else t.valOf s

/-- `HUF_GETCODE` (R340). -/
def execHufGetcode (sel : BitVec 4) (s : State) : Out :=
  withTwo sel s fun e =>
    if !symbolOk s.a0 then raise .argRange s
    else
      match s.ht[e] with
      | none => raise .stateInvalid s
      | some t =>
        .next (((({ s with free := s.free + 1 }.setRes0 (res64 (t.lenOf s.a0))).setRes1
          (res64 (t.valRead s.free s.a0))).setRes2 (res64 t.maxSym.toNat)).setRes3 (res64 t.maxBits.toNat))

/-- Index `i` of the decoding table. -/
def HufDec.entry (t : HufDec) (i : Nat) : HufEntry := t.entries.getD i { sym := 0, nb := 0 }

/-- `HUF_GETDT` (R341). -/
def execHufGetdt (s : State) : Out :=
  match s.hd with
  | none => raise .stateInvalid s
  | some t =>
    if 2 ^ t.log ≤ s.a0 then raise .argRange s
    else
      .next (((s.setRes0 (res64 (t.entry s.a0).sym.toNat)).setRes1 (res64 (t.entry s.a0).nb.toNat)).setRes2
        (res64 t.log))

end Sys2Proof.Machine
end

