-- ==== Sys2Proof/Machine/HufCodec.lean ====
section
/-! DEFINITION. The Huffman encoder and decoder, the previous table, and the literals section (`44_huffman_codec.md`,
layouts of `30_encoding.md` R120 to R124). -/

namespace Sys2Proof.Machine

/-! ### Streams (R350 to R357) -/

/-- The field of one symbol (R313). -/
def HufTable.field (t : HufTable) (x : Byte) : BitField := { val := t.valOf x.toNat, width := t.lenOf x.toNat }

/-- `enc1` (R350): the symbols last first; empty where the stream does not fit. -/
def enc1 (t : HufTable) (xs : List Byte) (cap : Nat) : List Byte := closedStream (xs.reverse.map t.field) cap

/-- The four segments of R352 and R123. -/
def fourSegments (xs : List Byte) : List (List Byte) :=
  let seg := (xs.length + 3) / 4
  [xs.take seg, (xs.drop seg).take seg, (xs.drop (2 * seg)).take seg, xs.drop (3 * seg)]

/-- The streams of the segments, from offset `p` on; `none` where one does not fit. -/
def segmentStreams (t : HufTable) (cap : Nat) : Nat → List (List Byte) → Option (List (List Byte))
  | _, [] => some []
  | p, seg :: rest =>
    let out := enc1 t seg (cap - p)
    if out.length = 0 then none
    else
      match segmentStreams t cap (p + out.length) rest with
      | none => none
      | some l => some (out :: l)

/-- The jump table (R123) and the streams. -/
def joinStreams (streams : List (List Byte)) : List Byte :=
  (streams.take 3).flatMap (fun x => leBytes 2 x.length) ++ streams.flatten

/-- The body of `HUF_ENC4` (R352): empty where it does not fit. -/
def enc4 (t : HufTable) (xs : List Byte) (cap : Nat) : List Byte :=
  if cap < 17 ∨ xs.length < 12 then []
  else
    match segmentStreams t cap 6 (fourSegments xs) with
    | none => []
    | some streams => joinStreams streams

/-- The loop of `dec1` (R355): the symbols, and the reader after them. -/
def decodeSymbols (t : HufDec) : Nat → Stream → List Byte × Stream
  | 0, r => ([], r)
  | n + 1, r =>
    let e := t.entry (r.peek t.log)
    let (l, r') := decodeSymbols t n (r.skip e.nb.toNat)
    (e.sym :: l, r')

/-- `dec1` over the bytes of its source (R355). -/
def dec1 (t : HufDec) (bs : List Byte) (n : Nat) : Except Err (List Byte) :=
  match openStream bs with
  | .error e => .error e
  | .ok r =>
    let (l, r') := decodeSymbols t n r
    if r'.pos = 0 then .ok l else .error { code := .bitstreamNotConsumed, off := bs.length }

/-- The streams of R357: `(offset, size, symbols)` each, decoded in order. -/
def decodeStreams (t : HufDec) (bs : List Byte) : List (Nat × Nat × Nat) → Except Err (List Byte)
  | [] => .ok []
  | (p, size, n) :: rest =>
    match shiftErr p (dec1 t ((bs.drop p).take size) n) with
    | .error e => .error e
    | .ok l =>
      match decodeStreams t bs rest with
      | .error e => .error e
      | .ok l' => .ok (l ++ l')

/-- The body of `HUF_DEC4` over the bytes of its source (R357). -/
def dec4 (t : HufDec) (bs : List Byte) (n : Nat) : Except Err (List Byte) :=
  let len := bs.length
  let s1 := leValue (bs.take 2)
  let s2 := leValue ((bs.drop 2).take 2)
  let s3 := leValue ((bs.drop 4).take 2)
  let seg := (n + 3) / 4
  if len < 10 then .error { code := .inputTooShort, off := len }
  else if len ≤ 6 + s1 + s2 + s3 then .error { code := .inputTooShort, off := len }
  else if n < 3 * seg then .error { code := .hufCorrupt, off := 0 }
  else
    decodeStreams t bs
      [(6, s1, seg), (6 + s1, s2, seg), (6 + s1 + s2, s3, seg),
        (6 + s1 + s2 + s3, len - 6 - s1 - s2 - s3, n - 3 * seg)]

/-- `HUF_ENC1` and `HUF_ENC4` (R350, R352): the same checks, then `enc`. A source byte without a code raises ARG_RANGE, as
R350 says, though R560 says that data in a source window does not (log entry 28). -/
def hufEncode (enc : HufTable → List Byte → Nat → List Byte) (sel : BitVec 4) (s : State) : Out :=
  withTwo sel s fun e =>
    if !windowPairOk s.a0 s.a1 s.a2 s.a3 then raise .argRange s
    else if Config.blockMax < s.a1 then raiseDst { code := .argRange, off := 0 } s.a2 s.a3 s
    else
      match s.ht[e] with
      | none => raiseDst { code := .stateInvalid, off := 0 } s.a2 s.a3 s
      | some t =>
        let xs := s.window s.a0 s.a1
        if xs.any (fun x => t.lenOf x.toNat == 0) then raiseDst { code := .argRange, off := 0 } s.a2 s.a3 s
        else .next ((s.writeOut s.a2 s.a3 (enc t xs s.a3)).setRes0 (res64 (enc t xs s.a3).length))

/-- `HUF_ENC1` (R350). -/
def execHufEnc1 (sel : BitVec 4) (s : State) : Out := hufEncode enc1 sel s

/-- `HUF_ENC4` (R352). -/
def execHufEnc4 (sel : BitVec 4) (s : State) : Out := hufEncode enc4 sel s

/-- `HUF_DEC1` and `HUF_DEC4` (R355, R357): the same checks, then `dec`, which gives exactly `A3` bytes. -/
def hufDecode (dec : HufDec → List Byte → Nat → Except Err (List Byte)) (s : State) : Out :=
  if !windowPairOk s.a0 s.a1 s.a2 s.a3 then raise .argRange s
  else if Config.blockMax < s.a3 then raiseDst { code := .argRange, off := 0 } s.a2 s.a3 s
  else
    match s.hd with
    | none => raiseDst { code := .stateInvalid, off := 0 } s.a2 s.a3 s
    | some t =>
      match dec t (s.window s.a0 s.a1) s.a3 with
      | .error e => raiseDst e s.a2 s.a3 s
      | .ok out => .next { s with mem := s.mem.writeBytes s.a2 out }

/-- `HUF_DEC1` (R355). -/
def execHufDec1 (s : State) : Out := hufDecode dec1 s

/-- `HUF_DEC4` (R357). -/
def execHufDec4 (s : State) : Out := hufDecode dec4 s

/-! ### Cost estimate and the previous table (R360 to R363) -/

/-- `canEncode(T, cnt, ms)` (R360), for the counts of symbols `0 .. ms`. -/
def HufTable.canEncode (t : HufTable) (counts : List Nat) : Bool :=
  decide (counts.length ≤ t.maxSym.toNat + 1)
    && counts.zipIdx.all fun x => x.1 == 0 || decide (0 < t.lenOf x.2)

/-- `est(T)` (R360, R375). -/
def HufTable.estimate (t : HufTable) (counts : List Nat) : Nat :=
  (counts.zipIdx.map fun x => x.1 * t.lenOf x.2).sum / 8

/-- `HUF_EST` (R360); the range of `A0` is checked first (log entry 24). -/
def execHufEst (sel : BitVec 4) (s : State) : Out :=
  withTwo sel s fun e =>
    if !symbolOk s.a0 then raise .argRange s
    else
      match s.ht[e] with
      | none => .next ((s.setRes0 0).setRes1 0)
      | some t =>
        .next ((s.setRes0 (res64 (t.estimate (s.countList s.a0)))).setRes1
          (res64 (t.canEncode (s.countList s.a0)).toNat))

/-- `HUF_COMMIT` (R362). -/
def execHufCommit (s : State) : Out :=
  .next (if s.hpend then { s with ht := s.ht.set 0 s.ht[1], hpend := false } else s)

/-- `HUF_DISCARD` (R363). -/
def execHufDiscard (s : State) : Out := .next { s with hpend := false }

/-! ### Literals section encoder (R370, R375) -/

/-- The header of a Raw (`t = 0`) or RLE (`t = 1`) section of `n` bytes (R370). -/
def plainHeader (t n : Nat) : List Byte :=
  if n ≤ 31 then leBytes 1 (t + n * 2 ^ 3)
  else if n ≤ 4095 then leBytes 2 (t + 1 * 2 ^ 2 + n * 2 ^ 4)
  else leBytes 3 (t + 3 * 2 ^ 2 + n * 2 ^ 4)

/-- `hs` (R370, R375). -/
def codedHeaderSize (n : Nat) : Nat := if n < 1024 then 3 else if n < 16384 then 4 else 5

/-- The header of a Compressed (`t = 2`) or Treeless (`t = 3`) section (R370). -/
def codedHeader (t n total : Nat) : List Byte :=
  if n < 1024 then leBytes 3 (t + (if n < 256 then 0 else 1) * 2 ^ 2 + n * 2 ^ 4 + total * 2 ^ 14)
  else if n < 16384 then leBytes 4 (t + 2 * 2 ^ 2 + n * 2 ^ 4 + total * 2 ^ 18)
  else leBytes 5 (t + 3 * 2 ^ 2 + n * 2 ^ 4 + total * 2 ^ 22)

/-- `minGain(n)` (R375, D23). -/
def minGain (n : Nat) : Nat := (n >>> Config.minGainLog) + 2

/-- What `LIT_ENCODE` leaves: the section and its type, or an error; and `HT[1]` and `HPEND`. -/
structure LitEncoded where
  out : Except Err (List Byte)
  kind : Nat
  ht1 : Option HufTable
  pending : Bool
deriving Repr

/-- A section that must fit the capacity: `DST_TOO_SMALL` otherwise; nothing is pending after it. -/
def plainSection (kind : Nat) (out : List Byte) (cap : Nat) (ht1 : Option HufTable) : LitEncoded :=
  { out := if cap < out.length then .error { code := .dstTooSmall, off := 0 } else .ok out
    kind := kind, ht1 := ht1, pending := false }

/-- `emit raw` (R375). -/
def rawSection (lits : List Byte) (cap : Nat) (ht1 : Option HufTable) : LitEncoded :=
  plainSection 0 (plainHeader 0 lits.length ++ lits) cap ht1

/-- `emit rle` (R375). -/
def rleSection (lits : List Byte) (cap : Nat) (ht1 : Option HufTable) : LitEncoded :=
  plainSection 1 (plainHeader 1 lits.length ++ lits.take 1) cap ht1

/-- From `room` to the end of R375: the section with table `t` of type `kind` and description `desc`, or raw. -/
def codedSection (lits : List Byte) (cap kind : Nat) (t : HufTable) (desc : List Byte) (ht1 : Option HufTable)
    (pending : Bool) : LitEncoded :=
  let n := lits.length
  let room := cap - codedHeaderSize n - desc.length
  let body := if n < 256 then enc1 t lits room else enc4 t lits room
  let total := desc.length + body.length
  if body.length = 0 ∨ n - minGain n ≤ total then rawSection lits cap ht1
  else { out := .ok (codedHeader kind n total ++ desc ++ body), kind := kind, ht1 := ht1, pending := pending }

/-- The path of R375 that builds a new table. -/
def newTableSection (tie : Config.HufTie) (ht0 : Option HufTable) (lits : List Byte) (counts : List Nat)
    (reuse : Bool) (cap : Nat) : LitEncoded :=
  let n := lits.length
  let t1 := buildHuf tie counts (optimalTableLog 11 n (counts.length - 1) 1)
  match hufDescription t1 (cap - codedHeaderSize n) with
  | .error _ => rawSection lits cap (some t1)
  | .ok desc =>
    match ht0 with
    | some t0 =>
      if reuse && decide (t0.estimate counts ≤ desc.length + t1.estimate counts) then
        codedSection lits cap 3 t0 [] (some t1) false
      else codedSection lits cap 2 t1 desc (some t1) true
    | none => codedSection lits cap 2 t1 desc (some t1) true

/-- The body of `LIT_ENCODE` (R375). -/
def encodeLiterals (tie : Config.HufTie) (ht0 ht1 : Option HufTable) (lits : List Byte) (cap : Nat) : LitEncoded :=
  let n := lits.length
  if n ≤ Config.litRawMax then rawSection lits cap ht1
  else if cap < codedHeaderSize n + 1 then
    { out := .error { code := .dstTooSmall, off := 0 }, kind := 0, ht1 := ht1, pending := false }
  else
    let h := histogram lits
    let counts := h.take (lastNonzero h + 1)
    let largest := listMax h
    if largest = n then rleSection lits cap ht1
    else if largest ≤ (n >>> 7) + 4 then rawSection lits cap ht1
    else
      match ht0 with
      | some t0 =>
        if n ≤ 1024 ∧ t0.canEncode counts = true then codedSection lits cap 3 t0 [] ht1 false
        else newTableSection tie ht0 lits counts (t0.canEncode counts) cap
      | none => newTableSection tie ht0 lits counts false cap

/-- `LIT_ENCODE` (R375). What it wrote to `HT[1]` and `HPEND` before an error stays (log entry 8). -/
def execLitEncode (s : State) : Out :=
  if !windowOk s.a0 s.a1 then raise .argRange s
  else
    let r := encodeLiterals s.params.hufTie s.ht[0] s.ht[1] s.ss.lit s.a1
    let t := { s with ht := s.ht.set 1 r.ht1, hpend := r.pending }
    match r.out with
    | .error e => raiseDst e s.a0 s.a1 t
    | .ok out => .next (((t.writeOut s.a0 s.a1 out).setRes0 (res64 out.length)).setRes1 (res64 r.kind))

/-! ### Literals section decoder (R380) -/

/-- A decoded literals section: the literals, the bytes used and the type. -/
structure LitDecoded where
  lits : List Byte
  used : Nat
  kind : Nat
deriving DecidableEq, Repr

/-- The Raw and RLE forms of R380 (R121). -/
def decodePlain (bs : List Byte) (kind sf : Nat) : Except Err LitDecoded :=
  let hs := if sf = 1 then 2 else if sf = 3 then 3 else 1
  let h := leValue (bs.take hs)
  let size := if hs = 1 then h >>> 3 else h >>> 4
  if bs.length < hs then .error { code := .inputTooShort, off := bs.length }
  else if Config.blockMax < size then .error { code := .literalsSize, off := 0 }
  else if kind = 0 then
    if bs.length < hs + size then .error { code := .inputTooShort, off := bs.length }
    else .ok { lits := (bs.drop hs).take size, used := hs + size, kind := kind }
  else if bs.length < hs + 1 then .error { code := .inputTooShort, off := bs.length }
  else .ok { lits := List.replicate size (bs.getD hs 0), used := hs + 1, kind := kind }

/-- The header of a Compressed or Treeless section (R122, R380): `hs`, the regenerated and the compressed size. -/
def codedSizes (bs : List Byte) (sf : Nat) : Except Err (Nat × Nat × Nat) :=
  let hs := if sf = 2 then 4 else if sf = 3 then 5 else 3
  let k := if sf = 2 then 14 else if sf = 3 then 18 else 10
  let h := leValue (bs.take hs)
  let size := (h >>> 4) % 2 ^ k
  let comp := (h >>> (4 + k)) % 2 ^ k
  if bs.length < hs then .error { code := .inputTooShort, off := bs.length }
  else if Config.blockMax < size then .error { code := .literalsSize, off := 0 }
  else if bs.length < hs + comp then .error { code := .inputTooShort, off := bs.length }
  else .ok (hs, size, comp)

/-- The streams of R380, after `d` bytes of table description. -/
def decodeCodedStreams (t : HufDec) (bs : List Byte) (kind sf hs size comp d : Nat) : Except Err LitDecoded :=
  let src := (bs.drop (hs + d)).take (comp - d)
  match shiftErr (hs + d) (if sf = 0 then dec1 t src size else dec4 t src size) with
  | .error e => .error e
  | .ok l => .ok { lits := l, used := hs + comp, kind := kind }

/-- The body of `LIT_DECODE` over the bytes of its window (R380), with `HD` after it. -/
def decodeLiterals (hd : Option HufDec) (bs : List Byte) : Option HufDec × Except Err LitDecoded :=
  match bs with
  | [] => (hd, .error { code := .inputTooShort, off := 0 })
  | b0 :: _ =>
    let kind := b0.toNat % 4
    let sf := b0.toNat / 4 % 4
    if kind < 2 then (hd, decodePlain bs kind sf)
    else
      match codedSizes bs sf with
      | .error e => (hd, .error e)
      | .ok (hs, size, comp) =>
        if kind = 2 then
          match shiftErr hs (readHuf ((bs.drop hs).take comp)) with
          | .error e => (none, .error e)
          | .ok d =>
            match decodeCodedStreams d.table bs kind sf hs size comp d.used with
            | .error e => (none, .error e)
            | .ok r => (some d.table, .ok r)
        else
          match hd with
          | none => (hd, .error { code := .repeatTableAbsent, off := 0 })
          | some t => (hd, decodeCodedStreams t bs kind sf hs size comp 0)

/-- `LIT_DECODE` (R380): on any failure `DLITN = 0` (R527, log entry 9). -/
def execLitDecode (s : State) : Out :=
  if !windowOk s.a0 s.a1 then raise .argRange { s with dlit := [] }
  else
    let r := decodeLiterals s.hd (s.window s.a0 s.a1)
    match r.2 with
    | .error e => raiseErr e { s with dlit := [], hd := r.1 }
    | .ok d =>
      .next ((({ s with dlit := d.lits, hd := r.1 }.setRes0 (res64 d.used)).setRes1 (res64 d.lits.length)).setRes2
        (res64 d.kind))

/-- `LIT_GET` (R385). -/
def execLitGet (s : State) : Out :=
  if s.dlit.length ≤ s.a0 then raise .argRange s
  else .next ((s.setRes0 (res64 (s.dlit.getD s.a0 0).toNat)).setRes1 (res64 s.dlit.length))

end Sys2Proof.Machine
end

