-- ==== Sys2Proof/Machine/SeqCodes.lean ====
section
/-! DEFINITION. The codes, baselines and extra bits of the three fields of a sequence (`46_sequences.md` R451 to
R458), and the true values of the sequence store (`45_match_finder.md` R431). -/

namespace Sys2Proof.Machine

/-- `llCode(LL)` (R452). -/
def llCode (ll : Nat) : Nat :=
  if ll < 16 then ll
  else if ll < 24 then 16 + (ll - 16) / 2
  else if ll < 32 then 20 + (ll - 24) / 4
  else if ll < 48 then 22 + (ll - 32) / 8
  else if ll < 64 then 24
  else highestBit ll + 19

/-- `mlCode(mlBase)` (R453). -/
def mlCode (mlb : Nat) : Nat :=
  if mlb < 32 then mlb
  else if mlb < 40 then 32 + (mlb - 32) / 2
  else if mlb < 48 then 36 + (mlb - 40) / 4
  else if mlb < 64 then 38 + (mlb - 48) / 8
  else if mlb < 96 then 40 + (mlb - 64) / 16
  else if mlb < 128 then 42
  else highestBit mlb + 36

/-- `ofCode(OV)` (R454). -/
def ofCode (ov : Nat) : Nat := highestBit ov

/-- The base and extra bits of literal-length codes 16 to 35 (R455). -/
def llHigh : List (Nat × Nat) :=
  [(16, 1), (18, 1), (20, 1), (22, 1), (24, 2), (28, 2), (32, 3), (40, 3), (48, 4), (64, 6), (128, 7), (256, 8),
    (512, 9), (1024, 10), (2048, 11), (4096, 12), (8192, 13), (16384, 14), (32768, 15), (65536, 16)]

/-- The base and extra bits of match-length codes 32 to 52 (R456). -/
def mlHigh : List (Nat × Nat) :=
  [(35, 1), (37, 1), (39, 1), (41, 1), (43, 2), (47, 2), (51, 3), (59, 3), (67, 4), (83, 4), (99, 5), (131, 7),
    (259, 8), (515, 9), (1027, 10), (2051, 11), (4099, 12), (8195, 13), (16387, 14), (32771, 15), (65539, 16)]

/-- The base and extra bits of a literal-length code (R455); `none` above 35. -/
def llRow (c : Nat) : Option (Nat × Nat) := if c ≤ 15 then some (c, 0) else llHigh[c - 16]?

/-- The base, of ML, and extra bits of a match-length code (R456); `none` above 52. -/
def mlRow (c : Nat) : Option (Nat × Nat) := if c ≤ 31 then some (c + 3, 0) else mlHigh[c - 32]?

/-- The largest code of a field: 0 literal length, 1 offset, 2 match length (R451). -/
def fieldMaxSym (f : Nat) : Nat :=
  match f with
  | 0 => 35
  | 1 => 31
  | _ => 52

/-- The largest table log of a field (R451). -/
def fieldMaxLog (f : Nat) : Nat :=
  match f with
  | 0 => 9
  | 1 => 8
  | _ => 9

/-- The true literal length of sequence `i` (R431). -/
def SeqStore.trueLL (ss : SeqStore) (i : Nat) (q : StoredSeq) : Nat :=
  q.lla.toNat + (if ss.longF = .literalLength ∧ ss.longP.toNat = i then 65536 else 0)

/-- The true match-length base of sequence `i` (R431). -/
def SeqStore.trueMlBase (ss : SeqStore) (i : Nat) (q : StoredSeq) : Nat :=
  q.mla.toNat + (if ss.longF = .matchLength ∧ ss.longP.toNat = i then 65536 else 0)

/-- A sequence with its true values: literal length, match-length base and Offset_Value. -/
structure TrueSeq where
  ll : Nat
  mlBase : Nat
  ov : Nat
deriving DecidableEq, Repr

/-- The store's sequences with their true values (R431). -/
def SeqStore.trueSeqs (ss : SeqStore) : List TrueSeq :=
  ss.seqs.zipIdx.map fun x => { ll := ss.trueLL x.2 x.1, mlBase := ss.trueMlBase x.2 x.1, ov := x.1.ofa.toNat }

end Sys2Proof.Machine
end

