-- ==== Sys2Proof/Machine/MatchFinder.lean ====
section
/-! DEFINITION. The match finder, the sequence store and the encoder's repeated offsets (`45_match_finder.md`). -/

namespace Sys2Proof.Machine

/-! ### Configuration and window (R400, R401, R37) -/

/-- `hashLog`, of the `MFCFG` layout R37. -/
def cfgHashLog (c : Nat) : Nat := c % 2 ^ 5

/-- `chainLog` (R37). -/
def cfgChainLog (c : Nat) : Nat := (c >>> 5) % 2 ^ 5

/-- `searchLength` (R37). -/
def cfgSearchLength (c : Nat) : Nat := (c >>> 10) % 2 ^ 4

/-- `windowLog` (R37). -/
def cfgWindowLog (c : Nat) : Nat := (c >>> 14) % 2 ^ 5

/-- `strategy` (R37). -/
def cfgStrategy (c : Nat) : Nat := (c >>> 19) % 2 ^ 3

/-- A number in `lo..hi`. -/
def inRange (lo hi n : Nat) : Bool := decide (lo ≤ n) && decide (n ≤ hi)

/-- The legal values of R37 and R400. -/
def cfgLegal (c : Nat) : Bool :=
  inRange 6 24 (cfgHashLog c) && inRange 6 24 (cfgChainLog c) && inRange 3 7 (cfgSearchLength c)
    && inRange 10 31 (cfgWindowLog c)

/-- `MF_RESET` (R400). -/
def execMfReset (s : State) : Out :=
  if 2 ^ 22 ≤ s.a1 then raise .argRange s
  else if !cfgLegal s.a1 then raise .argRange s
  else if cfgStrategy s.a1 ≠ 1 then raise .strategyUnsupported s
  else .next { s with mfcfg := BitVec.ofNat 32 s.a1, ctxBase := s.args[0], wbo := 0, lh := [], sh := [], mfValid := true }

/-- `WBO` after `MF_WINDOW` with block end `blockEnd` (R401). -/
def windowBase (windowLog wbo blockEnd : Nat) : Nat :=
  if 2 ^ windowLog ≤ blockEnd ∧ wbo < blockEnd - 2 ^ windowLog then blockEnd - 2 ^ windowLog else wbo

/-- `MF_WINDOW` (R401). -/
def execMfWindow (s : State) : Out :=
  if !s.mfValid then raise .stateInvalid s
  else if 2 ^ 32 ≤ s.a0 then raise .argRange s
  else .next { s with wbo := BitVec.ofNat 32 (windowBase (cfgWindowLog s.mfcfg.toNat) s.wbo.toNat s.a0) }

/-! ### Hashes (R405) -/

/-- `P4` to `P8`. -/
def hashPrime (m : Nat) : Nat :=
  match m with
  | 4 => 0x9E3779B1
  | 5 => 0xCF1BBCDCBB
  | 6 => 0xCF1BBCDCBF9B
  | 7 => 0xCF1BBCDCBFA563
  | _ => 0xCF1BBCDCB7A56463

/-- `h8` of an 8-byte value (R405). -/
def hash8 (v b : Nat) : Nat := (v * hashPrime 8 % 2 ^ 64) >>> (64 - b)

/-- `hN` of an 8-byte value (R405); its low 4 bytes are the 4-byte value. -/
def hashShort (v b m : Nat) : Nat :=
  if m = 4 then (v % 2 ^ 32 * hashPrime 4 % 2 ^ 32) >>> (32 - b)
  else ((v <<< (64 - 8 * m)) % 2 ^ 64 * hashPrime m % 2 ^ 64) >>> (64 - b)

/-! ### Block search (R411) -/

/-- What stays fixed during a search: the bytes of positions `[wb, fin)`, the table logs and `mls`, and the tag of
the free values a search outside its window sees (log entry 13). -/
structure SearchEnv where
  win : Array Byte
  wb : Nat
  fin : Nat
  hashLog : Nat
  chainLog : Nat
  mls : Nat
  tag : Nat
deriving Repr

/-- What a search changes. -/
structure SearchCursor where
  ip : Nat
  anchor : Nat
  o1 : Int
  o2 : Int
  lh : List (Nat × Word)
  sh : List (Nat × Word)
deriving DecidableEq, Repr

/-- One `emit`: the literals' positions `[litFrom, litTo)`, the offset code and the match-length base. -/
structure Emitted where
  litFrom : Nat
  litTo : Nat
  code : Int
  mlBase : Nat
deriving DecidableEq, Repr

/-- A match found at a position: its start, its length and its new offset, `none` for the repeated one. -/
structure MatchFound where
  ip : Nat
  ml : Nat
  off : Option Int
deriving DecidableEq, Repr

/-- `B(p)`; a free value outside the window (log entry 13). -/
def SearchEnv.byte (v : SearchEnv) (p : Nat) : Byte :=
  if v.wb ≤ p ∧ p < v.fin then v.win.getD (p - v.wb) 0 else Config.freeSearchByte v.tag p

/-- `rd(p, n)` (R405). -/
def SearchEnv.rd (v : SearchEnv) (p n : Nat) : Nat := leValue ((List.range n).map fun i => v.byte (p + i))

/-- `h8(p, hashLog)`. -/
def SearchEnv.longHash (v : SearchEnv) (p : Nat) : Nat := hash8 (v.rd p 8) v.hashLog

/-- `hN(p, chainLog, mls)`. -/
def SearchEnv.shortHash (v : SearchEnv) (p : Nat) : Nat :=
  hashShort (if v.mls = 4 then v.rd p 4 else v.rd p 8) v.chainLog v.mls

/-- `cnt(a, end, m)`; the fuel is `end - a`. -/
def SearchEnv.count (v : SearchEnv) : Nat → Nat → Nat → Nat
  | 0, _, _ => 0
  | fuel + 1, a, m => if v.byte a = v.byte m then SearchEnv.count v fuel (a + 1) (m + 1) + 1 else 0

/-- The match length from `ip` on, of which `n` bytes are known to match. -/
def SearchEnv.matchLength (v : SearchEnv) (ip m n : Nat) : Nat := v.count (v.fin - (ip + n)) (ip + n) (m + n) + n

/-- How far the backward extension goes; the fuel is `ip - anchor`. -/
def SearchEnv.back (v : SearchEnv) : Nat → Nat → Nat → Nat
  | 0, _, _ => 0
  | fuel + 1, ip, m =>
    if v.wb < m ∧ v.byte (ip - 1) = v.byte (m - 1) then SearchEnv.back v fuel (ip - 1) (m - 1) + 1 else 0

/-- A candidate `m` for position `ip`, of which `n` bytes match, extended both ways. -/
def SearchEnv.extend (v : SearchEnv) (anchor ip m n : Nat) : MatchFound :=
  let k := v.back (ip - anchor) ip m
  { ip := ip - k, ml := v.matchLength ip m n + k, off := some ((ip : Int) - m) }

/-- A hash table with position `p` at index `h`. -/
def setPosition (h p : Nat) (t : List (Nat × Word)) : List (Nat × Word) := sparseWrite h [BitVec.ofNat 32 p] t

/-- The position at index `h` of a hash table. -/
def getPosition (h : Nat) (t : List (Nat × Word)) : Nat := (sparseRead h t).toNat

/-- Both tables with position `p` at its hashes. -/
def SearchEnv.insert (v : SearchEnv) (p : Nat) (c : SearchCursor) : SearchCursor :=
  { c with lh := setPosition (v.longHash p) p c.lh, sh := setPosition (v.shortHash p) p c.sh }

/-- `rd(p - o, 4) = rd(p, 4)` for an offset `o > 0`. -/
def SearchEnv.repeats (v : SearchEnv) (o : Int) (p : Nat) : Bool :=
  decide (0 < o) && v.rd (p - o.toNat) 4 == v.rd p 4

/-- A candidate is used if it lies past the window base and its first `n` bytes match. -/
def SearchEnv.matches (v : SearchEnv) (m ip n : Nat) : Bool := decide (v.wb < m) && v.rd m n == v.rd ip n

/-- The probes of one position: the match found, if any, and the cursor with the tables updated. -/
def SearchEnv.probe (v : SearchEnv) (c : SearchCursor) : Option MatchFound × SearchCursor :=
  let ip := c.ip
  let sm := getPosition (v.shortHash ip) c.sh
  let lm := getPosition (v.longHash ip) c.lh
  let c1 := v.insert ip c
  if v.repeats c.o1 (ip + 1) then
    (some { ip := ip + 1, ml := v.matchLength (ip + 1) (ip + 1 - c.o1.toNat) 4, off := none }, c1)
  else if v.matches lm ip 8 then (some (v.extend c.anchor ip lm 8), c1)
  else if v.matches sm ip 4 then
    let nm := getPosition (v.longHash (ip + 1)) c1.lh
    let c2 := { c1 with lh := setPosition (v.longHash (ip + 1)) (ip + 1) c1.lh }
    if v.matches nm (ip + 1) 8 then (some (v.extend c.anchor (ip + 1) nm 8), c2)
    else (some (v.extend c.anchor ip sm 4), c2)
  else (none, c1)

/-- The immediate-repeat loop of R411. -/
def SearchEnv.repeatLoop (v : SearchEnv) : Nat → SearchCursor → List Emitted × SearchCursor
  | 0, c => ([], c)
  | fuel + 1, c =>
    if c.ip + 8 ≤ v.fin ∧ v.repeats c.o2 c.ip = true then
      let rl := v.matchLength c.ip (c.ip - c.o2.toNat) 4
      let c1 := { v.insert c.ip c with ip := c.ip + rl, anchor := c.ip + rl, o1 := c.o2, o2 := c.o1 }
      let r := SearchEnv.repeatLoop v fuel c1
      ({ litFrom := c.ip, litTo := c.ip, code := 0, mlBase := rl - 3 } :: r.1, r.2)
    else ([], c)

/-- The rest of an iteration of R411 after the match has been passed; `cur` is the position probed. -/
def SearchEnv.afterMatch (v : SearchEnv) (cur : Nat) (c : SearchCursor) : List Emitted × SearchCursor :=
  if c.ip + 8 ≤ v.fin then v.repeatLoop v.fin (v.insert (c.ip - 2) (v.insert (cur + 2) c)) else ([], c)

/-- The cursor past a match: a new offset is pushed on the repeated ones. -/
def SearchCursor.pass (c : SearchCursor) (m : MatchFound) : SearchCursor :=
  match m.off with
  | none => { c with ip := m.ip + m.ml, anchor := m.ip + m.ml }
  | some o => { c with ip := m.ip + m.ml, anchor := m.ip + m.ml, o1 := o, o2 := c.o1 }

/-- The `emit` of a match that follows literals from `anchor`. -/
def MatchFound.emitted (m : MatchFound) (anchor : Nat) : Emitted :=
  { litFrom := anchor
    litTo := m.ip
    code := match m.off with
      | none => 0
      | some o => o + 2
    mlBase := m.ml - 3 }

/-- The main loop of R411. -/
def SearchEnv.loop (v : SearchEnv) : Nat → SearchCursor → List Emitted × SearchCursor
  | 0, c => ([], c)
  | fuel + 1, c =>
    if c.ip + 8 < v.fin then
      match v.probe c with
      | (none, c1) => SearchEnv.loop v fuel { c1 with ip := c.ip + ((c.ip - c.anchor) >>> 8) + 1 }
      | (some m, c1) =>
        let a := v.afterMatch c.ip (c1.pass m)
        let r := SearchEnv.loop v fuel a.2
        (m.emitted c.anchor :: (a.1 ++ r.1), r.2)
    else ([], c)

/-- What a block search gives: the sequences, the final cursor and `saved`. -/
structure SearchResult where
  seqs : List Emitted
  cursor : SearchCursor
  saved : Nat
deriving DecidableEq, Repr

/-- `search(start, size)` (R411), with `REP.live` and the tables it starts from. -/
def SearchEnv.search (v : SearchEnv) (start size r0 r1 : Nat) (lh sh : List (Nat × Word)) : SearchResult :=
  let ip := if start = v.wb then start + 1 else start
  let maxRep := ip - v.wb
  let saved2 := if maxRep < r1 then r1 else 0
  let c : SearchCursor :=
    { ip := ip, anchor := start
      o1 := if maxRep < r0 then 0 else (r0 : Int)
      o2 := if maxRep < r1 then 0 else (r1 : Int)
      lh := lh, sh := sh }
  let r := v.loop (size + 1) c
  { seqs := r.1, cursor := r.2, saved := if maxRep < r0 then r0 else saved2 }

/-! ### Sequence store (R421) -/

/-- The store with a sequence and its literals appended: the store steps of R421. -/
def SeqStore.push (ss : SeqStore) (lits : List Byte) (mlBase ofa : Nat) : SeqStore :=
  let ll := lits.length
  { lit := ss.lit ++ lits
    seqs := ss.seqs ++ [{ lla := BitVec.ofNat 16 ll, mla := BitVec.ofNat 16 mlBase, ofa := BitVec.ofNat 32 ofa }]
    longF := if 65536 ≤ mlBase then .matchLength else if 65536 ≤ ll then .literalLength else ss.longF
    longP := if 65536 ≤ mlBase ∨ 65536 ≤ ll then BitVec.ofNat 32 ss.seqs.length else ss.longP
    codes := none }

/-- The stored Offset_Value of an offset code, `code + 1`; a free value where it does not fit (log entry 13). -/
def storedOffset (tag idx : Nat) (code : Int) : Nat :=
  if 0 ≤ code ∧ code + 1 < 2 ^ 32 then (code + 1).toNat else 1 + Config.freeOffset tag idx % (2 ^ 32 - 1)

/-- The store with the sequences of a search. -/
def SearchEnv.store (v : SearchEnv) : List Emitted → SeqStore → SeqStore
  | [], ss => ss
  | e :: es, ss =>
    let lits := (List.range (e.litTo - e.litFrom)).map fun i => v.byte (e.litFrom + i)
    SearchEnv.store v es (ss.push lits e.mlBase (storedOffset v.tag ss.seqs.length e.code))

/-- A staged repeated offset: `o`, or `saved` where it is 0 (R415); a free value where it does not fit. -/
def stagedOffset (tag i : Nat) (o : Int) (saved : Nat) : Word :=
  if o = 0 then BitVec.ofNat 32 saved
  else if 0 < o ∧ o < 2 ^ 32 then BitVec.ofNat 32 o.toNat
  else BitVec.ofNat 32 (Config.freeOffset tag (Config.seqMax + i))

/-- The environment of `MF_BLOCK` over positions `[WBO, fin)`. -/
def State.searchEnv (s : State) (fin : Nat) : SearchEnv :=
  { win := (s.window (s.ctxBase.toNat + s.wbo.toNat) (fin - s.wbo.toNat)).toArray
    wb := s.wbo.toNat
    fin := fin
    hashLog := cfgHashLog s.mfcfg.toNat
    chainLog := cfgChainLog s.mfcfg.toNat
    mls := max (cfgSearchLength s.mfcfg.toNat) 4
    tag := s.free }

/-- The state after a search of `[start, start + size)` (R410, R415). -/
def State.searched (s : State) (start size : Nat) : State :=
  let v := s.searchEnv (start + size)
  let r := v.search start size s.repLive.r0.toNat s.repLive.r1.toNat s.lh s.sh
  { s with
    lh := r.cursor.lh
    sh := r.cursor.sh
    ss := { v.store r.seqs s.ss with codes := none }
    repStage :=
      { r0 := stagedOffset v.tag 0 r.cursor.o1 r.saved, r1 := stagedOffset v.tag 1 r.cursor.o2 r.saved }
    free := s.free + 1 }.setRes0 (res64 (start + size - r.cursor.anchor))

/-- `MF_BLOCK` (R410). -/
def execMfBlock (s : State) : Out :=
  if !s.mfValid then raise .stateInvalid s
  else if s.ss.lit.length ≠ 0 || s.ss.seqs.length ≠ 0 then raise .stateInvalid s
  else if decide (Config.blockMax < s.a1) || decide (s.a0 < s.wbo.toNat) || decide (2 ^ 32 < s.a0 + s.a1) then
    raise .argRange s
  else if !windowOk (s.ctxBase.toNat + s.wbo.toNat) (s.a0 + s.a1 - s.wbo.toNat) then raise .argRange s
  else .next (s.searched s.a0 s.a1)

/-! ### Store commands (R420 to R431) -/

/-- `SS_RESET` (R420). -/
def execSsReset (s : State) : Out := .next { s with ss := .reset }

/-- The checks of `SS_STORE` (R421). -/
def ssStoreCheck (ss : SeqStore) (addr ll code mlBase : Nat) : Option ErrCode :=
  if !windowOk addr ll then some .argRange
  else if 2 ^ 17 ≤ ll || 2 ^ 17 ≤ mlBase || decide (2 ^ 32 - 2 < code) then some .argRange
  else if decide (Config.blockMax < ss.lit.length + ll) || decide (Config.seqMax ≤ ss.seqs.length) then some .argRange
  else if 65536 ≤ ll && 65536 ≤ mlBase then some .longFieldTwice
  else if (65536 ≤ ll || 65536 ≤ mlBase) && ss.longF != .none then some .longFieldTwice
  else none

/-- `SS_STORE` (R421). -/
def execSsStore (s : State) : Out :=
  match ssStoreCheck s.ss s.a0 s.a1 s.a2 s.a3 with
  | some c => raise c s
  | none => .next { s with ss := s.ss.push (s.window s.a0 s.a1) s.a3 (s.a2 + 1) }

/-- `SS_APPEND` (R425). -/
def execSsAppend (s : State) : Out :=
  if !windowOk s.a0 s.a1 then raise .argRange s
  else if Config.blockMax < s.ss.lit.length + s.a1 then raise .argRange s
  else .next { s with ss := { s.ss with lit := s.ss.lit ++ s.window s.a0 s.a1 } }

/-- The codes of a sequence (R430). -/
def TrueSeq.codes (q : TrueSeq) : SeqCodes :=
  { llc := BitVec.ofNat 8 (llCode q.ll), mlc := BitVec.ofNat 8 (mlCode q.mlBase), ofc := BitVec.ofNat 8 (ofCode q.ov) }

/-- `SS_CODES` (R430). -/
def execSsCodes (s : State) : Out := .next { s with ss := { s.ss with codes := some (s.ss.trueSeqs.map TrueSeq.codes) } }

/-! ### Repeated offsets (R435, R436) -/

/-- `REP_INIT` (R435). -/
def execRepInit (s : State) : Out :=
  .next { s with repLive := .initial, repStage := .initial, ht := #v[none, none], hpend := false }

/-- `REP_COMMIT` (R436). -/
def execRepCommit (s : State) : Out := .next { s with repLive := s.repStage }

/-! ### Inspection (R440 to R444) -/

/-- The code bytes `SS_GET` reads: any value while `CODESV = 0` (R440). -/
def SeqStore.codeBytes (ss : SeqStore) (tag i : Nat) : Nat :=
  match ss.codes with
  | none => (Config.freeCodes tag).toNat
  | some l =>
    let c := l.getD i { llc := 0, mlc := 0, ofc := 0 }
    c.llc.toNat ||| (c.mlc.toNat <<< 8) ||| (c.ofc.toNat <<< 16)

/-- `SS_GET` (R440). -/
def execSsGet (s : State) : Out :=
  match s.ss.seqs[s.a0]? with
  | none => raise .argRange s
  | some q =>
    .next (((({ s with free := s.free + 1 }.setRes0 (res64 (s.ss.trueLL s.a0 q))).setRes1
      (res64 (s.ss.trueMlBase s.a0 q))).setRes2 (res64 q.ofa.toNat)).setRes3
      (res64 (s.ss.codeBytes s.free s.a0 ||| (s.ss.codes.isSome.toNat <<< 24))))

/-- `REP_GET` (R441). -/
def execRepGet (s : State) : Out :=
  .next ((((s.setRes0 (res64 s.repLive.r0.toNat)).setRes1 (res64 s.repLive.r1.toNat)).setRes2
    (res64 s.repStage.r0.toNat)).setRes3 (res64 s.repStage.r1.toNat))

/-- `SS.LONGF` as a number (R49). -/
def LongField.code : LongField → Nat
  | .none => 0
  | .literalLength => 1
  | .matchLength => 2

/-- `SS_INFO` (R442). -/
def execSsInfo (s : State) : Out :=
  .next ((((s.setRes0 (res64 s.ss.lit.length)).setRes1 (res64 s.ss.seqs.length)).setRes2
    (res64 s.ss.longF.code)).setRes3 (res64 s.ss.longP.toNat))

/-- `MF_GET` (R443); `MF_VALID` is checked before the range of `A0` (log entry 24). -/
def execMfGet (sel : BitVec 4) (s : State) : Out :=
  withTwo sel s fun e =>
    let log := if e = 0 then cfgHashLog s.mfcfg.toNat else cfgChainLog s.mfcfg.toNat
    if !s.mfValid then raise .stateInvalid s
    else if 2 ^ log ≤ s.a0 then raise .argRange s
    else
      .next (((s.setRes0 (res64 (getPosition s.a0 (if e = 0 then s.lh else s.sh)))).setRes1
        (res64 s.wbo.toNat)).setRes2 s.ctxBase)

/-- `SS_GETLIT` (R444). -/
def execSsGetlit (s : State) : Out :=
  match s.ss.lit[s.a0]? with
  | none => raise .argRange s
  | some b => .next (s.setRes0 (res64 b.toNat))

end Sys2Proof.Machine
end

