-- ==== Sys2Proof/Machine/Sequences.lean ====
section
/-! DEFINITION. The sequences section, encoded and decoded, and the decoder's repeated offsets (`46_sequences.md`,
layouts of `30_encoding.md` R127 to R130). Fields are numbered 0 literal length, 1 offset, 2 match length (R450). -/

namespace Sys2Proof.Machine

/-! ### Encoding type and tables (R460, R461) -/

/-- `selectType(largest, n, defLog, defaultOk)` (R460). -/
def selectType (factor largest n defLog : Nat) (defaultOk : Bool) : Nat :=
  if largest = n then (if defaultOk && decide (n ≤ 2) then 0 else 1)
  else if defaultOk && (decide (n < (2 ^ defLog * factor) >>> 3) || decide (largest < n >>> (defLog - 1))) then 0
  else 2

/-- How a field is coded: its mode, its compression table and the bytes that describe it. -/
structure FieldEnc where
  mode : Nat
  table : FseCT
  desc : List Byte
deriving DecidableEq, Repr

/-- The result of building a table, or the error of a spread that does not close (R235). -/
def builtTable {α : Type} (t : Option α) : Except Err α :=
  match t with
  | none => .error { code := .fseCorrupt, off := 0 }
  | some x => .ok x

/-- Mode Compressed (R461): the last code's count is reduced, then the distribution is described and built. -/
def compressedField (f : Nat) (codes counts : List Nat) (ms : Nat) : Except Err FieldEnc :=
  let n := codes.length
  let tl := optimalTableLog (fieldMaxLog f) n ms 2
  let last := codes.getLast?.getD 0
  let reduce := decide (1 < counts.getD last 0)
  let counts1 := if reduce then counts.set last (counts.getD last 0 - 1) else counts
  match normalize (counts1.take (ms + 1)) tl (if reduce then n - 1 else n) with
  | .error e => .error e
  | .ok norm =>
    match builtTable (ncountBytes norm tl), builtTable (buildCT norm tl) with
    | .ok desc, .ok t => .ok { mode := 2, table := t, desc := desc }
    | .error e, _ => .error e
    | _, .error e => .error e

/-- The mode and table of field `f` for the codes of all sequences (R460, R461). -/
def chooseField (factor f : Nat) (codes : List Nat) : Except Err FieldEnc :=
  let counts := (List.range (fieldMaxSym f + 1)).map fun c => codes.count c
  let ms := lastNonzero counts
  match selectType factor (listMax counts) codes.length (defaultDist f).2 (f != 1 || decide (ms ≤ 28)) with
  | 0 =>
    match builtTable (buildCT (defaultDist f).1 (defaultDist f).2) with
    | .error e => .error e
    | .ok t => .ok { mode := 0, table := t, desc := [] }
  | 1 => .ok { mode := 1, table := rleCT ms, desc := [BitVec.ofNat 8 ms] }
  | _ => compressedField f codes counts ms

/-- `put` (R465): the description of a field must fit at offset `p`. -/
def putField (factor f : Nat) (codes : List Nat) (cap p : Nat) : Except Err FieldEnc :=
  match chooseField factor f codes with
  | .error e => .error e
  | .ok x => if cap < p + x.desc.length then .error { code := .dstTooSmall, off := 0 } else .ok x

/-! ### Encoder (R465 to R467) -/

/-- `nbSeqBytes(n)` (R466). -/
def nbSeqBytes (n : Nat) : List Byte :=
  if n < 127 then [BitVec.ofNat 8 n]
  else if n < 32512 then [BitVec.ofNat 8 ((n >>> 8) + 128), BitVec.ofNat 8 n]
  else [255, BitVec.ofNat 8 (n - 32512), BitVec.ofNat 8 ((n - 32512) >>> 8)]

/-- `extras(i)` (R465). -/
def TrueSeq.extras (q : TrueSeq) : List BitField :=
  let ll := (llRow (llCode q.ll)).getD (0, 0)
  let ml := (mlRow (mlCode q.mlBase)).getD (0, 0)
  [{ val := q.ll - ll.1, width := ll.2 }, { val := q.mlBase + 3 - ml.1, width := ml.2 },
    { val := q.ov - 2 ^ ofCode q.ov, width := ofCode q.ov }]

/-- The loop of R465 over the sequences before the last one, last first, and the final states. -/
def seqFieldsLoop (tLL tOF tML : FseCT) : List TrueSeq → Nat → Nat → Nat → List BitField
  | [], sLL, sOF, sML => [encFinish tML sML, encFinish tOF sOF, encFinish tLL sLL]
  | q :: qs, sLL, sOF, sML =>
    let lc := llCode q.ll
    let oc := ofCode q.ov
    let mc := mlCode q.mlBase
    [encField tOF sOF oc, encField tML sML mc, encField tLL sLL lc] ++ q.extras
      ++ seqFieldsLoop tLL tOF tML qs (encNext tLL sLL lc) (encNext tOF sOF oc) (encNext tML sML mc)

/-- The fields of the sequence bitstream (R465). -/
def seqFields (tLL tOF tML : FseCT) (qs : List TrueSeq) : List BitField :=
  match qs.reverse with
  | [] => []
  | q :: rest =>
    q.extras ++ seqFieldsLoop tLL tOF tML rest (encBegin tLL (llCode q.ll)) (encBegin tOF (ofCode q.ov))
      (encBegin tML (mlCode q.mlBase))

/-- From the bit stream to the end of R465, after the header bytes. -/
def putStream (fields : List BitField) (hdr : List Byte) (cap : Nat) : Except Err (List Byte) :=
  let body := closedStream fields (cap - hdr.length)
  if body.length = 0 then .error { code := .dstTooSmall, off := 0 } else .ok (hdr ++ body)

/-- The section of at least one sequence (R465). -/
def encodeSome (factor : Nat) (qs : List TrueSeq) (cap : Nat) : Except Err (List Byte) :=
  let nb := nbSeqBytes qs.length
  let p := nb.length + 1
  if cap < nb.length ∨ cap < p then .error { code := .dstTooSmall, off := 0 }
  else
    match putField factor 0 (qs.map fun q => llCode q.ll) cap p with
    | .error e => .error e
    | .ok fLL =>
      match putField factor 1 (qs.map fun q => ofCode q.ov) cap (p + fLL.desc.length) with
      | .error e => .error e
      | .ok fOF =>
        match putField factor 2 (qs.map fun q => mlCode q.mlBase) cap (p + fLL.desc.length + fOF.desc.length) with
        | .error e => .error e
        | .ok fML =>
          putStream (seqFields fLL.table fOF.table fML.table qs)
            (nb ++ [BitVec.ofNat 8 (fLL.mode * 2 ^ 6 + fOF.mode * 2 ^ 4 + fML.mode * 2 ^ 2)] ++ fLL.desc ++ fOF.desc
              ++ fML.desc) cap

/-- The body of `SEQ_ENCODE` (R465). -/
def encodeSequences (factor : Nat) (qs : List TrueSeq) (cap : Nat) : Except Err (List Byte) :=
  if qs.length = 0 then
    if cap < (nbSeqBytes 0).length then .error { code := .dstTooSmall, off := 0 } else .ok (nbSeqBytes 0)
  else encodeSome factor qs cap

/-- `SEQ_ENCODE` (R465). -/
def execSeqEncode (s : State) : Out :=
  if !windowOk s.a0 s.a1 then raise .argRange s
  else
    match encodeSequences s.params.selFactor s.ss.trueSeqs s.a1 with
    | .error e => raiseDst e s.a0 s.a1 s
    | .ok out => .next ((s.writeOut s.a0 s.a1 out).setRes0 (res64 out.length))

/-! ### Offset resolution (R480) -/

/-- An offset in its u32 register; a free value where it does not fit (log entry 14). -/
def offsetWord (tag i v : Nat) : Word :=
  if v < 2 ^ 32 then BitVec.ofNat 32 v else BitVec.ofNat 32 (1 + Config.freeOffset tag i % (2 ^ 32 - 1))

/-- `resolve(OV, LL, rep)` (R480): the offset and the history after it. -/
def resolveOffset (tag i ov ll : Nat) (rep : DecRep) : Word × DecRep :=
  if 3 < ov then
    let off := offsetWord tag i (ov - 3)
    (off, { r0 := off, r1 := rep.r0, r2 := rep.r1 })
  else
    let k := ov - 1 + (if ll = 0 then 1 else 0)
    if k = 0 then (rep.r0, rep)
    else
      let t := if k = 3 then rep.r0 - 1 else if k = 1 then rep.r1 else rep.r2
      let t1 := if t = 0 then 1 else t
      (t1, { r0 := t1, r1 := rep.r0, r2 := if k = 1 then rep.r2 else rep.r1 })

/-! ### Decoder (R475, R476) -/

/-- A length and the bits it takes: `base + rRead(r, bits)`; free values where the code has no baseline, which only a
Repeat table the host built can cause (log entry 14). -/
def readLength (row : Option (Nat × Nat)) (tag i : Nat) (r : Stream) : Word × Stream :=
  match row with
  | some (base, bits) => (BitVec.ofNat 32 (base + r.peek bits), r.skip bits)
  | none => (Config.freeLength tag i, r.skip (Config.freeExtraBits tag i))

/-- What the loop of R476 changes. -/
structure SeqCursor where
  r : Stream
  sLL : Nat
  sOF : Nat
  sML : Nat
  rep : DecRep
deriving DecidableEq, Repr

/-- A state update: `s ← T.ns[s] + rRead(r, T.nb[s])`. -/
def stepState (t : FseDT) (st : Nat) (r : Stream) : Nat × Stream :=
  let x := t.entry st
  (x.ns.toNat + r.peek x.nb.toNat, r.skip x.nb.toNat)

/-- The three state updates of R476. -/
def SeqCursor.update (tLL tOF tML : FseDT) (c : SeqCursor) : SeqCursor :=
  let a := stepState tLL c.sLL c.r
  let b := stepState tML c.sML a.2
  let d := stepState tOF c.sOF b.2
  { c with r := d.2, sLL := a.1, sML := b.1, sOF := d.1 }

/-- One sequence of R476, before the state updates: the `i`-th. -/
def SeqCursor.sequence (tLL tOF tML : FseDT) (tag i : Nat) (c : SeqCursor) : DecodedSeq × SeqCursor :=
  let oc := (tOF.entry c.sOF).sym.toNat
  let ov := 2 ^ oc + c.r.peek oc
  let ml := readLength (mlRow (tML.entry c.sML).sym.toNat) tag (2 * i + 1) (c.r.skip oc)
  let ll := readLength (llRow (tLL.entry c.sLL).sym.toNat) tag (2 * i) ml.2
  let x := resolveOffset tag i ov ll.1.toNat c.rep
  ({ ll := ll.1, ml := ml.1, off := x.1 }, { c with r := ll.2, rep := x.2 })

/-- The loop of R476 over `n` sequences, from the `i`-th. -/
def decodeSeqLoop (tLL tOF tML : FseDT) (tag : Nat) : Nat → Nat → SeqCursor → List DecodedSeq × SeqCursor
  | 0, _, c => ([], c)
  | n + 1, i, c =>
    let x := c.sequence tLL tOF tML tag i
    let y := decodeSeqLoop tLL tOF tML tag n (i + 1) (if n = 0 then x.2 else x.2.update tLL tOF tML)
    (x.1 :: y.1, y.2)

/-- The number of sequences and the bytes it takes (R127, R475). -/
def readNbSeq (bs : List Byte) : Except Err (Nat × Nat) :=
  let d0 := (bs.getD 0 0).toNat
  let d1 := (bs.getD 1 0).toNat
  let d2 := (bs.getD 2 0).toNat
  if d0 < 128 then .ok (d0, 1)
  else if d0 < 255 then
    if bs.length < 2 then .error { code := .inputTooShort, off := bs.length } else .ok ((d0 - 128) * 256 + d1, 2)
  else if bs.length < 3 then .error { code := .inputTooShort, off := bs.length }
  else .ok (d1 + d2 * 256 + 32512, 3)

/-- The table of field `f` with mode `m` at offset `p` (R475), and the offset after its description. -/
def readField (f m : Nat) (prev : Option FseDT) (bs : List Byte) (p : Nat) : Except Err (FseDT × Nat) :=
  match m with
  | 0 =>
    match builtTable (buildDT (defaultDist f).1 (defaultDist f).2) with
    | .error e => .error e
    | .ok t => .ok (t, p)
  | 1 =>
    match bs[p]? with
    | none => .error { code := .inputTooShort, off := bs.length }
    | some b =>
      if fieldMaxSym f < b.toNat then .error { code := .symbolOutOfRange, off := p } else .ok (rleDT b.toNat, p + 1)
  | 2 =>
    match shiftErr p (readNCount (bs.drop p) (fieldMaxSym f) (fieldMaxLog f)) with
    | .error e => .error e
    | .ok d =>
      match builtTable (buildDT d.norm d.log) with
      | .error e => .error e
      | .ok t => .ok (t, p + d.used)
  | _ =>
    match prev with
    | none => .error { code := .repeatTableAbsent, off := p }
    | some t => .ok (t, p)

/-- A decoded section: the three tables, the sequences and the history after them. -/
structure SeqDecoded where
  tLL : FseDT
  tOF : FseDT
  tML : FseDT
  seqs : List DecodedSeq
  rep : DecRep
deriving DecidableEq, Repr

/-- The bit stream of R475 and R476, from offset `p` on. -/
def decodeSeqStream (tLL tOF tML : FseDT) (rep : DecRep) (tag n : Nat) (bs : List Byte) (p : Nat) :
    Except Err SeqDecoded :=
  if bs.length ≤ p then .error { code := .inputTooShort, off := bs.length }
  else
    match shiftErr p (openStream (bs.drop p)) with
    | .error e => .error e
    | .ok r =>
      let r1 := r.skip tLL.log
      let r2 := r1.skip tOF.log
      let x := decodeSeqLoop tLL tOF tML tag n 0
        { r := r2.skip tML.log, sLL := r.peek tLL.log, sOF := r1.peek tOF.log, sML := r2.peek tML.log, rep := rep }
      if x.2.r.pos = 0 then .ok { tLL := tLL, tOF := tOF, tML := tML, seqs := x.1, rep := x.2.rep }
      else .error { code := .bitstreamNotConsumed, off := bs.length }

/-- The three tables and the bit stream of R475, after the modes byte; `p` is the offset after it. -/
def decodeSeqTables (dt : Vector (Option FseDT) 4) (rep : DecRep) (tag n modes : Nat) (bs : List Byte) (p : Nat) :
    Except Err SeqDecoded :=
  match readField 0 (modes / 2 ^ 6 % 4) dt[0] bs p with
  | .error e => .error e
  | .ok (tLL, p1) =>
    match readField 1 (modes / 2 ^ 4 % 4) dt[1] bs p1 with
    | .error e => .error e
    | .ok (tOF, p2) =>
      match readField 2 (modes / 2 ^ 2 % 4) dt[2] bs p2 with
      | .error e => .error e
      | .ok (tML, p3) => decodeSeqStream tLL tOF tML rep tag n bs p3

/-- The body of `SEQ_DECODE` over the bytes of its window (R475); `none` for the one-byte empty section. A count of 0
in the two-byte form is an empty section that is too long (R128, D43; log entry 27). -/
def decodeSequences (dt : Vector (Option FseDT) 4) (rep : DecRep) (tag : Nat) (bs : List Byte) :
    Except Err (Option SeqDecoded) :=
  match bs with
  | [] => .error { code := .inputTooShort, off := 0 }
  | b0 :: _ =>
    if b0 = 0 then
      if bs.length ≠ 1 then .error { code := .bitstreamNotConsumed, off := 1 } else .ok none
    else
      match readNbSeq bs with
      | .error e => .error e
      | .ok (n, p) =>
        if n = 0 then .error { code := .bitstreamNotConsumed, off := 1 }
        else if Config.seqMax < n then .error { code := .seqCountTooLarge, off := 0 }
        else
          match bs[p]? with
          | none => .error { code := .inputTooShort, off := bs.length }
          | some modes =>
            if modes.toNat % 4 ≠ 0 then .error { code := .badSeqType, off := p }
            else
              match decodeSeqTables dt rep tag n modes.toNat bs (p + 1) with
              | .error e => .error e
              | .ok d => .ok (some d)

/-- What a failing `SEQ_DECODE` invalidates (R475): `DT[0..2]` and the decoded sequences. -/
def State.dropSequences (s : State) : State := { s with dt := #v[none, none, none, s.dt[3]], sq := [] }

/-- `SEQ_DECODE` (R475); the failures that clear are those of every check of its rule (log entry 9). -/
def execSeqDecode (s : State) : Out :=
  if !windowOk s.a0 s.a1 then raise .argRange s.dropSequences
  else
    match decodeSequences s.dt s.drep s.free (s.window s.a0 s.a1) with
    | .error e => raiseErr e s.dropSequences
    | .ok none => .next (({ s with sq := [] }.setRes0 1).setRes1 0)
    | .ok (some d) =>
      .next (({ s with
        dt := #v[some d.tLL, some d.tOF, some d.tML, s.dt[3]]
        drep := d.rep
        sq := d.seqs
        free := s.free + 1 }.setRes0 (res64 s.a1)).setRes1 (res64 d.seqs.length))

/-! ### Decoder state commands (R490 to R492) -/

/-- `DREP_INIT` (R490). -/
def execDrepInit (s : State) : Out :=
  .next { s with drep := .initial, dt := #v[none, none, none, s.dt[3]], hd := none }

/-- `SQ_GET` (R491). -/
def execSqGet (s : State) : Out :=
  match s.sq[s.a0]? with
  | none => raise .argRange s
  | some q => .next (((s.setRes0 (res64 q.ll.toNat)).setRes1 (res64 q.ml.toNat)).setRes2 (res64 q.off.toNat))

/-- `DREP_GET` (R492). -/
def execDrepGet (s : State) : Out :=
  .next (((s.setRes0 (res64 s.drep.r0.toNat)).setRes1 (res64 s.drep.r1.toNat)).setRes2 (res64 s.drep.r2.toNat))

end Sys2Proof.Machine
end

