-- ==== Sys2Proof/Machine/Replay.lean ====
section
/-! DEFINITION. The sequence replay engine (`47_replay.md`). The bytes produced so far are held last first, so that
the byte `off` places back is at place `off - 1`; the history lies in memory below the new region. -/

namespace Sys2Proof.Machine

/-- The byte `off` places before the next one: of the new region, or of the history below address `top` (R523). -/
def replayByte (m : Memory) (top off : Nat) (rev : List Byte) : Byte :=
  match rev[off - 1]? with
  | some b => b
  | none => m.read (top + rev.length - off)

/-- The back-reference copy, byte by byte (R524). -/
def copyMatch (m : Memory) (top off : Nat) : Nat → List Byte → List Byte
  | 0, rev => rev
  | ml + 1, rev => copyMatch m top off ml (replayByte m top off rev :: rev)

/-- The loop of R521 from sequence `i` on: `lits` are the literals left, `rev` the bytes produced. -/
def replayLoop (m : Memory) (base hist cap window : Nat) :
    Nat → List DecodedSeq → List Byte → List Byte → Except Err (List Byte)
  | i, [], lits, rev =>
    if cap < rev.length + lits.length then .error { code := .outputTooSmall, off := i }
    else .ok (lits.reverse ++ rev)
  | i, q :: qs, lits, rev =>
    let ll := q.ll.toNat
    let ml := q.ml.toNat
    let off := q.off.toNat
    if lits.length < ll then .error { code := .literalsOverrun, off := i }
    else if cap < rev.length + ll + ml then .error { code := .outputTooSmall, off := i }
    else
      let rev1 := (lits.take ll).reverse ++ rev
      if off < 1 ∨ min (hist + rev1.length) window < off then .error { code := .offsetOutOfRange, off := i }
      else replayLoop m base hist cap window (i + 1) qs (lits.drop ll) (copyMatch m (base + hist) off ml rev1)

/-- `REPLAY` (R521). -/
def execReplay (s : State) : Out :=
  if !windowOk s.a0 (s.a1 + s.a2) then raise .argRange s
  else if !countOk s.a3 then raiseDst { code := .argRange, off := 0 } (s.a0 + s.a1) s.a2 s
  else
    match replayLoop s.mem s.a0 s.a1 s.a2 s.a3 0 s.sq s.dlit [] with
    | .error e => raiseDst e (s.a0 + s.a1) s.a2 s
    | .ok rev => .next ((s.writeOut (s.a0 + s.a1) s.a2 rev.reverse).setRes0 (res64 rev.length))

end Sys2Proof.Machine
end

