-- ==== Sys2Proof/Machine/System.lean ====
section
/-! DEFINITION. The system commands (`70_reset_and_hazards.md` R590 to R592). -/

namespace Sys2Proof.Machine

/-- `NOP` (R590): no effect. -/
def execNop (s : State) : Out := .next s

/-- `RESET` (R591): every element of `10_state.md` takes its reset value but `A0`-`A7`; host memory is not touched.
The model's own `host`, `free` and `params` stay (log entry 23). -/
def execReset (s : State) : Out :=
  .next { State.reset with host := s.host, args := s.args, mem := s.mem, free := s.free, params := s.params }

/-- `CLRERR` (R592). -/
def execClrerr (s : State) : Out := .next s.clearError

end Sys2Proof.Machine
end

