-- ==== Sys2Proof/Machine/Dispatch.lean ====
section
/-! DEFINITION. Step (7) of `30_encoding.md` R110: each command runs its rule. -/

namespace Sys2Proof.Machine

def exec (i : Instr) (s : State) : Host.Outcome State Fault Refusal :=
  match i with
  | .nop => Sys2Proof.Machine.execNop s
  | .reset => Sys2Proof.Machine.execReset s
  | .clrerr => Sys2Proof.Machine.execClrerr s
  | .bwInit => Sys2Proof.Machine.execBwInit s
  | .bwAdd => Sys2Proof.Machine.execBwAdd s
  | .bwFlush => Sys2Proof.Machine.execBwFlush s
  | .bwClose => Sys2Proof.Machine.execBwClose s
  | .brInit => Sys2Proof.Machine.execBrInit s
  | .brPeek => Sys2Proof.Machine.execBrPeek s
  | .brRead => Sys2Proof.Machine.execBrRead s
  | .brLoad => Sys2Proof.Machine.execBrLoad s
  | .hist => Sys2Proof.Machine.execHist s
  | .fseOptlog => Sys2Proof.Machine.execFseOptlog s
  | .fseNorm => Sys2Proof.Machine.execFseNorm s
  | .fseWrnc => Sys2Proof.Machine.execFseWrnc s
  | .fseRdnc => Sys2Proof.Machine.execFseRdnc s
  | .fseLddef sel => Sys2Proof.Machine.execFseLddef sel s
  | .fseBuildCt slot => Sys2Proof.Machine.execFseBuildCt slot s
  | .fseRleCt slot => Sys2Proof.Machine.execFseRleCt slot s
  | .fseBuildDt slot => Sys2Proof.Machine.execFseBuildDt slot s
  | .fseRleDt slot => Sys2Proof.Machine.execFseRleDt slot s
  | .fseSetcount => Sys2Proof.Machine.execFseSetcount s
  | .fseSetnorm => Sys2Proof.Machine.execFseSetnorm s
  | .fseGetnorm => Sys2Proof.Machine.execFseGetnorm s
  | .fseGetcount => Sys2Proof.Machine.execFseGetcount s
  | .fseGetdt slot => Sys2Proof.Machine.execFseGetdt slot s
  | .fseGetct slot => Sys2Proof.Machine.execFseGetct slot s
  | .fseEncBegin slot sel => Sys2Proof.Machine.execFseEncBegin slot sel s
  | .fseEnc slot sel => Sys2Proof.Machine.execFseEnc slot sel s
  | .fseEncFinish slot sel => Sys2Proof.Machine.execFseEncFinish slot sel s
  | .fseDecInit slot sel => Sys2Proof.Machine.execFseDecInit slot sel s
  | .fseDec slot sel u => Sys2Proof.Machine.execFseDec slot sel u s
  | .fseCompress2 slot => Sys2Proof.Machine.execFseCompress2 slot s
  | .fseDecompress2 slot => Sys2Proof.Machine.execFseDecompress2 slot s
  | .fseGetstate sel => Sys2Proof.Machine.execFseGetstate sel s
  | .hufOptlog => Sys2Proof.Machine.execHufOptlog s
  | .hufBuild => Sys2Proof.Machine.execHufBuild s
  | .hufWrite sel => Sys2Proof.Machine.execHufWrite sel s
  | .hufRead => Sys2Proof.Machine.execHufRead s
  | .hufEnc1 sel => Sys2Proof.Machine.execHufEnc1 sel s
  | .hufEnc4 sel => Sys2Proof.Machine.execHufEnc4 sel s
  | .hufDec1 => Sys2Proof.Machine.execHufDec1 s
  | .hufDec4 => Sys2Proof.Machine.execHufDec4 s
  | .hufEst sel => Sys2Proof.Machine.execHufEst sel s
  | .hufCommit => Sys2Proof.Machine.execHufCommit s
  | .hufDiscard => Sys2Proof.Machine.execHufDiscard s
  | .hufGetcode sel => Sys2Proof.Machine.execHufGetcode sel s
  | .hufGetdt => Sys2Proof.Machine.execHufGetdt s
  | .litEncode => Sys2Proof.Machine.execLitEncode s
  | .litDecode => Sys2Proof.Machine.execLitDecode s
  | .litGet => Sys2Proof.Machine.execLitGet s
  | .mfReset => Sys2Proof.Machine.execMfReset s
  | .mfWindow => Sys2Proof.Machine.execMfWindow s
  | .mfBlock => Sys2Proof.Machine.execMfBlock s
  | .ssReset => Sys2Proof.Machine.execSsReset s
  | .ssStore => Sys2Proof.Machine.execSsStore s
  | .ssAppend => Sys2Proof.Machine.execSsAppend s
  | .ssCodes => Sys2Proof.Machine.execSsCodes s
  | .repInit => Sys2Proof.Machine.execRepInit s
  | .repCommit => Sys2Proof.Machine.execRepCommit s
  | .ssGet => Sys2Proof.Machine.execSsGet s
  | .repGet => Sys2Proof.Machine.execRepGet s
  | .ssInfo => Sys2Proof.Machine.execSsInfo s
  | .mfGet sel => Sys2Proof.Machine.execMfGet sel s
  | .ssGetlit => Sys2Proof.Machine.execSsGetlit s
  | .seqEncode => Sys2Proof.Machine.execSeqEncode s
  | .seqDecode => Sys2Proof.Machine.execSeqDecode s
  | .drepInit => Sys2Proof.Machine.execDrepInit s
  | .sqGet => Sys2Proof.Machine.execSqGet s
  | .drepGet => Sys2Proof.Machine.execDrepGet s
  | .replay => Sys2Proof.Machine.execReplay s

end Sys2Proof.Machine
end

