-- ==== Sys2Proof/Machine/Issue.lean ====
section
/-! DEFINITION. What the host does to the machine: its writes of registers and memory (`10_state.md` R30, R32, R33,
R80), the issue of a command by a write of `CMD` (`30_encoding.md` R110, R112), and its reads of the registers. -/

namespace Sys2Proof.Machine

/-- The error a rejected command word raises (R110 steps 3 to 6). -/
def errorOfDecode : DecodeError → ErrCode
  | .reservedBits => .reservedBits
  | .illegalOpcode => .illegalOpcode
  | .argRange => .argRange

/-- Step (1) of R110: `OPC` is `RESET` or `CLRERR`. -/
def alwaysDecoded (w : BitVec 32) : Bool := fieldOpc w == 0x01 || fieldOpc w == 0x02

/-- The command written to `CMD` (R110): steps (1) and (2), then (3) to (7). -/
def issue (w : BitVec 32) (s : State) : Out :=
  if s.errKind ≠ 0 ∧ alwaysDecoded w = false then .next s
  else
    match decode w with
    | .error e => raise (errorOfDecode e) s
    | .ok i => exec i s

/-- One action of the host. A write of `CMD` keeps the word in `CMD` and issues it. -/
def hostAct (a : HostAction) (s : State) : Out :=
  match a with
  | .setArg i v => .next { s with args := s.args.set i v }
  | .setByte addr b => .next { s with mem := s.mem.writeBytes addr.toNat [b] }
  | .command w => issue w { s with cmd := w }

/-- The state with the host's next action placed before the others. -/
def State.withAction (s : State) (a : HostAction) : State := { s with host := a :: s.host }

/-- The registers the host reads (R32 to R37). -/
inductive HostReg where
  | cmd
  | arg (i : Fin 8)
  | res (i : Fin 4)
  | status
  | errOff
  | mfcfg
deriving DecidableEq, Repr

/-- The value a host read returns; a read has no effect (log entry 26). -/
def State.hostRead (s : State) : HostReg → DWord
  | .cmd => 0
  | .arg i => s.args[i]
  | .res i => s.res[i]
  | .status => s.status.zeroExtend 64
  | .errOff => s.errOff
  | .mfcfg => s.mfcfg.zeroExtend 64

end Sys2Proof.Machine
end

