-- ==== Sys2Proof/Machine/Step.lean ====
section
/-! DEFINITION. One step of the machine: the host's next action, or nothing where it has none (log entry 1). A step
answers next always: ZCORE has no behaviour that faults, and no command is without a meaning. -/

namespace Sys2Proof.Machine

/-- The machine's step. -/
def step (s : State) : Host.Outcome State Fault Refusal :=
  match s.host with
  | [] => .next s
  | a :: rest => hostAct a { s with host := rest }

/-- The host's next action is the write of `w` to `CMD`. ZCORE fetches nothing (R31): this is where a command comes
from. -/
def State.withFetchWord (s : State) (_nbits w : Nat) : State := s.withAction (.command (BitVec.ofNat 32 w))

end Sys2Proof.Machine
end

