-- ==== Sys2Proof/Safety.lean ====
section
/-! DEFINITION. The terms claims are stated in: what a command that raises an error leaves, which parts of the state
and of memory a command may write, and the conditions every step keeps. -/

namespace Sys2Proof.Machine

/-! ### Raising an error (R551, R554) -/

/-- `t` is `u` with an error recorded: its kind, code and offset, result registers that hold any value and the
model's free counter; all else is `u`'s (R551). -/
def State.Erred (u : State) (c : ErrCode) (off : Nat) (t : State) : Prop :=
  ∃ r n, t = { u with
    errKind := c.kind, errCode := c.byte, errOff := BitVec.ofNat 64 off, res := r, free := n }

/-- The command ends with the error `c`, and its state is otherwise `u`. -/
def RaisesFrom (i : Instr) (s u : State) (c : ErrCode) (off : Nat) : Prop :=
  ∃ t, exec i s = .next t ∧ u.Erred c off t

/-- The command ends with the error `c` and changes nothing but the error and result registers. -/
def Raises (i : Instr) (s : State) (c : ErrCode) (off : Nat) : Prop := RaisesFrom i s s c off

/-- Every byte outside `[addr, addr + len)` reads as before. -/
def Memory.SameOutside (m m' : Memory) (addr len : Nat) : Prop :=
  ∀ a, a < addr ∨ addr + len ≤ a → m'.read a = m.read a

/-- The bytes from `addr` on are `bs`. -/
def Memory.Holds (m : Memory) (addr : Nat) (bs : List Byte) : Prop :=
  ∀ j (h : j < bs.length), m.read (addr + j) = bs[j]

/-- As `RaisesFrom`, for a command whose destination window `(addr, len)` holds any value afterwards. -/
def RaisesDst (i : Instr) (s u : State) (c : ErrCode) (off addr len : Nat) : Prop :=
  ∃ m, u.mem.SameOutside m addr len ∧ RaisesFrom i s { u with mem := m } c off

/-- The command succeeds with the bytes `out` at the start of its destination window `(addr, cap)` and leaves every
byte outside the window; the rest of its state is `u`'s (R84). -/
def Delivers (i : Instr) (s u : State) (addr cap : Nat) (out : List Byte) : Prop :=
  ∃ m n, exec i s = .next { u with mem := m, free := n } ∧ u.mem.SameOutside m addr cap ∧ m.Holds addr out

/-- A slot or select in its 4-bit field. -/
abbrev nib {n : Nat} (k : Fin n) : BitVec 4 := BitVec.ofNat 4 k.val

/-! ### What a command may write -/

/-- The parts of the state. -/
inductive Part where
  | host | cmd | args | res | error | mfcfg | bw | br | counts | norm | ct | dt | es | ds | ht | hd | finder | rep
  | store | drep | dlit | sq | mem | free | params
deriving DecidableEq, Repr

/-- Two states agree on a part. -/
def State.Agree (s t : State) : Part → Prop
  | .host => t.host = s.host
  | .cmd => t.cmd = s.cmd
  | .args => t.args = s.args
  | .res => t.res = s.res
  | .error => t.errKind = s.errKind ∧ t.errCode = s.errCode ∧ t.errOff = s.errOff
  | .mfcfg => t.mfcfg = s.mfcfg
  | .bw => t.bw = s.bw
  | .br => t.br = s.br
  | .counts => t.counts = s.counts ∧ t.hmax = s.hmax ∧ t.hlargest = s.hlargest
  | .norm => t.norm = s.norm ∧ t.nmax = s.nmax ∧ t.nlog = s.nlog ∧ t.nvalid = s.nvalid
  | .ct => t.ct = s.ct
  | .dt => t.dt = s.dt
  | .es => t.es = s.es
  | .ds => t.ds = s.ds
  | .ht => t.ht = s.ht ∧ t.hpend = s.hpend
  | .hd => t.hd = s.hd
  | .finder => t.lh = s.lh ∧ t.sh = s.sh ∧ t.ctxBase = s.ctxBase ∧ t.wbo = s.wbo ∧ t.mfValid = s.mfValid
  | .rep => t.repLive = s.repLive ∧ t.repStage = s.repStage
  | .store => t.ss = s.ss
  | .drep => t.drep = s.drep
  | .dlit => t.dlit = s.dlit
  | .sq => t.sq = s.sq
  | .mem => t.mem = s.mem
  | .free => t.free = s.free
  | .params => t.params = s.params

/-- The parts a command writes on success: the "Writes" lists of its rule (R13). `RESET` writes all but the argument
registers, memory and the model's own fields (R591). -/
def writesOf (i : Instr) : List Part :=
  match i with
  | .nop => []
  | .reset => [.cmd, .res, .error, .mfcfg, .bw, .br, .counts, .norm, .ct, .dt, .es, .ds, .ht, .hd, .finder, .rep,
      .store, .drep, .dlit, .sq]
  | .clrerr => [.error]
  | .bwInit => [.bw]
  | .bwAdd => [.bw]
  | .bwFlush => [.bw, .mem]
  | .bwClose => [.bw, .mem, .res, .free]
  | .brInit => [.br]
  | .brPeek => [.res]
  | .brRead => [.res, .br]
  | .brLoad => [.res, .br]
  | .hist => [.res, .counts]
  | .fseOptlog => [.res]
  | .fseNorm => [.norm]
  | .fseWrnc => [.res, .mem, .free]
  | .fseRdnc => [.res, .norm]
  | .fseLddef _ => [.norm]
  | .fseBuildCt _ => [.ct]
  | .fseRleCt _ => [.ct]
  | .fseBuildDt _ => [.dt]
  | .fseRleDt _ => [.dt]
  | .fseSetcount => [.counts]
  | .fseSetnorm => [.norm]
  | .fseGetnorm => [.res]
  | .fseGetcount => [.res]
  | .fseGetdt _ => [.res]
  | .fseGetct _ => [.res, .free]
  | .fseEncBegin _ _ => [.es]
  | .fseEnc _ _ => [.bw, .es]
  | .fseEncFinish _ _ => [.bw, .mem]
  | .fseDecInit _ _ => [.br, .ds]
  | .fseDec _ _ u => if u then [.res, .br, .ds] else [.res]
  | .fseCompress2 _ => [.res, .mem, .free]
  | .fseDecompress2 _ => [.res, .mem, .free]
  | .fseGetstate _ => [.res]
  | .hufOptlog => [.res]
  | .hufBuild => [.res, .ht]
  | .hufWrite _ => [.res, .mem, .free]
  | .hufRead => [.res, .hd]
  | .hufEnc1 _ => [.res, .mem, .free]
  | .hufEnc4 _ => [.res, .mem, .free]
  | .hufDec1 => [.mem]
  | .hufDec4 => [.mem]
  | .hufEst _ => [.res]
  | .hufCommit => [.ht]
  | .hufDiscard => [.ht]
  | .hufGetcode _ => [.res, .free]
  | .hufGetdt => [.res]
  | .litEncode => [.res, .mem, .free, .ht]
  | .litDecode => [.res, .dlit, .hd]
  | .litGet => [.res]
  | .mfReset => [.mfcfg, .finder]
  | .mfWindow => [.finder]
  | .mfBlock => [.res, .free, .finder, .store, .rep]
  | .ssReset => [.store]
  | .ssStore => [.store]
  | .ssAppend => [.store]
  | .ssCodes => [.store]
  | .repInit => [.rep, .ht]
  | .repCommit => [.rep]
  | .ssGet => [.res, .free]
  | .repGet => [.res]
  | .ssInfo => [.res]
  | .mfGet _ => [.res]
  | .ssGetlit => [.res]
  | .seqEncode => [.res, .mem, .free]
  | .seqDecode => [.res, .dt, .sq, .drep, .free]
  | .drepInit => [.drep, .dt, .hd]
  | .sqGet => [.res]
  | .drepGet => [.res]
  | .replay => [.res, .mem, .free]

/-- The internal state a rule names "on failure" (R551 step 4). -/
def clearsOf (i : Instr) : List Part :=
  match i with
  | .fseNorm => [.norm]
  | .fseRdnc => [.norm]
  | .fseBuildCt _ => [.ct]
  | .fseBuildDt _ => [.dt]
  | .hufRead => [.hd]
  | .litEncode => [.ht]
  | .litDecode => [.dlit, .hd]
  | .seqDecode => [.dt, .sq]
  | _ => []

/-- The destination window of a command, `(0, 0)` where its rule names none (R83, R84). The bit writer's commands
write inside the writer's window; `REPLAY`'s is the new region, since R520 says that it never writes the history
(log entry 7). -/
def destination (i : Instr) (s : State) : Nat × Nat :=
  match i with
  | .bwFlush => (s.bw.base.toNat, s.bw.cap.toNat)
  | .bwClose => (s.bw.base.toNat, s.bw.cap.toNat)
  | .fseEncFinish _ _ => (s.bw.base.toNat, s.bw.cap.toNat)
  | .fseWrnc => (s.a0, s.a1)
  | .hufWrite _ => (s.a0, s.a1)
  | .litEncode => (s.a0, s.a1)
  | .seqEncode => (s.a0, s.a1)
  | .fseCompress2 _ => (s.a2, s.a3)
  | .fseDecompress2 _ => (s.a2, s.a3)
  | .hufEnc1 _ => (s.a2, s.a3)
  | .hufEnc4 _ => (s.a2, s.a3)
  | .hufDec1 => (s.a2, s.a3)
  | .hufDec4 => (s.a2, s.a3)
  | .replay => (s.a0 + s.a1, s.a2)
  | _ => (0, 0)

/-! ### Conditions every step keeps -/

/-- The writer invariants of R152, with the window check of R82. -/
def BitWriter.Ok (w : BitWriter) : Prop :=
  w.valid = true →
    w.cur.toNat + Config.bwSlack ≤ w.cap.toNat ∧ w.base.toNat + w.cap.toNat ≤ Config.addrLimit
      ∧ w.cnt ≤ Config.bwAcc ∧ w.acc.toNat < 2 ^ w.cnt

/-- Memory and both hash tables are in canonical form, and the writer's invariants hold. -/
def State.MemoryOk (s : State) : Prop := s.mem.wf ∧ sparseWf s.lh ∧ sparseWf s.sh ∧ s.bw.Ok

/-- A match finder that has been set up has a legal configuration (R37, R400). -/
abbrev State.FinderOk (s : State) : Prop :=
  s.mfValid = true →
    6 ≤ s.mfcfg.toNat % 32 ∧ s.mfcfg.toNat % 32 ≤ 24
      ∧ 6 ≤ s.mfcfg.toNat / 2 ^ 5 % 32 ∧ s.mfcfg.toNat / 2 ^ 5 % 32 ≤ 24
      ∧ 3 ≤ s.mfcfg.toNat / 2 ^ 10 % 16 ∧ s.mfcfg.toNat / 2 ^ 10 % 16 ≤ 7
      ∧ 10 ≤ s.mfcfg.toNat / 2 ^ 14 % 32 ∧ s.mfcfg.toNat / 2 ^ 14 % 32 ≤ 31
      ∧ s.mfcfg.toNat / 2 ^ 19 = 1

/-- Buffers and the store stay within `BLOCK_MAX` and `SEQ_MAX` (R49, R50), the long field's index and the code
arrays fit the store, the reader's refill counter stays within its window (R172), the match finder's configuration is
legal, and no decoded offset is 0 (R523). -/
def State.LimitsOk (s : State) : Prop :=
  s.ss.lit.length ≤ Config.blockMax ∧ s.ss.seqs.length ≤ Config.seqMax
    ∧ (s.ss.longF ≠ .none → s.ss.longP.toNat < s.ss.seqs.length)
    ∧ (∀ l, s.ss.codes = some l → l.length = s.ss.seqs.length)
    ∧ s.dlit.length ≤ Config.blockMax ∧ s.sq.length ≤ Config.seqMax ∧ s.br.unl ≤ Config.brWindow
    ∧ s.FinderOk ∧ s.drep.r0 ≠ 0 ∧ s.drep.r1 ≠ 0 ∧ s.drep.r2 ≠ 0 ∧ ∀ q ∈ s.sq, q.off ≠ 0

/-- The codes ZCORE raises: all but the six held for the host (R553). -/
def ErrCode.raised (c : ErrCode) : Bool :=
  match c with
  | .badMagic => false
  | .dictUnsupported => false
  | .badBlockType => false
  | .badLiteralsType => false
  | .checksum => false
  | .badLevel => false
  | _ => true

/-- The error registers: no error, or a code that is raised, with its kind; `ERROFF` is 0 unless the error is
MalformedInput (R550, R553, R554). -/
def State.ErrorOk (s : State) : Prop :=
  ((s.errKind = 0 ∧ s.errCode = 0) ∨ ∃ c : ErrCode, c.raised = true ∧ s.errKind = c.kind ∧ s.errCode = c.byte)
    ∧ (s.errKind ≠ 1 → s.errOff = 0)

/-- A log is that of an FSE table built from a description, or 0 (R6, R42, R43). -/
def fseLogOk (log : Nat) : Prop := log = 0 ∨ (Config.fseMinLog ≤ log ∧ log ≤ Config.fseMaxLog)

/-- Table shapes: a valid description has a legal log, every FSE table has a legal log and an entry for every state,
and the Huffman decoding table has a log in 1..11 and an entry for every index (R41 to R43, R46). -/
def State.TablesOk (s : State) : Prop :=
  (s.nvalid = true → Config.fseMinLog ≤ s.nlog.toNat ∧ s.nlog.toNat ≤ Config.fseMaxLog)
    ∧ (∀ t, some t ∈ s.ct.toList → fseLogOk t.log ∧ t.nextState.length = 2 ^ max t.log 1)
    ∧ (∀ t, some t ∈ s.dt.toList → fseLogOk t.log ∧ t.entries.length = 2 ^ t.log)
    ∧ (∀ t, s.hd = some t → 1 ≤ t.log ∧ t.log ≤ Config.hufDecMaxLog ∧ t.entries.length = 2 ^ t.log)

/-! ### Programs on the bit writer and reader -/

/-- A run of field adds (R154) and flushes (R155), in any order and each without error; the list is the fields. -/
inductive WriterRun : State → List BitField → State → Prop
  | done (s : State) : WriterRun s [] s
  | add {s t u : State} {f : BitField} {fs : List BitField} :
      f.width ≤ 57 → f.val < 2 ^ f.width →
      exec .bwAdd { s with args := (s.args.set 0 (BitVec.ofNat 64 f.val)).set 1 (BitVec.ofNat 64 f.width) } = .next t →
      t.errKind = 0 → WriterRun t fs u → WriterRun s (f :: fs) u
  | flush {s t u : State} {fs : List BitField} :
      exec .bwFlush s = .next t → t.errKind = 0 → WriterRun t fs u → WriterRun s fs u

/-- Fields of the given widths read one after the other from a backward stream (R165): their values and the reader
after them. -/
def Stream.readFields (r : Stream) : List Nat → List Nat × Stream
  | [] => ([], r)
  | n :: ns =>
    let x := (r.skip n).readFields ns
    (r.peek n :: x.1, x.2)

/-! ### Distributions and tables -/

/-- `NORM[x]` as a signed value, for a symbol `x ≤ NMAX`; 0 above. -/
def State.share (s : State) (x : Nat) : Int := s.normList.getD x 0

/-- The states the symbols below `x` take (R237's `cum[x]`). -/
def State.slotsBelow (s : State) (x : Nat) : Nat := ((List.range x).map fun y => (s.share y).natAbs).sum

/-- A valid description that fills its table: the check of R236, with the log range of R41. -/
def State.DescriptionOk (s : State) : Prop :=
  s.nvalid = true ∧ 5 ≤ s.nlog.toNat ∧ s.nlog.toNat ≤ 12 ∧ (∀ x, -1 ≤ s.share x)
    ∧ s.slotsBelow (s.nmax.toNat + 1) = 2 ^ s.nlog.toNat

/-- The symbols of share -1, in rising order: R235 places them from the top of the table down. -/
def State.lowSymbols (s : State) : List Nat := (List.range (s.nmax.toNat + 1)).filter fun x => s.share x == -1

/-- The symbols of a positive share in rising order, each as often as its share: R235 places them on its walk. -/
def State.walkSymbols (s : State) : List Nat :=
  (List.range (s.nmax.toNat + 1)).flatMap fun x => List.replicate (s.share x).toNat x

/-- The places of R235's walk: multiples of its step, modulo the size, without those at or above `free`, which the
symbols of share -1 hold. -/
def walkPlaces (size free : Nat) : List Nat :=
  ((List.range size).map fun n => n * (size / 2 + size / 8 + 3) % size).filter fun u => decide (u < free)

/-- `sym u` is the symbol R235 puts at place `u` of the table of `NORM`, for every place. -/
def State.Spreads (s : State) (sym : Nat → Nat) : Prop :=
  (∀ j x : Nat, s.lowSymbols[j]? = some x → sym (2 ^ s.nlog.toNat - 1 - j) = x)
    ∧ ∀ j x : Nat, s.walkSymbols[j]? = some x →
        ∃ u : Nat, (walkPlaces (2 ^ s.nlog.toNat) (2 ^ s.nlog.toNat - s.lowSymbols.length))[j]? = some u ∧ sym u = x

/-- A Kraft-complete set of code lengths (R311), longest `M`. -/
def CodeComplete (lens : List Nat) (M : Nat) : Prop :=
  (∀ l ∈ lens, l ≤ M) ∧ (lens.map fun l => if l = 0 then 0 else 2 ^ (M - l)).sum = 2 ^ M

/-- A decoding table finds every code of a compression table by its first bits (R332, R333), and every code fits the
table's log. -/
def TableMatches (t : HufTable) (d : HufDec) : Prop :=
  d.log ≤ Config.hufDecMaxLog ∧ ∀ x, x < 256 → t.lenOf x ≠ 0 →
    t.lenOf x ≤ d.log ∧ t.valOf x < 2 ^ t.lenOf x ∧
      ∀ i, i < 2 ^ d.log → i >>> (d.log - t.lenOf x) = t.valOf x →
        (d.entry i).sym.toNat = x ∧ (d.entry i).nb.toNat = t.lenOf x

/-! ### Sequences -/

/-- The offset a stored sequence means to the encoder (R411, R421): a new one, or the first repeated offset, which is
the second one of the search where no literal comes before it. -/
def TrueSeq.searchOffset (o : Nat × Nat) (q : TrueSeq) : Nat :=
  if 3 < q.ov then q.ov - 3 else if q.ll = 0 then o.2 else o.1

/-- The search's repeated offsets after a stored sequence (R411): a new offset is pushed, a repeat without literals
swaps them. -/
def TrueSeq.searchRepeats (o : Nat × Nat) (q : TrueSeq) : Nat × Nat :=
  if 3 < q.ov then (q.ov - 3, o.1) else if q.ll = 0 then (o.2, o.1) else o

/-- What sequences decode to from a history, every offset resolved in turn as R480 says, and the history after them. -/
def resolveAll (rep : DecRep) : List TrueSeq → List DecodedSeq × DecRep
  | [] => ([], rep)
  | q :: qs =>
    let x := resolveOffset 0 0 q.ov q.ll rep
    let y := resolveAll x.2 qs
    ({ ll := BitVec.ofNat 32 q.ll, ml := BitVec.ofNat 32 (q.mlBase + 3), off := x.1 } :: y.1, y.2)

/-! ### Replay -/

/-- The literals the sequences before `i` take (R521's `lp`). -/
def State.literalsBefore (s : State) (i : Nat) : Nat := ((s.sq.take i).map fun q => q.ll.toNat).sum

/-- The bytes the sequences before `i` regenerate (R521's `o - A1`). -/
def State.bytesBefore (s : State) (i : Nat) : Nat := ((s.sq.take i).map fun q => q.ll.toNat + q.ml.toNat).sum

/-- The three checks of sequence `i` (R522): the literals suffice, the capacity does, and the offset reaches back no
further than the bytes there are and the frame's window (R523). -/
def State.Replayable (s : State) (i : Nat) (q : DecodedSeq) : Prop :=
  s.literalsBefore i + q.ll.toNat ≤ s.dlit.length ∧ s.bytesBefore i + q.ll.toNat + q.ml.toNat ≤ s.a2
    ∧ 1 ≤ q.off.toNat ∧ q.off.toNat ≤ min (s.a1 + s.bytesBefore i + q.ll.toNat) s.a3

/-- The bytes of the new region `[top, ..)` of memory `m` are what the sequences `qs` regenerate from offset `o` on with
the literals `lits`: each sequence's literals in order, then its match, every byte equal to the one `off` places before
it, and at the end the literals left (R521, R524 to R526). -/
def Regenerated (m : Memory) (top : Nat) : Nat → List DecodedSeq → List Byte → Prop
  | o, [], lits => m.Holds (top + o) lits
  | o, q :: qs, lits =>
    m.Holds (top + o) (lits.take q.ll.toNat)
      ∧ (∀ j, j < q.ml.toNat →
          m.read (top + o + q.ll.toNat + j) = m.read (top + o + q.ll.toNat + j - q.off.toNat))
      ∧ Regenerated m top (o + q.ll.toNat + q.ml.toNat) qs (lits.drop q.ll.toNat)

end Sys2Proof.Machine
end

