-- ==== Sys2Proof/Certificates/Slice0/Obligations.lean ====
section
/-! DEFINITION. The statements for the provers. Each says which rule of `spec/` it formalises; one that rests on the
model's own choice names the log entry. -/

open Sys2Proof Sys2Proof.Machine

/-! ### Encoding and issue -/

/-- R110, R115, R116: a word decodes to an instruction exactly when it is that instruction's command word and every
field is in its range. -/
def Obligations.DecodeIffEncode : Prop :=
  ∀ (w : BitVec 32) (i : Instr), decode w = .ok i ↔ i.wf = true ∧ w = encode i

/-- R110 steps (3) to (6), R111: the one error a word is rejected with, first condition first. The words of a known
opcode that are no instruction's are those with an unused field set. -/
def Obligations.RejectionOrder : Prop :=
  ∀ w : BitVec 32,
    (w.extractLsb' 24 8 ≠ 0 → decode w = .error .reservedBits)
    ∧ (w.extractLsb' 24 8 = 0 → (∀ i : Instr, (encode i).extractLsb' 0 8 ≠ w.extractLsb' 0 8) →
        decode w = .error .illegalOpcode)
    ∧ (w.extractLsb' 24 8 = 0 → (∃ i : Instr, (encode i).extractLsb' 0 8 = w.extractLsb' 0 8) →
        (∀ i : Instr, encode i ≠ w) → decode w = .error .reservedBits)
    ∧ (∀ i : Instr, encode i = w → i.wf = false → decode w = .error .argRange)

/-- R116, R118, R561: words of every family written out from the opcode map, and the spec's own examples. -/
def Obligations.SpecWordsDecode : Prop :=
  decode 0x00011234 = .ok (.fseDec 2 1 true) ∧ decode 0x00000028 = .ok (.fseBuildDt 0)
    ∧ decode 0x00000013 = .ok .bwClose ∧ decode 0x0000001A = .ok .brRead ∧ decode 0x00002025 = .ok (.fseLddef 2)
    ∧ decode 0x00003331 = .ok (.fseEnc 3 3) ∧ decode 0x00001044 = .ok (.hufEnc1 1) ∧ decode 0x00000051 = .ok .litDecode
    ∧ decode 0x0000106C = .ok (.mfGet 1) ∧ decode 0x00000070 = .ok .seqEncode ∧ decode 0x00000078 = .ok .replay
    ∧ decode 0x00000000 = .ok .nop ∧ decode 0x00000001 = .ok .reset ∧ decode 0x00000002 = .ok .clrerr
    ∧ decode 0x00000041 = .ok .hufBuild ∧ decode 0x00001042 = .ok (.hufWrite 1) ∧ decode 0x00000043 = .ok .hufRead
    ∧ decode 0x0000104B = .ok (.hufGetcode 1)
    ∧ decode 0x01000000 = .error .reservedBits ∧ decode 0x00000003 = .error .illegalOpcode
    ∧ decode 0x00000100 = .error .reservedBits ∧ decode 0x00000426 = .error .argRange

/-- R31, R110 steps (1), (2), (7): a step whose next host action writes a command word runs exactly the command the
word decodes to, unless an error is pending and the command is neither RESET nor CLRERR. `CMD` holds the word
meanwhile (log entry 17), and `withFetchWord` places such an action (log entry 1). -/
def Obligations.StepRunsDecodedCommand : Prop :=
  ∀ (s : State) (w : BitVec 32) (rest : List HostAction) (i : Instr),
    decode w = .ok i → (s.errKind = 0 ∨ i = .reset ∨ i = .clrerr) →
      (s.host = .command w :: rest → step s = exec i { s with host := rest, cmd := w })
      ∧ ∀ n, step (s.withFetchWord n w.toNat) = exec i { s with cmd := w }

/-- R112, R555, R592: while an error is pending, every command word but those of RESET and CLRERR is ignored, and the
word of CLRERR clears the three error fields and changes nothing else, whether or not an error is pending; only `CMD`
itself may hold what the host wrote. RESET leaves no error. -/
def Obligations.StickyErrors : Prop :=
  ∀ (s : State) (w : BitVec 32) (rest : List HostAction), s.host = .command w :: rest →
    (s.errKind ≠ 0 → w.extractLsb' 0 8 ≠ 0x01 → w.extractLsb' 0 8 ≠ 0x02 →
      ∃ c, step s = .next { s with host := rest, cmd := c })
    ∧ (w = 0x00000002 → ∃ c, step s = .next { s with host := rest, cmd := c, errKind := 0, errCode := 0, errOff := 0 })
    ∧ (w = 0x00000001 → ∃ t, step s = .next t ∧ t.errKind = 0 ∧ t.errCode = 0 ∧ t.errOff = 0)

/-- R110 steps (3) to (6), R551, R554: a rejected word raises InvalidArgument with its code and offset 0 and changes
nothing else; a bad RESET or CLRERR word does so even while an error is pending (log entry 10). -/
def Obligations.RejectedWordRaises : Prop :=
  ∀ (s : State) (w : BitVec 32) (rest : List HostAction) (e : DecodeError),
    s.host = .command w :: rest → decode w = .error e →
    (s.errKind = 0 ∨ w.extractLsb' 0 8 = 0x01 ∨ w.extractLsb' 0 8 = 0x02) →
      ∃ r n c, step s = .next { s with
        host := rest
        cmd := c
        errKind := 2
        errCode := match e with
          | .reservedBits => 0x43
          | .illegalOpcode => 0x42
          | .argRange => 0x44
        errOff := 0
        res := r
        free := n }

/-- R30, R33, R80, R617: between commands the host writes an argument register or one byte of memory, and nothing else
changes; with no action left the machine stays as it is (log entry 1). -/
def Obligations.HostActions : Prop :=
  ∀ (s : State) (rest : List HostAction),
    (s.host = [] → step s = .next s)
    ∧ (∀ k v, s.host = .setArg k v :: rest → step s = .next { s with host := rest, args := s.args.set k v })
    ∧ (∀ a b, s.host = .setByte a b :: rest →
        ∃ m, step s = .next { s with host := rest, mem := m } ∧ m.read a.toNat = b
          ∧ ∀ x, x ≠ a.toNat → m.read x = s.mem.read x)

/-! ### The whole machine -/

/-- R559: every command, in every state, ends in a next state, and so does every step; with no error pending the
command either completes without error or ends with one of the codes that are raised, with its kind. -/
def Obligations.EveryCommandCompletes : Prop :=
  (∀ s, ∃ t, step s = .next t) ∧ ∀ (i : Instr) (s : State), s.errKind = 0 → s.errCode = 0 →
    ∃ t, exec i s = .next t ∧
      ((t.errKind = 0 ∧ t.errCode = 0)
        ∨ ∃ c : ErrCode, c.raised = true ∧ t.errKind = c.kind ∧ t.errCode = c.byte)

/-- R13, R551, R552: a command that succeeds writes only the parts its rule lists, and one that fails changes, beside
the error and result registers and memory, only the parts its rule names "on failure". -/
def Obligations.CommandFrame : Prop :=
  ∀ (i : Instr) (s t : State), s.errKind = 0 → exec i s = .next t → ∀ p : Part,
    (t.errKind = 0 → p ∉ writesOf i → s.Agree t p)
    ∧ (t.errKind ≠ 0 → p ∉ [.error, .res, .free, .mem] → p ∉ clearsOf i → s.Agree t p)

/-- R83, R84, R96, R520: whether a command succeeds or fails, every byte outside its destination window reads as before; a
command without one changes no byte. The premise is the bit writer's invariant (R152). For REPLAY `destination` is the
new region alone: the history stays also after a failure, since R520 says that REPLAY never writes it, where R96 would
let the whole window `(A0, A1 + A2)` hold any value (log entry 7). -/
def Obligations.MemoryFrame : Prop :=
  ∀ (i : Instr) (s t : State), s.bw.Ok → exec i s = .next t →
    s.mem.SameOutside t.mem (destination i s).1 (destination i s).2

/-- R80, R152: memory and both hash tables stay in canonical form, and the bit writer keeps its invariants: its cursor
stays 8 bytes inside its window and its accumulator holds only the bits it counts. -/
def Obligations.StepKeepsMemory : Prop :=
  ∀ s t : State, s.MemoryOk → step s = .next t → t.MemoryOk

/-- R49, R50, R172, R400, R523: the store and the decoder's buffers stay within `BLOCK_MAX` and `SEQ_MAX`, the long
field's index and the code arrays fit the store, the refill counter stays within 57, a match finder that has been set up
has a legal configuration, and no decoded offset becomes 0. -/
def Obligations.StepKeepsLimits : Prop :=
  ∀ s t : State, s.LimitsOk → step s = .next t → t.LimitsOk

/-- R550, R553, R554: `STATUS` always holds no error or a code ZCORE raises, with its kind, and `ERROFF` is 0 unless
the error is MalformedInput. -/
def Obligations.StepKeepsErrors : Prop :=
  ∀ s t : State, s.ErrorOk → step s = .next t → t.ErrorOk

/-- R41 to R43, R46: a valid distribution has a legal log, and every valid table a legal log and an entry for every
state or index. -/
def Obligations.StepKeepsTables : Prop :=
  ∀ s t : State, s.TablesOk → step s = .next t → t.TablesOk

/-- The four invariants hold after power-on reset. -/
def Obligations.ResetMeetsInvariants : Prop :=
  State.reset.MemoryOk ∧ State.reset.LimitsOk ∧ State.reset.ErrorOk ∧ State.reset.TablesOk

/-- R52: the reset value of every element of the state; the RESET command alone leaves `A0`-`A7` unchanged. -/
def Obligations.ResetValues : Prop :=
  (∀ s : State, s = State.reset →
    s.cmd = 0 ∧ (∀ j : Fin 4, s.res[j] = 0) ∧ (∀ j : Fin 8, s.args[j] = 0) ∧ s.status = 0 ∧ s.errOff = 0
    ∧ s.mfcfg = 0
    ∧ s.bw = { acc := 0, cnt := 0, base := 0, cap := 0, cur := 0, ovf := false, valid := false }
    ∧ s.br = { base := 0, len := 0, pos := 0, unl := 0, valid := false }
    ∧ (∀ x : Fin 256, s.counts[x] = 0 ∧ s.norm[x] = 0) ∧ s.hmax = 0 ∧ s.hlargest = 0
    ∧ s.nmax = 0 ∧ s.nlog = 0 ∧ s.nvalid = false
    ∧ (∀ k : Fin 4, s.ct[k] = none ∧ s.dt[k] = none ∧ s.es[k] = 0 ∧ s.ds[k] = 0)
    ∧ (∀ e : Fin 2, s.ht[e] = none) ∧ s.hpend = false ∧ s.hd = none
    ∧ s.lh = [] ∧ s.sh = [] ∧ s.ctxBase = 0 ∧ s.wbo = 0 ∧ s.mfValid = false
    ∧ s.repLive = { r0 := 1, r1 := 4 } ∧ s.repStage = { r0 := 1, r1 := 4 }
    ∧ s.ss = { lit := [], seqs := [], longF := .none, longP := 0, codes := none }
    ∧ s.drep = { r0 := 1, r1 := 4, r2 := 8 } ∧ s.dlit = [] ∧ s.sq = [])
  ∧ ∀ s t : State, exec .reset s = .next t → t.args = s.args

/-- R35, R552: every bit of `STATUS` in every state. -/
def Obligations.StatusBits : Prop :=
  ∀ (s : State) (j : Nat), j < 32 → s.status.getLsbD j =
    if j < 2 then s.errKind.getLsbD j
    else if j < 8 then false
    else if j < 16 then s.errCode.getLsbD (j - 8)
    else if j = 16 then s.br.valid && decide (s.br.pos < 0)
    else if j = 17 then s.br.valid && decide (s.br.pos = 0)
    else if j = 18 then s.bw.ovf
    else if j = 19 then s.br.valid
    else if j = 20 then s.bw.valid
    else if j = 21 then s.hpend
    else if j = 22 then s.mfValid
    else false

/-- R590 to R592, R362, R363, R420, R435, R436, R490: the commands without operands that only move or clear state. RESET
keeps `A0`-`A7` and memory, and the model's own host list, free counter and parameters (log entry 23). -/
def Obligations.StateCommands : Prop :=
  ∀ s : State,
    exec .nop s = .next s
    ∧ exec .reset s = .next { State.reset with
        host := s.host, args := s.args, mem := s.mem, free := s.free, params := s.params }
    ∧ exec .clrerr s = .next { s with errKind := 0, errCode := 0, errOff := 0 }
    ∧ (s.hpend = true → exec .hufCommit s = .next { s with ht := s.ht.set 0 s.ht[1], hpend := false })
    ∧ (s.hpend = false → exec .hufCommit s = .next s)
    ∧ exec .hufDiscard s = .next { s with hpend := false }
    ∧ exec .ssReset s = .next { s with ss := { lit := [], seqs := [], longF := .none, longP := 0, codes := none } }
    ∧ exec .repInit s = .next { s with
        repLive := { r0 := 1, r1 := 4 }, repStage := { r0 := 1, r1 := 4 }, ht := #v[none, none], hpend := false }
    ∧ exec .repCommit s = .next { s with repLive := s.repStage }
    ∧ exec .drepInit s = .next { s with
        drep := { r0 := 1, r1 := 4, r2 := 8 }, dt := #v[none, none, none, s.dt[3]], hd := none }

/-! ### Bit cursors -/

/-- R154, R155: BW_ADD, its checks in order and the accumulator it leaves; BW_FLUSH writes the accumulator's 8 bytes at
the cursor, moves the cursor by the complete bytes, stopped at `cap - 8` with `ovf` set, and keeps the partial byte. -/
def Obligations.WriterSteps : Prop :=
  (∀ s : State,
     (s.bw.valid = false → Raises .bwAdd s .stateInvalid 0)
     ∧ (s.bw.valid = true → 57 < s.a1 → Raises .bwAdd s .argRange 0)
     ∧ (s.bw.valid = true → s.a1 ≤ 57 → 2 ^ s.a1 ≤ s.a0 → Raises .bwAdd s .argRange 0)
     ∧ (s.bw.valid = true → s.a1 ≤ 57 → s.a0 < 2 ^ s.a1 → 64 < s.bw.cnt + s.a1 → Raises .bwAdd s .bwAccFull 0)
     ∧ (s.bw.valid = true → s.a1 ≤ 57 → s.a0 < 2 ^ s.a1 → s.bw.cnt + s.a1 ≤ 64 →
         exec .bwAdd s = .next { s with bw := { s.bw with
           acc := s.bw.acc ||| (s.args[0] <<< s.bw.cnt), cnt := s.bw.cnt + s.a1 } }))
  ∧ ∀ s : State,
      (s.bw.valid = false → Raises .bwFlush s .stateInvalid 0)
      ∧ (s.bw.valid = true → 8 ≤ s.bw.cap.toNat →
          ∃ m w, exec .bwFlush s = .next { s with mem := m, bw := w }
            ∧ (∀ i, i < 8 → m.read (s.bw.base.toNat + s.bw.cur.toNat + i) = s.bw.acc.extractLsb' (8 * i) 8)
            ∧ s.mem.SameOutside m (s.bw.base.toNat + s.bw.cur.toNat) 8
            ∧ w.base = s.bw.base ∧ w.cap = s.bw.cap ∧ w.valid = true
            ∧ w.cnt = s.bw.cnt % 8 ∧ w.acc = s.bw.acc >>> (8 * (s.bw.cnt / 8))
            ∧ (s.bw.cur.toNat + s.bw.cnt / 8 ≤ s.bw.cap.toNat - 8 →
                w.cur.toNat = s.bw.cur.toNat + s.bw.cnt / 8 ∧ w.ovf = s.bw.ovf)
            ∧ (s.bw.cap.toNat - 8 < s.bw.cur.toNat + s.bw.cnt / 8 →
                w.cur.toNat = s.bw.cap.toNat - 8 ∧ w.ovf = true))

/-- R157: BW_CLOSE adds the end mark, flushes as BW_FLUSH does (R155: the accumulator, count, cursor and overflow flag it
leaves) and returns the size, 0 for an overflow. Bytes of the window below the old
cursor stay; those from there to the returned size are the accumulator's; every byte outside the window stays. The
premises are the writer's invariants (R152). The bytes at and beyond the size hold any value (R156). That a BW_CLOSE
which fails with BW_ACC_FULL leaves memory unchanged is log entry 6. -/
def Obligations.WriterClose : Prop :=
  ∀ s : State,
    (s.bw.valid = false → Raises .bwClose s .stateInvalid 0)
    ∧ (s.bw.valid = true → 64 ≤ s.bw.cnt → Raises .bwClose s .bwAccFull 0)
    ∧ (s.bw.valid = true → s.bw.Ok → s.bw.cnt < 64 →
        ∃ m n w size, exec .bwClose s = .next { s with mem := m, free := n, bw := w, res := s.res.set 0 (res64 size) }
          ∧ w.valid = false ∧ w.base = s.bw.base ∧ w.cap = s.bw.cap ∧ w.cnt = (s.bw.cnt + 1) % 8
          ∧ w.acc = (s.bw.acc ||| ((1 : DWord) <<< s.bw.cnt)) >>> (8 * ((s.bw.cnt + 1) / 8))
          ∧ (s.bw.cur.toNat + (s.bw.cnt + 1) / 8 ≤ s.bw.cap.toNat - 8 →
              w.cur.toNat = s.bw.cur.toNat + (s.bw.cnt + 1) / 8 ∧ w.ovf = s.bw.ovf)
          ∧ (s.bw.cap.toNat - 8 < s.bw.cur.toNat + (s.bw.cnt + 1) / 8 →
              w.cur.toNat = s.bw.cap.toNat - 8 ∧ w.ovf = true)
          ∧ (s.bw.ovf = true ∨ s.bw.cap.toNat - 8 ≤ s.bw.cur.toNat + (s.bw.cnt + 1) / 8 → size = 0)
          ∧ (s.bw.ovf = false → s.bw.cur.toNat + (s.bw.cnt + 1) / 8 < s.bw.cap.toNat - 8 →
              size = s.bw.cur.toNat + (s.bw.cnt + 1 + 7) / 8
              ∧ (∀ a, a < s.bw.cur.toNat → m.read (s.bw.base.toNat + a) = s.mem.read (s.bw.base.toNat + a))
              ∧ ∀ i, s.bw.cur.toNat + i < size → m.read (s.bw.base.toNat + s.bw.cur.toNat + i)
                  = (s.bw.acc ||| ((1 : DWord) <<< s.bw.cnt)).extractLsb' (8 * i) 8)
          ∧ s.mem.SameOutside m s.bw.base.toNat s.bw.cap.toNat)

/-- R158, R173 (log entry 19): whatever the flush schedule, a stream written by BW_INIT, adds and flushes, and
BW_CLOSE, each without error, is the one its fields alone decide, and its size is 0 exactly when they do not fit. -/
def Obligations.FlushScheduleInvisible : Prop :=
  ∀ (s0 s1 s2 s3 : State) (fs : List BitField), s0.errKind = 0 →
    exec .bwInit s0 = .next s1 → s1.errKind = 0 → WriterRun s1 fs s2 → exec .bwClose s2 = .next s3 → s3.errKind = 0 →
      s3.res[0] = res64 (closedStream fs s0.a1).length
      ∧ s3.mem.Holds s0.a0 (closedStream fs s0.a1)
      ∧ (closedStream fs s0.a1 = [] ↔ s0.a1 - 8 ≤ (totalBits fs + 1) / 8)

/-- R151, R160: a closed private stream, opened and read backward with the fields' widths last first, gives the values
back and ends exactly at its start; it fits its capacity and its last byte is not 0. -/
def Obligations.StreamReadsBack : Prop :=
  ∀ (fs : List BitField) (cap : Nat), (∀ f ∈ fs, f.val < 2 ^ f.width) → closedStream fs cap ≠ [] →
    (closedStream fs cap).length ≤ cap ∧ (closedStream fs cap).getLast? ≠ some 0
      ∧ ∃ r, openStream (closedStream fs cap) = .ok r ∧ r.pos = totalBits fs
        ∧ (r.readFields (fs.reverse.map BitField.width)).1 = fs.reverse.map BitField.val
        ∧ (r.readFields (fs.reverse.map BitField.width)).2.pos = 0

/-- R153, R161, R162, R165 to R168, R172: BW_INIT and BR_INIT, their checks in order and the cursors they leave; BR_PEEK,
BR_READ and BR_LOAD, their checks in order, the bits a read returns in each of R165's cases, and the position and counter
left. -/
def Obligations.CursorCommands : Prop :=
  (∀ s : State,
    (2 ^ 31 ≤ s.a1 ∨ 2 ^ 64 < s.a0 + s.a1 → Raises .bwInit s .argRange 0 ∧ Raises .brInit s .argRange 0)
    ∧ (s.a1 < 8 → s.a0 + s.a1 ≤ 2 ^ 64 → Raises .bwInit s .dstTooSmall 0)
    ∧ (8 ≤ s.a1 → s.a1 < 2 ^ 31 → s.a0 + s.a1 ≤ 2 ^ 64 →
        exec .bwInit s = .next { s with bw :=
          { base := s.args[0], cap := BitVec.ofNat 32 s.a1, cur := 0, acc := 0, cnt := 0, ovf := false
            valid := true } })
    ∧ (s.a1 = 0 → Raises .brInit s .inputTooShort 0)
    ∧ (0 < s.a1 → s.a1 < 2 ^ 31 → s.a0 + s.a1 ≤ 2 ^ 64 → s.mem.read (s.a0 + s.a1 - 1) = 0 →
        Raises .brInit s .bitstreamNoEndMark (s.a1 - 1))
    ∧ (0 < s.a1 → s.a1 < 2 ^ 31 → s.a0 + s.a1 ≤ 2 ^ 64 →
        ∀ h : Nat, 2 ^ h ≤ (s.mem.read (s.a0 + s.a1 - 1)).toNat →
          (s.mem.read (s.a0 + s.a1 - 1)).toNat < 2 ^ (h + 1) →
          exec .brInit s = .next { s with br :=
            { base := s.args[0], len := BitVec.ofNat 32 s.a1, pos := 8 * ((s.a1 : Int) - 1) + (h : Int), unl := 0
              valid := true } }))
  ∧ ∀ s : State,
    (s.br.valid = false → Raises .brPeek s .stateInvalid 0 ∧ Raises .brRead s .stateInvalid 0
        ∧ Raises .brLoad s .stateInvalid 0)
    ∧ (s.br.valid = true → 57 < s.a0 → Raises .brPeek s .argRange 0 ∧ Raises .brRead s .argRange 0)
    ∧ (s.br.valid = true → s.a0 ≤ 57 → 57 < s.br.unl + s.a0 →
        Raises .brPeek s .brNeedsLoad 0 ∧ Raises .brRead s .brNeedsLoad 0)
    ∧ (s.br.valid = true → s.br.unl + s.a0 ≤ 57 →
        ∃ v : DWord, exec .brPeek s = .next { s with res := s.res.set 0 v }
          ∧ exec .brRead s = .next { s with
              res := s.res.set 0 v, br := { s.br with pos := s.br.pos - s.a0, unl := s.br.unl + s.a0 } }
          ∧ (s.a0 = 0 → v = 0)
          ∧ (0 < s.a0 → (s.a0 : Int) ≤ s.br.pos →
              v.toNat = leValue (s.window s.br.base.toNat s.br.len.toNat) / 2 ^ (s.br.pos.toNat - s.a0) % 2 ^ s.a0)
          ∧ (0 ≤ s.br.pos → s.br.pos < s.a0 →
              v.toNat = leValue (s.window s.br.base.toNat s.br.len.toNat) % 2 ^ s.br.pos.toNat
                * 2 ^ (s.a0 - s.br.pos.toNat))
          ∧ (s.br.pos < 0 → v = 0))
    ∧ (s.br.valid = true → exec .brLoad s = .next { s with
        br := { s.br with unl := 0 }
        res := s.res.set 0 (if s.br.pos < 0 then 3 else if s.br.pos = 0 then 2 else if s.br.pos < 57 then 1 else 0) })

/-! ### FSE tables -/

/-- R200: HIST counts every symbol of its window and finds the highest one counted and the largest count. -/
def Obligations.Histogram : Prop :=
  ∀ s : State,
    (2 ^ 31 ≤ s.a1 ∨ 2 ^ 64 < s.a0 + s.a1 → Raises .hist s .argRange 0)
    ∧ (s.a1 < 2 ^ 31 → s.a0 + s.a1 ≤ 2 ^ 64 →
        ∃ (counts : Vector Word 256) (hmax : Byte) (largest : Word),
          exec .hist s = .next { s with
            counts := counts, hmax := hmax, hlargest := largest
            res := (s.res.set 0 (hmax.zeroExtend 64)).set 1 (largest.zeroExtend 64) }
          ∧ (∀ x : Fin 256, counts[x].toNat = (s.window s.a0 s.a1).count (BitVec.ofNat 8 x.val))
          ∧ (s.a1 = 0 → hmax = 0)
          ∧ (∀ x : Fin 256, hmax.toNat = x.val → 0 < s.a1 → counts[x] ≠ 0)
          ∧ (∀ x : Fin 256, hmax.toNat < x.val → counts[x] = 0)
          ∧ (∀ x : Fin 256, counts[x] ≤ largest) ∧ ∃ x : Fin 256, counts[x] = largest)

/-- R201, R202, R300: FSE_OPTLOG (`minus = 2`) and HUF_OPTLOG (`minus = 1`), their checks and the clamped log, always
in 5..12. The bound on the sample count is R114's (log entry 11). -/
def Obligations.TableLogs : Prop :=
  ∀ s : State,
    let minLog : Int :=
      min (Nat.log2 (s.a1 - 1) + 1) (if s.a2 = 0 then 1 else Nat.log2 s.a2 + 2)
    let log (minus : Int) : Int := min (max (max (min s.a0 (Nat.log2 (s.a1 - 1) - minus)) minLog) 5) 12
    (s.a0 < 1 ∨ 12 < s.a0 ∨ 255 < s.a2 ∨ 2 ^ 31 ≤ s.a1 → Raises .fseOptlog s .argRange 0)
    ∧ (s.a0 < 1 ∨ 11 < s.a0 ∨ 255 < s.a2 ∨ 2 ^ 31 ≤ s.a1 → Raises .hufOptlog s .argRange 0)
    ∧ (1 ≤ s.a0 → s.a0 ≤ 12 → s.a2 ≤ 255 → s.a1 < 2 → Raises .fseOptlog s .needsRle 0)
    ∧ (1 ≤ s.a0 → s.a0 ≤ 11 → s.a2 ≤ 255 → s.a1 < 2 → Raises .hufOptlog s .needsRle 0)
    ∧ (1 ≤ s.a0 → s.a0 ≤ 12 → s.a2 ≤ 255 → 2 ≤ s.a1 → s.a1 < 2 ^ 31 →
        exec .fseOptlog s = .next { s with res := s.res.set 0 (res64 (log 2).toNat) } ∧ 5 ≤ log 2 ∧ log 2 ≤ 12)
    ∧ (1 ≤ s.a0 → s.a0 ≤ 11 → s.a2 ≤ 255 → 2 ≤ s.a1 → s.a1 < 2 ^ 31 →
        exec .hufOptlog s = .next { s with res := s.res.set 0 (res64 (log 1).toNat) } ∧ 5 ≤ log 1 ∧ log 1 ≤ 12)

/-- R210: FSE_NORM, its checks in order, and the distribution it leaves where R211 gives one; `NVALID` is 0 after any
error. -/
def Obligations.NormalizeCommand : Prop :=
  ∀ s : State,
    let counts := s.countList s.a2
    let u : State := { s with nvalid := false }
    let inRange := s.a2 ≤ 255 ∧ 5 ≤ s.a0 ∧ s.a0 ≤ 12 ∧ s.a1 < 2 ^ 31
    (¬ inRange → RaisesFrom .fseNorm s u .argRange 0)
    ∧ (inRange → s.a1 ≠ counts.sum → RaisesFrom .fseNorm s u .argRange 0)
    ∧ (inRange → s.a1 = counts.sum → (s.a1 < 2 ∨ s.a1 ∈ counts) → RaisesFrom .fseNorm s u .needsRle 0)
    ∧ (inRange → s.a1 = counts.sum → 2 ≤ s.a1 → s.a1 ∉ counts → s.a0 < minTableLog s.a1 s.a2 →
        RaisesFrom .fseNorm s u .argRange 0)
    ∧ (inRange → s.a1 = counts.sum → 2 ≤ s.a1 → s.a1 ∉ counts → minTableLog s.a1 s.a2 ≤ s.a0 →
        (∀ e, normalize counts s.a0 s.a1 = .error e → RaisesFrom .fseNorm s u .argRange 0)
        ∧ ∀ norm, normalize counts s.a0 s.a1 = .ok norm →
            ∃ v : Vector Half 256, exec .fseNorm s = .next { s with
                norm := v, nmax := BitVec.ofNat 8 s.a2, nlog := BitVec.ofNat 4 s.a0, nvalid := true }
              ∧ ∀ x : Fin 256, v[x].toInt = norm.getD x.val 0)

/-- R215: what FSE_NORM leaves on success: the shares fill the table, counting -1 as 1, a share is 0 exactly where the
count is, and none is below -1. -/
def Obligations.NormalizePostconditions : Prop :=
  ∀ s t : State, s.errKind = 0 → exec .fseNorm s = .next t → t.errKind = 0 →
    t.nvalid = true ∧ t.slotsBelow (t.nmax.toNat + 1) = 2 ^ t.nlog.toNat
      ∧ ∀ x : Fin 256, x.val ≤ t.nmax.toNat →
          (t.share x.val = 0 ↔ t.counts[x] = 0) ∧ -1 ≤ t.share x.val

/-- R221, R222: FSE_WRNC and FSE_RDNC, their checks in order and their results, where R220 gives a description and
where R223 reads one. A failing read leaves `NVALID = 0`. -/
def Obligations.DescriptionCommands : Prop :=
  ∀ s : State,
    let windowBad := 2 ^ 31 ≤ s.a1 ∨ 2 ^ 64 < s.a0 + s.a1
    (s.nvalid = false → Raises .fseWrnc s .stateInvalid 0)
    ∧ (s.nvalid = true → windowBad → Raises .fseWrnc s .argRange 0)
    ∧ (s.nvalid = true → ¬ windowBad → ∀ hdr, ncountBytes s.normAll s.nlog.toNat = some hdr →
        (s.a1 < hdr.length → RaisesDst .fseWrnc s s .dstTooSmall 0 s.a0 s.a1)
        ∧ (hdr.length ≤ s.a1 →
            Delivers .fseWrnc s { s with res := s.res.set 0 (res64 hdr.length) } s.a0 s.a1 hdr))
    ∧ (windowBad ∨ 255 < s.a2 ∨ s.a3 < 5 ∨ 12 < s.a3 → Raises .fseRdnc s .argRange 0)
    ∧ (¬ windowBad → s.a2 ≤ 255 → 5 ≤ s.a3 → s.a3 ≤ 12 →
        (∀ e, readNCount (s.window s.a0 s.a1) s.a2 s.a3 = .error e →
          RaisesFrom .fseRdnc s { s with nvalid := false } e.code e.off)
        ∧ ∀ d, readNCount (s.window s.a0 s.a1) s.a2 s.a3 = .ok d →
            ∃ v : Vector Half 256, exec .fseRdnc s = .next { s with
                norm := v, nmax := BitVec.ofNat 8 d.maxSym, nlog := BitVec.ofNat 4 d.log, nvalid := true
                res := ((s.res.set 0 (res64 d.used)).set 1 (res64 d.log)).set 2 (res64 d.maxSym) }
              ∧ ∀ x : Fin 256, v[x].toInt = d.norm.getD x.val 0)

/-- R224: FSE_RDNC applied to the bytes FSE_WRNC wrote of a distribution that fills its table returns every count, the
log and the size. `s` is the state at the write, `u` any later one whose memory holds those bytes. -/
def Obligations.DescriptionRoundTrip : Prop :=
  ∀ s t u : State, s.errKind = 0 → s.DescriptionOk → (∀ x : Fin 256, s.nmax.toNat < x.val → s.norm[x] = 0) →
    exec .fseWrnc s = .next t → t.errKind = 0 →
    u.mem = t.mem → u.a0 = s.a0 → u.a1 = (t.res[0]).toNat → s.nmax.toNat ≤ u.a2 → u.a2 ≤ 255 →
    s.nlog.toNat ≤ u.a3 → u.a3 ≤ 12 →
      ∃ v, exec .fseRdnc u = .next v ∧ v.errKind = u.errKind ∧ v.norm = s.norm ∧ v.nlog = s.nlog ∧ v.nvalid = true
        ∧ v.nmax.toNat ≤ s.nmax.toNat ∧ v.res[0] = t.res[0]

/-- R225, R230, R238, R242, R245, R246: the commands that load or set a distribution or a count directly, and the
one-symbol tables; `basic` holds R230's rows for FSE_LDDEF's field values 0, 1 and 2. FSE_SETCOUNT is stated for both
bounds on its count, R114's 2^31 and R245's 2^32; that a parameter says which applies is log entry 11. `dNB` and `dFS` of
the symbols an RLE table does not hold are not stated (log entry 15). -/
def Obligations.FseSetters : Prop :=
  (∀ s : State,
     (let basic : List (List Int × Nat) := [
        ([4, 3, 2, 2, 2, 2, 2, 2, 2, 2, 2, 2, 2, 1, 1, 1, 2, 2, 2, 2, 2, 2, 2, 2, 2, 3, 2, 1, 1, 1, 1, 1,
          -1, -1, -1, -1], 6),
        ([1, 1, 1, 1, 1, 1, 2, 2, 2, 1, 1, 1, 1, 1, 1, 1, 1, 1, 1, 1, 1, 1, 1, 1, -1, -1, -1, -1, -1], 5),
        ([1, 4, 3, 2, 2, 2, 2, 2, 2, 1, 1, 1, 1, 1, 1, 1, 1, 1, 1, 1, 1, 1, 1, 1, 1, 1, 1, 1, 1, 1, 1, 1, 1, 1, 1, 1, 1,
          1, 1, 1, 1, 1, 1, 1, 1, 1, -1, -1, -1, -1, -1, -1, -1], 6)]
      ∀ (f : Fin 3) (d : List Int) (log : Nat), basic[f.val]? = some (d, log) →
        ∃ v : Vector Half 256, exec (.fseLddef (nib f)) s = .next { s with
            norm := v, nmax := BitVec.ofNat 8 (d.length - 1), nlog := BitVec.ofNat 4 log, nvalid := true }
          ∧ (∀ x : Fin 256, v[x].toInt = d.getD x.val 0) ∧ (d.map Int.natAbs).sum = 2 ^ log)
     ∧ (let limit : Nat := if s.params.setcount = .general then 2 ^ 31 else 2 ^ 32
        (255 < s.a0 ∨ limit ≤ s.a1 → Raises .fseSetcount s .argRange 0)
        ∧ ∀ x : Fin 256, s.a0 = x.val → s.a1 < limit →
            exec .fseSetcount s = .next { s with counts := s.counts.set x (BitVec.ofNat 32 s.a1) })
     ∧ (let value : Int := (BitVec.ofNat 16 s.a1).toInt
         let ok := s.a1 < 2 ^ 16 ∧ s.a0 ≤ s.a2 ∧ s.a2 ≤ 255 ∧ 5 ≤ s.a3 ∧ s.a3 ≤ 12 ∧ -1 ≤ value ∧ value ≤ 2 ^ s.a3
         (¬ ok → Raises .fseSetnorm s .argRange 0)
         ∧ (ok → ∀ x : Fin 256, s.a0 = x.val → exec .fseSetnorm s = .next { s with
             norm := s.norm.set x (BitVec.ofNat 16 s.a1), nmax := BitVec.ofNat 8 s.a2, nlog := BitVec.ofNat 4 s.a3
             nvalid := true })))
  ∧ ∀ (s : State) (k : Fin 4),
      (255 < s.a0 → Raises (.fseRleCt (nib k)) s .argRange 0 ∧ Raises (.fseRleDt (nib k)) s .argRange 0)
      ∧ (∀ x : Fin 256, s.a0 = x.val →
          (∃ T : FseCT, exec (.fseRleCt (nib k)) s = .next { s with ct := s.ct.set k (some T) }
            ∧ T.log = 0 ∧ T.maxSym.toNat = x.val ∧ T.nextState = [0, 0]
            ∧ (∀ y : Fin 256, T.present[y] = true ↔ y = x) ∧ T.dNB[x] = 0 ∧ T.dFS[x] = 0)
          ∧ exec (.fseRleDt (nib k)) s = .next { s with dt := s.dt.set k (some
              { log := 0, entries := [{ sym := BitVec.ofNat 8 x.val, nb := 0, ns := 0 }] }) })

/-- R235 to R237: FSE_BUILD_CT. A distribution that fills its table always builds: the spread closes. Every field of the
table is then as R237 says; `nextState` holds every state once, and within each symbol's places the states at which
R235's spread puts that symbol, rising. -/
def Obligations.BuildEncodingTable : Prop :=
  ∀ (s : State) (k : Fin 4),
    (s.nvalid = false → Raises (.fseBuildCt (nib k)) s .stateInvalid 0)
    ∧ (s.nvalid = true →
        ((∃ x, s.share x < -1) ∨ s.slotsBelow (s.nmax.toNat + 1) ≠ 2 ^ s.nlog.toNat) →
        RaisesFrom (.fseBuildCt (nib k)) s { s with ct := s.ct.set k none } .fseCorrupt 0)
    ∧ (s.DescriptionOk → ∃ (T : FseCT) (sym : Nat → Nat), s.Spreads sym ∧
        exec (.fseBuildCt (nib k)) s = .next { s with ct := s.ct.set k (some T) }
        ∧ T.log = s.nlog.toNat ∧ T.maxSym = s.nmax
        ∧ (∀ x : Fin 256, T.present[x] = true ↔ s.share x.val ≠ 0)
        ∧ (∀ x : Fin 256, x.val ≤ s.nmax.toNat →
            (s.share x.val = 0 →
              T.dNB[x].toInt = ((T.log : Int) + 1) * 2 ^ 16 - 2 ^ T.log ∧ T.dFS[x].toInt = 0)
            ∧ (s.share x.val = 1 ∨ s.share x.val = -1 →
              T.dNB[x].toInt = (T.log : Int) * 2 ^ 16 - 2 ^ T.log
                ∧ T.dFS[x].toInt = (s.slotsBelow x.val : Int) - 1)
            ∧ (∀ h : Nat, 1 < s.share x.val → 2 ^ h ≤ s.share x.val - 1 → s.share x.val - 1 < 2 ^ (h + 1) →
              T.dNB[x].toInt = ((T.log : Int) - h) * 2 ^ 16 - s.share x.val * 2 ^ (T.log - h)
                ∧ T.dFS[x].toInt = (s.slotsBelow x.val : Int) - s.share x.val))
        ∧ (T.nextState.map BitVec.toNat).Perm (List.range' (2 ^ T.log) (2 ^ T.log))
        ∧ (∀ x i, s.slotsBelow x ≤ i → i < s.slotsBelow (x + 1) →
            sym ((T.nextState.getD i 0).toNat - 2 ^ T.log) = x)
        ∧ ∀ x i j, s.slotsBelow x ≤ i → i < j → j < s.slotsBelow (x + 1) →
            (T.nextState.getD i 0).toNat < (T.nextState.getD j 0).toNat)

/-- R235, R240, R241: FSE_BUILD_DT. A distribution that fills its table always builds. Every state holds the symbol that
R235's spread puts there, each symbol has as many states as its share, and the state at place `u`, the `r`-th of its
symbol from 0, has the width and base R241 computes from `share + r`; every next state lies in the table. -/
def Obligations.BuildDecodingTable : Prop :=
  ∀ (s : State) (k : Fin 4),
    (s.nvalid = false → RaisesFrom (.fseBuildDt (nib k)) s { s with dt := s.dt.set k none } .stateInvalid 0)
    ∧ (s.nvalid = true →
        ((∃ x, s.share x < -1) ∨ s.slotsBelow (s.nmax.toNat + 1) ≠ 2 ^ s.nlog.toNat) →
        RaisesFrom (.fseBuildDt (nib k)) s { s with dt := s.dt.set k none } .fseCorrupt 0)
    ∧ (s.DescriptionOk → ∃ T : FseDT,
        exec (.fseBuildDt (nib k)) s = .next { s with dt := s.dt.set k (some T) }
        ∧ T.log = s.nlog.toNat ∧ T.entries.length = 2 ^ T.log
        ∧ s.Spreads (fun u => (T.entry u).sym.toNat)
        ∧ (∀ x : Fin 256, T.entries.countP (fun e => e.sym.toNat == x.val) = (s.share x.val).natAbs)
        ∧ ∀ u, u < 2 ^ T.log →
            let e := T.entry u
            let y := (s.share e.sym.toNat).natAbs + (T.entries.take u).countP fun f => f.sym == e.sym
            (∀ h, 2 ^ h ≤ y → y < 2 ^ (h + 1) →
              e.nb.toNat = T.log - h ∧ e.ns.toNat + 2 ^ T.log = y * 2 ^ (T.log - h))
            ∧ e.ns.toNat + 2 ^ e.nb.toNat ≤ 2 ^ T.log)

/-- R247 to R250, R280, R340, R341, R360: the commands that show a distribution, a count, a table or a state register,
and the cost estimate. FSE_GETCT checks the table before its operands (log entry 24). Not stated: what it shows as `dNB`
and `dFS` for the symbols below an RLE table's own, and the code value of a symbol without a code (log entry 15). In
HUF_EST the range of `A0` is checked first (log entry 24). -/
def Obligations.TableInspection : Prop :=
  (∀ s : State,
     (255 < s.a0 → Raises .fseGetnorm s .argRange 0 ∧ Raises .fseGetcount s .argRange 0)
     ∧ (∀ x : Fin 256, s.a0 = x.val →
         exec .fseGetnorm s = .next { s with res := #v[s.norm[x].signExtend 64, s.nmax.zeroExtend 64,
           s.nlog.zeroExtend 64, if s.nvalid then 1 else 0] }
         ∧ exec .fseGetcount s = .next { s with res := #v[s.counts[x].zeroExtend 64, s.hmax.zeroExtend 64,
           s.hlargest.zeroExtend 64, s.res[3]] })
     ∧ (∀ k : Fin 4, (s.dt[k] = none → Raises (.fseGetdt (nib k)) s .stateInvalid 0)
         ∧ (s.ct[k] = none → Raises (.fseGetct (nib k)) s .stateInvalid 0)
         ∧ ∀ T, s.dt[k] = some T →
           (2 ^ T.log ≤ s.a0 → Raises (.fseGetdt (nib k)) s .argRange 0)
           ∧ (s.a0 < 2 ^ T.log → exec (.fseGetdt (nib k)) s = .next { s with
               res := #v[(T.entry s.a0).sym.zeroExtend 64, (T.entry s.a0).nb.zeroExtend 64,
                 (T.entry s.a0).ns.zeroExtend 64, res64 T.log] }))
     ∧ (∀ (k : Fin 4) (T : FseCT), s.ct[k] = some T →
         (255 < s.a0 ∨ 2 ^ max T.log 1 ≤ s.a1 → Raises (.fseGetct (nib k)) s .argRange 0)
         ∧ ∀ x : Fin 256, s.a0 = x.val → s.a1 < 2 ^ max T.log 1 →
             ∃ r0 r1 n, exec (.fseGetct (nib k)) s = .next { s with
                 res := #v[r0, r1, (T.nextState.getD s.a1 0).zeroExtend 64,
                   res64 (T.present[x].toNat ||| (T.log <<< 8) ||| (T.maxSym.toNat <<< 16))]
                 free := n }
               ∧ (T.present[x] = true → r0 = T.dNB[x].signExtend 64 ∧ r1 = T.dFS[x].signExtend 64)
               ∧ (T.present[x] = false → T.maxSym.toNat < x.val → r0 = 0 ∧ r1 = 0)
               ∧ (T.log ≠ 0 → x.val ≤ T.maxSym.toNat → r0 = T.dNB[x].signExtend 64 ∧ r1 = T.dFS[x].signExtend 64))
     ∧ ∀ e : Fin 4, exec (.fseGetstate (nib e)) s = .next { s with
         res := #v[(s.es[e]).zeroExtend 64, (s.ds[e]).zeroExtend 64, s.res[2], s.res[3]] })
  ∧ ∀ s : State,
      (255 < s.a0 → ∀ e : Fin 2, Raises (.hufEst (nib e)) s .argRange 0 ∧ Raises (.hufGetcode (nib e)) s .argRange 0)
      ∧ (∀ e : Fin 2, s.a0 ≤ 255 → s.ht[e] = none →
          exec (.hufEst (nib e)) s = .next { s with res := (s.res.set 0 0).set 1 0 }
          ∧ Raises (.hufGetcode (nib e)) s .stateInvalid 0)
      ∧ (∀ (e : Fin 2) (T : HufTable), s.ht[e] = some T → ∀ x : Fin 256, s.a0 = x.val →
          (∃ b : Bool, exec (.hufEst (nib e)) s = .next { s with
              res := (s.res.set 0 (res64 (((List.range (x.val + 1)).map fun y =>
                (s.counts.toList.getD y 0).toNat * T.lenOf y).sum / 8))).set 1 (if b then 1 else 0) }
            ∧ (b = true ↔ x.val ≤ T.maxSym.toNat ∧ ∀ y : Fin 256, y.val ≤ x.val → s.counts[y] ≠ 0 → T.len[y] ≠ 0))
          ∧ ∃ v n, exec (.hufGetcode (nib e)) s = .next { s with
                res := #v[T.len[x].zeroExtend 64, v, T.maxSym.zeroExtend 64, T.maxBits.zeroExtend 64], free := n }
              ∧ (T.len[x] ≠ 0 → v = T.val[x].zeroExtend 64))
      ∧ (s.hd = none → Raises .hufGetdt s .stateInvalid 0)
      ∧ ∀ d, s.hd = some d →
          (2 ^ d.log ≤ s.a0 → Raises .hufGetdt s .argRange 0)
          ∧ (s.a0 < 2 ^ d.log → exec .hufGetdt s = .next { s with
              res := #v[(d.entry s.a0).sym.zeroExtend 64, (d.entry s.a0).nb.zeroExtend 64, res64 d.log, s.res[3]] })

/-! ### FSE coding -/

/-- R260 to R267: the encoder's and the decoder's step commands, their checks in order and their effects. That an
FSE_ENC_FINISH which fails with BW_ACC_FULL leaves memory unchanged is log entry 6. -/
def Obligations.FseStepCommands : Prop :=
  (∀ (s : State) (k e : Fin 4),
     (s.ct[k] = none → Raises (.fseEncBegin (nib k) (nib e)) s .stateInvalid 0
         ∧ Raises (.fseEnc (nib k) (nib e)) s .stateInvalid 0 ∧ Raises (.fseEncFinish (nib k) (nib e)) s .stateInvalid 0)
     ∧ ∀ T, s.ct[k] = some T →
       let st := (s.es[e]).toNat
       let stateOk := (T.log = 0 ∧ st = 0) ∨ (1 ≤ T.log ∧ 2 ^ T.log ≤ st ∧ st < 2 ^ (T.log + 1))
       (255 < s.a0 → Raises (.fseEncBegin (nib k) (nib e)) s .argRange 0)
       ∧ (s.bw.valid = false ∨ ¬ stateOk → Raises (.fseEnc (nib k) (nib e)) s .stateInvalid 0
           ∧ Raises (.fseEncFinish (nib k) (nib e)) s .stateInvalid 0)
       ∧ (s.bw.valid = true → stateOk → 255 < s.a0 → Raises (.fseEnc (nib k) (nib e)) s .argRange 0)
       ∧ (∀ x : Fin 256, s.a0 = x.val →
           (T.present[x] = false → Raises (.fseEncBegin (nib k) (nib e)) s .argRange 0)
           ∧ (s.bw.valid = true → stateOk → T.present[x] = false → Raises (.fseEnc (nib k) (nib e)) s .argRange 0)
           ∧ (T.present[x] = true →
               let ob : Int := (T.dNB[x].toInt + 2 ^ 15) >>> (16 : Nat)
               let base : Int := (ob * 2 ^ 16 - T.dNB[x].toInt) >>> ob.toNat
               exec (.fseEncBegin (nib k) (nib e)) s = .next { s with
                 es := s.es.set e (T.nextState.getD (base + T.dFS[x].toInt).toNat 0) })
           ∧ (s.bw.valid = true → stateOk → T.present[x] = true →
               let n : Nat := (((st : Int) + T.dNB[x].toInt) >>> (16 : Nat)).toNat
               (64 < s.bw.cnt + n → Raises (.fseEnc (nib k) (nib e)) s .bwAccFull 0)
               ∧ (s.bw.cnt + n ≤ 64 → exec (.fseEnc (nib k) (nib e)) s = .next { s with
                   bw := { s.bw with
                     acc := s.bw.acc ||| (BitVec.ofNat 64 (st % 2 ^ n) <<< s.bw.cnt), cnt := s.bw.cnt + n }
                   es := s.es.set e (T.nextState.getD (((st >>> n : Nat) : Int) + T.dFS[x].toInt).toNat 0) })))
       ∧ (s.bw.valid = true → stateOk →
           (64 < s.bw.cnt + T.log → Raises (.fseEncFinish (nib k) (nib e)) s .bwAccFull 0)
           ∧ (s.bw.cnt + T.log ≤ 64 →
               exec (.fseEncFinish (nib k) (nib e)) s = exec .bwFlush { s with bw := { s.bw with
                 acc := s.bw.acc ||| (BitVec.ofNat 64 (st % 2 ^ T.log) <<< s.bw.cnt), cnt := s.bw.cnt + T.log } }
               ∧ ∃ t, exec (.fseEncFinish (nib k) (nib e)) s = .next t ∧ t.errKind = s.errKind)))
  ∧ ∀ (s : State) (k e : Fin 4),
      (s.dt[k] = none → Raises (.fseDecInit (nib k) (nib e)) s .stateInvalid 0
          ∧ ∀ u, Raises (.fseDec (nib k) (nib e) u) s .stateInvalid 0)
      ∧ ∀ T, s.dt[k] = some T →
        let st := (s.ds[e]).toNat
        let x := T.entry st
        (s.br.valid = false → Raises (.fseDecInit (nib k) (nib e)) s .stateInvalid 0)
        ∧ (s.br.valid = true → 57 < s.br.unl + T.log → Raises (.fseDecInit (nib k) (nib e)) s .brNeedsLoad 0)
        ∧ (s.br.valid = true → s.br.unl + T.log ≤ 57 → exec (.fseDecInit (nib k) (nib e)) s = .next { s with
            br := { s.br with pos := s.br.pos - T.log, unl := s.br.unl + T.log }
            ds := s.ds.set e (BitVec.ofNat 16 (s.readerBits T.log)) })
        ∧ (2 ^ T.log ≤ st → ∀ u, Raises (.fseDec (nib k) (nib e) u) s .stateInvalid 0)
        ∧ (st < 2 ^ T.log →
            exec (.fseDec (nib k) (nib e) false) s = .next { s with res := s.res.set 0 (x.sym.zeroExtend 64) }
            ∧ (s.br.valid = false → Raises (.fseDec (nib k) (nib e) true) s .stateInvalid 0)
            ∧ (s.br.valid = true → 57 < s.br.unl + x.nb.toNat →
                Raises (.fseDec (nib k) (nib e) true) s .brNeedsLoad 0)
            ∧ (s.br.valid = true → s.br.unl + x.nb.toNat ≤ 57 →
                exec (.fseDec (nib k) (nib e) true) s = .next { s with
                  br := { s.br with pos := s.br.pos - x.nb.toNat, unl := s.br.unl + x.nb.toNat }
                  ds := s.ds.set e (BitVec.ofNat 16 (x.ns.toNat + s.readerBits x.nb.toNat))
                  res := s.res.set 0 (x.sym.zeroExtend 64) }))

/-- R262, R264, R268: for tables built from one distribution, a decoder at the encoder's new state minus `2^L` reads the
symbol encoded, as many bits as were emitted, and is led back to the encoder's old state; the begin state shows its
symbol too. Every encoder state stays in `[2^L, 2^(L+1))`. -/
def Obligations.FseStepsInvert : Prop :=
  ∀ (norm : List Int) (tl : Nat) (c : FseCT) (d : FseDT), 5 ≤ tl → tl ≤ 12 → norm.length ≤ 256 →
    checkedCT norm tl = .ok c → checkedDT norm tl = .ok d → ∀ x, c.has x = true →
      (2 ^ tl ≤ encBegin c x ∧ encBegin c x < 2 ^ (tl + 1) ∧ (d.entry (encBegin c x - 2 ^ tl)).sym.toNat = x)
      ∧ ∀ st, 2 ^ tl ≤ st → st < 2 ^ (tl + 1) →
          2 ^ tl ≤ encNext c st x ∧ encNext c st x < 2 ^ (tl + 1)
          ∧ (d.entry (encNext c st x - 2 ^ tl)).sym.toNat = x
          ∧ (d.entry (encNext c st x - 2 ^ tl)).nb.toNat = (encField c st x).width
          ∧ (d.entry (encNext c st x - 2 ^ tl)).ns.toNat + (encField c st x).val + 2 ^ tl = st

/-- R82, R85, R270, R275, R276: FSE_COMPRESS2 and FSE_DECOMPRESS2, their checks in order and their results; neither result
is longer than its capacity, and a decoded string has at least two bytes. That a source byte without a code raises
ARG_RANGE is R270's, not R560's (log entry 28). -/
def Obligations.TwoStateCommands : Prop :=
  ∀ (s : State) (k : Fin 4),
    let bad := 2 ^ 31 ≤ s.a1 ∨ 2 ^ 64 < s.a0 + s.a1 ∨ 2 ^ 31 ≤ s.a3 ∨ 2 ^ 64 < s.a2 + s.a3
      ∨ ∃ x, s.a0 ≤ x ∧ x < s.a0 + s.a1 ∧ s.a2 ≤ x ∧ x < s.a2 + s.a3
    let src := s.window s.a0 s.a1
    (bad → Raises (.fseCompress2 (nib k)) s .argRange 0 ∧ Raises (.fseDecompress2 (nib k)) s .argRange 0)
    ∧ (¬ bad → s.ct[k] = none →
        RaisesDst (.fseCompress2 (nib k)) s s .stateInvalid 0 s.a2 s.a3)
    ∧ (¬ bad → s.dt[k] = none →
        RaisesDst (.fseDecompress2 (nib k)) s s .stateInvalid 0 s.a2 s.a3)
    ∧ (¬ bad → ∀ T, s.ct[k] = some T →
        ((s.a1 < 2 ∨ ∃ b ∈ src, T.has b.toNat = false) →
          RaisesDst (.fseCompress2 (nib k)) s s .argRange 0 s.a2 s.a3)
        ∧ (2 ≤ s.a1 → (∀ b ∈ src, T.has b.toNat = true) →
          (compress2 T src s.a3).length ≤ s.a3
          ∧ Delivers (.fseCompress2 (nib k)) s
              { s with res := s.res.set 0 (res64 (compress2 T src s.a3).length) } s.a2 s.a3 (compress2 T src s.a3)))
    ∧ (¬ bad → ∀ T, s.dt[k] = some T →
        (∀ e, decompress2 T src s.a3 = .error e →
          RaisesDst (.fseDecompress2 (nib k)) s s e.code e.off s.a2 s.a3)
        ∧ ∀ out, decompress2 T src s.a3 = .ok out → 2 ≤ out.length ∧ out.length ≤ s.a3
          ∧ Delivers (.fseDecompress2 (nib k)) s { s with res := s.res.set 0 (res64 out.length) } s.a2 s.a3 out)

/-- R277: decoding a two-state stream with the table built from the same distribution returns the string. The premise
that no symbol takes the whole table is the model's reading: a symbol with all `2^tl` states reads no bits, so R275's
loop never ends on it, which R277 does not say. -/
def Obligations.TwoStateRoundTrip : Prop :=
  ∀ (norm : List Int) (tl : Nat) (c : FseCT) (d : FseDT), 5 ≤ tl → tl ≤ 12 → norm.length ≤ 256 →
    (∀ n ∈ norm, n < 2 ^ tl) → checkedCT norm tl = .ok c → checkedDT norm tl = .ok d →
    ∀ (xs : List Byte) (cap cap' : Nat), 2 ≤ xs.length → (∀ x ∈ xs, c.has x.toNat = true) →
      compress2 c xs cap ≠ [] → xs.length ≤ cap' → decompress2 d (compress2 c xs cap) cap' = .ok xs

/-! ### Huffman tables -/

/-- R305: HUF_BUILD, its checks in order, and the table it leaves pending in `HT[1]`: the lengths R306 to R310 give and
their canonical values. -/
def Obligations.HuffmanBuild : Prop :=
  ∀ s : State,
    let counts := s.countList s.a1
    let m := counts.countP fun c => decide (0 < c)
    let inRange := 1 ≤ s.a0 ∧ s.a0 ≤ 11 ∧ s.a1 ≤ 255
    let lens := buildLengths s.params.hufTie counts s.a0
    (¬ inRange → Raises .hufBuild s .argRange 0)
    ∧ (inRange → m < 2 → Raises .hufBuild s .needsRle 0)
    ∧ (inRange → 2 ≤ m → (counts.getD s.a1 0 = 0 ∨ 2 ^ s.a0 < m) → Raises .hufBuild s .argRange 0)
    ∧ (inRange → 2 ≤ m → counts.getD s.a1 0 ≠ 0 → m ≤ 2 ^ s.a0 → ∃ T : HufTable,
        exec .hufBuild s = .next { s with
          ht := s.ht.set 1 (some T), hpend := true, res := s.res.set 0 (T.maxBits.zeroExtend 64) }
        ∧ T.maxSym.toNat = s.a1 ∧ T.maxBits = BitVec.ofNat 4 (listMax lens)
        ∧ (∀ x : Fin 256, T.len[x] = BitVec.ofNat 4 (lens.getD x.val 0))
        ∧ (∀ x : Fin 256, T.val[x] = BitVec.ofNat 16 ((canonical lens).getD x.val 0))
        ∧ ∀ x : Fin 256, (s.a1 < x.val ∨ s.counts[x] = 0) → T.len[x] = 0)

/-- R306 to R308, R311: where the tree itself stays within the limit, the lengths HUF_BUILD gives are a Kraft-complete
code whose longest length is within the limit, and every counted symbol has one. -/
def Obligations.UnlimitedLengthsComplete : Prop :=
  ∀ (tie : Config.HufTie) (counts : List Nat) (maxBits : Nat),
    2 ≤ counts.countP (fun c => decide (0 < c)) →
    (∀ l ∈ rankLengths tie (rankedLeaves counts), l ≤ maxBits) →
      CodeComplete (buildLengths tie counts maxBits) (listMax (buildLengths tie counts maxBits))
      ∧ listMax (buildLengths tie counts maxBits) ≤ maxBits
      ∧ ∀ x, x < counts.length →
          ((buildLengths tie counts maxBits).getD x 0 = 0 ↔ counts.getD x 0 = 0)

/-- R306 to R308, R310, R311: within the checks of HUF_BUILD, also where R310 limits the tree, the lengths are a
Kraft-complete code, every counted symbol has one within the limit and no other symbol has one. Where R310's loops would
read an entry that is NONE or leave the list is log entry 20. -/
def Obligations.LimitedLengthsComplete : Prop :=
  ∀ (tie : Config.HufTie) (counts : List Nat) (maxBits : Nat), maxBits ≤ 11 →
    2 ≤ counts.countP (fun c => decide (0 < c)) → counts.countP (fun c => decide (0 < c)) ≤ 2 ^ maxBits →
      CodeComplete (buildLengths tie counts maxBits) (listMax (buildLengths tie counts maxBits))
      ∧ listMax (buildLengths tie counts maxBits) ≤ maxBits
      ∧ ∀ x, x < counts.length →
          ((buildLengths tie counts maxBits).getD x 0 = 0 ↔ counts.getD x 0 = 0)

/-- R320, R322, R330: HUF_WRITE and HUF_READ, their checks in order and their results; a description is never longer
than its window. -/
def Obligations.HuffmanDescriptionCommands : Prop :=
  ∀ (s : State) (e : Fin 2),
    let bad := 2 ^ 31 ≤ s.a1 ∨ 2 ^ 64 < s.a0 + s.a1
    (bad → Raises (.hufWrite (nib e)) s .argRange 0 ∧ Raises .hufRead s .argRange 0)
    ∧ (¬ bad → s.ht[e] = none → RaisesDst (.hufWrite (nib e)) s s .stateInvalid 0 s.a0 s.a1)
    ∧ (¬ bad → ∀ T, s.ht[e] = some T →
        (∀ x, hufDescription T s.a1 = .error x →
          RaisesDst (.hufWrite (nib e)) s s x.code x.off s.a0 s.a1)
        ∧ ∀ out, hufDescription T s.a1 = .ok out → out.length ≤ s.a1
          ∧ Delivers (.hufWrite (nib e)) s { s with res := s.res.set 0 (res64 out.length) } s.a0 s.a1 out)
    ∧ (¬ bad →
        (∀ x, readHuf (s.window s.a0 s.a1) = .error x →
          RaisesFrom .hufRead s { s with hd := none } x.code x.off)
        ∧ ∀ d, readHuf (s.window s.a0 s.a1) = .ok d → d.used ≤ s.a1
          ∧ exec .hufRead s = .next { s with
              hd := some d.table
              res := ((s.res.set 0 (res64 d.used)).set 1 (res64 d.table.log)).set 2 (res64 d.symbols) })

/-- R312, R320, R331 to R333: from the weights of a Kraft-complete code of longest length at most 11 whose last symbol
has a code, the reader builds a table of the same log that finds every symbol of the canonical code by its first
bits. -/
def Obligations.WeightsRebuildCode : Prop :=
  ∀ (lens : List Nat) (M : Nat), 1 ≤ M → M ≤ 11 → lens.length ≤ 256 → CodeComplete lens M →
    listMax lens = M → lens.getLast? ≠ some 0 →
      ∃ d, decodeHufTable (hufTableOf lens).weights = .ok d ∧ d.log = M ∧ d.entries.length = 2 ^ M
        ∧ TableMatches (hufTableOf lens) d

/-! ### Huffman streams and literals -/

/-- R82, R85, R350, R352, R355, R357: the four stream commands, their checks in order and their results: an encoder's
output fits its capacity, a decoder writes exactly `A3` bytes. That a source byte without a code raises ARG_RANGE is
R350's, not R560's (log entry 28). -/
def Obligations.HuffmanStreamCommands : Prop :=
  ∀ (s : State) (e : Fin 2),
    let bad := 2 ^ 31 ≤ s.a1 ∨ 2 ^ 64 < s.a0 + s.a1 ∨ 2 ^ 31 ≤ s.a3 ∨ 2 ^ 64 < s.a2 + s.a3
      ∨ ∃ x, s.a0 ≤ x ∧ x < s.a0 + s.a1 ∧ s.a2 ≤ x ∧ x < s.a2 + s.a3
    let src := s.window s.a0 s.a1
    (bad → Raises (.hufEnc1 (nib e)) s .argRange 0 ∧ Raises (.hufEnc4 (nib e)) s .argRange 0
        ∧ Raises .hufDec1 s .argRange 0 ∧ Raises .hufDec4 s .argRange 0)
    ∧ (¬ bad → 131072 < s.a1 → RaisesDst (.hufEnc1 (nib e)) s s .argRange 0 s.a2 s.a3
        ∧ RaisesDst (.hufEnc4 (nib e)) s s .argRange 0 s.a2 s.a3)
    ∧ (¬ bad → s.a1 ≤ 131072 → s.ht[e] = none → RaisesDst (.hufEnc1 (nib e)) s s .stateInvalid 0 s.a2 s.a3
        ∧ RaisesDst (.hufEnc4 (nib e)) s s .stateInvalid 0 s.a2 s.a3)
    ∧ (¬ bad → s.a1 ≤ 131072 → ∀ T, s.ht[e] = some T →
        ((∃ b ∈ src, T.lenOf b.toNat = 0) → RaisesDst (.hufEnc1 (nib e)) s s .argRange 0 s.a2 s.a3
          ∧ RaisesDst (.hufEnc4 (nib e)) s s .argRange 0 s.a2 s.a3)
        ∧ ((∀ b ∈ src, T.lenOf b.toNat ≠ 0) →
          (enc1 T src s.a3).length ≤ s.a3 ∧ (enc4 T src s.a3).length ≤ s.a3
          ∧ Delivers (.hufEnc1 (nib e)) s { s with res := s.res.set 0 (res64 (enc1 T src s.a3).length) } s.a2 s.a3
              (enc1 T src s.a3)
          ∧ Delivers (.hufEnc4 (nib e)) s { s with res := s.res.set 0 (res64 (enc4 T src s.a3).length) } s.a2 s.a3
              (enc4 T src s.a3)))
    ∧ (¬ bad → 131072 < s.a3 → RaisesDst .hufDec1 s s .argRange 0 s.a2 s.a3
        ∧ RaisesDst .hufDec4 s s .argRange 0 s.a2 s.a3)
    ∧ (¬ bad → s.a3 ≤ 131072 → s.hd = none → RaisesDst .hufDec1 s s .stateInvalid 0 s.a2 s.a3
        ∧ RaisesDst .hufDec4 s s .stateInvalid 0 s.a2 s.a3)
    ∧ (¬ bad → s.a3 ≤ 131072 → ∀ T, s.hd = some T →
        (∀ x, dec1 T src s.a3 = .error x → RaisesDst .hufDec1 s s x.code x.off s.a2 s.a3)
        ∧ (∀ x, dec4 T src s.a3 = .error x → RaisesDst .hufDec4 s s x.code x.off s.a2 s.a3)
        ∧ (∀ out, dec1 T src s.a3 = .ok out → out.length = s.a3 ∧ Delivers .hufDec1 s s s.a2 s.a3 out)
        ∧ ∀ out, dec4 T src s.a3 = .ok out → out.length = s.a3 ∧ Delivers .hufDec4 s s s.a2 s.a3 out)

/-- R313, R333, R350, R352, R355, R357: with a decoding table that finds every code, one stream and four streams decode
back to the string, whenever the encoder's output fitted. -/
def Obligations.HuffmanStreamRoundTrip : Prop :=
  ∀ (T : HufTable) (d : HufDec) (xs : List Byte) (cap : Nat), TableMatches T d →
    (∀ x ∈ xs, T.lenOf x.toNat ≠ 0) → xs.length ≤ 131072 →
      (enc1 T xs cap ≠ [] → dec1 d (enc1 T xs cap) xs.length = .ok xs)
      ∧ (enc4 T xs cap ≠ [] → dec4 d (enc4 T xs cap) xs.length = .ok xs)

/-- R375, R380, R385: the literals commands, their checks in order and their results. LIT_ENCODE's `HT[1]` and `HPEND`
stay as it left them when it fails (log entry 8); a failing LIT_DECODE, also one with a bad window, leaves no literals
(R527, log entry 9). -/
def Obligations.LiteralsCommands : Prop :=
  ∀ s : State,
    let bad := 2 ^ 31 ≤ s.a1 ∨ 2 ^ 64 < s.a0 + s.a1
    let r := encodeLiterals s.params.hufTie s.ht[0] s.ht[1] s.ss.lit s.a1
    let u : State := { s with ht := s.ht.set 1 r.ht1, hpend := r.pending }
    let d := decodeLiterals s.hd (s.window s.a0 s.a1)
    (bad → Raises .litEncode s .argRange 0 ∧ RaisesFrom .litDecode s { s with dlit := [] } .argRange 0)
    ∧ (¬ bad →
        (∀ e, r.out = .error e → e = { code := .dstTooSmall, off := 0 }
          ∧ RaisesDst .litEncode s u .dstTooSmall 0 s.a0 s.a1)
        ∧ (∀ out, r.out = .ok out → out.length ≤ s.a1 ∧ r.kind < 4
          ∧ Delivers .litEncode s { u with res := (s.res.set 0 (res64 out.length)).set 1 (res64 r.kind) } s.a0 s.a1
              out)
        ∧ (∀ e, d.2 = .error e → RaisesFrom .litDecode s { s with dlit := [], hd := d.1 } e.code e.off)
        ∧ ∀ x, d.2 = .ok x → x.used ≤ s.a1 ∧ x.lits.length ≤ 131072
          ∧ exec .litDecode s = .next { s with
              dlit := x.lits, hd := d.1
              res := ((s.res.set 0 (res64 x.used)).set 1 (res64 x.lits.length)).set 2 (res64 x.kind) })
    ∧ (s.dlit.length ≤ s.a0 → Raises .litGet s .argRange 0)
    ∧ ∀ b, s.dlit[s.a0]? = some b → exec .litGet s = .next { s with
        res := (s.res.set 0 (b.zeroExtend 64)).set 1 (res64 s.dlit.length) }

/-- R121, R370, R380, R382: a window that begins with a Raw or RLE section, in the smallest header R370 writes, decodes
to its literals; `HD` is not touched. -/
def Obligations.PlainLiteralsRoundTrip : Prop :=
  ∀ (s : State) (rest : List Byte), s.a1 < 2 ^ 31 → s.a0 + s.a1 ≤ 2 ^ 64 →
    (∀ lits : List Byte, lits.length ≤ 131072 →
      s.window s.a0 s.a1 = plainHeader 0 lits.length ++ lits ++ rest →
      exec .litDecode s = .next { s with
        dlit := lits
        res := ((s.res.set 0 (res64 ((plainHeader 0 lits.length).length + lits.length))).set 1
          (res64 lits.length)).set 2 0 })
    ∧ ∀ (n : Nat) (b : Byte), n ≤ 131072 → s.window s.a0 s.a1 = plainHeader 1 n ++ [b] ++ rest →
      exec .litDecode s = .next { s with
        dlit := List.replicate n b
        res := ((s.res.set 0 (res64 ((plainHeader 1 n).length + 1))).set 1 (res64 n)).set 2 1 }

/-- R382: LIT_DECODE of the section LIT_ENCODE wrote, whatever follows it, regenerates the literals and returns the
encoder's size and type, for every type; for a Treeless section the decoder's table is one that finds the codes of the
encoder's `HT[0]`. `s` is the state at the encoding, `u` any later one whose memory holds the bytes. The premise
`LimitsOk` is the model's invariant. -/
def Obligations.LiteralsRoundTrip : Prop :=
  ∀ s t u : State, s.errKind = 0 → s.LimitsOk → exec .litEncode s = .next t → t.errKind = 0 →
    (t.res[0]).toNat ≤ u.a1 → u.a1 < 2 ^ 31 → u.a0 + u.a1 ≤ 2 ^ 64 →
    (∀ j, j < (t.res[0]).toNat → u.mem.read (u.a0 + j) = t.mem.read (s.a0 + j)) →
    (t.res[1] = 3 → ∃ T d, s.ht[0] = some T ∧ u.hd = some d ∧ TableMatches T d) →
      ∃ v, exec .litDecode u = .next v ∧ v.errKind = u.errKind ∧ v.dlit = s.ss.lit
        ∧ v.res[0] = t.res[0] ∧ v.res[1] = res64 s.ss.lit.length ∧ v.res[2] = t.res[1]

/-! ### Match finder and sequence store -/

/-- R37, R400, R401: MF_RESET and MF_WINDOW, their checks in order and their effects. -/
def Obligations.MatchFinderSetup : Prop :=
  ∀ s : State,
    let legal := 6 ≤ s.a1 % 32 ∧ s.a1 % 32 ≤ 24 ∧ 6 ≤ s.a1 / 2 ^ 5 % 32 ∧ s.a1 / 2 ^ 5 % 32 ≤ 24
      ∧ 3 ≤ s.a1 / 2 ^ 10 % 16 ∧ s.a1 / 2 ^ 10 % 16 ≤ 7 ∧ 10 ≤ s.a1 / 2 ^ 14 % 32 ∧ s.a1 / 2 ^ 14 % 32 ≤ 31
    let size := 2 ^ (s.mfcfg.toNat / 2 ^ 14 % 32)
    (2 ^ 22 ≤ s.a1 ∨ ¬ legal → Raises .mfReset s .argRange 0)
    ∧ (s.a1 < 2 ^ 22 → legal → s.a1 / 2 ^ 19 % 8 ≠ 1 → Raises .mfReset s .strategyUnsupported 0)
    ∧ (s.a1 < 2 ^ 22 → legal → s.a1 / 2 ^ 19 % 8 = 1 → exec .mfReset s = .next { s with
        mfcfg := BitVec.ofNat 32 s.a1, ctxBase := s.args[0], wbo := 0, lh := [], sh := [], mfValid := true })
    ∧ (s.mfValid = false → Raises .mfWindow s .stateInvalid 0)
    ∧ (s.mfValid = true → 2 ^ 32 ≤ s.a0 → Raises .mfWindow s .argRange 0)
    ∧ (s.mfValid = true → s.a0 < 2 ^ 32 →
        (size ≤ s.a0 → s.wbo.toNat < s.a0 - size →
          exec .mfWindow s = .next { s with wbo := BitVec.ofNat 32 (s.a0 - size) })
        ∧ ((s.a0 < size ∨ s.a0 - size ≤ s.wbo.toNat) → exec .mfWindow s = .next s))

/-- R410, R414, R425: MF_BLOCK, its checks in order, and its coverage: the literal and match lengths it stores
with the trailing literals it returns sum to the block's size, its literals are as many as its sequences take, every
match is at least 4 long, and `REP.live` is not touched. The premise `LimitsOk` is the model's invariant. -/
def Obligations.BlockSearchCovers : Prop :=
  ∀ s : State,
    let empty := s.ss.lit = [] ∧ s.ss.seqs = []
    let inRange := s.a1 ≤ 131072 ∧ s.wbo.toNat ≤ s.a0 ∧ s.a0 + s.a1 ≤ 2 ^ 32
      ∧ s.a0 + s.a1 - s.wbo.toNat < 2 ^ 31 ∧ s.ctxBase.toNat + s.a0 + s.a1 ≤ 2 ^ 64
    (s.mfValid = false ∨ ¬ empty → Raises .mfBlock s .stateInvalid 0)
    ∧ (s.mfValid = true → empty → ¬ inRange → Raises .mfBlock s .argRange 0)
    ∧ (s.mfValid = true → empty → inRange → s.LimitsOk →
        ∃ t, exec .mfBlock s = .next t ∧ t.errKind = s.errKind ∧ t.repLive = s.repLive ∧ t.mem = s.mem
          ∧ t.ss.codes = none
          ∧ (t.ss.trueSeqs.map fun q => q.ll + (q.mlBase + 3)).sum + (t.res[0]).toNat = s.a1
          ∧ t.ss.lit.length = (t.ss.trueSeqs.map TrueSeq.ll).sum
          ∧ ∀ q ∈ t.ss.trueSeqs, 1 ≤ q.mlBase ∧ 1 ≤ q.ov)

/-- R411, R412, R421: the literals MF_BLOCK stores are the block's own bytes in order: those of each sequence stand just
before its match. -/
def Obligations.BlockLiteralsInOrder : Prop :=
  ∀ s t : State, s.errKind = 0 → s.LimitsOk → exec .mfBlock s = .next t → t.errKind = 0 →
    ∀ i q, t.ss.trueSeqs[i]? = some q →
      let before := t.ss.trueSeqs.take i
      let from_ := (before.map TrueSeq.ll).sum
      let at_ := (before.map fun x => x.ll + (x.mlBase + 3)).sum
      ∀ j, j < q.ll →
        t.ss.lit[from_ + j]? = some (s.mem.read (s.ctxBase.toNat + s.a0 + at_ + j))

/-- R411 to R413, R415: every sequence MF_BLOCK stores copies bytes that are equal in memory: each match byte is the byte
the sequence's offset before it, at a position not below `WBO`; and what `REP.stage` holds after it. The premise on the
hash tables is the host's side of R412: their entries lie before the block (blocks in order), or are absent. Without it
log entry 13 applies. -/
def Obligations.BlockMatchesVerified : Prop :=
  ∀ s t : State, s.errKind = 0 → s.LimitsOk → (∀ c ∈ s.lh ++ s.sh, c.2.toNat < s.a0 ∨ c.2 ≤ s.wbo) →
    exec .mfBlock s = .next t → t.errKind = 0 →
      let maxRep := (if s.a0 = s.wbo.toNat then s.a0 + 1 else s.a0) - s.wbo.toNat
      let kept (r : Word) : Nat := if maxRep < r.toNat then 0 else r.toNat
      let saved : Word := if maxRep < s.repLive.r0.toNat then s.repLive.r0
        else if maxRep < s.repLive.r1.toNat then s.repLive.r1 else 0
      let repeats (n : Nat) : Nat × Nat :=
        (t.ss.trueSeqs.take n).foldl TrueSeq.searchRepeats (kept s.repLive.r0, kept s.repLive.r1)
      let stage (o : Nat) : Word := if o = 0 then saved else BitVec.ofNat 32 o
      (∀ i q, t.ss.trueSeqs[i]? = some q →
        let at_ := s.a0 + ((t.ss.trueSeqs.take i).map fun x => x.ll + (x.mlBase + 3)).sum + q.ll
        let off := q.searchOffset (repeats i)
        (q.ov = 1 ∨ 3 < q.ov) ∧ 1 ≤ off ∧ s.wbo.toNat + off ≤ at_
          ∧ ∀ j, j < q.mlBase + 3 →
              s.mem.read (s.ctxBase.toNat + (at_ + j - off)) = s.mem.read (s.ctxBase.toNat + (at_ + j)))
      ∧ t.repStage = { r0 := stage (repeats t.ss.trueSeqs.length).1, r1 := stage (repeats t.ss.trueSeqs.length).2 }

/-- R37, R405, R411: the hash tables after MF_BLOCK: every entry is the one before it, or a position of the block that
stands at its own hash, at or after the first one searched, with 8 bytes of the block from it on; and a block that is
searched at all leaves its first position's entries at such a position. The premise `LimitsOk` is the model's
invariant. -/
def Obligations.BlockTableEntries : Prop :=
  ∀ s t : State, s.errKind = 0 → s.LimitsOk → exec .mfBlock s = .next t → t.errKind = 0 →
    let cfg := s.mfcfg.toNat
    let mls := max (cfg / 2 ^ 10 % 16) 4
    let prime := if mls = 5 then 0xCF1BBCDCBB else if mls = 6 then 0xCF1BBCDCBF9B else 0xCF1BBCDCBFA563
    let value (p n : Nat) := leValue (s.window (s.ctxBase.toNat + p) n)
    let long (p : Nat) := value p 8 * 0xCF1BBCDCB7A56463 % 2 ^ 64 / 2 ^ (64 - cfg % 32)
    let short (p : Nat) :=
      if mls = 4 then value p 4 * 0x9E3779B1 % 2 ^ 32 / 2 ^ (32 - cfg / 2 ^ 5 % 32)
      else value p 8 * 2 ^ (64 - 8 * mls) % 2 ^ 64 * prime % 2 ^ 64 / 2 ^ (64 - cfg / 2 ^ 5 % 32)
    let first := if s.a0 = s.wbo.toNat then s.a0 + 1 else s.a0
    let inserted (hash : Nat → Nat) (table : List (Nat × Word)) (h : Nat) : Prop :=
      ∃ p, first ≤ p ∧ p + 8 ≤ s.a0 + s.a1 ∧ hash p = h ∧ sparseRead h table = BitVec.ofNat 32 p
    (∀ h, sparseRead h t.lh = sparseRead h s.lh ∨ inserted long t.lh h)
    ∧ (∀ h, sparseRead h t.sh = sparseRead h s.sh ∨ inserted short t.sh h)
    ∧ (first + 8 < s.a0 + s.a1 → inserted long t.lh (long first) ∧ inserted short t.sh (short first))

/-- R421, R425, R430, R431: the store's commands, their checks in order and their effects; the codes are those of the
true values. -/
def Obligations.StoreCommands : Prop :=
  ∀ s : State,
    let bad := 2 ^ 31 ≤ s.a1 ∨ 2 ^ 64 < s.a0 + s.a1
    let inRange := s.a1 < 2 ^ 17 ∧ s.a3 < 2 ^ 17 ∧ s.a2 ≤ 2 ^ 32 - 2 ∧ s.ss.lit.length + s.a1 ≤ 131072
      ∧ s.ss.seqs.length < 43690
    let twice := (65536 ≤ s.a1 ∧ 65536 ≤ s.a3) ∨ ((65536 ≤ s.a1 ∨ 65536 ≤ s.a3) ∧ s.ss.longF ≠ .none)
    let stored (f : LongField) (p : Word) : SeqStore :=
      { lit := s.ss.lit ++ s.window s.a0 s.a1
        seqs := s.ss.seqs ++ [{ lla := BitVec.ofNat 16 s.a1, mla := BitVec.ofNat 16 s.a3, ofa := BitVec.ofNat 32 (s.a2 + 1) }]
        longF := f, longP := p, codes := none }
    (bad → Raises .ssStore s .argRange 0 ∧ Raises .ssAppend s .argRange 0)
    ∧ (¬ bad → ¬ inRange → Raises .ssStore s .argRange 0)
    ∧ (¬ bad → inRange → twice → Raises .ssStore s .longFieldTwice 0)
    ∧ (¬ bad → inRange → ¬ twice →
        (65536 ≤ s.a1 → exec .ssStore s = .next { s with ss := stored .literalLength (BitVec.ofNat 32 s.ss.seqs.length) })
        ∧ (65536 ≤ s.a3 → exec .ssStore s = .next { s with ss := stored .matchLength (BitVec.ofNat 32 s.ss.seqs.length) })
        ∧ (s.a1 < 65536 → s.a3 < 65536 → exec .ssStore s = .next { s with ss := stored s.ss.longF s.ss.longP }))
    ∧ (¬ bad → 131072 < s.ss.lit.length + s.a1 → Raises .ssAppend s .argRange 0)
    ∧ (¬ bad → s.ss.lit.length + s.a1 ≤ 131072 →
        exec .ssAppend s = .next { s with ss := { s.ss with lit := s.ss.lit ++ s.window s.a0 s.a1 } })
    ∧ ∃ codes, exec .ssCodes s = .next { s with ss := { s.ss with codes := some codes } }
        ∧ codes.length = s.ss.seqs.length
        ∧ ∀ i q, s.ss.seqs[i]? = some q →
            let ll := if s.ss.longF = .literalLength ∧ s.ss.longP.toNat = i then q.lla.toNat + 65536 else q.lla.toNat
            let mlb := if s.ss.longF = .matchLength ∧ s.ss.longP.toNat = i then q.mla.toNat + 65536 else q.mla.toNat
            codes[i]? = some { llc := BitVec.ofNat 8 (llCode ll), mlc := BitVec.ofNat 8 (mlCode mlb)
                               ofc := BitVec.ofNat 8 (Nat.log2 q.ofa.toNat) }

/-- R440 to R444, R491, R492: the commands that show the store, the repeated offsets, the hash tables and the decoded
sequences. The code bytes of SS_GET are stated while the codes are current. MF_GET checks `MF_VALID` before `A0` (log
entry 24). -/
def Obligations.BufferInspection : Prop :=
  ∀ s : State,
    (s.ss.seqs.length ≤ s.a0 → Raises .ssGet s .argRange 0)
    ∧ (∀ q, s.ss.seqs[s.a0]? = some q → ∃ (c : Nat) (n : Nat), c < 2 ^ 24 ∧
        exec .ssGet s = .next { s with
          res := #v[res64 (if s.ss.longF = .literalLength ∧ s.ss.longP.toNat = s.a0 then q.lla.toNat + 65536
                else q.lla.toNat),
              res64 (if s.ss.longF = .matchLength ∧ s.ss.longP.toNat = s.a0 then q.mla.toNat + 65536
                else q.mla.toNat),
              q.ofa.zeroExtend 64, res64 (c ||| ((if s.ss.codes = none then 0 else 1) <<< 24))]
          free := n }
        ∧ ∀ l x, s.ss.codes = some l → l[s.a0]? = some x →
            c = x.llc.toNat ||| (x.mlc.toNat <<< 8) ||| (x.ofc.toNat <<< 16))
    ∧ exec .repGet s = .next { s with res := #v[s.repLive.r0.zeroExtend 64, s.repLive.r1.zeroExtend 64,
        s.repStage.r0.zeroExtend 64, s.repStage.r1.zeroExtend 64] }
    ∧ exec .ssInfo s = .next { s with res := #v[res64 s.ss.lit.length, res64 s.ss.seqs.length,
        (match s.ss.longF with
          | .none => 0
          | .literalLength => 1
          | .matchLength => 2), s.ss.longP.zeroExtend 64] }
    ∧ (s.mfValid = false → ∀ e : Fin 2, Raises (.mfGet (nib e)) s .stateInvalid 0)
    ∧ (s.mfValid = true →
        (2 ^ (s.mfcfg.toNat % 32) ≤ s.a0 → Raises (.mfGet 0) s .argRange 0)
        ∧ (2 ^ (s.mfcfg.toNat / 2 ^ 5 % 32) ≤ s.a0 → Raises (.mfGet 1) s .argRange 0)
        ∧ (s.a0 < 2 ^ (s.mfcfg.toNat % 32) → exec (.mfGet 0) s = .next { s with
            res := #v[(sparseRead s.a0 s.lh).zeroExtend 64, s.wbo.zeroExtend 64, s.ctxBase, s.res[3]] })
        ∧ (s.a0 < 2 ^ (s.mfcfg.toNat / 2 ^ 5 % 32) → exec (.mfGet 1) s = .next { s with
            res := #v[(sparseRead s.a0 s.sh).zeroExtend 64, s.wbo.zeroExtend 64, s.ctxBase, s.res[3]] }))
    ∧ (s.ss.lit.length ≤ s.a0 → Raises .ssGetlit s .argRange 0)
    ∧ (∀ b, s.ss.lit[s.a0]? = some b → exec .ssGetlit s = .next { s with res := s.res.set 0 (b.zeroExtend 64) })
    ∧ (s.sq.length ≤ s.a0 → Raises .sqGet s .argRange 0)
    ∧ (∀ q, s.sq[s.a0]? = some q → exec .sqGet s = .next { s with
        res := #v[q.ll.zeroExtend 64, q.ml.zeroExtend 64, q.off.zeroExtend 64, s.res[3]] })
    ∧ exec .drepGet s = .next { s with
        res := #v[s.drep.r0.zeroExtend 64, s.drep.r1.zeroExtend 64, s.drep.r2.zeroExtend 64, s.res[3]] }

/-! ### Sequences and replay -/

/-- R452 to R457: every value has the code whose range contains it, and every code's range holds only its values. -/
def Obligations.SequenceCodesAgree : Prop :=
  (∀ v, v < 2 ^ 17 → ∃ base bits, llRow (llCode v) = some (base, bits) ∧ llCode v ≤ 35
      ∧ base ≤ v ∧ v < base + 2 ^ bits)
  ∧ (∀ c base bits v, llRow c = some (base, bits) → base ≤ v → v < base + 2 ^ bits → llCode v = c)
  ∧ (∀ v, v < 2 ^ 17 → ∃ base bits, mlRow (mlCode v) = some (base, bits) ∧ mlCode v ≤ 52
      ∧ base ≤ v + 3 ∧ v + 3 < base + 2 ^ bits)
  ∧ (∀ c base bits v, mlRow c = some (base, bits) → base ≤ v + 3 → v + 3 < base + 2 ^ bits → mlCode v = c)
  ∧ ∀ v, 1 ≤ v → v < 2 ^ 32 → ofCode v ≤ 31 ∧ ∀ c, ofCode v = c ↔ 2 ^ c ≤ v ∧ v < 2 ^ c + 2 ^ c

/-- R124, R127, R322, R330, R466: two header fields read back, whatever follows them: the sequence count, for every
count a store can hold, and the raw form of 1 to 128 Huffman weights below 16. -/
def Obligations.HeaderFieldsReadBack : Prop :=
  (∀ (n : Nat) (rest : List Byte), n ≤ 43690 →
    readNbSeq (nbSeqBytes n ++ rest) = .ok (n, (nbSeqBytes n).length) ∧ (nbSeqBytes n).length ≤ 3)
  ∧ ∀ (w : List Nat) (cap : Nat) (out rest : List Byte), 1 ≤ w.length → (∀ x ∈ w, x < 16) →
      writeRawWeights w.length w cap = .ok out → out.length ≤ cap
        ∧ readWeights (out ++ rest) = .ok (w, out.length)

/-- R465, R475: SEQ_ENCODE and SEQ_DECODE, their checks in order and their results. The failures of SEQ_DECODE that
clear are those of every check of its rule (log entry 9). A section whose count is 0 succeeds only as the one byte 0
(R128, D43; of the two-byte form, log entry 27). -/
def Obligations.SequenceCommands : Prop :=
  ∀ s : State,
    let bad := 2 ^ 31 ≤ s.a1 ∨ 2 ^ 64 < s.a0 + s.a1
    let src := s.window s.a0 s.a1
    let u : State := { s with dt := #v[none, none, none, s.dt[3]], sq := [] }
    (bad → Raises .seqEncode s .argRange 0 ∧ RaisesFrom .seqDecode s u .argRange 0)
    ∧ (¬ bad →
        (∀ e, encodeSequences s.params.selFactor s.ss.trueSeqs s.a1 = .error e →
          RaisesDst .seqEncode s s e.code e.off s.a0 s.a1)
        ∧ (∀ out, encodeSequences s.params.selFactor s.ss.trueSeqs s.a1 = .ok out → out.length ≤ s.a1
          ∧ Delivers .seqEncode s { s with res := s.res.set 0 (res64 out.length) } s.a0 s.a1 out)
        ∧ (∀ e, decodeSequences s.dt s.drep s.free src = .error e → e.code.kind = 1
          ∧ RaisesFrom .seqDecode s u e.code e.off)
        ∧ (src = [0] → exec .seqDecode s = .next { s with sq := [], res := (s.res.set 0 1).set 1 0 })
        ∧ (∀ rest, src = 0 :: rest → rest ≠ [] → RaisesFrom .seqDecode s u .bitstreamNotConsumed 1)
        ∧ (∀ rest, src = 0x80 :: 0 :: rest → RaisesFrom .seqDecode s u .bitstreamNotConsumed 1)
        ∧ ∀ d, decodeSequences s.dt s.drep s.free src = .ok (some d) → 1 ≤ d.seqs.length ∧ d.seqs.length ≤ 43690 ∧
          ∃ n, exec .seqDecode s = .next { s with
            dt := #v[some d.tLL, some d.tOF, some d.tML, s.dt[3]], drep := d.rep, sq := d.seqs, free := n
            res := (s.res.set 0 (res64 s.a1)).set 1 (res64 d.seqs.length) })

/-- R483: SEQ_DECODE of exactly the bytes SEQ_ENCODE wrote returns the store's literal and match lengths, and the offsets
R480 resolves its Offset_Values to from the decoder's history. `s` is the state at the encoding, `u` any later one whose
memory holds the bytes. `LimitsOk` is the model's invariant, and a stored Offset_Value is at least 1 (R421). -/
def Obligations.SequencesRoundTrip : Prop :=
  ∀ s t u : State, s.errKind = 0 → s.LimitsOk → (∀ q ∈ s.ss.trueSeqs, 1 ≤ q.ov) →
    exec .seqEncode s = .next t → t.errKind = 0 → u.a1 = (t.res[0]).toNat → u.a0 + u.a1 ≤ 2 ^ 64 →
    (∀ j, j < u.a1 → u.mem.read (u.a0 + j) = t.mem.read (s.a0 + j)) →
      ∃ v, exec .seqDecode u = .next v ∧ v.errKind = u.errKind
        ∧ v.sq = (resolveAll u.drep s.ss.trueSeqs).1 ∧ v.drep = (resolveAll u.drep s.ss.trueSeqs).2
        ∧ v.res[0] = t.res[0] ∧ v.res[1] = res64 s.ss.seqs.length

/-- R480: how an Offset_Value, with the literal length before it, resolves against the history. -/
def Obligations.OffsetResolution : Prop :=
  ∀ (tag i ov ll : Nat) (rep : DecRep), 1 ≤ ov → ov < 2 ^ 32 →
    let repeated (k : Nat) : Word := if k = 0 then rep.r0 else if k = 1 then rep.r1 else rep.r2
    let k := if ll = 0 then ov else ov - 1
    let t0 : Word := if k = 3 then rep.r0 - 1 else repeated k
    let t : Word := if t0 = 0 then 1 else t0
    (3 < ov → resolveOffset tag i ov ll rep
      = (BitVec.ofNat 32 (ov - 3), { r0 := BitVec.ofNat 32 (ov - 3), r1 := rep.r0, r2 := rep.r1 }))
    ∧ (ov = 1 → ll ≠ 0 → resolveOffset tag i ov ll rep = (rep.r0, rep))
    ∧ (ov ≤ 3 → k = 1 → resolveOffset tag i ov ll rep = (t, { r0 := t, r1 := rep.r0, r2 := rep.r2 }))
    ∧ (ov ≤ 3 → 2 ≤ k → resolveOffset tag i ov ll rep = (t, { r0 := t, r1 := rep.r0, r2 := rep.r1 }))

/-- R520 to R526: REPLAY fails at the first sequence that fails a check, with that check's code in the order literals,
capacity, offset, and its index; or, where only the trailing literals do not fit, at index SQN; or it writes the
regenerated bytes: every literal in its place, every match byte equal to the byte `off` before it, the trailing literals
at the end. It succeeds only if every sequence passes its checks. The size is the literals plus the match lengths. Nothing
outside the new region changes: that the history below it stays also after a failure is R520's "never writes them" and
log entry 7. -/
def Obligations.ReplayRegenerates : Prop :=
  ∀ s : State,
    let size := s.dlit.length + (s.sq.map fun q => q.ml.toNat).sum
    (2 ^ 31 ≤ s.a1 + s.a2 ∨ 2 ^ 64 < s.a0 + (s.a1 + s.a2) → Raises .replay s .argRange 0)
    ∧ (s.a1 + s.a2 < 2 ^ 31 → s.a0 + (s.a1 + s.a2) ≤ 2 ^ 64 →
        (2 ^ 31 ≤ s.a3 → RaisesDst .replay s s .argRange 0 (s.a0 + s.a1) s.a2)
        ∧ (s.a3 < 2 ^ 31 →
          (∀ i q, s.sq[i]? = some q → (∀ j p, j < i → s.sq[j]? = some p → s.Replayable j p) →
            let overrun := s.dlit.length < s.literalsBefore i + q.ll.toNat
            let tooSmall := s.a2 < s.bytesBefore i + q.ll.toNat + q.ml.toNat
            let reach := min (s.a1 + s.bytesBefore i + q.ll.toNat) s.a3
            (overrun → RaisesDst .replay s s .literalsOverrun i (s.a0 + s.a1) s.a2)
            ∧ (¬ overrun → tooSmall → RaisesDst .replay s s .outputTooSmall i (s.a0 + s.a1) s.a2)
            ∧ (¬ overrun → ¬ tooSmall → (q.off.toNat < 1 ∨ reach < q.off.toNat) →
                RaisesDst .replay s s .offsetOutOfRange i (s.a0 + s.a1) s.a2))
          ∧ ((∀ i q, s.sq[i]? = some q → s.Replayable i q) →
              (s.a2 < size → RaisesDst .replay s s .outputTooSmall s.sq.length (s.a0 + s.a1) s.a2)
              ∧ (size ≤ s.a2 → ∃ m n,
                  exec .replay s = .next { s with mem := m, free := n, res := s.res.set 0 (res64 size) }
                  ∧ s.mem.SameOutside m (s.a0 + s.a1) s.a2
                  ∧ Regenerated m (s.a0 + s.a1) 0 s.sq s.dlit))
          ∧ ∀ t, exec .replay s = .next t → t.errKind = 0 →
              size ≤ s.a2 ∧ ∀ i q, s.sq[i]? = some q → s.Replayable i q))
end

