-- ==== Sys2Proof/Laws/State.lean ====
section
/-! SUPPORT. One lemma per field per state update: what each update of State writes and leaves. -/

namespace Sys2Proof.Machine

variable (s : State)

/-! ### `State.setRes0` -/

@[simp] theorem State.setRes0_host (v : DWord) : (s.setRes0 v).host = s.host := rfl
@[simp] theorem State.setRes0_cmd (v : DWord) : (s.setRes0 v).cmd = s.cmd := rfl
@[simp] theorem State.setRes0_args (v : DWord) : (s.setRes0 v).args = s.args := rfl
@[simp] theorem State.setRes0_res (v : DWord) : (s.setRes0 v).res = s.res.set 0 v := rfl
@[simp] theorem State.setRes0_errKind (v : DWord) : (s.setRes0 v).errKind = s.errKind := rfl
@[simp] theorem State.setRes0_errCode (v : DWord) : (s.setRes0 v).errCode = s.errCode := rfl
@[simp] theorem State.setRes0_errOff (v : DWord) : (s.setRes0 v).errOff = s.errOff := rfl
@[simp] theorem State.setRes0_mfcfg (v : DWord) : (s.setRes0 v).mfcfg = s.mfcfg := rfl
@[simp] theorem State.setRes0_bw (v : DWord) : (s.setRes0 v).bw = s.bw := rfl
@[simp] theorem State.setRes0_br (v : DWord) : (s.setRes0 v).br = s.br := rfl
@[simp] theorem State.setRes0_counts (v : DWord) : (s.setRes0 v).counts = s.counts := rfl
@[simp] theorem State.setRes0_hmax (v : DWord) : (s.setRes0 v).hmax = s.hmax := rfl
@[simp] theorem State.setRes0_hlargest (v : DWord) : (s.setRes0 v).hlargest = s.hlargest := rfl
@[simp] theorem State.setRes0_norm (v : DWord) : (s.setRes0 v).norm = s.norm := rfl
@[simp] theorem State.setRes0_nmax (v : DWord) : (s.setRes0 v).nmax = s.nmax := rfl
@[simp] theorem State.setRes0_nlog (v : DWord) : (s.setRes0 v).nlog = s.nlog := rfl
@[simp] theorem State.setRes0_nvalid (v : DWord) : (s.setRes0 v).nvalid = s.nvalid := rfl
@[simp] theorem State.setRes0_ct (v : DWord) : (s.setRes0 v).ct = s.ct := rfl
@[simp] theorem State.setRes0_dt (v : DWord) : (s.setRes0 v).dt = s.dt := rfl
@[simp] theorem State.setRes0_es (v : DWord) : (s.setRes0 v).es = s.es := rfl
@[simp] theorem State.setRes0_ds (v : DWord) : (s.setRes0 v).ds = s.ds := rfl
@[simp] theorem State.setRes0_ht (v : DWord) : (s.setRes0 v).ht = s.ht := rfl
@[simp] theorem State.setRes0_hpend (v : DWord) : (s.setRes0 v).hpend = s.hpend := rfl
@[simp] theorem State.setRes0_hd (v : DWord) : (s.setRes0 v).hd = s.hd := rfl
@[simp] theorem State.setRes0_lh (v : DWord) : (s.setRes0 v).lh = s.lh := rfl
@[simp] theorem State.setRes0_sh (v : DWord) : (s.setRes0 v).sh = s.sh := rfl
@[simp] theorem State.setRes0_ctxBase (v : DWord) : (s.setRes0 v).ctxBase = s.ctxBase := rfl
@[simp] theorem State.setRes0_wbo (v : DWord) : (s.setRes0 v).wbo = s.wbo := rfl
@[simp] theorem State.setRes0_mfValid (v : DWord) : (s.setRes0 v).mfValid = s.mfValid := rfl
@[simp] theorem State.setRes0_repLive (v : DWord) : (s.setRes0 v).repLive = s.repLive := rfl
@[simp] theorem State.setRes0_repStage (v : DWord) : (s.setRes0 v).repStage = s.repStage := rfl
@[simp] theorem State.setRes0_ss (v : DWord) : (s.setRes0 v).ss = s.ss := rfl
@[simp] theorem State.setRes0_drep (v : DWord) : (s.setRes0 v).drep = s.drep := rfl
@[simp] theorem State.setRes0_dlit (v : DWord) : (s.setRes0 v).dlit = s.dlit := rfl
@[simp] theorem State.setRes0_sq (v : DWord) : (s.setRes0 v).sq = s.sq := rfl
@[simp] theorem State.setRes0_mem (v : DWord) : (s.setRes0 v).mem = s.mem := rfl
@[simp] theorem State.setRes0_free (v : DWord) : (s.setRes0 v).free = s.free := rfl
@[simp] theorem State.setRes0_params (v : DWord) : (s.setRes0 v).params = s.params := rfl

/-! ### `State.setRes1` -/

@[simp] theorem State.setRes1_host (v : DWord) : (s.setRes1 v).host = s.host := rfl
@[simp] theorem State.setRes1_cmd (v : DWord) : (s.setRes1 v).cmd = s.cmd := rfl
@[simp] theorem State.setRes1_args (v : DWord) : (s.setRes1 v).args = s.args := rfl
@[simp] theorem State.setRes1_res (v : DWord) : (s.setRes1 v).res = s.res.set 1 v := rfl
@[simp] theorem State.setRes1_errKind (v : DWord) : (s.setRes1 v).errKind = s.errKind := rfl
@[simp] theorem State.setRes1_errCode (v : DWord) : (s.setRes1 v).errCode = s.errCode := rfl
@[simp] theorem State.setRes1_errOff (v : DWord) : (s.setRes1 v).errOff = s.errOff := rfl
@[simp] theorem State.setRes1_mfcfg (v : DWord) : (s.setRes1 v).mfcfg = s.mfcfg := rfl
@[simp] theorem State.setRes1_bw (v : DWord) : (s.setRes1 v).bw = s.bw := rfl
@[simp] theorem State.setRes1_br (v : DWord) : (s.setRes1 v).br = s.br := rfl
@[simp] theorem State.setRes1_counts (v : DWord) : (s.setRes1 v).counts = s.counts := rfl
@[simp] theorem State.setRes1_hmax (v : DWord) : (s.setRes1 v).hmax = s.hmax := rfl
@[simp] theorem State.setRes1_hlargest (v : DWord) : (s.setRes1 v).hlargest = s.hlargest := rfl
@[simp] theorem State.setRes1_norm (v : DWord) : (s.setRes1 v).norm = s.norm := rfl
@[simp] theorem State.setRes1_nmax (v : DWord) : (s.setRes1 v).nmax = s.nmax := rfl
@[simp] theorem State.setRes1_nlog (v : DWord) : (s.setRes1 v).nlog = s.nlog := rfl
@[simp] theorem State.setRes1_nvalid (v : DWord) : (s.setRes1 v).nvalid = s.nvalid := rfl
@[simp] theorem State.setRes1_ct (v : DWord) : (s.setRes1 v).ct = s.ct := rfl
@[simp] theorem State.setRes1_dt (v : DWord) : (s.setRes1 v).dt = s.dt := rfl
@[simp] theorem State.setRes1_es (v : DWord) : (s.setRes1 v).es = s.es := rfl
@[simp] theorem State.setRes1_ds (v : DWord) : (s.setRes1 v).ds = s.ds := rfl
@[simp] theorem State.setRes1_ht (v : DWord) : (s.setRes1 v).ht = s.ht := rfl
@[simp] theorem State.setRes1_hpend (v : DWord) : (s.setRes1 v).hpend = s.hpend := rfl
@[simp] theorem State.setRes1_hd (v : DWord) : (s.setRes1 v).hd = s.hd := rfl
@[simp] theorem State.setRes1_lh (v : DWord) : (s.setRes1 v).lh = s.lh := rfl
@[simp] theorem State.setRes1_sh (v : DWord) : (s.setRes1 v).sh = s.sh := rfl
@[simp] theorem State.setRes1_ctxBase (v : DWord) : (s.setRes1 v).ctxBase = s.ctxBase := rfl
@[simp] theorem State.setRes1_wbo (v : DWord) : (s.setRes1 v).wbo = s.wbo := rfl
@[simp] theorem State.setRes1_mfValid (v : DWord) : (s.setRes1 v).mfValid = s.mfValid := rfl
@[simp] theorem State.setRes1_repLive (v : DWord) : (s.setRes1 v).repLive = s.repLive := rfl
@[simp] theorem State.setRes1_repStage (v : DWord) : (s.setRes1 v).repStage = s.repStage := rfl
@[simp] theorem State.setRes1_ss (v : DWord) : (s.setRes1 v).ss = s.ss := rfl
@[simp] theorem State.setRes1_drep (v : DWord) : (s.setRes1 v).drep = s.drep := rfl
@[simp] theorem State.setRes1_dlit (v : DWord) : (s.setRes1 v).dlit = s.dlit := rfl
@[simp] theorem State.setRes1_sq (v : DWord) : (s.setRes1 v).sq = s.sq := rfl
@[simp] theorem State.setRes1_mem (v : DWord) : (s.setRes1 v).mem = s.mem := rfl
@[simp] theorem State.setRes1_free (v : DWord) : (s.setRes1 v).free = s.free := rfl
@[simp] theorem State.setRes1_params (v : DWord) : (s.setRes1 v).params = s.params := rfl

/-! ### `State.setRes2` -/

@[simp] theorem State.setRes2_host (v : DWord) : (s.setRes2 v).host = s.host := rfl
@[simp] theorem State.setRes2_cmd (v : DWord) : (s.setRes2 v).cmd = s.cmd := rfl
@[simp] theorem State.setRes2_args (v : DWord) : (s.setRes2 v).args = s.args := rfl
@[simp] theorem State.setRes2_res (v : DWord) : (s.setRes2 v).res = s.res.set 2 v := rfl
@[simp] theorem State.setRes2_errKind (v : DWord) : (s.setRes2 v).errKind = s.errKind := rfl
@[simp] theorem State.setRes2_errCode (v : DWord) : (s.setRes2 v).errCode = s.errCode := rfl
@[simp] theorem State.setRes2_errOff (v : DWord) : (s.setRes2 v).errOff = s.errOff := rfl
@[simp] theorem State.setRes2_mfcfg (v : DWord) : (s.setRes2 v).mfcfg = s.mfcfg := rfl
@[simp] theorem State.setRes2_bw (v : DWord) : (s.setRes2 v).bw = s.bw := rfl
@[simp] theorem State.setRes2_br (v : DWord) : (s.setRes2 v).br = s.br := rfl
@[simp] theorem State.setRes2_counts (v : DWord) : (s.setRes2 v).counts = s.counts := rfl
@[simp] theorem State.setRes2_hmax (v : DWord) : (s.setRes2 v).hmax = s.hmax := rfl
@[simp] theorem State.setRes2_hlargest (v : DWord) : (s.setRes2 v).hlargest = s.hlargest := rfl
@[simp] theorem State.setRes2_norm (v : DWord) : (s.setRes2 v).norm = s.norm := rfl
@[simp] theorem State.setRes2_nmax (v : DWord) : (s.setRes2 v).nmax = s.nmax := rfl
@[simp] theorem State.setRes2_nlog (v : DWord) : (s.setRes2 v).nlog = s.nlog := rfl
@[simp] theorem State.setRes2_nvalid (v : DWord) : (s.setRes2 v).nvalid = s.nvalid := rfl
@[simp] theorem State.setRes2_ct (v : DWord) : (s.setRes2 v).ct = s.ct := rfl
@[simp] theorem State.setRes2_dt (v : DWord) : (s.setRes2 v).dt = s.dt := rfl
@[simp] theorem State.setRes2_es (v : DWord) : (s.setRes2 v).es = s.es := rfl
@[simp] theorem State.setRes2_ds (v : DWord) : (s.setRes2 v).ds = s.ds := rfl
@[simp] theorem State.setRes2_ht (v : DWord) : (s.setRes2 v).ht = s.ht := rfl
@[simp] theorem State.setRes2_hpend (v : DWord) : (s.setRes2 v).hpend = s.hpend := rfl
@[simp] theorem State.setRes2_hd (v : DWord) : (s.setRes2 v).hd = s.hd := rfl
@[simp] theorem State.setRes2_lh (v : DWord) : (s.setRes2 v).lh = s.lh := rfl
@[simp] theorem State.setRes2_sh (v : DWord) : (s.setRes2 v).sh = s.sh := rfl
@[simp] theorem State.setRes2_ctxBase (v : DWord) : (s.setRes2 v).ctxBase = s.ctxBase := rfl
@[simp] theorem State.setRes2_wbo (v : DWord) : (s.setRes2 v).wbo = s.wbo := rfl
@[simp] theorem State.setRes2_mfValid (v : DWord) : (s.setRes2 v).mfValid = s.mfValid := rfl
@[simp] theorem State.setRes2_repLive (v : DWord) : (s.setRes2 v).repLive = s.repLive := rfl
@[simp] theorem State.setRes2_repStage (v : DWord) : (s.setRes2 v).repStage = s.repStage := rfl
@[simp] theorem State.setRes2_ss (v : DWord) : (s.setRes2 v).ss = s.ss := rfl
@[simp] theorem State.setRes2_drep (v : DWord) : (s.setRes2 v).drep = s.drep := rfl
@[simp] theorem State.setRes2_dlit (v : DWord) : (s.setRes2 v).dlit = s.dlit := rfl
@[simp] theorem State.setRes2_sq (v : DWord) : (s.setRes2 v).sq = s.sq := rfl
@[simp] theorem State.setRes2_mem (v : DWord) : (s.setRes2 v).mem = s.mem := rfl
@[simp] theorem State.setRes2_free (v : DWord) : (s.setRes2 v).free = s.free := rfl
@[simp] theorem State.setRes2_params (v : DWord) : (s.setRes2 v).params = s.params := rfl

/-! ### `State.setRes3` -/

@[simp] theorem State.setRes3_host (v : DWord) : (s.setRes3 v).host = s.host := rfl
@[simp] theorem State.setRes3_cmd (v : DWord) : (s.setRes3 v).cmd = s.cmd := rfl
@[simp] theorem State.setRes3_args (v : DWord) : (s.setRes3 v).args = s.args := rfl
@[simp] theorem State.setRes3_res (v : DWord) : (s.setRes3 v).res = s.res.set 3 v := rfl
@[simp] theorem State.setRes3_errKind (v : DWord) : (s.setRes3 v).errKind = s.errKind := rfl
@[simp] theorem State.setRes3_errCode (v : DWord) : (s.setRes3 v).errCode = s.errCode := rfl
@[simp] theorem State.setRes3_errOff (v : DWord) : (s.setRes3 v).errOff = s.errOff := rfl
@[simp] theorem State.setRes3_mfcfg (v : DWord) : (s.setRes3 v).mfcfg = s.mfcfg := rfl
@[simp] theorem State.setRes3_bw (v : DWord) : (s.setRes3 v).bw = s.bw := rfl
@[simp] theorem State.setRes3_br (v : DWord) : (s.setRes3 v).br = s.br := rfl
@[simp] theorem State.setRes3_counts (v : DWord) : (s.setRes3 v).counts = s.counts := rfl
@[simp] theorem State.setRes3_hmax (v : DWord) : (s.setRes3 v).hmax = s.hmax := rfl
@[simp] theorem State.setRes3_hlargest (v : DWord) : (s.setRes3 v).hlargest = s.hlargest := rfl
@[simp] theorem State.setRes3_norm (v : DWord) : (s.setRes3 v).norm = s.norm := rfl
@[simp] theorem State.setRes3_nmax (v : DWord) : (s.setRes3 v).nmax = s.nmax := rfl
@[simp] theorem State.setRes3_nlog (v : DWord) : (s.setRes3 v).nlog = s.nlog := rfl
@[simp] theorem State.setRes3_nvalid (v : DWord) : (s.setRes3 v).nvalid = s.nvalid := rfl
@[simp] theorem State.setRes3_ct (v : DWord) : (s.setRes3 v).ct = s.ct := rfl
@[simp] theorem State.setRes3_dt (v : DWord) : (s.setRes3 v).dt = s.dt := rfl
@[simp] theorem State.setRes3_es (v : DWord) : (s.setRes3 v).es = s.es := rfl
@[simp] theorem State.setRes3_ds (v : DWord) : (s.setRes3 v).ds = s.ds := rfl
@[simp] theorem State.setRes3_ht (v : DWord) : (s.setRes3 v).ht = s.ht := rfl
@[simp] theorem State.setRes3_hpend (v : DWord) : (s.setRes3 v).hpend = s.hpend := rfl
@[simp] theorem State.setRes3_hd (v : DWord) : (s.setRes3 v).hd = s.hd := rfl
@[simp] theorem State.setRes3_lh (v : DWord) : (s.setRes3 v).lh = s.lh := rfl
@[simp] theorem State.setRes3_sh (v : DWord) : (s.setRes3 v).sh = s.sh := rfl
@[simp] theorem State.setRes3_ctxBase (v : DWord) : (s.setRes3 v).ctxBase = s.ctxBase := rfl
@[simp] theorem State.setRes3_wbo (v : DWord) : (s.setRes3 v).wbo = s.wbo := rfl
@[simp] theorem State.setRes3_mfValid (v : DWord) : (s.setRes3 v).mfValid = s.mfValid := rfl
@[simp] theorem State.setRes3_repLive (v : DWord) : (s.setRes3 v).repLive = s.repLive := rfl
@[simp] theorem State.setRes3_repStage (v : DWord) : (s.setRes3 v).repStage = s.repStage := rfl
@[simp] theorem State.setRes3_ss (v : DWord) : (s.setRes3 v).ss = s.ss := rfl
@[simp] theorem State.setRes3_drep (v : DWord) : (s.setRes3 v).drep = s.drep := rfl
@[simp] theorem State.setRes3_dlit (v : DWord) : (s.setRes3 v).dlit = s.dlit := rfl
@[simp] theorem State.setRes3_sq (v : DWord) : (s.setRes3 v).sq = s.sq := rfl
@[simp] theorem State.setRes3_mem (v : DWord) : (s.setRes3 v).mem = s.mem := rfl
@[simp] theorem State.setRes3_free (v : DWord) : (s.setRes3 v).free = s.free := rfl
@[simp] theorem State.setRes3_params (v : DWord) : (s.setRes3 v).params = s.params := rfl

/-! ### `State.fail` -/

@[simp] theorem State.fail_host (e : Err) : (s.fail e).host = s.host := rfl
@[simp] theorem State.fail_cmd (e : Err) : (s.fail e).cmd = s.cmd := rfl
@[simp] theorem State.fail_args (e : Err) : (s.fail e).args = s.args := rfl
@[simp] theorem State.fail_res (e : Err) : (s.fail e).res = freeResults s.free := rfl
@[simp] theorem State.fail_errKind (e : Err) : (s.fail e).errKind = e.code.kind := rfl
@[simp] theorem State.fail_errCode (e : Err) : (s.fail e).errCode = e.code.byte := rfl
@[simp] theorem State.fail_errOff (e : Err) : (s.fail e).errOff = BitVec.ofNat 64 e.off := rfl
@[simp] theorem State.fail_mfcfg (e : Err) : (s.fail e).mfcfg = s.mfcfg := rfl
@[simp] theorem State.fail_bw (e : Err) : (s.fail e).bw = s.bw := rfl
@[simp] theorem State.fail_br (e : Err) : (s.fail e).br = s.br := rfl
@[simp] theorem State.fail_counts (e : Err) : (s.fail e).counts = s.counts := rfl
@[simp] theorem State.fail_hmax (e : Err) : (s.fail e).hmax = s.hmax := rfl
@[simp] theorem State.fail_hlargest (e : Err) : (s.fail e).hlargest = s.hlargest := rfl
@[simp] theorem State.fail_norm (e : Err) : (s.fail e).norm = s.norm := rfl
@[simp] theorem State.fail_nmax (e : Err) : (s.fail e).nmax = s.nmax := rfl
@[simp] theorem State.fail_nlog (e : Err) : (s.fail e).nlog = s.nlog := rfl
@[simp] theorem State.fail_nvalid (e : Err) : (s.fail e).nvalid = s.nvalid := rfl
@[simp] theorem State.fail_ct (e : Err) : (s.fail e).ct = s.ct := rfl
@[simp] theorem State.fail_dt (e : Err) : (s.fail e).dt = s.dt := rfl
@[simp] theorem State.fail_es (e : Err) : (s.fail e).es = s.es := rfl
@[simp] theorem State.fail_ds (e : Err) : (s.fail e).ds = s.ds := rfl
@[simp] theorem State.fail_ht (e : Err) : (s.fail e).ht = s.ht := rfl
@[simp] theorem State.fail_hpend (e : Err) : (s.fail e).hpend = s.hpend := rfl
@[simp] theorem State.fail_hd (e : Err) : (s.fail e).hd = s.hd := rfl
@[simp] theorem State.fail_lh (e : Err) : (s.fail e).lh = s.lh := rfl
@[simp] theorem State.fail_sh (e : Err) : (s.fail e).sh = s.sh := rfl
@[simp] theorem State.fail_ctxBase (e : Err) : (s.fail e).ctxBase = s.ctxBase := rfl
@[simp] theorem State.fail_wbo (e : Err) : (s.fail e).wbo = s.wbo := rfl
@[simp] theorem State.fail_mfValid (e : Err) : (s.fail e).mfValid = s.mfValid := rfl
@[simp] theorem State.fail_repLive (e : Err) : (s.fail e).repLive = s.repLive := rfl
@[simp] theorem State.fail_repStage (e : Err) : (s.fail e).repStage = s.repStage := rfl
@[simp] theorem State.fail_ss (e : Err) : (s.fail e).ss = s.ss := rfl
@[simp] theorem State.fail_drep (e : Err) : (s.fail e).drep = s.drep := rfl
@[simp] theorem State.fail_dlit (e : Err) : (s.fail e).dlit = s.dlit := rfl
@[simp] theorem State.fail_sq (e : Err) : (s.fail e).sq = s.sq := rfl
@[simp] theorem State.fail_mem (e : Err) : (s.fail e).mem = s.mem := rfl
@[simp] theorem State.fail_free (e : Err) : (s.fail e).free = s.free + 1 := rfl
@[simp] theorem State.fail_params (e : Err) : (s.fail e).params = s.params := rfl

/-! ### `State.clearError` -/

@[simp] theorem State.clearError_host : (s.clearError).host = s.host := rfl
@[simp] theorem State.clearError_cmd : (s.clearError).cmd = s.cmd := rfl
@[simp] theorem State.clearError_args : (s.clearError).args = s.args := rfl
@[simp] theorem State.clearError_res : (s.clearError).res = s.res := rfl
@[simp] theorem State.clearError_errKind : (s.clearError).errKind = 0 := rfl
@[simp] theorem State.clearError_errCode : (s.clearError).errCode = 0 := rfl
@[simp] theorem State.clearError_errOff : (s.clearError).errOff = 0 := rfl
@[simp] theorem State.clearError_mfcfg : (s.clearError).mfcfg = s.mfcfg := rfl
@[simp] theorem State.clearError_bw : (s.clearError).bw = s.bw := rfl
@[simp] theorem State.clearError_br : (s.clearError).br = s.br := rfl
@[simp] theorem State.clearError_counts : (s.clearError).counts = s.counts := rfl
@[simp] theorem State.clearError_hmax : (s.clearError).hmax = s.hmax := rfl
@[simp] theorem State.clearError_hlargest : (s.clearError).hlargest = s.hlargest := rfl
@[simp] theorem State.clearError_norm : (s.clearError).norm = s.norm := rfl
@[simp] theorem State.clearError_nmax : (s.clearError).nmax = s.nmax := rfl
@[simp] theorem State.clearError_nlog : (s.clearError).nlog = s.nlog := rfl
@[simp] theorem State.clearError_nvalid : (s.clearError).nvalid = s.nvalid := rfl
@[simp] theorem State.clearError_ct : (s.clearError).ct = s.ct := rfl
@[simp] theorem State.clearError_dt : (s.clearError).dt = s.dt := rfl
@[simp] theorem State.clearError_es : (s.clearError).es = s.es := rfl
@[simp] theorem State.clearError_ds : (s.clearError).ds = s.ds := rfl
@[simp] theorem State.clearError_ht : (s.clearError).ht = s.ht := rfl
@[simp] theorem State.clearError_hpend : (s.clearError).hpend = s.hpend := rfl
@[simp] theorem State.clearError_hd : (s.clearError).hd = s.hd := rfl
@[simp] theorem State.clearError_lh : (s.clearError).lh = s.lh := rfl
@[simp] theorem State.clearError_sh : (s.clearError).sh = s.sh := rfl
@[simp] theorem State.clearError_ctxBase : (s.clearError).ctxBase = s.ctxBase := rfl
@[simp] theorem State.clearError_wbo : (s.clearError).wbo = s.wbo := rfl
@[simp] theorem State.clearError_mfValid : (s.clearError).mfValid = s.mfValid := rfl
@[simp] theorem State.clearError_repLive : (s.clearError).repLive = s.repLive := rfl
@[simp] theorem State.clearError_repStage : (s.clearError).repStage = s.repStage := rfl
@[simp] theorem State.clearError_ss : (s.clearError).ss = s.ss := rfl
@[simp] theorem State.clearError_drep : (s.clearError).drep = s.drep := rfl
@[simp] theorem State.clearError_dlit : (s.clearError).dlit = s.dlit := rfl
@[simp] theorem State.clearError_sq : (s.clearError).sq = s.sq := rfl
@[simp] theorem State.clearError_mem : (s.clearError).mem = s.mem := rfl
@[simp] theorem State.clearError_free : (s.clearError).free = s.free := rfl
@[simp] theorem State.clearError_params : (s.clearError).params = s.params := rfl

/-! ### `State.clobber` -/

@[simp] theorem State.clobber_host (a n : Nat) : (s.clobber a n).host = s.host := rfl
@[simp] theorem State.clobber_cmd (a n : Nat) : (s.clobber a n).cmd = s.cmd := rfl
@[simp] theorem State.clobber_args (a n : Nat) : (s.clobber a n).args = s.args := rfl
@[simp] theorem State.clobber_res (a n : Nat) : (s.clobber a n).res = s.res := rfl
@[simp] theorem State.clobber_errKind (a n : Nat) : (s.clobber a n).errKind = s.errKind := rfl
@[simp] theorem State.clobber_errCode (a n : Nat) : (s.clobber a n).errCode = s.errCode := rfl
@[simp] theorem State.clobber_errOff (a n : Nat) : (s.clobber a n).errOff = s.errOff := rfl
@[simp] theorem State.clobber_mfcfg (a n : Nat) : (s.clobber a n).mfcfg = s.mfcfg := rfl
@[simp] theorem State.clobber_bw (a n : Nat) : (s.clobber a n).bw = s.bw := rfl
@[simp] theorem State.clobber_br (a n : Nat) : (s.clobber a n).br = s.br := rfl
@[simp] theorem State.clobber_counts (a n : Nat) : (s.clobber a n).counts = s.counts := rfl
@[simp] theorem State.clobber_hmax (a n : Nat) : (s.clobber a n).hmax = s.hmax := rfl
@[simp] theorem State.clobber_hlargest (a n : Nat) : (s.clobber a n).hlargest = s.hlargest := rfl
@[simp] theorem State.clobber_norm (a n : Nat) : (s.clobber a n).norm = s.norm := rfl
@[simp] theorem State.clobber_nmax (a n : Nat) : (s.clobber a n).nmax = s.nmax := rfl
@[simp] theorem State.clobber_nlog (a n : Nat) : (s.clobber a n).nlog = s.nlog := rfl
@[simp] theorem State.clobber_nvalid (a n : Nat) : (s.clobber a n).nvalid = s.nvalid := rfl
@[simp] theorem State.clobber_ct (a n : Nat) : (s.clobber a n).ct = s.ct := rfl
@[simp] theorem State.clobber_dt (a n : Nat) : (s.clobber a n).dt = s.dt := rfl
@[simp] theorem State.clobber_es (a n : Nat) : (s.clobber a n).es = s.es := rfl
@[simp] theorem State.clobber_ds (a n : Nat) : (s.clobber a n).ds = s.ds := rfl
@[simp] theorem State.clobber_ht (a n : Nat) : (s.clobber a n).ht = s.ht := rfl
@[simp] theorem State.clobber_hpend (a n : Nat) : (s.clobber a n).hpend = s.hpend := rfl
@[simp] theorem State.clobber_hd (a n : Nat) : (s.clobber a n).hd = s.hd := rfl
@[simp] theorem State.clobber_lh (a n : Nat) : (s.clobber a n).lh = s.lh := rfl
@[simp] theorem State.clobber_sh (a n : Nat) : (s.clobber a n).sh = s.sh := rfl
@[simp] theorem State.clobber_ctxBase (a n : Nat) : (s.clobber a n).ctxBase = s.ctxBase := rfl
@[simp] theorem State.clobber_wbo (a n : Nat) : (s.clobber a n).wbo = s.wbo := rfl
@[simp] theorem State.clobber_mfValid (a n : Nat) : (s.clobber a n).mfValid = s.mfValid := rfl
@[simp] theorem State.clobber_repLive (a n : Nat) : (s.clobber a n).repLive = s.repLive := rfl
@[simp] theorem State.clobber_repStage (a n : Nat) : (s.clobber a n).repStage = s.repStage := rfl
@[simp] theorem State.clobber_ss (a n : Nat) : (s.clobber a n).ss = s.ss := rfl
@[simp] theorem State.clobber_drep (a n : Nat) : (s.clobber a n).drep = s.drep := rfl
@[simp] theorem State.clobber_dlit (a n : Nat) : (s.clobber a n).dlit = s.dlit := rfl
@[simp] theorem State.clobber_sq (a n : Nat) : (s.clobber a n).sq = s.sq := rfl
@[simp] theorem State.clobber_mem (a n : Nat) : (s.clobber a n).mem = s.mem.clobber a n s.free := rfl
@[simp] theorem State.clobber_free (a n : Nat) : (s.clobber a n).free = s.free + 1 := rfl
@[simp] theorem State.clobber_params (a n : Nat) : (s.clobber a n).params = s.params := rfl

/-! ### `State.writeOut` -/

@[simp] theorem State.writeOut_host (a n : Nat) (bs : List Byte) : (s.writeOut a n bs).host = s.host := rfl
@[simp] theorem State.writeOut_cmd (a n : Nat) (bs : List Byte) : (s.writeOut a n bs).cmd = s.cmd := rfl
@[simp] theorem State.writeOut_args (a n : Nat) (bs : List Byte) : (s.writeOut a n bs).args = s.args := rfl
@[simp] theorem State.writeOut_res (a n : Nat) (bs : List Byte) : (s.writeOut a n bs).res = s.res := rfl
@[simp] theorem State.writeOut_errKind (a n : Nat) (bs : List Byte) : (s.writeOut a n bs).errKind = s.errKind := rfl
@[simp] theorem State.writeOut_errCode (a n : Nat) (bs : List Byte) : (s.writeOut a n bs).errCode = s.errCode := rfl
@[simp] theorem State.writeOut_errOff (a n : Nat) (bs : List Byte) : (s.writeOut a n bs).errOff = s.errOff := rfl
@[simp] theorem State.writeOut_mfcfg (a n : Nat) (bs : List Byte) : (s.writeOut a n bs).mfcfg = s.mfcfg := rfl
@[simp] theorem State.writeOut_bw (a n : Nat) (bs : List Byte) : (s.writeOut a n bs).bw = s.bw := rfl
@[simp] theorem State.writeOut_br (a n : Nat) (bs : List Byte) : (s.writeOut a n bs).br = s.br := rfl
@[simp] theorem State.writeOut_counts (a n : Nat) (bs : List Byte) : (s.writeOut a n bs).counts = s.counts := rfl
@[simp] theorem State.writeOut_hmax (a n : Nat) (bs : List Byte) : (s.writeOut a n bs).hmax = s.hmax := rfl
@[simp] theorem State.writeOut_hlargest (a n : Nat) (bs : List Byte) : (s.writeOut a n bs).hlargest = s.hlargest := rfl
@[simp] theorem State.writeOut_norm (a n : Nat) (bs : List Byte) : (s.writeOut a n bs).norm = s.norm := rfl
@[simp] theorem State.writeOut_nmax (a n : Nat) (bs : List Byte) : (s.writeOut a n bs).nmax = s.nmax := rfl
@[simp] theorem State.writeOut_nlog (a n : Nat) (bs : List Byte) : (s.writeOut a n bs).nlog = s.nlog := rfl
@[simp] theorem State.writeOut_nvalid (a n : Nat) (bs : List Byte) : (s.writeOut a n bs).nvalid = s.nvalid := rfl
@[simp] theorem State.writeOut_ct (a n : Nat) (bs : List Byte) : (s.writeOut a n bs).ct = s.ct := rfl
@[simp] theorem State.writeOut_dt (a n : Nat) (bs : List Byte) : (s.writeOut a n bs).dt = s.dt := rfl
@[simp] theorem State.writeOut_es (a n : Nat) (bs : List Byte) : (s.writeOut a n bs).es = s.es := rfl
@[simp] theorem State.writeOut_ds (a n : Nat) (bs : List Byte) : (s.writeOut a n bs).ds = s.ds := rfl
@[simp] theorem State.writeOut_ht (a n : Nat) (bs : List Byte) : (s.writeOut a n bs).ht = s.ht := rfl
@[simp] theorem State.writeOut_hpend (a n : Nat) (bs : List Byte) : (s.writeOut a n bs).hpend = s.hpend := rfl
@[simp] theorem State.writeOut_hd (a n : Nat) (bs : List Byte) : (s.writeOut a n bs).hd = s.hd := rfl
@[simp] theorem State.writeOut_lh (a n : Nat) (bs : List Byte) : (s.writeOut a n bs).lh = s.lh := rfl
@[simp] theorem State.writeOut_sh (a n : Nat) (bs : List Byte) : (s.writeOut a n bs).sh = s.sh := rfl
@[simp] theorem State.writeOut_ctxBase (a n : Nat) (bs : List Byte) : (s.writeOut a n bs).ctxBase = s.ctxBase := rfl
@[simp] theorem State.writeOut_wbo (a n : Nat) (bs : List Byte) : (s.writeOut a n bs).wbo = s.wbo := rfl
@[simp] theorem State.writeOut_mfValid (a n : Nat) (bs : List Byte) : (s.writeOut a n bs).mfValid = s.mfValid := rfl
@[simp] theorem State.writeOut_repLive (a n : Nat) (bs : List Byte) : (s.writeOut a n bs).repLive = s.repLive := rfl
@[simp] theorem State.writeOut_repStage (a n : Nat) (bs : List Byte) : (s.writeOut a n bs).repStage = s.repStage := rfl
@[simp] theorem State.writeOut_ss (a n : Nat) (bs : List Byte) : (s.writeOut a n bs).ss = s.ss := rfl
@[simp] theorem State.writeOut_drep (a n : Nat) (bs : List Byte) : (s.writeOut a n bs).drep = s.drep := rfl
@[simp] theorem State.writeOut_dlit (a n : Nat) (bs : List Byte) : (s.writeOut a n bs).dlit = s.dlit := rfl
@[simp] theorem State.writeOut_sq (a n : Nat) (bs : List Byte) : (s.writeOut a n bs).sq = s.sq := rfl
@[simp] theorem State.writeOut_mem (a n : Nat) (bs : List Byte) : (s.writeOut a n bs).mem = (s.mem.clobber a n s.free).writeBytes a bs := rfl
@[simp] theorem State.writeOut_free (a n : Nat) (bs : List Byte) : (s.writeOut a n bs).free = s.free + 1 := rfl
@[simp] theorem State.writeOut_params (a n : Nat) (bs : List Byte) : (s.writeOut a n bs).params = s.params := rfl

/-! ### `State.flushWriter` -/

@[simp] theorem State.flushWriter_host : (s.flushWriter).host = s.host := rfl
@[simp] theorem State.flushWriter_cmd : (s.flushWriter).cmd = s.cmd := rfl
@[simp] theorem State.flushWriter_args : (s.flushWriter).args = s.args := rfl
@[simp] theorem State.flushWriter_res : (s.flushWriter).res = s.res := rfl
@[simp] theorem State.flushWriter_errKind : (s.flushWriter).errKind = s.errKind := rfl
@[simp] theorem State.flushWriter_errCode : (s.flushWriter).errCode = s.errCode := rfl
@[simp] theorem State.flushWriter_errOff : (s.flushWriter).errOff = s.errOff := rfl
@[simp] theorem State.flushWriter_mfcfg : (s.flushWriter).mfcfg = s.mfcfg := rfl
@[simp] theorem State.flushWriter_bw : (s.flushWriter).bw = s.bw.flushed := rfl
@[simp] theorem State.flushWriter_br : (s.flushWriter).br = s.br := rfl
@[simp] theorem State.flushWriter_counts : (s.flushWriter).counts = s.counts := rfl
@[simp] theorem State.flushWriter_hmax : (s.flushWriter).hmax = s.hmax := rfl
@[simp] theorem State.flushWriter_hlargest : (s.flushWriter).hlargest = s.hlargest := rfl
@[simp] theorem State.flushWriter_norm : (s.flushWriter).norm = s.norm := rfl
@[simp] theorem State.flushWriter_nmax : (s.flushWriter).nmax = s.nmax := rfl
@[simp] theorem State.flushWriter_nlog : (s.flushWriter).nlog = s.nlog := rfl
@[simp] theorem State.flushWriter_nvalid : (s.flushWriter).nvalid = s.nvalid := rfl
@[simp] theorem State.flushWriter_ct : (s.flushWriter).ct = s.ct := rfl
@[simp] theorem State.flushWriter_dt : (s.flushWriter).dt = s.dt := rfl
@[simp] theorem State.flushWriter_es : (s.flushWriter).es = s.es := rfl
@[simp] theorem State.flushWriter_ds : (s.flushWriter).ds = s.ds := rfl
@[simp] theorem State.flushWriter_ht : (s.flushWriter).ht = s.ht := rfl
@[simp] theorem State.flushWriter_hpend : (s.flushWriter).hpend = s.hpend := rfl
@[simp] theorem State.flushWriter_hd : (s.flushWriter).hd = s.hd := rfl
@[simp] theorem State.flushWriter_lh : (s.flushWriter).lh = s.lh := rfl
@[simp] theorem State.flushWriter_sh : (s.flushWriter).sh = s.sh := rfl
@[simp] theorem State.flushWriter_ctxBase : (s.flushWriter).ctxBase = s.ctxBase := rfl
@[simp] theorem State.flushWriter_wbo : (s.flushWriter).wbo = s.wbo := rfl
@[simp] theorem State.flushWriter_mfValid : (s.flushWriter).mfValid = s.mfValid := rfl
@[simp] theorem State.flushWriter_repLive : (s.flushWriter).repLive = s.repLive := rfl
@[simp] theorem State.flushWriter_repStage : (s.flushWriter).repStage = s.repStage := rfl
@[simp] theorem State.flushWriter_ss : (s.flushWriter).ss = s.ss := rfl
@[simp] theorem State.flushWriter_drep : (s.flushWriter).drep = s.drep := rfl
@[simp] theorem State.flushWriter_dlit : (s.flushWriter).dlit = s.dlit := rfl
@[simp] theorem State.flushWriter_sq : (s.flushWriter).sq = s.sq := rfl
@[simp] theorem State.flushWriter_mem : (s.flushWriter).mem = s.mem.writeBytes (s.bw.base.toNat + s.bw.cur.toNat) (leBytes 8 s.bw.acc.toNat) := rfl
@[simp] theorem State.flushWriter_free : (s.flushWriter).free = s.free := rfl
@[simp] theorem State.flushWriter_params : (s.flushWriter).params = s.params := rfl

/-! ### `State.addField` -/

@[simp] theorem State.addField_host (f : BitField) : (s.addField f).host = s.host := rfl
@[simp] theorem State.addField_cmd (f : BitField) : (s.addField f).cmd = s.cmd := rfl
@[simp] theorem State.addField_args (f : BitField) : (s.addField f).args = s.args := rfl
@[simp] theorem State.addField_res (f : BitField) : (s.addField f).res = s.res := rfl
@[simp] theorem State.addField_errKind (f : BitField) : (s.addField f).errKind = s.errKind := rfl
@[simp] theorem State.addField_errCode (f : BitField) : (s.addField f).errCode = s.errCode := rfl
@[simp] theorem State.addField_errOff (f : BitField) : (s.addField f).errOff = s.errOff := rfl
@[simp] theorem State.addField_mfcfg (f : BitField) : (s.addField f).mfcfg = s.mfcfg := rfl
@[simp] theorem State.addField_bw (f : BitField) : (s.addField f).bw = s.bw.add f.val f.width := rfl
@[simp] theorem State.addField_br (f : BitField) : (s.addField f).br = s.br := rfl
@[simp] theorem State.addField_counts (f : BitField) : (s.addField f).counts = s.counts := rfl
@[simp] theorem State.addField_hmax (f : BitField) : (s.addField f).hmax = s.hmax := rfl
@[simp] theorem State.addField_hlargest (f : BitField) : (s.addField f).hlargest = s.hlargest := rfl
@[simp] theorem State.addField_norm (f : BitField) : (s.addField f).norm = s.norm := rfl
@[simp] theorem State.addField_nmax (f : BitField) : (s.addField f).nmax = s.nmax := rfl
@[simp] theorem State.addField_nlog (f : BitField) : (s.addField f).nlog = s.nlog := rfl
@[simp] theorem State.addField_nvalid (f : BitField) : (s.addField f).nvalid = s.nvalid := rfl
@[simp] theorem State.addField_ct (f : BitField) : (s.addField f).ct = s.ct := rfl
@[simp] theorem State.addField_dt (f : BitField) : (s.addField f).dt = s.dt := rfl
@[simp] theorem State.addField_es (f : BitField) : (s.addField f).es = s.es := rfl
@[simp] theorem State.addField_ds (f : BitField) : (s.addField f).ds = s.ds := rfl
@[simp] theorem State.addField_ht (f : BitField) : (s.addField f).ht = s.ht := rfl
@[simp] theorem State.addField_hpend (f : BitField) : (s.addField f).hpend = s.hpend := rfl
@[simp] theorem State.addField_hd (f : BitField) : (s.addField f).hd = s.hd := rfl
@[simp] theorem State.addField_lh (f : BitField) : (s.addField f).lh = s.lh := rfl
@[simp] theorem State.addField_sh (f : BitField) : (s.addField f).sh = s.sh := rfl
@[simp] theorem State.addField_ctxBase (f : BitField) : (s.addField f).ctxBase = s.ctxBase := rfl
@[simp] theorem State.addField_wbo (f : BitField) : (s.addField f).wbo = s.wbo := rfl
@[simp] theorem State.addField_mfValid (f : BitField) : (s.addField f).mfValid = s.mfValid := rfl
@[simp] theorem State.addField_repLive (f : BitField) : (s.addField f).repLive = s.repLive := rfl
@[simp] theorem State.addField_repStage (f : BitField) : (s.addField f).repStage = s.repStage := rfl
@[simp] theorem State.addField_ss (f : BitField) : (s.addField f).ss = s.ss := rfl
@[simp] theorem State.addField_drep (f : BitField) : (s.addField f).drep = s.drep := rfl
@[simp] theorem State.addField_dlit (f : BitField) : (s.addField f).dlit = s.dlit := rfl
@[simp] theorem State.addField_sq (f : BitField) : (s.addField f).sq = s.sq := rfl
@[simp] theorem State.addField_mem (f : BitField) : (s.addField f).mem = s.mem := rfl
@[simp] theorem State.addField_free (f : BitField) : (s.addField f).free = s.free := rfl
@[simp] theorem State.addField_params (f : BitField) : (s.addField f).params = s.params := rfl

/-! ### `State.readerSkip` -/

@[simp] theorem State.readerSkip_host (n : Nat) : (s.readerSkip n).host = s.host := rfl
@[simp] theorem State.readerSkip_cmd (n : Nat) : (s.readerSkip n).cmd = s.cmd := rfl
@[simp] theorem State.readerSkip_args (n : Nat) : (s.readerSkip n).args = s.args := rfl
@[simp] theorem State.readerSkip_res (n : Nat) : (s.readerSkip n).res = s.res := rfl
@[simp] theorem State.readerSkip_errKind (n : Nat) : (s.readerSkip n).errKind = s.errKind := rfl
@[simp] theorem State.readerSkip_errCode (n : Nat) : (s.readerSkip n).errCode = s.errCode := rfl
@[simp] theorem State.readerSkip_errOff (n : Nat) : (s.readerSkip n).errOff = s.errOff := rfl
@[simp] theorem State.readerSkip_mfcfg (n : Nat) : (s.readerSkip n).mfcfg = s.mfcfg := rfl
@[simp] theorem State.readerSkip_bw (n : Nat) : (s.readerSkip n).bw = s.bw := rfl
@[simp] theorem State.readerSkip_br (n : Nat) : (s.readerSkip n).br = BitReader.mk s.br.base s.br.len (s.br.pos - n) (s.br.unl + n) s.br.valid := rfl
@[simp] theorem State.readerSkip_counts (n : Nat) : (s.readerSkip n).counts = s.counts := rfl
@[simp] theorem State.readerSkip_hmax (n : Nat) : (s.readerSkip n).hmax = s.hmax := rfl
@[simp] theorem State.readerSkip_hlargest (n : Nat) : (s.readerSkip n).hlargest = s.hlargest := rfl
@[simp] theorem State.readerSkip_norm (n : Nat) : (s.readerSkip n).norm = s.norm := rfl
@[simp] theorem State.readerSkip_nmax (n : Nat) : (s.readerSkip n).nmax = s.nmax := rfl
@[simp] theorem State.readerSkip_nlog (n : Nat) : (s.readerSkip n).nlog = s.nlog := rfl
@[simp] theorem State.readerSkip_nvalid (n : Nat) : (s.readerSkip n).nvalid = s.nvalid := rfl
@[simp] theorem State.readerSkip_ct (n : Nat) : (s.readerSkip n).ct = s.ct := rfl
@[simp] theorem State.readerSkip_dt (n : Nat) : (s.readerSkip n).dt = s.dt := rfl
@[simp] theorem State.readerSkip_es (n : Nat) : (s.readerSkip n).es = s.es := rfl
@[simp] theorem State.readerSkip_ds (n : Nat) : (s.readerSkip n).ds = s.ds := rfl
@[simp] theorem State.readerSkip_ht (n : Nat) : (s.readerSkip n).ht = s.ht := rfl
@[simp] theorem State.readerSkip_hpend (n : Nat) : (s.readerSkip n).hpend = s.hpend := rfl
@[simp] theorem State.readerSkip_hd (n : Nat) : (s.readerSkip n).hd = s.hd := rfl
@[simp] theorem State.readerSkip_lh (n : Nat) : (s.readerSkip n).lh = s.lh := rfl
@[simp] theorem State.readerSkip_sh (n : Nat) : (s.readerSkip n).sh = s.sh := rfl
@[simp] theorem State.readerSkip_ctxBase (n : Nat) : (s.readerSkip n).ctxBase = s.ctxBase := rfl
@[simp] theorem State.readerSkip_wbo (n : Nat) : (s.readerSkip n).wbo = s.wbo := rfl
@[simp] theorem State.readerSkip_mfValid (n : Nat) : (s.readerSkip n).mfValid = s.mfValid := rfl
@[simp] theorem State.readerSkip_repLive (n : Nat) : (s.readerSkip n).repLive = s.repLive := rfl
@[simp] theorem State.readerSkip_repStage (n : Nat) : (s.readerSkip n).repStage = s.repStage := rfl
@[simp] theorem State.readerSkip_ss (n : Nat) : (s.readerSkip n).ss = s.ss := rfl
@[simp] theorem State.readerSkip_drep (n : Nat) : (s.readerSkip n).drep = s.drep := rfl
@[simp] theorem State.readerSkip_dlit (n : Nat) : (s.readerSkip n).dlit = s.dlit := rfl
@[simp] theorem State.readerSkip_sq (n : Nat) : (s.readerSkip n).sq = s.sq := rfl
@[simp] theorem State.readerSkip_mem (n : Nat) : (s.readerSkip n).mem = s.mem := rfl
@[simp] theorem State.readerSkip_free (n : Nat) : (s.readerSkip n).free = s.free := rfl
@[simp] theorem State.readerSkip_params (n : Nat) : (s.readerSkip n).params = s.params := rfl

/-! ### `State.setNorm` -/

@[simp] theorem State.setNorm_host (l : List Int) (n : Nat) : (s.setNorm l n).host = s.host := rfl
@[simp] theorem State.setNorm_cmd (l : List Int) (n : Nat) : (s.setNorm l n).cmd = s.cmd := rfl
@[simp] theorem State.setNorm_args (l : List Int) (n : Nat) : (s.setNorm l n).args = s.args := rfl
@[simp] theorem State.setNorm_res (l : List Int) (n : Nat) : (s.setNorm l n).res = s.res := rfl
@[simp] theorem State.setNorm_errKind (l : List Int) (n : Nat) : (s.setNorm l n).errKind = s.errKind := rfl
@[simp] theorem State.setNorm_errCode (l : List Int) (n : Nat) : (s.setNorm l n).errCode = s.errCode := rfl
@[simp] theorem State.setNorm_errOff (l : List Int) (n : Nat) : (s.setNorm l n).errOff = s.errOff := rfl
@[simp] theorem State.setNorm_mfcfg (l : List Int) (n : Nat) : (s.setNorm l n).mfcfg = s.mfcfg := rfl
@[simp] theorem State.setNorm_bw (l : List Int) (n : Nat) : (s.setNorm l n).bw = s.bw := rfl
@[simp] theorem State.setNorm_br (l : List Int) (n : Nat) : (s.setNorm l n).br = s.br := rfl
@[simp] theorem State.setNorm_counts (l : List Int) (n : Nat) : (s.setNorm l n).counts = s.counts := rfl
@[simp] theorem State.setNorm_hmax (l : List Int) (n : Nat) : (s.setNorm l n).hmax = s.hmax := rfl
@[simp] theorem State.setNorm_hlargest (l : List Int) (n : Nat) : (s.setNorm l n).hlargest = s.hlargest := rfl
@[simp] theorem State.setNorm_norm (l : List Int) (n : Nat) : (s.setNorm l n).norm = normRegisters l := rfl
@[simp] theorem State.setNorm_nmax (l : List Int) (n : Nat) : (s.setNorm l n).nmax = BitVec.ofNat 8 (l.length - 1) := rfl
@[simp] theorem State.setNorm_nlog (l : List Int) (n : Nat) : (s.setNorm l n).nlog = BitVec.ofNat 4 n := rfl
@[simp] theorem State.setNorm_nvalid (l : List Int) (n : Nat) : (s.setNorm l n).nvalid = true := rfl
@[simp] theorem State.setNorm_ct (l : List Int) (n : Nat) : (s.setNorm l n).ct = s.ct := rfl
@[simp] theorem State.setNorm_dt (l : List Int) (n : Nat) : (s.setNorm l n).dt = s.dt := rfl
@[simp] theorem State.setNorm_es (l : List Int) (n : Nat) : (s.setNorm l n).es = s.es := rfl
@[simp] theorem State.setNorm_ds (l : List Int) (n : Nat) : (s.setNorm l n).ds = s.ds := rfl
@[simp] theorem State.setNorm_ht (l : List Int) (n : Nat) : (s.setNorm l n).ht = s.ht := rfl
@[simp] theorem State.setNorm_hpend (l : List Int) (n : Nat) : (s.setNorm l n).hpend = s.hpend := rfl
@[simp] theorem State.setNorm_hd (l : List Int) (n : Nat) : (s.setNorm l n).hd = s.hd := rfl
@[simp] theorem State.setNorm_lh (l : List Int) (n : Nat) : (s.setNorm l n).lh = s.lh := rfl
@[simp] theorem State.setNorm_sh (l : List Int) (n : Nat) : (s.setNorm l n).sh = s.sh := rfl
@[simp] theorem State.setNorm_ctxBase (l : List Int) (n : Nat) : (s.setNorm l n).ctxBase = s.ctxBase := rfl
@[simp] theorem State.setNorm_wbo (l : List Int) (n : Nat) : (s.setNorm l n).wbo = s.wbo := rfl
@[simp] theorem State.setNorm_mfValid (l : List Int) (n : Nat) : (s.setNorm l n).mfValid = s.mfValid := rfl
@[simp] theorem State.setNorm_repLive (l : List Int) (n : Nat) : (s.setNorm l n).repLive = s.repLive := rfl
@[simp] theorem State.setNorm_repStage (l : List Int) (n : Nat) : (s.setNorm l n).repStage = s.repStage := rfl
@[simp] theorem State.setNorm_ss (l : List Int) (n : Nat) : (s.setNorm l n).ss = s.ss := rfl
@[simp] theorem State.setNorm_drep (l : List Int) (n : Nat) : (s.setNorm l n).drep = s.drep := rfl
@[simp] theorem State.setNorm_dlit (l : List Int) (n : Nat) : (s.setNorm l n).dlit = s.dlit := rfl
@[simp] theorem State.setNorm_sq (l : List Int) (n : Nat) : (s.setNorm l n).sq = s.sq := rfl
@[simp] theorem State.setNorm_mem (l : List Int) (n : Nat) : (s.setNorm l n).mem = s.mem := rfl
@[simp] theorem State.setNorm_free (l : List Int) (n : Nat) : (s.setNorm l n).free = s.free := rfl
@[simp] theorem State.setNorm_params (l : List Int) (n : Nat) : (s.setNorm l n).params = s.params := rfl

/-! ### `State.setCT` -/

@[simp] theorem State.setCT_host (k : Fin 4) (t : Option FseCT) : (s.setCT k t).host = s.host := rfl
@[simp] theorem State.setCT_cmd (k : Fin 4) (t : Option FseCT) : (s.setCT k t).cmd = s.cmd := rfl
@[simp] theorem State.setCT_args (k : Fin 4) (t : Option FseCT) : (s.setCT k t).args = s.args := rfl
@[simp] theorem State.setCT_res (k : Fin 4) (t : Option FseCT) : (s.setCT k t).res = s.res := rfl
@[simp] theorem State.setCT_errKind (k : Fin 4) (t : Option FseCT) : (s.setCT k t).errKind = s.errKind := rfl
@[simp] theorem State.setCT_errCode (k : Fin 4) (t : Option FseCT) : (s.setCT k t).errCode = s.errCode := rfl
@[simp] theorem State.setCT_errOff (k : Fin 4) (t : Option FseCT) : (s.setCT k t).errOff = s.errOff := rfl
@[simp] theorem State.setCT_mfcfg (k : Fin 4) (t : Option FseCT) : (s.setCT k t).mfcfg = s.mfcfg := rfl
@[simp] theorem State.setCT_bw (k : Fin 4) (t : Option FseCT) : (s.setCT k t).bw = s.bw := rfl
@[simp] theorem State.setCT_br (k : Fin 4) (t : Option FseCT) : (s.setCT k t).br = s.br := rfl
@[simp] theorem State.setCT_counts (k : Fin 4) (t : Option FseCT) : (s.setCT k t).counts = s.counts := rfl
@[simp] theorem State.setCT_hmax (k : Fin 4) (t : Option FseCT) : (s.setCT k t).hmax = s.hmax := rfl
@[simp] theorem State.setCT_hlargest (k : Fin 4) (t : Option FseCT) : (s.setCT k t).hlargest = s.hlargest := rfl
@[simp] theorem State.setCT_norm (k : Fin 4) (t : Option FseCT) : (s.setCT k t).norm = s.norm := rfl
@[simp] theorem State.setCT_nmax (k : Fin 4) (t : Option FseCT) : (s.setCT k t).nmax = s.nmax := rfl
@[simp] theorem State.setCT_nlog (k : Fin 4) (t : Option FseCT) : (s.setCT k t).nlog = s.nlog := rfl
@[simp] theorem State.setCT_nvalid (k : Fin 4) (t : Option FseCT) : (s.setCT k t).nvalid = s.nvalid := rfl
@[simp] theorem State.setCT_ct (k : Fin 4) (t : Option FseCT) : (s.setCT k t).ct = s.ct.set k t := rfl
@[simp] theorem State.setCT_dt (k : Fin 4) (t : Option FseCT) : (s.setCT k t).dt = s.dt := rfl
@[simp] theorem State.setCT_es (k : Fin 4) (t : Option FseCT) : (s.setCT k t).es = s.es := rfl
@[simp] theorem State.setCT_ds (k : Fin 4) (t : Option FseCT) : (s.setCT k t).ds = s.ds := rfl
@[simp] theorem State.setCT_ht (k : Fin 4) (t : Option FseCT) : (s.setCT k t).ht = s.ht := rfl
@[simp] theorem State.setCT_hpend (k : Fin 4) (t : Option FseCT) : (s.setCT k t).hpend = s.hpend := rfl
@[simp] theorem State.setCT_hd (k : Fin 4) (t : Option FseCT) : (s.setCT k t).hd = s.hd := rfl
@[simp] theorem State.setCT_lh (k : Fin 4) (t : Option FseCT) : (s.setCT k t).lh = s.lh := rfl
@[simp] theorem State.setCT_sh (k : Fin 4) (t : Option FseCT) : (s.setCT k t).sh = s.sh := rfl
@[simp] theorem State.setCT_ctxBase (k : Fin 4) (t : Option FseCT) : (s.setCT k t).ctxBase = s.ctxBase := rfl
@[simp] theorem State.setCT_wbo (k : Fin 4) (t : Option FseCT) : (s.setCT k t).wbo = s.wbo := rfl
@[simp] theorem State.setCT_mfValid (k : Fin 4) (t : Option FseCT) : (s.setCT k t).mfValid = s.mfValid := rfl
@[simp] theorem State.setCT_repLive (k : Fin 4) (t : Option FseCT) : (s.setCT k t).repLive = s.repLive := rfl
@[simp] theorem State.setCT_repStage (k : Fin 4) (t : Option FseCT) : (s.setCT k t).repStage = s.repStage := rfl
@[simp] theorem State.setCT_ss (k : Fin 4) (t : Option FseCT) : (s.setCT k t).ss = s.ss := rfl
@[simp] theorem State.setCT_drep (k : Fin 4) (t : Option FseCT) : (s.setCT k t).drep = s.drep := rfl
@[simp] theorem State.setCT_dlit (k : Fin 4) (t : Option FseCT) : (s.setCT k t).dlit = s.dlit := rfl
@[simp] theorem State.setCT_sq (k : Fin 4) (t : Option FseCT) : (s.setCT k t).sq = s.sq := rfl
@[simp] theorem State.setCT_mem (k : Fin 4) (t : Option FseCT) : (s.setCT k t).mem = s.mem := rfl
@[simp] theorem State.setCT_free (k : Fin 4) (t : Option FseCT) : (s.setCT k t).free = s.free := rfl
@[simp] theorem State.setCT_params (k : Fin 4) (t : Option FseCT) : (s.setCT k t).params = s.params := rfl

/-! ### `State.setDT` -/

@[simp] theorem State.setDT_host (k : Fin 4) (t : Option FseDT) : (s.setDT k t).host = s.host := rfl
@[simp] theorem State.setDT_cmd (k : Fin 4) (t : Option FseDT) : (s.setDT k t).cmd = s.cmd := rfl
@[simp] theorem State.setDT_args (k : Fin 4) (t : Option FseDT) : (s.setDT k t).args = s.args := rfl
@[simp] theorem State.setDT_res (k : Fin 4) (t : Option FseDT) : (s.setDT k t).res = s.res := rfl
@[simp] theorem State.setDT_errKind (k : Fin 4) (t : Option FseDT) : (s.setDT k t).errKind = s.errKind := rfl
@[simp] theorem State.setDT_errCode (k : Fin 4) (t : Option FseDT) : (s.setDT k t).errCode = s.errCode := rfl
@[simp] theorem State.setDT_errOff (k : Fin 4) (t : Option FseDT) : (s.setDT k t).errOff = s.errOff := rfl
@[simp] theorem State.setDT_mfcfg (k : Fin 4) (t : Option FseDT) : (s.setDT k t).mfcfg = s.mfcfg := rfl
@[simp] theorem State.setDT_bw (k : Fin 4) (t : Option FseDT) : (s.setDT k t).bw = s.bw := rfl
@[simp] theorem State.setDT_br (k : Fin 4) (t : Option FseDT) : (s.setDT k t).br = s.br := rfl
@[simp] theorem State.setDT_counts (k : Fin 4) (t : Option FseDT) : (s.setDT k t).counts = s.counts := rfl
@[simp] theorem State.setDT_hmax (k : Fin 4) (t : Option FseDT) : (s.setDT k t).hmax = s.hmax := rfl
@[simp] theorem State.setDT_hlargest (k : Fin 4) (t : Option FseDT) : (s.setDT k t).hlargest = s.hlargest := rfl
@[simp] theorem State.setDT_norm (k : Fin 4) (t : Option FseDT) : (s.setDT k t).norm = s.norm := rfl
@[simp] theorem State.setDT_nmax (k : Fin 4) (t : Option FseDT) : (s.setDT k t).nmax = s.nmax := rfl
@[simp] theorem State.setDT_nlog (k : Fin 4) (t : Option FseDT) : (s.setDT k t).nlog = s.nlog := rfl
@[simp] theorem State.setDT_nvalid (k : Fin 4) (t : Option FseDT) : (s.setDT k t).nvalid = s.nvalid := rfl
@[simp] theorem State.setDT_ct (k : Fin 4) (t : Option FseDT) : (s.setDT k t).ct = s.ct := rfl
@[simp] theorem State.setDT_dt (k : Fin 4) (t : Option FseDT) : (s.setDT k t).dt = s.dt.set k t := rfl
@[simp] theorem State.setDT_es (k : Fin 4) (t : Option FseDT) : (s.setDT k t).es = s.es := rfl
@[simp] theorem State.setDT_ds (k : Fin 4) (t : Option FseDT) : (s.setDT k t).ds = s.ds := rfl
@[simp] theorem State.setDT_ht (k : Fin 4) (t : Option FseDT) : (s.setDT k t).ht = s.ht := rfl
@[simp] theorem State.setDT_hpend (k : Fin 4) (t : Option FseDT) : (s.setDT k t).hpend = s.hpend := rfl
@[simp] theorem State.setDT_hd (k : Fin 4) (t : Option FseDT) : (s.setDT k t).hd = s.hd := rfl
@[simp] theorem State.setDT_lh (k : Fin 4) (t : Option FseDT) : (s.setDT k t).lh = s.lh := rfl
@[simp] theorem State.setDT_sh (k : Fin 4) (t : Option FseDT) : (s.setDT k t).sh = s.sh := rfl
@[simp] theorem State.setDT_ctxBase (k : Fin 4) (t : Option FseDT) : (s.setDT k t).ctxBase = s.ctxBase := rfl
@[simp] theorem State.setDT_wbo (k : Fin 4) (t : Option FseDT) : (s.setDT k t).wbo = s.wbo := rfl
@[simp] theorem State.setDT_mfValid (k : Fin 4) (t : Option FseDT) : (s.setDT k t).mfValid = s.mfValid := rfl
@[simp] theorem State.setDT_repLive (k : Fin 4) (t : Option FseDT) : (s.setDT k t).repLive = s.repLive := rfl
@[simp] theorem State.setDT_repStage (k : Fin 4) (t : Option FseDT) : (s.setDT k t).repStage = s.repStage := rfl
@[simp] theorem State.setDT_ss (k : Fin 4) (t : Option FseDT) : (s.setDT k t).ss = s.ss := rfl
@[simp] theorem State.setDT_drep (k : Fin 4) (t : Option FseDT) : (s.setDT k t).drep = s.drep := rfl
@[simp] theorem State.setDT_dlit (k : Fin 4) (t : Option FseDT) : (s.setDT k t).dlit = s.dlit := rfl
@[simp] theorem State.setDT_sq (k : Fin 4) (t : Option FseDT) : (s.setDT k t).sq = s.sq := rfl
@[simp] theorem State.setDT_mem (k : Fin 4) (t : Option FseDT) : (s.setDT k t).mem = s.mem := rfl
@[simp] theorem State.setDT_free (k : Fin 4) (t : Option FseDT) : (s.setDT k t).free = s.free := rfl
@[simp] theorem State.setDT_params (k : Fin 4) (t : Option FseDT) : (s.setDT k t).params = s.params := rfl

/-! ### `State.setES` -/

@[simp] theorem State.setES_host (k : Fin 4) (v : Nat) : (s.setES k v).host = s.host := rfl
@[simp] theorem State.setES_cmd (k : Fin 4) (v : Nat) : (s.setES k v).cmd = s.cmd := rfl
@[simp] theorem State.setES_args (k : Fin 4) (v : Nat) : (s.setES k v).args = s.args := rfl
@[simp] theorem State.setES_res (k : Fin 4) (v : Nat) : (s.setES k v).res = s.res := rfl
@[simp] theorem State.setES_errKind (k : Fin 4) (v : Nat) : (s.setES k v).errKind = s.errKind := rfl
@[simp] theorem State.setES_errCode (k : Fin 4) (v : Nat) : (s.setES k v).errCode = s.errCode := rfl
@[simp] theorem State.setES_errOff (k : Fin 4) (v : Nat) : (s.setES k v).errOff = s.errOff := rfl
@[simp] theorem State.setES_mfcfg (k : Fin 4) (v : Nat) : (s.setES k v).mfcfg = s.mfcfg := rfl
@[simp] theorem State.setES_bw (k : Fin 4) (v : Nat) : (s.setES k v).bw = s.bw := rfl
@[simp] theorem State.setES_br (k : Fin 4) (v : Nat) : (s.setES k v).br = s.br := rfl
@[simp] theorem State.setES_counts (k : Fin 4) (v : Nat) : (s.setES k v).counts = s.counts := rfl
@[simp] theorem State.setES_hmax (k : Fin 4) (v : Nat) : (s.setES k v).hmax = s.hmax := rfl
@[simp] theorem State.setES_hlargest (k : Fin 4) (v : Nat) : (s.setES k v).hlargest = s.hlargest := rfl
@[simp] theorem State.setES_norm (k : Fin 4) (v : Nat) : (s.setES k v).norm = s.norm := rfl
@[simp] theorem State.setES_nmax (k : Fin 4) (v : Nat) : (s.setES k v).nmax = s.nmax := rfl
@[simp] theorem State.setES_nlog (k : Fin 4) (v : Nat) : (s.setES k v).nlog = s.nlog := rfl
@[simp] theorem State.setES_nvalid (k : Fin 4) (v : Nat) : (s.setES k v).nvalid = s.nvalid := rfl
@[simp] theorem State.setES_ct (k : Fin 4) (v : Nat) : (s.setES k v).ct = s.ct := rfl
@[simp] theorem State.setES_dt (k : Fin 4) (v : Nat) : (s.setES k v).dt = s.dt := rfl
@[simp] theorem State.setES_es (k : Fin 4) (v : Nat) : (s.setES k v).es = s.es.set k (BitVec.ofNat 16 v) := rfl
@[simp] theorem State.setES_ds (k : Fin 4) (v : Nat) : (s.setES k v).ds = s.ds := rfl
@[simp] theorem State.setES_ht (k : Fin 4) (v : Nat) : (s.setES k v).ht = s.ht := rfl
@[simp] theorem State.setES_hpend (k : Fin 4) (v : Nat) : (s.setES k v).hpend = s.hpend := rfl
@[simp] theorem State.setES_hd (k : Fin 4) (v : Nat) : (s.setES k v).hd = s.hd := rfl
@[simp] theorem State.setES_lh (k : Fin 4) (v : Nat) : (s.setES k v).lh = s.lh := rfl
@[simp] theorem State.setES_sh (k : Fin 4) (v : Nat) : (s.setES k v).sh = s.sh := rfl
@[simp] theorem State.setES_ctxBase (k : Fin 4) (v : Nat) : (s.setES k v).ctxBase = s.ctxBase := rfl
@[simp] theorem State.setES_wbo (k : Fin 4) (v : Nat) : (s.setES k v).wbo = s.wbo := rfl
@[simp] theorem State.setES_mfValid (k : Fin 4) (v : Nat) : (s.setES k v).mfValid = s.mfValid := rfl
@[simp] theorem State.setES_repLive (k : Fin 4) (v : Nat) : (s.setES k v).repLive = s.repLive := rfl
@[simp] theorem State.setES_repStage (k : Fin 4) (v : Nat) : (s.setES k v).repStage = s.repStage := rfl
@[simp] theorem State.setES_ss (k : Fin 4) (v : Nat) : (s.setES k v).ss = s.ss := rfl
@[simp] theorem State.setES_drep (k : Fin 4) (v : Nat) : (s.setES k v).drep = s.drep := rfl
@[simp] theorem State.setES_dlit (k : Fin 4) (v : Nat) : (s.setES k v).dlit = s.dlit := rfl
@[simp] theorem State.setES_sq (k : Fin 4) (v : Nat) : (s.setES k v).sq = s.sq := rfl
@[simp] theorem State.setES_mem (k : Fin 4) (v : Nat) : (s.setES k v).mem = s.mem := rfl
@[simp] theorem State.setES_free (k : Fin 4) (v : Nat) : (s.setES k v).free = s.free := rfl
@[simp] theorem State.setES_params (k : Fin 4) (v : Nat) : (s.setES k v).params = s.params := rfl

/-! ### `State.setDS` -/

@[simp] theorem State.setDS_host (k : Fin 4) (v : Nat) : (s.setDS k v).host = s.host := rfl
@[simp] theorem State.setDS_cmd (k : Fin 4) (v : Nat) : (s.setDS k v).cmd = s.cmd := rfl
@[simp] theorem State.setDS_args (k : Fin 4) (v : Nat) : (s.setDS k v).args = s.args := rfl
@[simp] theorem State.setDS_res (k : Fin 4) (v : Nat) : (s.setDS k v).res = s.res := rfl
@[simp] theorem State.setDS_errKind (k : Fin 4) (v : Nat) : (s.setDS k v).errKind = s.errKind := rfl
@[simp] theorem State.setDS_errCode (k : Fin 4) (v : Nat) : (s.setDS k v).errCode = s.errCode := rfl
@[simp] theorem State.setDS_errOff (k : Fin 4) (v : Nat) : (s.setDS k v).errOff = s.errOff := rfl
@[simp] theorem State.setDS_mfcfg (k : Fin 4) (v : Nat) : (s.setDS k v).mfcfg = s.mfcfg := rfl
@[simp] theorem State.setDS_bw (k : Fin 4) (v : Nat) : (s.setDS k v).bw = s.bw := rfl
@[simp] theorem State.setDS_br (k : Fin 4) (v : Nat) : (s.setDS k v).br = s.br := rfl
@[simp] theorem State.setDS_counts (k : Fin 4) (v : Nat) : (s.setDS k v).counts = s.counts := rfl
@[simp] theorem State.setDS_hmax (k : Fin 4) (v : Nat) : (s.setDS k v).hmax = s.hmax := rfl
@[simp] theorem State.setDS_hlargest (k : Fin 4) (v : Nat) : (s.setDS k v).hlargest = s.hlargest := rfl
@[simp] theorem State.setDS_norm (k : Fin 4) (v : Nat) : (s.setDS k v).norm = s.norm := rfl
@[simp] theorem State.setDS_nmax (k : Fin 4) (v : Nat) : (s.setDS k v).nmax = s.nmax := rfl
@[simp] theorem State.setDS_nlog (k : Fin 4) (v : Nat) : (s.setDS k v).nlog = s.nlog := rfl
@[simp] theorem State.setDS_nvalid (k : Fin 4) (v : Nat) : (s.setDS k v).nvalid = s.nvalid := rfl
@[simp] theorem State.setDS_ct (k : Fin 4) (v : Nat) : (s.setDS k v).ct = s.ct := rfl
@[simp] theorem State.setDS_dt (k : Fin 4) (v : Nat) : (s.setDS k v).dt = s.dt := rfl
@[simp] theorem State.setDS_es (k : Fin 4) (v : Nat) : (s.setDS k v).es = s.es := rfl
@[simp] theorem State.setDS_ds (k : Fin 4) (v : Nat) : (s.setDS k v).ds = s.ds.set k (BitVec.ofNat 16 v) := rfl
@[simp] theorem State.setDS_ht (k : Fin 4) (v : Nat) : (s.setDS k v).ht = s.ht := rfl
@[simp] theorem State.setDS_hpend (k : Fin 4) (v : Nat) : (s.setDS k v).hpend = s.hpend := rfl
@[simp] theorem State.setDS_hd (k : Fin 4) (v : Nat) : (s.setDS k v).hd = s.hd := rfl
@[simp] theorem State.setDS_lh (k : Fin 4) (v : Nat) : (s.setDS k v).lh = s.lh := rfl
@[simp] theorem State.setDS_sh (k : Fin 4) (v : Nat) : (s.setDS k v).sh = s.sh := rfl
@[simp] theorem State.setDS_ctxBase (k : Fin 4) (v : Nat) : (s.setDS k v).ctxBase = s.ctxBase := rfl
@[simp] theorem State.setDS_wbo (k : Fin 4) (v : Nat) : (s.setDS k v).wbo = s.wbo := rfl
@[simp] theorem State.setDS_mfValid (k : Fin 4) (v : Nat) : (s.setDS k v).mfValid = s.mfValid := rfl
@[simp] theorem State.setDS_repLive (k : Fin 4) (v : Nat) : (s.setDS k v).repLive = s.repLive := rfl
@[simp] theorem State.setDS_repStage (k : Fin 4) (v : Nat) : (s.setDS k v).repStage = s.repStage := rfl
@[simp] theorem State.setDS_ss (k : Fin 4) (v : Nat) : (s.setDS k v).ss = s.ss := rfl
@[simp] theorem State.setDS_drep (k : Fin 4) (v : Nat) : (s.setDS k v).drep = s.drep := rfl
@[simp] theorem State.setDS_dlit (k : Fin 4) (v : Nat) : (s.setDS k v).dlit = s.dlit := rfl
@[simp] theorem State.setDS_sq (k : Fin 4) (v : Nat) : (s.setDS k v).sq = s.sq := rfl
@[simp] theorem State.setDS_mem (k : Fin 4) (v : Nat) : (s.setDS k v).mem = s.mem := rfl
@[simp] theorem State.setDS_free (k : Fin 4) (v : Nat) : (s.setDS k v).free = s.free := rfl
@[simp] theorem State.setDS_params (k : Fin 4) (v : Nat) : (s.setDS k v).params = s.params := rfl

/-! ### `State.setPending` -/

@[simp] theorem State.setPending_host (t : HufTable) : (s.setPending t).host = s.host := rfl
@[simp] theorem State.setPending_cmd (t : HufTable) : (s.setPending t).cmd = s.cmd := rfl
@[simp] theorem State.setPending_args (t : HufTable) : (s.setPending t).args = s.args := rfl
@[simp] theorem State.setPending_res (t : HufTable) : (s.setPending t).res = s.res := rfl
@[simp] theorem State.setPending_errKind (t : HufTable) : (s.setPending t).errKind = s.errKind := rfl
@[simp] theorem State.setPending_errCode (t : HufTable) : (s.setPending t).errCode = s.errCode := rfl
@[simp] theorem State.setPending_errOff (t : HufTable) : (s.setPending t).errOff = s.errOff := rfl
@[simp] theorem State.setPending_mfcfg (t : HufTable) : (s.setPending t).mfcfg = s.mfcfg := rfl
@[simp] theorem State.setPending_bw (t : HufTable) : (s.setPending t).bw = s.bw := rfl
@[simp] theorem State.setPending_br (t : HufTable) : (s.setPending t).br = s.br := rfl
@[simp] theorem State.setPending_counts (t : HufTable) : (s.setPending t).counts = s.counts := rfl
@[simp] theorem State.setPending_hmax (t : HufTable) : (s.setPending t).hmax = s.hmax := rfl
@[simp] theorem State.setPending_hlargest (t : HufTable) : (s.setPending t).hlargest = s.hlargest := rfl
@[simp] theorem State.setPending_norm (t : HufTable) : (s.setPending t).norm = s.norm := rfl
@[simp] theorem State.setPending_nmax (t : HufTable) : (s.setPending t).nmax = s.nmax := rfl
@[simp] theorem State.setPending_nlog (t : HufTable) : (s.setPending t).nlog = s.nlog := rfl
@[simp] theorem State.setPending_nvalid (t : HufTable) : (s.setPending t).nvalid = s.nvalid := rfl
@[simp] theorem State.setPending_ct (t : HufTable) : (s.setPending t).ct = s.ct := rfl
@[simp] theorem State.setPending_dt (t : HufTable) : (s.setPending t).dt = s.dt := rfl
@[simp] theorem State.setPending_es (t : HufTable) : (s.setPending t).es = s.es := rfl
@[simp] theorem State.setPending_ds (t : HufTable) : (s.setPending t).ds = s.ds := rfl
@[simp] theorem State.setPending_ht (t : HufTable) : (s.setPending t).ht = s.ht.set 1 (some t) := rfl
@[simp] theorem State.setPending_hpend (t : HufTable) : (s.setPending t).hpend = true := rfl
@[simp] theorem State.setPending_hd (t : HufTable) : (s.setPending t).hd = s.hd := rfl
@[simp] theorem State.setPending_lh (t : HufTable) : (s.setPending t).lh = s.lh := rfl
@[simp] theorem State.setPending_sh (t : HufTable) : (s.setPending t).sh = s.sh := rfl
@[simp] theorem State.setPending_ctxBase (t : HufTable) : (s.setPending t).ctxBase = s.ctxBase := rfl
@[simp] theorem State.setPending_wbo (t : HufTable) : (s.setPending t).wbo = s.wbo := rfl
@[simp] theorem State.setPending_mfValid (t : HufTable) : (s.setPending t).mfValid = s.mfValid := rfl
@[simp] theorem State.setPending_repLive (t : HufTable) : (s.setPending t).repLive = s.repLive := rfl
@[simp] theorem State.setPending_repStage (t : HufTable) : (s.setPending t).repStage = s.repStage := rfl
@[simp] theorem State.setPending_ss (t : HufTable) : (s.setPending t).ss = s.ss := rfl
@[simp] theorem State.setPending_drep (t : HufTable) : (s.setPending t).drep = s.drep := rfl
@[simp] theorem State.setPending_dlit (t : HufTable) : (s.setPending t).dlit = s.dlit := rfl
@[simp] theorem State.setPending_sq (t : HufTable) : (s.setPending t).sq = s.sq := rfl
@[simp] theorem State.setPending_mem (t : HufTable) : (s.setPending t).mem = s.mem := rfl
@[simp] theorem State.setPending_free (t : HufTable) : (s.setPending t).free = s.free := rfl
@[simp] theorem State.setPending_params (t : HufTable) : (s.setPending t).params = s.params := rfl

/-! ### `State.dropSequences` -/

@[simp] theorem State.dropSequences_host : (s.dropSequences).host = s.host := rfl
@[simp] theorem State.dropSequences_cmd : (s.dropSequences).cmd = s.cmd := rfl
@[simp] theorem State.dropSequences_args : (s.dropSequences).args = s.args := rfl
@[simp] theorem State.dropSequences_res : (s.dropSequences).res = s.res := rfl
@[simp] theorem State.dropSequences_errKind : (s.dropSequences).errKind = s.errKind := rfl
@[simp] theorem State.dropSequences_errCode : (s.dropSequences).errCode = s.errCode := rfl
@[simp] theorem State.dropSequences_errOff : (s.dropSequences).errOff = s.errOff := rfl
@[simp] theorem State.dropSequences_mfcfg : (s.dropSequences).mfcfg = s.mfcfg := rfl
@[simp] theorem State.dropSequences_bw : (s.dropSequences).bw = s.bw := rfl
@[simp] theorem State.dropSequences_br : (s.dropSequences).br = s.br := rfl
@[simp] theorem State.dropSequences_counts : (s.dropSequences).counts = s.counts := rfl
@[simp] theorem State.dropSequences_hmax : (s.dropSequences).hmax = s.hmax := rfl
@[simp] theorem State.dropSequences_hlargest : (s.dropSequences).hlargest = s.hlargest := rfl
@[simp] theorem State.dropSequences_norm : (s.dropSequences).norm = s.norm := rfl
@[simp] theorem State.dropSequences_nmax : (s.dropSequences).nmax = s.nmax := rfl
@[simp] theorem State.dropSequences_nlog : (s.dropSequences).nlog = s.nlog := rfl
@[simp] theorem State.dropSequences_nvalid : (s.dropSequences).nvalid = s.nvalid := rfl
@[simp] theorem State.dropSequences_ct : (s.dropSequences).ct = s.ct := rfl
@[simp] theorem State.dropSequences_dt : (s.dropSequences).dt = #v[none, none, none, s.dt[3]] := rfl
@[simp] theorem State.dropSequences_es : (s.dropSequences).es = s.es := rfl
@[simp] theorem State.dropSequences_ds : (s.dropSequences).ds = s.ds := rfl
@[simp] theorem State.dropSequences_ht : (s.dropSequences).ht = s.ht := rfl
@[simp] theorem State.dropSequences_hpend : (s.dropSequences).hpend = s.hpend := rfl
@[simp] theorem State.dropSequences_hd : (s.dropSequences).hd = s.hd := rfl
@[simp] theorem State.dropSequences_lh : (s.dropSequences).lh = s.lh := rfl
@[simp] theorem State.dropSequences_sh : (s.dropSequences).sh = s.sh := rfl
@[simp] theorem State.dropSequences_ctxBase : (s.dropSequences).ctxBase = s.ctxBase := rfl
@[simp] theorem State.dropSequences_wbo : (s.dropSequences).wbo = s.wbo := rfl
@[simp] theorem State.dropSequences_mfValid : (s.dropSequences).mfValid = s.mfValid := rfl
@[simp] theorem State.dropSequences_repLive : (s.dropSequences).repLive = s.repLive := rfl
@[simp] theorem State.dropSequences_repStage : (s.dropSequences).repStage = s.repStage := rfl
@[simp] theorem State.dropSequences_ss : (s.dropSequences).ss = s.ss := rfl
@[simp] theorem State.dropSequences_drep : (s.dropSequences).drep = s.drep := rfl
@[simp] theorem State.dropSequences_dlit : (s.dropSequences).dlit = s.dlit := rfl
@[simp] theorem State.dropSequences_sq : (s.dropSequences).sq = [] := rfl
@[simp] theorem State.dropSequences_mem : (s.dropSequences).mem = s.mem := rfl
@[simp] theorem State.dropSequences_free : (s.dropSequences).free = s.free := rfl
@[simp] theorem State.dropSequences_params : (s.dropSequences).params = s.params := rfl

/-! ### `State.withAction` -/

@[simp] theorem State.withAction_host (a : HostAction) : (s.withAction a).host = a :: s.host := rfl
@[simp] theorem State.withAction_cmd (a : HostAction) : (s.withAction a).cmd = s.cmd := rfl
@[simp] theorem State.withAction_args (a : HostAction) : (s.withAction a).args = s.args := rfl
@[simp] theorem State.withAction_res (a : HostAction) : (s.withAction a).res = s.res := rfl
@[simp] theorem State.withAction_errKind (a : HostAction) : (s.withAction a).errKind = s.errKind := rfl
@[simp] theorem State.withAction_errCode (a : HostAction) : (s.withAction a).errCode = s.errCode := rfl
@[simp] theorem State.withAction_errOff (a : HostAction) : (s.withAction a).errOff = s.errOff := rfl
@[simp] theorem State.withAction_mfcfg (a : HostAction) : (s.withAction a).mfcfg = s.mfcfg := rfl
@[simp] theorem State.withAction_bw (a : HostAction) : (s.withAction a).bw = s.bw := rfl
@[simp] theorem State.withAction_br (a : HostAction) : (s.withAction a).br = s.br := rfl
@[simp] theorem State.withAction_counts (a : HostAction) : (s.withAction a).counts = s.counts := rfl
@[simp] theorem State.withAction_hmax (a : HostAction) : (s.withAction a).hmax = s.hmax := rfl
@[simp] theorem State.withAction_hlargest (a : HostAction) : (s.withAction a).hlargest = s.hlargest := rfl
@[simp] theorem State.withAction_norm (a : HostAction) : (s.withAction a).norm = s.norm := rfl
@[simp] theorem State.withAction_nmax (a : HostAction) : (s.withAction a).nmax = s.nmax := rfl
@[simp] theorem State.withAction_nlog (a : HostAction) : (s.withAction a).nlog = s.nlog := rfl
@[simp] theorem State.withAction_nvalid (a : HostAction) : (s.withAction a).nvalid = s.nvalid := rfl
@[simp] theorem State.withAction_ct (a : HostAction) : (s.withAction a).ct = s.ct := rfl
@[simp] theorem State.withAction_dt (a : HostAction) : (s.withAction a).dt = s.dt := rfl
@[simp] theorem State.withAction_es (a : HostAction) : (s.withAction a).es = s.es := rfl
@[simp] theorem State.withAction_ds (a : HostAction) : (s.withAction a).ds = s.ds := rfl
@[simp] theorem State.withAction_ht (a : HostAction) : (s.withAction a).ht = s.ht := rfl
@[simp] theorem State.withAction_hpend (a : HostAction) : (s.withAction a).hpend = s.hpend := rfl
@[simp] theorem State.withAction_hd (a : HostAction) : (s.withAction a).hd = s.hd := rfl
@[simp] theorem State.withAction_lh (a : HostAction) : (s.withAction a).lh = s.lh := rfl
@[simp] theorem State.withAction_sh (a : HostAction) : (s.withAction a).sh = s.sh := rfl
@[simp] theorem State.withAction_ctxBase (a : HostAction) : (s.withAction a).ctxBase = s.ctxBase := rfl
@[simp] theorem State.withAction_wbo (a : HostAction) : (s.withAction a).wbo = s.wbo := rfl
@[simp] theorem State.withAction_mfValid (a : HostAction) : (s.withAction a).mfValid = s.mfValid := rfl
@[simp] theorem State.withAction_repLive (a : HostAction) : (s.withAction a).repLive = s.repLive := rfl
@[simp] theorem State.withAction_repStage (a : HostAction) : (s.withAction a).repStage = s.repStage := rfl
@[simp] theorem State.withAction_ss (a : HostAction) : (s.withAction a).ss = s.ss := rfl
@[simp] theorem State.withAction_drep (a : HostAction) : (s.withAction a).drep = s.drep := rfl
@[simp] theorem State.withAction_dlit (a : HostAction) : (s.withAction a).dlit = s.dlit := rfl
@[simp] theorem State.withAction_sq (a : HostAction) : (s.withAction a).sq = s.sq := rfl
@[simp] theorem State.withAction_mem (a : HostAction) : (s.withAction a).mem = s.mem := rfl
@[simp] theorem State.withAction_free (a : HostAction) : (s.withAction a).free = s.free := rfl
@[simp] theorem State.withAction_params (a : HostAction) : (s.withAction a).params = s.params := rfl

end Sys2Proof.Machine
end

