-- ==== Sys2Proof/Laws/Memory.lean ====
section
/-! SUPPORT. What the memory operations do: each keeps the canonical form, a byte written reads back, a byte outside
what is written reads as before, and a byte of a free span reads as the span's tag says. -/

namespace Sys2Proof.Machine

/-! ### Sparse arrays -/

variable {w : Nat}

theorem sparseRead_nil (i : Nat) : sparseRead (w := w) i [] = 0 := rfl

theorem sparseRead_eq_zero {i : Nat} {l : List (Nat × BitVec w)} (h : ∀ c ∈ l, c.1 ≠ i) : sparseRead i l = 0 := by
  induction l with
  | nil => rfl
  | cons c l ih =>
    simp only [sparseRead]
    rw [if_neg (h c (by simp))]
    exact ih fun d hd => h d (by simp [hd])

theorem sparseRead_append (i : Nat) (l l' : List (Nat × BitVec w)) (h : ∀ c ∈ l, c.1 ≠ i) :
    sparseRead i (l ++ l') = sparseRead i l' := by
  induction l with
  | nil => rfl
  | cons c l ih =>
    simp only [List.cons_append, sparseRead]
    rw [if_neg (h c (by simp))]
    exact ih fun d hd => h d (by simp [hd])

theorem sparseRead_append_left (i : Nat) (l l' : List (Nat × BitVec w)) (h : ∀ c ∈ l', c.1 ≠ i) :
    sparseRead i (l ++ l') = sparseRead i l := by
  induction l with
  | nil => exact sparseRead_eq_zero h
  | cons c l ih => simp only [List.cons_append, sparseRead]; split <;> simp_all

theorem sparseRead_filter (i : Nat) (p : Nat × BitVec w → Bool) (l : List (Nat × BitVec w))
    (h : ∀ v, p (i, v) = true) : sparseRead i (l.filter p) = sparseRead i l := by
  induction l with
  | nil => rfl
  | cons c l ih =>
    obtain ⟨k, v⟩ := c
    by_cases hk : k = i
    · subst hk; simp [h, sparseRead]
    · by_cases hp : p (k, v) = true <;> simp [hp, sparseRead, hk, ih]

theorem sparseCells_fst {i : Nat} {vs : List (BitVec w)} {c : Nat × BitVec w} (h : c ∈ sparseCells i vs) :
    i ≤ c.1 ∧ c.1 < i + vs.length := by
  induction vs generalizing i with
  | nil => simp [sparseCells] at h
  | cons v vs ih =>
    simp only [sparseCells] at h
    split at h
    · have := ih h; simp; omega
    · rcases List.mem_cons.1 h with rfl | h
      · simp
      · have := ih h; simp; omega

theorem sparseWf_nil : sparseWf ([] : List (Nat × BitVec w)) := ⟨List.Pairwise.nil, fun _ h => by cases h⟩

theorem sparseCells_wf (i : Nat) (vs : List (BitVec w)) : sparseWf (sparseCells i vs) := by
  induction vs generalizing i with
  | nil => exact sparseWf_nil
  | cons v vs ih =>
    simp only [sparseCells]
    split
    · exact ih _
    · next hv =>
      obtain ⟨h1, h2⟩ := ih (i + 1)
      refine ⟨List.pairwise_cons.2 ⟨fun c hc => ?_, h1⟩, ?_⟩
      · have := sparseCells_fst hc; simp; omega
      · intro c hc
        rcases List.mem_cons.1 hc with rfl | hc
        · exact hv
        · exact h2 c hc

theorem sparseRead_cells (i : Nat) (vs : List (BitVec w)) (j : Nat) (h : j < vs.length) :
    sparseRead (i + j) (sparseCells i vs) = vs[j] := by
  induction vs generalizing i j with
  | nil => simp at h
  | cons v vs ih =>
    cases j with
    | zero =>
      simp only [sparseCells]
      split
      · next hv =>
        rw [sparseRead_eq_zero fun c hc => by have := sparseCells_fst hc; omega]
        simp [hv]
      · simp [sparseRead]
    | succ j =>
      have e : i + (j + 1) = (i + 1) + j := by omega
      have hj : j < vs.length := by simpa using h
      simp only [sparseCells]
      split
      · rw [e, ih _ _ hj]; simp
      · simp only [sparseRead]
        rw [if_neg (by omega), e, ih _ _ hj]; simp

theorem sparseSplice_wf {lo hi : Nat} {new l : List (Nat × BitVec w)} (hn : sparseWf new)
    (hr : ∀ c ∈ new, lo ≤ c.1 ∧ c.1 < hi) (hlh : lo ≤ hi) (hl : sparseWf l) : sparseWf (sparseSplice lo hi new l) := by
  obtain ⟨h1, h2⟩ := hl
  refine ⟨?_, ?_⟩
  · unfold sparseSplice
    rw [List.append_assoc, List.pairwise_append, List.pairwise_append]
    refine ⟨h1.filter _, ⟨hn.1, h1.filter _, ?_⟩, ?_⟩
    · intro a ha b hb
      have := hr a ha
      simp at hb; omega
    · intro a ha b hb
      simp at ha
      rcases List.mem_append.1 hb with hb | hb
      · have := hr b hb; omega
      · simp at hb; omega
  · intro c hc
    simp only [sparseSplice, List.mem_append, List.mem_filter] at hc
    rcases hc with (hc | hc) | hc
    · exact h2 c hc.1
    · exact hn.2 c hc
    · exact h2 c hc.1

theorem sparseWrite_wf (i : Nat) (vs : List (BitVec w)) {l : List (Nat × BitVec w)} (hl : sparseWf l) :
    sparseWf (sparseWrite i vs l) :=
  sparseSplice_wf (sparseCells_wf i vs) (fun _ hc => sparseCells_fst hc) (by omega) hl

theorem sparseRead_splice_outside {lo hi : Nat} {new l : List (Nat × BitVec w)} {i : Nat}
    (hr : ∀ c ∈ new, lo ≤ c.1 ∧ c.1 < hi) (hi' : i < lo ∨ hi ≤ i) (hlh : lo ≤ hi) :
    sparseRead i (sparseSplice lo hi new l) = sparseRead i l := by
  unfold sparseSplice
  rcases hi' with h | h
  · rw [List.append_assoc, sparseRead_append_left, sparseRead_filter]
    · intro v; simpa using h
    · intro c hc
      rcases List.mem_append.1 hc with hc | hc
      · have := hr c hc; omega
      · simp at hc; omega
  · rw [sparseRead_append, sparseRead_filter]
    · intro v; simpa using h
    · intro c hc
      rcases List.mem_append.1 hc with hc | hc
      · simp at hc; omega
      · have := hr c hc; omega

theorem sparseRead_splice_inside {lo hi : Nat} {new l : List (Nat × BitVec w)} {i : Nat} (h1 : lo ≤ i) (h2 : i < hi) :
    sparseRead i (sparseSplice lo hi new l) = sparseRead i new := by
  unfold sparseSplice
  rw [List.append_assoc, sparseRead_append, sparseRead_append_left]
  · intro c hc; simp at hc; omega
  · intro c hc; simp at hc; omega

theorem sparseRead_write_outside (i : Nat) (vs : List (BitVec w)) (l : List (Nat × BitVec w)) {k : Nat}
    (h : k < i ∨ i + vs.length ≤ k) : sparseRead k (sparseWrite i vs l) = sparseRead k l :=
  sparseRead_splice_outside (fun _ hc => sparseCells_fst hc) h (by omega)

theorem sparseRead_write_inside (i : Nat) (vs : List (BitVec w)) (l : List (Nat × BitVec w)) {j : Nat}
    (h : j < vs.length) : sparseRead (i + j) (sparseWrite i vs l) = vs[j] := by
  rw [sparseWrite, sparseRead_splice_inside (by omega) (by omega), sparseRead_cells _ _ _ h]

theorem sparseWrite_fst {i : Nat} {vs : List (BitVec w)} {l : List (Nat × BitVec w)} {n : Nat}
    (hl : ∀ c ∈ l, c.1 < n) (hi : i + vs.length ≤ n) : ∀ c ∈ sparseWrite i vs l, c.1 < n := by
  intro c hc
  simp only [sparseWrite, sparseSplice, List.mem_append, List.mem_filter] at hc
  rcases hc with (hc | hc) | hc
  · exact hl c hc.1
  · have := sparseCells_fst hc; omega
  · exact hl c hc.1

/-! ### Free spans -/

theorem spanHolds_iff (a : Nat) (r : FreeSpan) : spanHolds a r = true ↔ r.lo ≤ a ∧ a < r.hi := by
  simp [spanHolds]

/-- The spans as a reader sees them: the tag of the span that holds an address. -/
theorem find_cut_outside (lo hi a : Nat) (h : a < lo ∨ hi ≤ a) (l : List FreeSpan) :
    ((spansCut lo hi l).find? (spanHolds a)).map FreeSpan.tag = (l.find? (spanHolds a)).map FreeSpan.tag := by
  induction l with
  | nil => rfl
  | cons r l ih =>
    simp only [spansCut, List.flatMap_cons, List.find?_append] at ih ⊢
    have key : ((spanCut lo hi r).find? (spanHolds a)).map FreeSpan.tag
        = if spanHolds a r = true then some r.tag else none := by
      simp only [spanCut, List.find?_append]
      by_cases hr : spanHolds a r = true
      · have hr' := (spanHolds_iff a r).1 hr
        rw [if_pos hr]
        rcases h with h | h
        · rw [if_pos (by omega)]
          have : spanHolds a { lo := r.lo, hi := min r.hi lo, tag := r.tag } = true := by
            rw [spanHolds_iff]; simp; omega
          simp [this]
        · have : spanHolds a { lo := max r.lo hi, hi := r.hi, tag := r.tag } = true := by
            rw [spanHolds_iff]; simp; omega
          rw [if_pos (c := max r.lo hi < r.hi) (by omega)]
          by_cases h2 : r.lo < min r.hi lo
          · simp [h2, this]
            by_cases h3 : spanHolds a { lo := r.lo, hi := min r.hi lo, tag := r.tag } = true <;> simp [h3]
          · simp [h2, this]
      · have hr' : ¬ (r.lo ≤ a ∧ a < r.hi) := by rwa [← spanHolds_iff]
        rw [if_neg hr]
        have e1 : ∀ x ∈ (if r.lo < min r.hi lo then [({ lo := r.lo, hi := min r.hi lo, tag := r.tag } : FreeSpan)] else []),
            ¬ spanHolds a x = true := by
          intro x hx
          split at hx <;> simp at hx
          subst hx
          rw [spanHolds_iff]; simp; omega
        have e2 : ∀ x ∈ (if max r.lo hi < r.hi then [({ lo := max r.lo hi, hi := r.hi, tag := r.tag } : FreeSpan)] else []),
            ¬ spanHolds a x = true := by
          intro x hx
          split at hx <;> simp at hx
          subst hx
          rw [spanHolds_iff]; simp; omega
        rw [List.find?_eq_none.2 e1, List.find?_eq_none.2 e2]
        rfl
    by_cases hr : spanHolds a r = true
    · rw [if_pos hr] at key
      cases hf : (spanCut lo hi r).find? (spanHolds a) with
      | none => simp [hf] at key
      | some x => simp [hf] at key; simp [hr, key]
    · rw [if_neg hr] at key
      cases hf : (spanCut lo hi r).find? (spanHolds a) with
      | none => simpa [hr] using ih
      | some x => simp [hf] at key

theorem mem_spanCut {lo hi : Nat} {r x : FreeSpan} (hx : x ∈ spanCut lo hi r) :
    x.lo < x.hi ∧ r.lo ≤ x.lo ∧ x.hi ≤ r.hi ∧ (x.hi ≤ lo ∨ hi ≤ x.lo) := by
  simp only [spanCut, List.mem_append] at hx
  rcases hx with hx | hx <;> split at hx <;> simp at hx <;> subst hx <;> simp <;> omega

theorem mem_spansCut {lo hi : Nat} {l : List FreeSpan} {x : FreeSpan} (hx : x ∈ spansCut lo hi l) :
    ∃ r ∈ l, x.lo < x.hi ∧ r.lo ≤ x.lo ∧ x.hi ≤ r.hi ∧ (x.hi ≤ lo ∨ hi ≤ x.lo) := by
  simp only [spansCut, List.mem_flatMap] at hx
  obtain ⟨r, hr, hx⟩ := hx
  exact ⟨r, hr, mem_spanCut hx⟩

theorem find_cut_inside {lo hi a : Nat} (h1 : lo ≤ a) (h2 : a < hi) (l : List FreeSpan) :
    (spansCut lo hi l).find? (spanHolds a) = none := by
  rw [List.find?_eq_none]
  intro x hx
  obtain ⟨r, _, hr⟩ := mem_spansCut hx
  rw [spanHolds_iff]; omega

theorem spansCut_pairwise {lo hi : Nat} {l : List FreeSpan} (h : l.Pairwise fun x y => x.hi ≤ y.lo)
    (hlo : lo ≤ hi) : (spansCut lo hi l).Pairwise fun x y => x.hi ≤ y.lo := by
  induction l with
  | nil => simp [spansCut]
  | cons r l ih =>
    obtain ⟨h1, h2⟩ := List.pairwise_cons.1 h
    have e : spansCut lo hi (r :: l) = spanCut lo hi r ++ spansCut lo hi l := rfl
    rw [e, List.pairwise_append]
    refine ⟨?_, ih h2, ?_⟩
    · simp only [spanCut]
      split <;> split <;> simp
      omega
    · intro a ha b hb
      have ha' := mem_spanCut ha
      obtain ⟨r', hr', hb'⟩ := mem_spansCut hb
      have := h1 r' hr'
      omega

/-! ### Host memory -/

/-- `Memory.read` in terms of the tag of the span that holds the address. -/
theorem Memory.read_eq (m : Memory) (a : Nat) :
    m.read a = match (m.free.find? (spanHolds a)).map FreeSpan.tag with
      | some t => Config.freeByte t a
      | none => sparseRead a m.cells := by
  unfold Memory.read
  cases m.free.find? (spanHolds a) <;> rfl

theorem Memory.read_writeBytes_outside (m : Memory) (a : Nat) (bs : List Byte) {k : Nat}
    (h : k < a ∨ a + bs.length ≤ k) : (m.writeBytes a bs).read k = m.read k := by
  unfold Memory.writeBytes
  split
  · rfl
  · rw [Memory.read_eq, Memory.read_eq]
    simp only
    rw [find_cut_outside _ _ _ h, sparseRead_write_outside _ _ _ h]

theorem Memory.read_writeBytes_inside (m : Memory) (a : Nat) (bs : List Byte) {j : Nat} (h : j < bs.length) :
    (m.writeBytes a bs).read (a + j) = bs[j] := by
  unfold Memory.writeBytes
  rw [if_neg (by omega), Memory.read_eq]
  simp only
  rw [find_cut_inside (by omega) (by omega), Option.map_none]
  exact sparseRead_write_inside _ _ _ h

theorem Memory.read_clobber_outside (m : Memory) (a n tag : Nat) {k : Nat} (h : k < a ∨ a + n ≤ k) :
    (m.clobber a n tag).read k = m.read k := by
  unfold Memory.clobber
  split
  · rfl
  · next hn =>
    rw [Memory.read_eq, Memory.read_eq]
    simp only
    have hcut := find_cut_outside a (a + n) k h m.free
    rw [sparseRead_splice_outside (by simp) h (by omega)]
    have key : ∀ l : List FreeSpan, (∀ x ∈ l, x.hi ≤ a ∨ a + n ≤ x.lo) →
        (l.filter (fun r => decide (r.lo < a)) ++ { lo := a, hi := a + n, tag := tag }
          :: l.filter (fun r => decide (a ≤ r.lo))).find? (spanHolds k) = l.find? (spanHolds k) := by
      intro l hl
      have hnew : spanHolds k { lo := a, hi := a + n, tag := tag } = false := by
        rw [← Bool.not_eq_true, spanHolds_iff]; simp; omega
      rw [List.find?_append, List.find?_cons, hnew]
      simp only
      induction l with
      | nil => rfl
      | cons x l ih =>
        have hx := hl x (by simp)
        have ih' := ih fun y hy => hl y (by simp [hy])
        by_cases hk : spanHolds k x = true
        · have hk' := (spanHolds_iff k x).1 hk
          by_cases hlo : x.lo < a
          · simp [hk, hlo]
          · have none_left : (l.filter fun r => decide (r.lo < a)).find? (spanHolds k) = none := by
              rw [List.find?_eq_none]
              intro y hy
              have h1 := List.mem_filter.1 hy
              have h2 := hl y (by simp [h1.1])
              have h3 := of_decide_eq_true h1.2
              rw [spanHolds_iff]
              omega
            rw [List.filter_cons, if_neg (by simpa using hlo), none_left, List.filter_cons,
              if_pos (by simpa using hlo)]
            simp [hk]
        · have hk'' : spanHolds k x = false := by simpa using hk
          rw [List.find?_cons, hk'']
          by_cases hlo : x.lo < a
          · rw [List.filter_cons, if_pos (by simpa using hlo), List.filter_cons, if_neg (by simp; omega),
              List.find?_cons, hk'']
            exact ih'
          · rw [List.filter_cons, if_neg (by simpa using hlo), List.filter_cons, if_pos (by simp; omega),
              List.find?_cons, hk'']
            exact ih'
    rw [key _ fun x hx => by obtain ⟨r, _, hr⟩ := mem_spansCut hx; omega, hcut]

theorem Memory.read_clobber_inside (m : Memory) (a n tag : Nat) {k : Nat} (h1 : a ≤ k) (h2 : k < a + n) :
    (m.clobber a n tag).read k = Config.freeByte tag k := by
  unfold Memory.clobber
  rw [if_neg (by omega)]
  unfold Memory.read
  have hnew : spanHolds k { lo := a, hi := a + n, tag := tag } = true := by
    rw [spanHolds_iff]; simp; omega
  have : (List.filter (fun r => decide (r.lo < a)) (spansCut a (a + n) m.free)).find? (spanHolds k) = none := by
    rw [List.find?_eq_none]
    intro x hx
    obtain ⟨r, _, hr⟩ := mem_spansCut (List.mem_filter.1 hx).1
    rw [spanHolds_iff]; omega
  simp [List.find?_append, this, hnew]

theorem Memory.writeBytes_wf {m : Memory} (hm : m.wf) (a : Nat) (bs : List Byte)
    (h : a + bs.length ≤ Config.addrLimit) : (m.writeBytes a bs).wf := by
  obtain ⟨h1, h2, h3, h4, h5⟩ := hm
  unfold Memory.writeBytes
  split
  · exact ⟨h1, h2, h3, h4, h5⟩
  · refine ⟨sparseWrite_wf _ _ h1, sparseWrite_fst h2 h, spansCut_pairwise h3 (by omega), ?_, ?_⟩
    · intro r hr
      obtain ⟨r', hr', h'⟩ := mem_spansCut hr
      have := h4 r' hr'
      omega
    · intro c hc r hr
      obtain ⟨r', hr', h'⟩ := mem_spansCut hr
      rw [← Bool.not_eq_true, spanHolds_iff]
      simp only [sparseWrite, sparseSplice, List.mem_append, List.mem_filter] at hc
      rcases hc with (hc | hc) | hc
      · have := h5 c hc.1 r' hr'
        rw [← Bool.not_eq_true, spanHolds_iff] at this
        omega
      · have := sparseCells_fst hc; omega
      · have := h5 c hc.1 r' hr'
        rw [← Bool.not_eq_true, spanHolds_iff] at this
        omega

theorem Memory.clobber_wf {m : Memory} (hm : m.wf) (a n tag : Nat) (h : a + n ≤ Config.addrLimit) :
    (m.clobber a n tag).wf := by
  obtain ⟨h1, h2, h3, h4, h5⟩ := hm
  unfold Memory.clobber
  split
  · exact ⟨h1, h2, h3, h4, h5⟩
  · next hn =>
    have hcut := spansCut_pairwise (lo := a) (hi := a + n) h3 (by omega)
    refine ⟨sparseSplice_wf sparseWf_nil (by simp) (by omega) h1, ?_, ?_, ?_, ?_⟩
    · intro c hc
      simp only [sparseSplice, List.mem_append, List.mem_filter, List.not_mem_nil, or_false] at hc
      rcases hc with hc | hc <;> exact h2 c hc.1
    · rw [List.pairwise_append]
      refine ⟨hcut.filter _, List.pairwise_cons.2 ⟨?_, hcut.filter _⟩, ?_⟩
      · intro x hx
        obtain ⟨r, _, hr⟩ := mem_spansCut (List.mem_filter.1 hx).1
        have := (List.mem_filter.1 hx).2
        simp at this
        simp
        omega
      · intro x hx y hy
        obtain ⟨r, _, hr⟩ := mem_spansCut (List.mem_filter.1 hx).1
        have hx2 := (List.mem_filter.1 hx).2
        simp at hx2
        rcases List.mem_cons.1 hy with rfl | hy
        · simp; omega
        · obtain ⟨r', _, hr'⟩ := mem_spansCut (List.mem_filter.1 hy).1
          have hy2 := (List.mem_filter.1 hy).2
          simp at hy2
          omega
    · intro x hx
      rcases List.mem_append.1 hx with hx | hx
      · obtain ⟨r, hr, hr'⟩ := mem_spansCut (List.mem_filter.1 hx).1
        have := h4 r hr
        omega
      · rcases List.mem_cons.1 hx with rfl | hx
        · simp; omega
        · obtain ⟨r, hr, hr'⟩ := mem_spansCut (List.mem_filter.1 hx).1
          have := h4 r hr
          omega
    · intro c hc x hx
      rw [← Bool.not_eq_true, spanHolds_iff]
      simp only [sparseSplice, List.mem_append, List.mem_filter, List.not_mem_nil, or_false] at hc
      have hc' : c ∈ m.cells ∧ (c.1 < a ∨ a + n ≤ c.1) := by
        rcases hc with hc | hc <;> refine ⟨hc.1, ?_⟩ <;> have := hc.2 <;> simp at this <;> omega
      have old : ∀ y ∈ spansCut a (a + n) m.free, ¬ (y.lo ≤ c.1 ∧ c.1 < y.hi) := by
        intro y hy
        obtain ⟨r, hr, hr'⟩ := mem_spansCut hy
        have := h5 c hc'.1 r hr
        rw [← Bool.not_eq_true, spanHolds_iff] at this
        omega
      rcases List.mem_append.1 hx with hx | hx
      · exact old x (List.mem_filter.1 hx).1
      · rcases List.mem_cons.1 hx with rfl | hx
        · simp; omega
        · exact old x (List.mem_filter.1 hx).1

theorem Memory.blank_wf : Memory.blank.wf := by decide

@[simp] theorem Memory.readBytes_length (m : Memory) (a n : Nat) : (m.readBytes a n).length = n := by
  induction n generalizing a with
  | zero => rfl
  | succ n ih => simp [Memory.readBytes, ih]

theorem Memory.readBytes_getElem (m : Memory) (a n j : Nat) (h : j < (m.readBytes a n).length) :
    (m.readBytes a n)[j] = m.read (a + j) := by
  induction n generalizing a j with
  | zero => simp [Memory.readBytes] at h
  | succ n ih =>
    cases j with
    | zero => simp [Memory.readBytes]
    | succ j =>
      simp only [Memory.readBytes, List.getElem_cons_succ]
      rw [ih]
      congr 1
      omega

@[simp] theorem State.window_length (s : State) (a n : Nat) : (s.window a n).length = n := by simp [State.window]

@[simp] theorem leBytes_length (n v : Nat) : (leBytes n v).length = n := by
  induction n generalizing v with
  | zero => rfl
  | succ n ih => simp [leBytes, ih]

/-! ### A destination window after a command (R84, R96) -/

/-- `State.clobber` leaves every byte outside the window. -/
theorem State.clobber_sameOutside (s : State) (a n : Nat) : ∀ k, k < a ∨ a + n ≤ k →
    (s.clobber a n).mem.read k = s.mem.read k := fun _ h => Memory.read_clobber_outside _ _ _ _ h

/-- `State.writeOut` leaves every byte outside the window the output fits in. -/
theorem State.writeOut_sameOutside (s : State) (a n : Nat) (bs : List Byte) (h : bs.length ≤ n) :
    ∀ k, k < a ∨ a + n ≤ k → (s.writeOut a n bs).mem.read k = s.mem.read k := by
  intro k hk
  rw [State.writeOut_mem, Memory.read_writeBytes_outside _ _ _ (by omega), Memory.read_clobber_outside _ _ _ _ hk]

/-- The output reads back. -/
theorem State.writeOut_holds (s : State) (a n : Nat) (bs : List Byte) (j : Nat) (h : j < bs.length) :
    (s.writeOut a n bs).mem.read (a + j) = bs[j] := by
  rw [State.writeOut_mem]
  exact Memory.read_writeBytes_inside _ _ _ h

/-- Memory stays canonical when an output is written. -/
theorem State.writeOut_wf {s : State} (hs : s.mem.wf) {a n : Nat} {bs : List Byte} (h : bs.length ≤ n)
    (hw : a + n ≤ Config.addrLimit) : (s.writeOut a n bs).mem.wf := by
  rw [State.writeOut_mem]
  exact Memory.writeBytes_wf (Memory.clobber_wf hs _ _ _ hw) _ _ (by omega)

theorem windowOk_iff (a n : Nat) : windowOk a n = true ↔ n < Config.lenLimit ∧ a + n ≤ Config.addrLimit := by
  simp [windowOk]

end Sys2Proof.Machine
end

