-- ==== Sys2Proof/Laws/Streams.lean ====
section
/-! SUPPORT. Byte strings as little-endian numbers, private bit streams, and reading them backward: the value and the
length of a packed list of fields, where a closed stream opens, and what a read returns (R150, R151, R160, R165). -/

namespace Sys2Proof.Machine

/-! ### Little-endian values (R10) -/

theorem leValue_lt (bs : List Byte) : leValue bs < 256 ^ bs.length := by
  induction bs with
  | nil => simp [leValue]
  | cons b bs ih =>
    have hb := b.isLt
    simp only [leValue, List.length_cons, pow_succ]
    omega

theorem leValue_append (xs ys : List Byte) : leValue (xs ++ ys) = leValue xs + 256 ^ xs.length * leValue ys := by
  induction xs with
  | nil => simp [leValue]
  | cons x xs ih =>
    simp only [List.cons_append, leValue, ih, List.length_cons, pow_succ]
    ring

theorem leValue_leBytes (n v : Nat) : leValue (leBytes n v) = v % 256 ^ n := by
  induction n generalizing v with
  | zero => simp [leBytes, leValue, Nat.mod_one]
  | succ n ih =>
    simp only [leBytes, leValue, ih, BitVec.toNat_ofNat]
    rw [show (256 : Nat) ^ (n + 1) = 256 * 256 ^ n by ring, Nat.mod_mul]

/-- A byte string is the low bytes of its value. -/
theorem leBytes_leValue (bs : List Byte) : leBytes bs.length (leValue bs) = bs := by
  induction bs with
  | nil => rfl
  | cons b bs ih =>
    have hb := b.isLt
    have h1 : (b.toNat + 256 * leValue bs) / 256 = leValue bs := by omega
    have h2 : BitVec.ofNat 8 (b.toNat + 256 * leValue bs) = b := by
      apply BitVec.eq_of_toNat_eq
      simp
      try omega
    simp only [List.length_cons, leValue, leBytes, h1, h2, ih]

theorem leBytes_getElem (n v j : Nat) (h : j < (leBytes n v).length) :
    (leBytes n v)[j] = BitVec.ofNat 8 (v / 256 ^ j) := by
  induction n generalizing v j with
  | zero => simp at h
  | succ n ih =>
    cases j with
    | zero => simp [leBytes]
    | succ j =>
      simp only [leBytes, List.getElem_cons_succ]
      rw [ih, Nat.div_div_eq_div_mul, pow_succ, Nat.mul_comm]

/-! ### Packed fields (R150) -/

/-- The fields as one number, the first in the lowest bits. -/
def fieldsValue : List BitField → Nat
  | [] => 0
  | f :: fs => f.val + 2 ^ f.width * fieldsValue fs

@[simp] theorem totalBits_nil : totalBits [] = 0 := rfl

@[simp] theorem totalBits_cons (f : BitField) (fs : List BitField) : totalBits (f :: fs) = f.width + totalBits fs := by
  simp [totalBits]

@[simp] theorem totalBits_append (fs gs : List BitField) : totalBits (fs ++ gs) = totalBits fs + totalBits gs := by
  simp [totalBits]

theorem fieldsValue_append (fs gs : List BitField) :
    fieldsValue (fs ++ gs) = fieldsValue fs + 2 ^ totalBits fs * fieldsValue gs := by
  induction fs with
  | nil => simp [fieldsValue]
  | cons f fs ih =>
    simp only [List.cons_append, fieldsValue, ih, totalBits_cons, pow_add]
    ring

theorem fieldsValue_lt {fs : List BitField} (h : ∀ f ∈ fs, f.val < 2 ^ f.width) :
    fieldsValue fs < 2 ^ totalBits fs := by
  induction fs with
  | nil => simp [fieldsValue]
  | cons f fs ih =>
    have h1 := h f (by simp)
    have h2 := ih fun g hg => h g (by simp [hg])
    simp only [fieldsValue, totalBits_cons, pow_add]
    calc f.val + 2 ^ f.width * fieldsValue fs < 2 ^ f.width * (fieldsValue fs + 1) := by rw [Nat.mul_succ]; omega
      _ ≤ _ := Nat.mul_le_mul_left _ h2

/-- Adding a field above the bits held is an addition. -/
theorem or_shiftLeft_eq_add {acc cnt : Nat} (h : acc < 2 ^ cnt) (v : Nat) :
    acc ||| (v <<< cnt) = acc + v * 2 ^ cnt := by
  rw [Nat.or_comm, ← Nat.shiftLeft_add_eq_or_of_lt h, Nat.shiftLeft_eq]
  omega

/-- The number of bytes of packed fields. -/
theorem packBits_length (acc cnt : Nat) (fs : List BitField) (hc : cnt < 8) :
    (packBits acc cnt fs).length = (cnt + totalBits fs + 7) / 8 := by
  induction fs generalizing acc cnt with
  | nil =>
    simp only [packBits, totalBits_nil]
    split <;> simp <;> omega
  | cons f fs ih =>
    simp only [packBits, List.length_append, leBytes_length, totalBits_cons]
    rw [ih _ _ (Nat.mod_lt _ (by omega))]
    omega

/-- The number packed fields are, after the bits already held. -/
theorem leValue_packBits (acc cnt : Nat) (fs : List BitField) (ha : acc < 2 ^ cnt) (hc : cnt < 8)
    (h : ∀ f ∈ fs, f.val < 2 ^ f.width) :
    leValue (packBits acc cnt fs) = acc + 2 ^ cnt * fieldsValue fs := by
  induction fs generalizing acc cnt with
  | nil =>
    simp only [packBits, fieldsValue]
    split
    · next h0 => subst h0; simp [leValue]; omega
    · have : 2 ^ cnt ≤ 2 ^ 8 := Nat.pow_le_pow_right (by omega) (by omega)
      simp [leValue]; omega
  | cons f fs ih =>
    have hf := h f (by simp)
    simp only [packBits]
    rw [or_shiftLeft_eq_add ha]
    generalize hn : cnt + f.width = n
    have hlt : acc + f.val * 2 ^ cnt < 2 ^ n := by
      rw [← hn, Nat.add_comm cnt, pow_add]
      calc acc + f.val * 2 ^ cnt < (f.val + 1) * 2 ^ cnt := by rw [Nat.succ_mul]; omega
        _ ≤ _ := Nat.mul_le_mul_right _ hf
    have e : n = 8 * (n / 8) + n % 8 := (Nat.div_add_mod n 8).symm
    have e8 : (256 : Nat) ^ (n / 8) = 2 ^ (8 * (n / 8)) := by rw [pow_mul]; norm_num
    have hacc : (acc + f.val * 2 ^ cnt) >>> (8 * (n / 8)) < 2 ^ (n % 8) := by
      rw [Nat.shiftRight_eq_div_pow]
      apply Nat.div_lt_of_lt_mul
      rw [← pow_add, ← e]
      exact hlt
    rw [leValue_append, leBytes_length, leValue_leBytes, ih _ _ hacc (Nat.mod_lt _ (by omega))
      (fun g hg => h g (by simp [hg])), Nat.shiftRight_eq_div_pow, e8]
    have hdiv := Nat.mod_add_div (acc + f.val * 2 ^ cnt) (2 ^ (8 * (n / 8)))
    have epow : 2 ^ (8 * (n / 8)) * 2 ^ (n % 8) = 2 ^ cnt * 2 ^ f.width := by
      rw [← pow_add, ← pow_add, ← e, hn]
    simp only [fieldsValue, Nat.mul_add]
    rw [← Nat.mul_assoc (2 ^ (8 * (n / 8))), epow]
    nlinarith [hdiv]

/-! ### Closed and opened streams (R157, R158, R160) -/

/-- A closed stream that fits is its fields and the end mark, packed. -/
theorem closedStream_eq {fs : List BitField} {cap : Nat} (h : closedStream fs cap ≠ []) :
    closedStream fs cap = packBits 0 0 (fs ++ [{ val := 1, width := 1 }])
      ∧ (totalBits fs + 1) / 8 + 8 < cap := by
  unfold closedStream at h ⊢
  split at h
  · next hc => exact ⟨by rw [if_pos hc], hc⟩
  · exact absurd rfl h

/-- A stream takes its bits and the end mark, in whole bytes. -/
theorem closedStream_length {fs : List BitField} {cap : Nat} (h : closedStream fs cap ≠ []) :
    (closedStream fs cap).length = totalBits fs / 8 + 1 := by
  rw [(closedStream_eq h).1, packBits_length _ _ _ (by omega)]
  simp
  omega

/-- A stream, closed or given up, fits its capacity. -/
theorem closedStream_length_le (fs : List BitField) (cap : Nat) : (closedStream fs cap).length ≤ cap := by
  by_cases h : closedStream fs cap = []
  · simp [h]
  · have := (closedStream_eq h).2
    rw [closedStream_length h]
    omega

/-- A stream is given up exactly when its bits do not fit (R158). -/
theorem closedStream_eq_nil_iff (fs : List BitField) (cap : Nat) :
    closedStream fs cap = [] ↔ cap - 8 ≤ (totalBits fs + 1) / 8 := by
  constructor
  · intro h
    unfold closedStream at h
    split at h
    · have := congrArg List.length h
      rw [packBits_length _ _ _ (by omega)] at this
      simp at this
      omega
    · next hc => simp only [Config.bwSlack] at hc; omega
  · intro h
    by_contra hc
    have := (closedStream_eq hc).2
    omega

/-- The number a closed stream is. -/
theorem leValue_closedStream {fs : List BitField} {cap : Nat} (hf : ∀ f ∈ fs, f.val < 2 ^ f.width)
    (h : closedStream fs cap ≠ []) :
    leValue (closedStream fs cap) = fieldsValue fs + 2 ^ totalBits fs := by
  rw [(closedStream_eq h).1, leValue_packBits _ _ _ (by omega) (by omega), fieldsValue_append]
  · simp [fieldsValue]
  · intro f hf'
    rcases List.mem_append.1 hf' with h1 | h1
    · exact hf f h1
    · simp at h1; subst h1; simp

/-- The last byte of a byte string, by its value. -/
theorem getLast_eq_leValue {bs : List Byte} (h : bs ≠ []) :
    (bs.getLast h).toNat = leValue bs / 256 ^ (bs.length - 1) := by
  have e := List.dropLast_append_getLast h
  have hv : leValue bs = leValue bs.dropLast + 256 ^ (bs.length - 1) * (bs.getLast h).toNat := by
    conv_lhs => rw [← e]
    rw [leValue_append, List.length_dropLast]
    simp [leValue]
  have hlt := leValue_lt bs.dropLast
  rw [List.length_dropLast] at hlt
  rw [hv, Nat.add_mul_div_left _ _ (Nat.pow_pos (by omega)), Nat.div_eq_of_lt hlt, Nat.zero_add]

/-- A stream whose value is between `2 ^ t` and `2 ^ (t + 1)` opens with `t` payload bits (R160, R162). -/
theorem openStream_of_value {bs : List Byte} {t : Nat} (hl : bs.length = t / 8 + 1) (h1 : 2 ^ t ≤ leValue bs)
    (h2 : leValue bs < 2 ^ (t + 1)) : openStream bs = .ok { v := leValue bs, pos := t } := by
  have hne : bs ≠ [] := by rintro rfl; simp at hl
  have hlast := getLast_eq_leValue hne
  have e : t = 8 * (t / 8) + t % 8 := (Nat.div_add_mod t 8).symm
  have e8 : (256 : Nat) ^ (t / 8) = 2 ^ (8 * (t / 8)) := by rw [pow_mul]; norm_num
  rw [hl, Nat.add_sub_cancel, e8] at hlast
  have b1 : 2 ^ (t % 8) ≤ (bs.getLast hne).toNat := by
    rw [hlast, Nat.le_div_iff_mul_le (Nat.two_pow_pos _), ← pow_add, Nat.add_comm, ← e]
    exact h1
  have b2 : (bs.getLast hne).toNat < 2 ^ (t % 8 + 1) := by
    rw [hlast, Nat.div_lt_iff_lt_mul (Nat.two_pow_pos _), ← pow_add]
    have : t % 8 + 1 + 8 * (t / 8) = t + 1 := by omega
    rw [this]
    exact h2
  have hnz : bs.getLast hne ≠ 0 := by
    intro h0
    rw [h0] at b1
    have := Nat.two_pow_pos (t % 8)
    simp at b1
  have hb : highestBit (bs.getLast hne).toNat = t % 8 := by
    rw [highestBit, Nat.log2_eq_iff (by have := Nat.two_pow_pos (t % 8); omega)]
    exact ⟨b1, b2⟩
  unfold openStream
  rw [List.getLast?_eq_some_getLast hne]
  simp only
  rw [if_neg hnz, hb, hl]
  congr 2
  push_cast
  omega

/-! ### Reads (R165) -/

/-- A read of bits that are there. -/
theorem streamBits_of_le {v pos n : Nat} (h : n ≤ pos) : streamBits v pos n = v / 2 ^ (pos - n) % 2 ^ n := by
  unfold streamBits
  by_cases hn : n = 0
  · subst hn; simp [Nat.mod_one]
  · rw [if_neg hn, if_pos (by omega), Nat.shiftRight_eq_div_pow]
    congr 3
    omega

/-- Every read is below `2 ^ n`. -/
theorem streamBits_lt (v : Nat) (pos : Int) (n : Nat) : streamBits v pos n < 2 ^ n := by
  unfold streamBits
  split
  · exact Nat.two_pow_pos _
  · split
    · exact Nat.mod_lt _ (Nat.two_pow_pos _)
    · split
      · rw [Nat.shiftLeft_eq]
        have e : 2 ^ n = 2 ^ pos.toNat * 2 ^ (n - pos.toNat) := by rw [← pow_add]; congr; omega
        rw [e]
        exact Nat.mul_lt_mul_of_pos_right (Nat.mod_lt _ (Nat.two_pow_pos _)) (Nat.two_pow_pos _)
      · exact Nat.two_pow_pos _

/-- The field above `lo` bits reads as it was written, whatever lies above it (R151). -/
theorem streamBits_field {x t n lo hi : Nat} (hlo : lo < 2 ^ t) (hx : x < 2 ^ n) :
    streamBits (lo + 2 ^ t * (x + 2 ^ n * hi)) ((t + n : Nat) : Int) n = x := by
  rw [streamBits_of_le (by omega), Nat.add_sub_cancel, Nat.add_mul_div_left _ _ (Nat.two_pow_pos _),
    Nat.div_eq_of_lt hlo, Nat.zero_add, Nat.add_mul_mod_self_left, Nat.mod_eq_of_lt hx]

/-- The same at the place of the last field of a list. -/
theorem peek_field {fs : List BitField} {f : BitField} (hi : Nat) (h : ∀ g ∈ fs, g.val < 2 ^ g.width)
    (hf : f.val < 2 ^ f.width) :
    (Stream.mk (fieldsValue (fs ++ [f]) + 2 ^ totalBits (fs ++ [f]) * hi) (totalBits (fs ++ [f]))).peek f.width
      = f.val := by
  have e : fieldsValue (fs ++ [f]) + 2 ^ totalBits (fs ++ [f]) * hi
      = fieldsValue fs + 2 ^ totalBits fs * (f.val + 2 ^ f.width * hi) := by
    rw [fieldsValue_append, totalBits_append]
    simp only [fieldsValue, totalBits_cons, totalBits_nil, pow_add]
    ring
  have e2 : totalBits (fs ++ [f]) = totalBits fs + f.width := by simp
  unfold Stream.peek
  rw [e, e2]
  exact streamBits_field (fieldsValue_lt h) hf

/-- Reading the fields' widths, last first, gives the fields' values and consumes exactly their bits (R151). -/
theorem readFields_fields (fs : List BitField) (hi : Nat) (h : ∀ g ∈ fs, g.val < 2 ^ g.width) :
    (Stream.mk (fieldsValue fs + 2 ^ totalBits fs * hi) (totalBits fs)).readFields (fs.reverse.map BitField.width)
      = (fs.reverse.map BitField.val, Stream.mk (fieldsValue fs + 2 ^ totalBits fs * hi) 0) := by
  induction fs using List.reverseRecOn generalizing hi with
  | nil => rfl
  | append_singleton fs f ih =>
    have hl : ∀ g ∈ fs, g.val < 2 ^ g.width := fun g hg => h g (by simp [hg])
    have hf : f.val < 2 ^ f.width := h f (by simp)
    have e : fieldsValue (fs ++ [f]) + 2 ^ totalBits (fs ++ [f]) * hi
        = fieldsValue fs + 2 ^ totalBits fs * (f.val + 2 ^ f.width * hi) := by
      rw [fieldsValue_append, totalBits_append]
      simp only [fieldsValue, totalBits_cons, totalBits_nil, pow_add]
      ring
    rw [List.reverse_append, List.reverse_singleton, List.singleton_append, List.map_cons, List.map_cons]
    unfold Stream.readFields
    simp only
    rw [peek_field hi hl hf]
    have es : (Stream.mk (fieldsValue (fs ++ [f]) + 2 ^ totalBits (fs ++ [f]) * hi) (totalBits (fs ++ [f]))).skip
        f.width = Stream.mk (fieldsValue fs + 2 ^ totalBits fs * (f.val + 2 ^ f.width * hi)) (totalBits fs) := by
      unfold Stream.skip
      rw [e]
      congr 1
      simp only [totalBits_append, totalBits_cons, totalBits_nil]
      push_cast
      omega
    rw [es, ih _ hl, e]

end Sys2Proof.Machine
end

