-- ==== Sys2Proof/Laws/Bounds.lean ====
section
/-! SUPPORT. How long the outputs of the composite commands are: an encoder's output fits its capacity, a decoder's
has the length asked for. -/

namespace Sys2Proof.Machine

/-! ### FSE and Huffman streams (R270, R275, R350 to R357) -/

theorem compress2_length_le (t : FseCT) (xs : List Byte) (cap : Nat) : (compress2 t xs cap).length ≤ cap :=
  closedStream_length_le _ _

theorem enc1_length_le (t : HufTable) (xs : List Byte) (cap : Nat) : (enc1 t xs cap).length ≤ cap :=
  closedStream_length_le _ _

theorem decompress2Loop_length {t : FseDT} {cap len fuel : Nat} {r : Stream} {sa sb o : Nat} {l : List Byte}
    (h : decompress2Loop t cap len fuel r sa sb o = .ok l) : 2 ≤ l.length ∧ o + l.length ≤ cap := by
  induction fuel generalizing r sa sb o l with
  | zero => simp [decompress2Loop] at h
  | succ fuel ih =>
    simp only [decompress2Loop] at h
    split at h
    · cases h
    · next hc =>
      split at h
      · cases h
        simp
        omega
      · split at h
        · cases h
        · next l' hl =>
          cases h
          have := ih hl
          simp
          omega

/-- A decoded two-state string has at least two bytes and fits its capacity (R275, R276). -/
theorem decompress2_length {t : FseDT} {bs : List Byte} {cap : Nat} {out : List Byte}
    (h : decompress2 t bs cap = .ok out) : 2 ≤ out.length ∧ out.length ≤ cap := by
  unfold decompress2 at h
  split at h
  · cases h
  · have := decompress2Loop_length h
    omega

theorem segmentStreams_bound {t : HufTable} {cap p : Nat} {segs l : List (List Byte)}
    (h : segmentStreams t cap p segs = some l) (hp : p ≤ cap) :
    l.length = segs.length ∧ p + l.flatten.length ≤ cap := by
  induction segs generalizing p l with
  | nil => cases h; simpa using hp
  | cons seg segs ih =>
    simp only [segmentStreams] at h
    split at h
    · cases h
    · have h1 := enc1_length_le t seg (cap - p)
      split at h
      · cases h
      · next l' hl =>
        cases h
        have := ih hl (by omega)
        simp only [List.length_cons, List.flatten_cons, List.length_append]
        omega

/-- Four streams and their jump table fit the capacity (R352). -/
theorem enc4_length_le (t : HufTable) (xs : List Byte) (cap : Nat) : (enc4 t xs cap).length ≤ cap := by
  unfold enc4
  split
  · simp
  · next hc =>
    split
    · simp
    · next l hl =>
      have hb := segmentStreams_bound hl (by omega)
      have h4 : l.length = 4 := hb.1
      match l, h4 with
      | [a, b, c, d], _ =>
        simp only [joinStreams, List.take, List.flatMap_cons, List.flatMap_nil, List.length_append, leBytes_length,
          List.length_nil]
        have := hb.2
        omega

theorem decodeSymbols_length (t : HufDec) (n : Nat) (r : Stream) : (decodeSymbols t n r).1.length = n := by
  induction n generalizing r with
  | zero => rfl
  | succ n ih => simp [decodeSymbols, ih]

/-- One stream decodes to exactly the number of symbols asked for (R355). -/
theorem dec1_length {t : HufDec} {bs : List Byte} {n : Nat} {out : List Byte} (h : dec1 t bs n = .ok out) :
    out.length = n := by
  unfold dec1 at h
  split at h
  · cases h
  · next r hr =>
    have e := decodeSymbols_length t n r
    simp only at h
    split at h
    · cases h
      exact e
    · cases h

theorem shiftErr_eq_ok {α : Type} {base : Nat} {x : Except Err α} {a : α} : shiftErr base x = .ok a ↔ x = .ok a := by
  cases x <;> simp [shiftErr]

theorem decodeStreams_length {t : HufDec} {bs : List Byte} {l : List (Nat × Nat × Nat)} {out : List Byte}
    (h : decodeStreams t bs l = .ok out) : out.length = (l.map fun x => x.2.2).sum := by
  induction l generalizing out with
  | nil => cases h; rfl
  | cons x l ih =>
    obtain ⟨p, size, n⟩ := x
    simp only [decodeStreams] at h
    split at h
    · cases h
    · next a ha =>
      split at h
      · cases h
      · next b hb =>
        cases h
        simp [dec1_length (shiftErr_eq_ok.1 ha), ih hb]

/-- Four streams decode to exactly the number of symbols asked for (R357). -/
theorem dec4_length {t : HufDec} {bs : List Byte} {n : Nat} {out : List Byte} (h : dec4 t bs n = .ok out) :
    out.length = n := by
  simp only [dec4] at h
  split at h
  · cases h
  · split at h
    · cases h
    · split at h
      · cases h
      · rw [decodeStreams_length h]
        simp
        omega

/-! ### Huffman table descriptions (R321, R322, R330) -/

theorem packNibbles_length (w : List Nat) : (packNibbles w).length = (w.length + 1) / 2 := by
  match w with
  | [] => rfl
  | [a] => simp [packNibbles]
  | a :: b :: rest =>
    simp only [packNibbles, List.length_cons, packNibbles_length rest]
    omega

theorem writeRawWeights_length_le {c : Nat} {w : List Nat} {cap : Nat} {out : List Byte} (hc : w.length = c)
    (h : writeRawWeights c w cap = .ok out) : out.length ≤ cap := by
  unfold writeRawWeights at h
  split at h
  · cases h
  · split at h
    · cases h
    · cases h
      simp only [List.length_cons, packNibbles_length]
      omega

theorem compressWeights_length_le {w : List Nat} {room : Nat} {out : List Byte}
    (h : compressWeights w room = .ok (some out)) : out.length ≤ room := by
  simp only [compressWeights] at h
  split at h
  · cases h
  · split at h
    · cases h
    · split at h
      · next hdr t _ _ =>
        split at h
        · cases h
        · next hb =>
          cases h
          have := compress2_length_le t (w.map fun x => BitVec.ofNat 8 x) (room - hdr.length)
          simp only [List.length_append]
          omega
      · cases h

/-- A written table description fits its window (R322). -/
theorem hufDescription_length_le {t : HufTable} {cap : Nat} {out : List Byte} (h : hufDescription t cap = .ok out) :
    out.length ≤ cap := by
  have hw : t.weights.length = t.maxSym.toNat := by simp [HufTable.weights]
  simp only [hufDescription] at h
  split at h
  · cases h
  · next comp hcomp =>
    split at h
    · cases h
      split at hcomp
      · have := compressWeights_length_le hcomp
        simp only [List.length_cons]
        omega
      · cases hcomp
    · exact writeRawWeights_length_le hw h
  · exact writeRawWeights_length_le hw h

theorem readWeights_used_le {bs : List Byte} {w : List Nat} {used : Nat} (h : readWeights bs = .ok (w, used)) :
    used ≤ bs.length := by
  match bs with
  | [] => cases h
  | b :: rest =>
    simp only [readWeights] at h
    generalize b.toNat = n at h
    split at h
    · split at h
      · exact absurd h (by simp)
      · simp only [Except.ok.injEq, Prod.mk.injEq] at h
        omega
    · split at h
      · exact absurd h (by simp)
      · split at h
        · exact absurd h (by simp)
        · split at h
          · exact absurd h (by simp)
          · split at h
            · exact absurd h (by simp)
            · simp only [Except.ok.injEq, Prod.mk.injEq] at h
              omega

/-- A read table description lies in its window (R330). -/
theorem readHuf_used_le {bs : List Byte} {d : HufDescription} (h : readHuf bs = .ok d) : d.used ≤ bs.length := by
  unfold readHuf at h
  split at h
  · cases h
  · next w used hw =>
    split at h
    · cases h
    · cases h
      exact readWeights_used_le hw

/-! ### Literals sections (R370 to R380) -/

theorem plainHeader_length_le (t n : Nat) : (plainHeader t n).length ≤ 3 := by
  unfold plainHeader
  split
  · simp
  · split <;> simp

theorem codedHeader_length (t n total : Nat) : (codedHeader t n total).length = codedHeaderSize n := by
  unfold codedHeader codedHeaderSize
  split
  · simp
  · split <;> simp

theorem plainSection_fits {kind : Nat} {out : List Byte} {cap : Nat} {ht1 : Option HufTable} {l : List Byte}
    (h : (plainSection kind out cap ht1).out = .ok l) : l.length ≤ cap := by
  simp only [plainSection] at h
  split at h
  · cases h
  · cases h
    omega

theorem plainSection_error {kind : Nat} {out : List Byte} {cap : Nat} {ht1 : Option HufTable} {e : Err}
    (h : (plainSection kind out cap ht1).out = .error e) : e = { code := .dstTooSmall, off := 0 } := by
  simp only [plainSection] at h
  split at h
  · cases h
    rfl
  · cases h

/-- What every section is: one that fits, or DST_TOO_SMALL; and its type is one of four. -/
def LitEncoded.Fits (r : LitEncoded) (cap : Nat) : Prop :=
  (∀ l, r.out = .ok l → l.length ≤ cap) ∧ (∀ e, r.out = .error e → e = { code := .dstTooSmall, off := 0 }) ∧ r.kind < 4

theorem plainSection_ok {kind : Nat} (hk : kind < 4) (out : List Byte) (cap : Nat) (ht1 : Option HufTable) :
    (plainSection kind out cap ht1).Fits cap :=
  ⟨fun _ => plainSection_fits, fun _ => plainSection_error, hk⟩

theorem codedSection_ok {kind : Nat} (hk : kind < 4) (lits : List Byte) {cap : Nat} (t : HufTable) (desc : List Byte)
    (ht1 : Option HufTable) (pending : Bool) : (codedSection lits cap kind t desc ht1 pending).Fits cap := by
  simp only [codedSection]
  generalize hb : (if lits.length < 256 then enc1 t lits (cap - codedHeaderSize lits.length - desc.length)
    else enc4 t lits (cap - codedHeaderSize lits.length - desc.length)) = body
  have hl : body.length ≤ cap - codedHeaderSize lits.length - desc.length := by
    subst hb
    split
    · exact enc1_length_le _ _ _
    · exact enc4_length_le _ _ _
  split
  · exact plainSection_ok (by omega) _ _ _
  · next hc =>
    refine ⟨fun l h => ?_, fun e h => absurd h (by simp), hk⟩
    cases h
    simp only [List.length_append, codedHeader_length]
    omega

theorem newTableSection_ok (tie : Config.HufTie) (ht0 : Option HufTable) (lits : List Byte) (counts : List Nat)
    (reuse : Bool) (cap : Nat) : (newTableSection tie ht0 lits counts reuse cap).Fits cap := by
  simp only [newTableSection]
  split
  · exact plainSection_ok (by omega) _ _ _
  · split
    · split <;> exact codedSection_ok (by omega) _ _ _ _ _
    · exact codedSection_ok (by omega) _ _ _ _ _

/-- A literals section fits its window, or LIT_ENCODE fails with DST_TOO_SMALL (R375). -/
theorem encodeLiterals_fits (tie : Config.HufTie) (ht0 ht1 : Option HufTable) (lits : List Byte) (cap : Nat) :
    (encodeLiterals tie ht0 ht1 lits cap).Fits cap := by
  simp only [encodeLiterals]
  split
  · exact plainSection_ok (by omega) _ _ _
  · split
    · unfold LitEncoded.Fits
      exact ⟨fun l h => by simp at h, fun e h => by simpa using h.symm, by simp⟩
    · split
      · exact plainSection_ok (by omega) _ _ _
      · split
        · exact plainSection_ok (by omega) _ _ _
        · split
          · split
            · exact codedSection_ok (by omega) _ _ _ _ _
            · exact newTableSection_ok _ _ _ _ _ _
          · exact newTableSection_ok _ _ _ _ _ _

/-- A decoded literals section lies in its window and holds at most `BLOCK_MAX` literals (R380). -/
theorem decodeLiterals_bounds {hd : Option HufDec} {bs : List Byte} {x : LitDecoded}
    (h : (decodeLiterals hd bs).2 = .ok x) : x.used ≤ bs.length ∧ x.lits.length ≤ Config.blockMax := by
  have plain : ∀ {bs : List Byte} {kind sf : Nat} {x : LitDecoded}, decodePlain bs kind sf = .ok x →
      x.used ≤ bs.length ∧ x.lits.length ≤ Config.blockMax := by
    intro bs kind sf x h
    simp only [decodePlain] at h
    generalize (if sf = 1 then 2 else if sf = 3 then 3 else 1) = hs at h
    generalize (if hs = 1 then leValue (bs.take hs) >>> 3 else leValue (bs.take hs) >>> 4) = size at h
    split at h
    · cases h
    · split at h
      · cases h
      · split at h
        · split at h
          · cases h
          · cases h
            simp only [List.length_take, List.length_drop]
            omega
        · split at h
          · cases h
          · cases h
            simp only [List.length_replicate]
            omega
  have sizes : ∀ {bs : List Byte} {sf hs size comp : Nat}, codedSizes bs sf = .ok (hs, size, comp) →
      hs + comp ≤ bs.length ∧ size ≤ Config.blockMax := by
    intro bs sf hs size comp h
    simp only [codedSizes] at h
    generalize (if sf = 2 then 4 else if sf = 3 then 5 else 3) = hs' at h
    generalize (if sf = 2 then 14 else if sf = 3 then 18 else 10) = k at h
    split at h
    · cases h
    · split at h
      · cases h
      · split at h
        · cases h
        · cases h
          omega
  have streams : ∀ {t : HufDec} {bs : List Byte} {kind sf hs size comp d : Nat} {x : LitDecoded},
      decodeCodedStreams t bs kind sf hs size comp d = .ok x → x.used = hs + comp ∧ x.lits.length = size := by
    intro t bs kind sf hs size comp d x h
    simp only [decodeCodedStreams] at h
    split at h
    · cases h
    · next l hl =>
      cases h
      refine ⟨rfl, ?_⟩
      have hl := shiftErr_eq_ok.1 hl
      split at hl
      · exact dec1_length hl
      · exact dec4_length hl
  match bs with
  | [] => cases h
  | b :: rest =>
    simp only [decodeLiterals] at h
    split at h
    · exact plain h
    · split at h
      · cases h
      · next hs size comp hsz =>
        have hz := sizes hsz
        split at h
        · split at h
          · cases h
          · split at h
            · cases h
            · next r hr =>
              cases h
              have := streams hr
              omega
        · split at h
          · cases h
          · have := streams h
            omega

/-! ### Sequences sections (R465, R475) -/

/-- An encoded sequences section fits its window (R465). -/
theorem encodeSequences_length_le {factor : Nat} {qs : List TrueSeq} {cap : Nat} {out : List Byte}
    (h : encodeSequences factor qs cap = .ok out) : out.length ≤ cap := by
  have stream : ∀ {fields : List BitField} {hdr out : List Byte}, putStream fields hdr cap = .ok out →
      out.length ≤ cap := by
    intro fields hdr out h
    simp only [putStream] at h
    split at h
    · cases h
    · cases h
      have := closedStream_length_le fields (cap - hdr.length)
      simp only [List.length_append]
      omega
  unfold encodeSequences at h
  split at h
  · split at h
    · cases h
    · cases h
      omega
  · simp only [encodeSome] at h
    split at h
    · cases h
    · split at h
      · cases h
      · split at h
        · cases h
        · split at h
          · cases h
          · exact stream h

theorem decodeSeqLoop_length (tLL tOF tML : FseDT) (tag n i : Nat) (c : SeqCursor) :
    (decodeSeqLoop tLL tOF tML tag n i c).1.length = n := by
  induction n generalizing i c with
  | zero => rfl
  | succ n ih => simp [decodeSeqLoop, ih]

/-- A decoded sequences section holds at most `SEQ_MAX` sequences (R475). -/
theorem decodeSequences_length {dt : Vector (Option FseDT) 4} {rep : DecRep} {tag : Nat} {bs : List Byte}
    {d : SeqDecoded} (h : decodeSequences dt rep tag bs = .ok (some d)) : d.seqs.length ≤ Config.seqMax := by
  match bs with
  | [] => cases h
  | b0 :: rest =>
    simp only [decodeSequences] at h
    split at h
    · split at h
      · cases h
      · cases h
    · split at h
      · cases h
      · next n p hn =>
        split at h
        · cases h
        split at h
        · cases h
        · split at h
          · cases h
          · split at h
            · cases h
            · split at h
              · cases h
              · next d' hd =>
                cases h
                simp only [decodeSeqTables] at hd
                split at hd
                · cases hd
                · split at hd
                  · cases hd
                  · split at hd
                    · cases hd
                    · simp only [decodeSeqStream] at hd
                      split at hd
                      · cases hd
                      · split at hd
                        · cases hd
                        · split at hd
                          · cases hd
                            simp only [decodeSeqLoop_length]
                            omega
                          · cases hd

/-! ### Replay (R521) -/

theorem copyMatch_length (m : Memory) (top off ml : Nat) (rev : List Byte) :
    (copyMatch m top off ml rev).length = rev.length + ml := by
  induction ml generalizing rev with
  | zero => rfl
  | succ ml ih =>
    simp only [copyMatch, ih, List.length_cons]
    omega

/-- The bytes a replay produces are the literals and the match lengths, and fit the capacity (R521). -/
theorem replayLoop_length {m : Memory} {base hist cap window i : Nat} {qs : List DecodedSeq} {lits rev out : List Byte}
    (h : replayLoop m base hist cap window i qs lits rev = .ok out) :
    out.length = rev.length + lits.length + (qs.map fun q => q.ml.toNat).sum ∧ out.length ≤ cap := by
  induction qs generalizing i lits rev with
  | nil =>
    simp only [replayLoop] at h
    split at h
    · cases h
    · cases h
      simp
      omega
  | cons q qs ih =>
    simp only [replayLoop] at h
    split at h
    · cases h
    · split at h
      · cases h
      · split at h
        · cases h
        · have := ih h
          simp only [copyMatch_length, List.length_append, List.length_reverse, List.length_take, List.length_drop,
            List.map_cons, List.sum_cons] at this ⊢
          omega

end Sys2Proof.Machine
end

