-- ==== Sys2Proof/Laws/Errors.lean ====
section
/-! SUPPORT. What raising an error and delivering an output do, in the terms of Safety.lean: one lemma for each shared
operation, which every command's proof cites. -/

namespace Sys2Proof.Machine

/-- Taking an error leaves the state it was taken in, but for the error and result registers. -/
theorem State.fail_erred (s : State) (e : Err) : s.Erred e.code e.off (s.fail e) := ⟨_, _, rfl⟩

theorem raises_of_raise {i : Instr} {s : State} {c : ErrCode} (h : exec i s = raise c s) : Raises i s c 0 :=
  ⟨_, h, s.fail_erred _⟩

theorem raisesFrom_of_raise {i : Instr} {s u : State} {c : ErrCode} (h : exec i s = raise c u) :
    RaisesFrom i s u c 0 := ⟨_, h, u.fail_erred _⟩

theorem raisesFrom_of_raiseErr {i : Instr} {s u : State} {e : Err} (h : exec i s = raiseErr e u) :
    RaisesFrom i s u e.code e.off := ⟨_, h, u.fail_erred e⟩

theorem raisesDst_of_raiseDst {i : Instr} {s u : State} {e : Err} {addr len : Nat}
    (h : exec i s = raiseDst e addr len u) : RaisesDst i s u e.code e.off addr len :=
  ⟨_, State.clobber_sameOutside u addr len, _, h, ⟨_, _, rfl⟩⟩

/-- A command that writes an output into its window delivers it. -/
theorem delivers_of_writeOut {i : Instr} {s u : State} {addr cap : Nat} {out : List Byte}
    (h : exec i s = .next (u.writeOut addr cap out)) (hl : out.length ≤ cap) : Delivers i s u addr cap out :=
  ⟨_, _, h, State.writeOut_sameOutside u addr cap out hl, State.writeOut_holds u addr cap out⟩

/-- A result register is written beside an output. -/
theorem State.setRes0_writeOut (u : State) (addr cap : Nat) (out : List Byte) (v : DWord) :
    (u.writeOut addr cap out).setRes0 v = (u.setRes0 v).writeOut addr cap out := rfl

theorem State.setRes1_writeOut (u : State) (addr cap : Nat) (out : List Byte) (v : DWord) :
    (u.writeOut addr cap out).setRes1 v = (u.setRes1 v).writeOut addr cap out := rfl

/-- A select in range is the command on that table or register. -/
@[simp] theorem withFour_nib (k : Fin 4) (s : State) (f : Fin 4 → Out) : withFour (nib k) s f = f k := by
  have hk : (nib k).toNat = k.val := by simp [nib]; omega
  unfold withFour
  rw [dif_pos (by omega)]
  congr 1
  exact Fin.ext hk

@[simp] theorem withTwo_nib (e : Fin 2) (s : State) (f : Fin 2 → Out) : withTwo (nib e) s f = f e := by
  have he : (nib e).toNat = e.val := by simp [nib]; omega
  unfold withTwo
  rw [dif_pos (by omega)]
  congr 1
  exact Fin.ext he

/-- A select out of range raises ARG_RANGE (R115). -/
theorem withFour_out {k : BitVec 4} (h : ¬ k.toNat < 4) (s : State) (f : Fin 4 → Out) :
    withFour k s f = raise .argRange s := by
  unfold withFour
  rw [dif_neg h]

theorem withTwo_out {e : BitVec 4} (h : ¬ e.toNat < 2) (s : State) (f : Fin 2 → Out) :
    withTwo e s f = raise .argRange s := by
  unfold withTwo
  rw [dif_neg h]

/-- What a command on a slot answers: the slot's answer, or ARG_RANGE. -/
theorem withFour_cases {k : BitVec 4} {s : State} {f : Fin 4 → Out} {o : Out} (h : withFour k s f = o) :
    (∃ j, o = f j) ∨ o = raise .argRange s := by
  unfold withFour at h
  split at h
  · exact .inl ⟨_, h.symm⟩
  · exact .inr h.symm

theorem withTwo_cases {e : BitVec 4} {s : State} {f : Fin 2 → Out} {o : Out} (h : withTwo e s f = o) :
    (∃ j, o = f j) ∨ o = raise .argRange s := by
  unfold withTwo at h
  split at h
  · exact .inl ⟨_, h.symm⟩
  · exact .inr h.symm

/-- The window check fails exactly in the cases R82 names. -/
theorem windowOk_eq_false (a n : Nat) : windowOk a n = false ↔ Config.lenLimit ≤ n ∨ Config.addrLimit < a + n := by
  rw [← Bool.not_eq_true, windowOk_iff]
  omega

/-- The window check passes in all others. -/
theorem windowOk_of_not {a n : Nat} (h : ¬ (2 ^ 31 ≤ n ∨ 2 ^ 64 < a + n)) : windowOk a n = true := by
  rw [windowOk_iff, Config.lenLimit, Config.addrLimit]
  omega

theorem windowOk_false_of {a n : Nat} (h : 2 ^ 31 ≤ n ∨ 2 ^ 64 < a + n) : windowOk a n = false :=
  (windowOk_eq_false a n).2 h

/-- Both windows of a pair are windows (R85). -/
theorem windowPairOk_iff (a la b lb : Nat) : windowPairOk a la b lb = true ↔
    windowOk a la = true ∧ windowOk b lb = true ∧ windowsDisjoint a la b lb = true := by
  simp [windowPairOk, and_assoc]

/-- The pair check fails exactly where a window is too long or leaves the address space (R82), or both hold one byte
(R85). -/
theorem windowPairOk_eq_false (a la b lb : Nat) : windowPairOk a la b lb = false ↔
    2 ^ 31 ≤ la ∨ 2 ^ 64 < a + la ∨ 2 ^ 31 ≤ lb ∨ 2 ^ 64 < b + lb
      ∨ ∃ x, a ≤ x ∧ x < a + la ∧ b ≤ x ∧ x < b + lb := by
  have share : windowsDisjoint a la b lb = false ↔ ∃ x, a ≤ x ∧ x < a + la ∧ b ≤ x ∧ x < b + lb := by
    simp only [windowsDisjoint, Bool.or_eq_false_iff, decide_eq_false_iff_not, beq_eq_false_iff_ne]
    exact ⟨fun h => ⟨max a b, by omega⟩, fun ⟨x, h⟩ => by omega⟩
  simp only [windowPairOk, Bool.and_eq_false_iff, windowOk_eq_false, share, or_assoc]

end Sys2Proof.Machine
end

