-- ==== Sys2Proof/Laws/Operands.lean ====
section
/-! SUPPORT. Operand ranges as propositions, and the 256-entry register arrays: what an entry is after a build or a
write. -/

namespace Sys2Proof.Machine

/-! ### Operands (R113, R114) -/

theorem State.a0_lt (s : State) : s.a0 < 2 ^ 64 := (s.args[0]).isLt

theorem State.a1_lt (s : State) : s.a1 < 2 ^ 64 := (s.args[1]).isLt

theorem State.a2_lt (s : State) : s.a2 < 2 ^ 64 := (s.args[2]).isLt

theorem State.a3_lt (s : State) : s.a3 < 2 ^ 64 := (s.args[3]).isLt

theorem symbolOk_iff (n : Nat) : symbolOk n = true ↔ n ≤ 255 := by simp [symbolOk]

theorem symbolOk_eq_false (n : Nat) : symbolOk n = false ↔ 255 < n := by simp [symbolOk]

@[simp] theorem symbolOk_fin (x : Fin 256) : symbolOk x.val = true := by
  have := x.isLt
  rw [symbolOk_iff]
  omega

theorem countOk_iff (n : Nat) : countOk n = true ↔ n < 2 ^ 31 := by simp [countOk, Config.lenLimit]

theorem countOk_eq_false (n : Nat) : countOk n = false ↔ 2 ^ 31 ≤ n := by simp [countOk, Config.lenLimit]

theorem signedOk_iff (n : Nat) : signedOk n = true ↔ n < 2 ^ 16 := by simp [signedOk]

theorem signedOk_eq_false (n : Nat) : signedOk n = false ↔ 2 ^ 16 ≤ n := by simp [signedOk]

/-- A value that fits a result register is read back. -/
theorem res64_toNat {n : Nat} (h : n < 2 ^ 64) : (res64 n).toNat = n := by
  rw [res64, BitVec.toNat_ofNat, Nat.mod_eq_of_lt h]

/-- A narrower register in a result register. -/
theorem res64_toNat_zeroExtend {w : Nat} (h : w ≤ 64) (v : BitVec w) : res64 v.toNat = v.zeroExtend 64 := by
  apply BitVec.eq_of_toNat_eq
  have h1 := v.isLt
  have h2 : 2 ^ w ≤ 2 ^ 64 := Nat.pow_le_pow_right (by omega) h
  simp [res64]

/-! ### Register arrays -/

@[simp] theorem tab256_getElem {α : Type} (f : Nat → α) (i : Nat) (h : i < 256) : (tab256 f)[i] = f i := by
  simp [tab256]

theorem tab256_get {α : Type} (f : Nat → α) (x : Fin 256) : (tab256 f)[x] = f x.val := tab256_getElem f x.val x.isLt

theorem at256_fin {α : Type} (t : Vector α 256) (x : Fin 256) (d : α) : at256 t x.val d = t[x] := by
  simp [at256]

theorem at256_of_lt {α : Type} (t : Vector α 256) {i : Nat} (h : i < 256) (d : α) : at256 t i d = t[i] := by
  simp [at256, h]

theorem at256_tab256 {α : Type} (f : Nat → α) {i : Nat} (h : i < 256) (d : α) : at256 (tab256 f) i d = f i := by
  rw [at256_of_lt _ h]
  exact tab256_get f ⟨i, h⟩

theorem set256_fin {α : Type} (t : Vector α 256) (x : Fin 256) (v : α) : set256 t x.val v = t.set x v := by
  simp [set256]

/-! ### Result registers (R34) -/

/-- The result registers after a command has written the first two, three or all of them. -/
theorem res_set2 (v : Vector DWord 4) (a b : DWord) : (v.set 0 a).set 1 b = #v[a, b, v[2], v[3]] := by
  rcases v with ⟨⟨l⟩, h⟩
  match l, h with
  | [_, _, _, _], _ => rfl

theorem res_set3 (v : Vector DWord 4) (a b c : DWord) : ((v.set 0 a).set 1 b).set 2 c = #v[a, b, c, v[3]] := by
  rcases v with ⟨⟨l⟩, h⟩
  match l, h with
  | [_, _, _, _], _ => rfl

theorem res_set4 (v : Vector DWord 4) (a b c d : DWord) :
    (((v.set 0 a).set 1 b).set 2 c).set 3 d = #v[a, b, c, d] := by
  rcases v with ⟨⟨l⟩, h⟩
  match l, h with
  | [_, _, _, _], _ => rfl

/-! ### Windows -/

/-- A byte of a window. -/
theorem State.window_getElem (s : State) (a n j : Nat) (h : j < (s.window a n).length) :
    (s.window a n)[j] = s.mem.read (a + j) := Memory.readBytes_getElem s.mem a n j h

end Sys2Proof.Machine
end

