-- ==== Sys2Proof/Laws/PerInstr.lean ====
section
/-! SUPPORT. Per instruction: what its command word decodes to, well-formed or not (`30_encoding.md` R110, R115 to
R117). -/

namespace Sys2Proof.Laws.EncodingRow

set_option Elab.async false

/-- The word of the instruction has a zero reserved byte; it decodes to the instruction where every field is in its
range (R115), and is rejected with ARG_RANGE where one is not (R110 step 6); the host's table reader agrees. -/
abbrev Statement (i : Instr) : Prop :=
  fieldReserved (encode i) = 0
    ∧ decode (encode i) = (if i.wf then .ok i else .error .argRange)
    ∧ decodeTableWord 32 (encode i).toNat = (if i.wf then some i else none)

theorem nop : Statement .nop := by decide +kernel
theorem reset : Statement .reset := by decide +kernel
theorem clrerr : Statement .clrerr := by decide +kernel
theorem bwInit : Statement .bwInit := by decide +kernel
theorem bwAdd : Statement .bwAdd := by decide +kernel
theorem bwFlush : Statement .bwFlush := by decide +kernel
theorem bwClose : Statement .bwClose := by decide +kernel
theorem brInit : Statement .brInit := by decide +kernel
theorem brPeek : Statement .brPeek := by decide +kernel
theorem brRead : Statement .brRead := by decide +kernel
theorem brLoad : Statement .brLoad := by decide +kernel
theorem hist : Statement .hist := by decide +kernel
theorem fseOptlog : Statement .fseOptlog := by decide +kernel
theorem fseNorm : Statement .fseNorm := by decide +kernel
theorem fseWrnc : Statement .fseWrnc := by decide +kernel
theorem fseRdnc : Statement .fseRdnc := by decide +kernel
theorem fseLddef (sel : BitVec 4) : Statement (.fseLddef sel) := by
  revert sel
  decide +kernel
theorem fseBuildCt (slot : BitVec 4) : Statement (.fseBuildCt slot) := by
  revert slot
  decide +kernel
theorem fseRleCt (slot : BitVec 4) : Statement (.fseRleCt slot) := by
  revert slot
  decide +kernel
theorem fseBuildDt (slot : BitVec 4) : Statement (.fseBuildDt slot) := by
  revert slot
  decide +kernel
theorem fseRleDt (slot : BitVec 4) : Statement (.fseRleDt slot) := by
  revert slot
  decide +kernel
theorem fseSetcount : Statement .fseSetcount := by decide +kernel
theorem fseSetnorm : Statement .fseSetnorm := by decide +kernel
theorem fseGetnorm : Statement .fseGetnorm := by decide +kernel
theorem fseGetcount : Statement .fseGetcount := by decide +kernel
theorem fseGetdt (slot : BitVec 4) : Statement (.fseGetdt slot) := by
  revert slot
  decide +kernel
theorem fseGetct (slot : BitVec 4) : Statement (.fseGetct slot) := by
  revert slot
  decide +kernel
theorem fseEncBegin (slot : BitVec 4) (sel : BitVec 4) : Statement (.fseEncBegin slot sel) := by
  revert slot sel
  decide +kernel
theorem fseEnc (slot : BitVec 4) (sel : BitVec 4) : Statement (.fseEnc slot sel) := by
  revert slot sel
  decide +kernel
theorem fseEncFinish (slot : BitVec 4) (sel : BitVec 4) : Statement (.fseEncFinish slot sel) := by
  revert slot sel
  decide +kernel
theorem fseDecInit (slot : BitVec 4) (sel : BitVec 4) : Statement (.fseDecInit slot sel) := by
  revert slot sel
  decide +kernel
theorem fseDec (slot : BitVec 4) (sel : BitVec 4) (u : Bool) : Statement (.fseDec slot sel u) := by
  revert slot sel u
  decide +kernel
theorem fseCompress2 (slot : BitVec 4) : Statement (.fseCompress2 slot) := by
  revert slot
  decide +kernel
theorem fseDecompress2 (slot : BitVec 4) : Statement (.fseDecompress2 slot) := by
  revert slot
  decide +kernel
theorem fseGetstate (sel : BitVec 4) : Statement (.fseGetstate sel) := by
  revert sel
  decide +kernel
theorem hufOptlog : Statement .hufOptlog := by decide +kernel
theorem hufBuild : Statement .hufBuild := by decide +kernel
theorem hufWrite (sel : BitVec 4) : Statement (.hufWrite sel) := by
  revert sel
  decide +kernel
theorem hufRead : Statement .hufRead := by decide +kernel
theorem hufEnc1 (sel : BitVec 4) : Statement (.hufEnc1 sel) := by
  revert sel
  decide +kernel
theorem hufEnc4 (sel : BitVec 4) : Statement (.hufEnc4 sel) := by
  revert sel
  decide +kernel
theorem hufDec1 : Statement .hufDec1 := by decide +kernel
theorem hufDec4 : Statement .hufDec4 := by decide +kernel
theorem hufEst (sel : BitVec 4) : Statement (.hufEst sel) := by
  revert sel
  decide +kernel
theorem hufCommit : Statement .hufCommit := by decide +kernel
theorem hufDiscard : Statement .hufDiscard := by decide +kernel
theorem hufGetcode (sel : BitVec 4) : Statement (.hufGetcode sel) := by
  revert sel
  decide +kernel
theorem hufGetdt : Statement .hufGetdt := by decide +kernel
theorem litEncode : Statement .litEncode := by decide +kernel
theorem litDecode : Statement .litDecode := by decide +kernel
theorem litGet : Statement .litGet := by decide +kernel
theorem mfReset : Statement .mfReset := by decide +kernel
theorem mfWindow : Statement .mfWindow := by decide +kernel
theorem mfBlock : Statement .mfBlock := by decide +kernel
theorem ssReset : Statement .ssReset := by decide +kernel
theorem ssStore : Statement .ssStore := by decide +kernel
theorem ssAppend : Statement .ssAppend := by decide +kernel
theorem ssCodes : Statement .ssCodes := by decide +kernel
theorem repInit : Statement .repInit := by decide +kernel
theorem repCommit : Statement .repCommit := by decide +kernel
theorem ssGet : Statement .ssGet := by decide +kernel
theorem repGet : Statement .repGet := by decide +kernel
theorem ssInfo : Statement .ssInfo := by decide +kernel
theorem mfGet (sel : BitVec 4) : Statement (.mfGet sel) := by
  revert sel
  decide +kernel
theorem ssGetlit : Statement .ssGetlit := by decide +kernel
theorem seqEncode : Statement .seqEncode := by decide +kernel
theorem seqDecode : Statement .seqDecode := by decide +kernel
theorem drepInit : Statement .drepInit := by decide +kernel
theorem sqGet : Statement .sqGet := by decide +kernel
theorem drepGet : Statement .drepGet := by decide +kernel
theorem replay : Statement .replay := by decide +kernel

end Sys2Proof.Laws.EncodingRow
end

