-- ==== Sys2Proof/Tests/Slice0.lean ====
section
/-! SUPPORT. The model's tests. Every expected result is taken from `95_test_vectors.md` (section numbers in the
comments) or worked out by hand from the rule named; the witnesses show, for each statement with hypotheses, states
that meet them. -/

open Sys2Proof Sys2Proof.Machine

namespace Sys2Proof.Tests

set_option Elab.async false

/-! ### Helpers -/

/-- A byte string. -/
def bytes (l : List Nat) : List Byte := l.map (BitVec.ofNat 8)

/-- Operands in `A0`-`A3`. -/
def withArgs (s : State) (l : List Nat) : State :=
  { s with args := #v[BitVec.ofNat 64 (l.getD 0 0), BitVec.ofNat 64 (l.getD 1 0), BitVec.ofNat 64 (l.getD 2 0),
      BitVec.ofNat 64 (l.getD 3 0), 0, 0, 0, 0] }

/-- Bytes placed in memory. -/
def put (s : State) (a : Nat) (l : List Nat) : State := { s with mem := s.mem.writeBytes a (bytes l) }

/-- The state a command leaves. -/
def after (o : Out) (s : State) : State :=
  match o with
  | .next t => t
  | .fault f => nomatch f
  | .refused _ => s

/-- One command with its operands. -/
def run (i : Instr) (l : List Nat) (s : State) : State := after (exec i (withArgs s l)) s

/-- Power-on reset. -/
abbrev fresh : State := State.reset

/-- `STATUS` and `ERROFF`. -/
def err (s : State) : Nat × Nat := (s.status.toNat, s.errOff.toNat)

/-- The result registers. -/
def results (s : State) : List Nat := s.res.toList.map BitVec.toNat

/-- `n` bytes of memory. -/
def at_ (s : State) (a n : Nat) : List Nat := (s.window a n).map BitVec.toNat

/-- A command answers next with a state that has a property. -/
def nextAnd (o : Out) (p : State → Bool) : Bool :=
  match o with
  | .next t => p t
  | .fault _ => false
  | .refused _ => false

theorem exists_next {o : Out} {p : State → Bool} (h : nextAnd o p = true) : ∃ t, o = .next t ∧ p t = true := by
  cases o with
  | next t => exact ⟨t, rfl, h⟩
  | fault f => cases f
  | refused r => cases h

/-- A computation succeeds with a value that has a property. -/
def okAnd {ε α : Type} (x : Except ε α) (p : α → Bool) : Bool :=
  match x with
  | .ok a => p a
  | .error _ => false

theorem exists_ok {ε α : Type} {x : Except ε α} {p : α → Bool} (h : okAnd x p = true) :
    ∃ a, x = .ok a ∧ p a = true := by
  cases x with
  | ok a => exact ⟨a, rfl, h⟩
  | error e => cases h

/-- A computation fails. -/
def errAnd {ε α : Type} (x : Except ε α) (p : ε → Bool) : Bool :=
  match x with
  | .ok _ => false
  | .error e => p e

theorem exists_error {ε α : Type} {x : Except ε α} {p : ε → Bool} (h : errAnd x p = true) :
    ∃ e, x = .error e ∧ p e = true := by
  cases x with
  | ok a => cases h
  | error e => exact ⟨e, rfl, h⟩

/-- `NORM = [20, 10, -1, -1]` with log 5, and its tables in `CT[3]` and `DT[3]` (§2.2). -/
@[irreducible] def small : State :=
  run (.fseBuildDt 3) [] (run (.fseBuildCt 3) [] (run .fseSetnorm [3, 0xFFFF, 3, 5] (run .fseSetnorm [2, 0xFFFF, 3, 5]
    (run .fseSetnorm [1, 10, 3, 5] (run .fseSetnorm [0, 20, 3, 5] fresh)))))

/-- `COUNTS` of the 11 bytes of §5.1 and the table of lengths `[1, 3, 3, 3, 3]` in `HT[1]`. -/
@[irreducible] def huff : State := run .hufBuild [5, 4] (run .hist [0x100, 11] (put fresh 0x100 [0, 0, 0, 0, 0, 1, 1, 2, 2, 3, 4]))

/-- The same with `HD` read from `83 31 11` (§4.2). -/
@[irreducible] def huffDec : State := run .hufRead [0x200, 3] (put huff 0x200 [0x83, 0x31, 0x11])

/-- `abcdefgh` four times and `xyz`, at 0x4000 (§6.1). -/
def block : List Nat :=
  let a := [97, 98, 99, 100, 101, 102, 103, 104]
  a ++ a ++ a ++ a ++ [120, 121, 122]

/-- The match finder after that block (§6.1). -/
@[irreducible] def found : State :=
  run .mfBlock [0, 35] (run .mfWindow [35] (run .mfReset [0x4000, 0x000C554A] (run .repInit [] (put fresh 0x4000 block))))

/-- The block's whole store: its sequence and the trailing literals. -/
@[irreducible] def stored : State := run .ssAppend [0x4020, 3] found

/-! ### Well-formedness (R115) -/

theorem test_slot_refused : (Instr.fseBuildCt 4).wf = false := by decide

theorem test_state_select_refused : (Instr.fseEnc 3 4).wf = false := by decide

theorem test_field_select_refused : (Instr.fseLddef 3).wf = false := by decide

theorem test_table_select_refused : (Instr.hufEnc1 2).wf = false ∧ (Instr.mfGet 2).wf = false := by decide

/-- The decoder refuses the same, by name; and unused fields, reserved bits and free opcodes (§10, R561). -/
theorem test_rejected_words :
    decode 0x00000426 = .error .argRange ∧ decode 0x00004025 = .error .argRange
    ∧ decode 0x00010000 = .error .reservedBits ∧ decode 0x00040034 = .error .reservedBits
    ∧ decode 0x00000003 = .error .illegalOpcode ∧ decode 0x01000001 = .error .reservedBits := by
  decide +kernel

/-! ### Decoding (R110, R116): the word of every command, written out as FLAGS, SEL, SLOT, OPC -/

theorem test_decode_system :
    decode 0x00000000 = .ok .nop
    ∧ decode 0x00000001 = .ok .reset
    ∧ decode 0x00000002 = .ok .clrerr := by
  decide +kernel

theorem test_decode_bit_cursors :
    decode 0x00000010 = .ok .bwInit
    ∧ decode 0x00000011 = .ok .bwAdd
    ∧ decode 0x00000012 = .ok .bwFlush
    ∧ decode 0x00000013 = .ok .bwClose
    ∧ decode 0x00000018 = .ok .brInit
    ∧ decode 0x00000019 = .ok .brPeek
    ∧ decode 0x0000001A = .ok .brRead
    ∧ decode 0x0000001B = .ok .brLoad := by
  decide +kernel

theorem test_decode_fse_tables :
    decode 0x00000020 = .ok .hist
    ∧ decode 0x00000021 = .ok .fseOptlog
    ∧ decode 0x00000022 = .ok .fseNorm
    ∧ decode 0x00000023 = .ok .fseWrnc
    ∧ decode 0x00000024 = .ok .fseRdnc
    ∧ decode 0x00002025 = .ok (.fseLddef 2)
    ∧ decode 0x00000326 = .ok (.fseBuildCt 3)
    ∧ decode 0x00000227 = .ok (.fseRleCt 2)
    ∧ decode 0x00000328 = .ok (.fseBuildDt 3)
    ∧ decode 0x00000229 = .ok (.fseRleDt 2) := by
  decide +kernel

theorem test_decode_fse_inspection :
    decode 0x0000002A = .ok .fseSetcount
    ∧ decode 0x0000002B = .ok .fseSetnorm
    ∧ decode 0x0000002C = .ok .fseGetnorm
    ∧ decode 0x0000002D = .ok .fseGetcount
    ∧ decode 0x0000032E = .ok (.fseGetdt 3)
    ∧ decode 0x0000022F = .ok (.fseGetct 2) := by
  decide +kernel

theorem test_decode_fse_codec :
    decode 0x00001330 = .ok (.fseEncBegin 3 1)
    ∧ decode 0x00003231 = .ok (.fseEnc 2 3)
    ∧ decode 0x00001332 = .ok (.fseEncFinish 3 1)
    ∧ decode 0x00003233 = .ok (.fseDecInit 2 3)
    ∧ decode 0x00011334 = .ok (.fseDec 3 1 true)
    ∧ decode 0x00000235 = .ok (.fseCompress2 2)
    ∧ decode 0x00000336 = .ok (.fseDecompress2 3)
    ∧ decode 0x00003037 = .ok (.fseGetstate 3) := by
  decide +kernel

theorem test_decode_huffman_tables :
    decode 0x00000040 = .ok .hufOptlog
    ∧ decode 0x00000041 = .ok .hufBuild
    ∧ decode 0x00001042 = .ok (.hufWrite 1) := by
  decide +kernel

theorem test_decode_huffman_codec :
    decode 0x00000043 = .ok .hufRead
    ∧ decode 0x00001044 = .ok (.hufEnc1 1)
    ∧ decode 0x00001045 = .ok (.hufEnc4 1)
    ∧ decode 0x00000046 = .ok .hufDec1
    ∧ decode 0x00000047 = .ok .hufDec4
    ∧ decode 0x00001048 = .ok (.hufEst 1)
    ∧ decode 0x00000049 = .ok .hufCommit
    ∧ decode 0x0000004A = .ok .hufDiscard
    ∧ decode 0x0000104B = .ok (.hufGetcode 1)
    ∧ decode 0x0000004C = .ok .hufGetdt := by
  decide +kernel

theorem test_decode_literals :
    decode 0x00000050 = .ok .litEncode
    ∧ decode 0x00000051 = .ok .litDecode
    ∧ decode 0x00000052 = .ok .litGet := by
  decide +kernel

theorem test_decode_match_finder :
    decode 0x00000060 = .ok .mfReset
    ∧ decode 0x00000061 = .ok .mfWindow
    ∧ decode 0x00000062 = .ok .mfBlock
    ∧ decode 0x00000063 = .ok .ssReset
    ∧ decode 0x00000064 = .ok .ssStore
    ∧ decode 0x00000065 = .ok .ssAppend
    ∧ decode 0x00000066 = .ok .ssCodes
    ∧ decode 0x00000067 = .ok .repInit := by
  decide +kernel

theorem test_decode_store :
    decode 0x00000068 = .ok .repCommit
    ∧ decode 0x00000069 = .ok .ssGet
    ∧ decode 0x0000006A = .ok .repGet
    ∧ decode 0x0000006B = .ok .ssInfo
    ∧ decode 0x0000106C = .ok (.mfGet 1)
    ∧ decode 0x0000006D = .ok .ssGetlit := by
  decide +kernel

theorem test_decode_sequences :
    decode 0x00000070 = .ok .seqEncode
    ∧ decode 0x00000071 = .ok .seqDecode
    ∧ decode 0x00000072 = .ok .drepInit
    ∧ decode 0x00000073 = .ok .sqGet
    ∧ decode 0x00000074 = .ok .drepGet
    ∧ decode 0x00000078 = .ok .replay := by
  decide +kernel

/-! ### System -/

/-- §10: the effects of NOP, CLRERR and RESET (P5). -/
theorem test_clrerr_keeps_mirror_bits :
    err (run .clrerr [] { run .bwInit [0x1000, 16] fresh with errKind := 2, errCode := 0x44 }) = (0x00100000, 0) := by
  decide +kernel

theorem test_nop : results (run .nop [5] { fresh with res := #v[1, 2, 3, 4] }) = [1, 2, 3, 4] := by decide +kernel

theorem test_reset_clears_tables :
    (run .reset [7] small).ct[3] = none ∧ (run .reset [7] small).nvalid = false
    ∧ (run .reset [7] small).args[0] = 7 := by
  decide +kernel

/-! ### Bit cursors (§1) -/

/-- bw2. -/
@[irreducible] def written : State :=
  run .bwClose [] (run .bwAdd [0xABC, 12] (run .bwFlush [] (run .bwAdd [0x12345, 17] (run .bwAdd [0x7F, 7]
    (run .bwAdd [1, 1] (run .bwInit [0x1000, 16] fresh))))))

theorem test_bw_close : results written = [5, 0, 0, 0] ∧ at_ written 0x1000 5 = [0xFF, 0x45, 0x23, 0x79, 0x35] := by
  decide +kernel

/-- bw5. -/
theorem test_bw_flush_overflow :
    err (run .bwFlush [] (run .bwAdd [0xFFFF, 16] (run .bwInit [0x1000, 9] fresh))) = (0x00140000, 0) := by
  decide +kernel

theorem test_bw_errors :
    err (run .bwInit [0, 7] fresh) = (0x4002, 0) ∧ err (run .bwAdd [1, 1] fresh) = (0x4502, 0)
    ∧ err (run .bwAdd [8, 3] (run .bwInit [0, 16] fresh)) = (0x104402, 0)
    ∧ err (run .bwAdd [0xFF, 8] (run .bwAdd [1, 57] (run .bwInit [0, 16] fresh))) = (0x104702, 0) := by
  decide +kernel

/-- br1: the reader over `3D`. -/
@[irreducible] def reading : State := run .brInit [0x1000, 1] (put fresh 0x1000 [0x3D])

theorem test_br_read :
    results (run .brRead [2] reading) = [3, 0, 0, 0]
    ∧ results (run .brRead [3] (run .brRead [2] reading)) = [5, 0, 0, 0]
    ∧ (run .brRead [3] (run .brRead [2] reading)).br.pos = 0 := by
  decide +kernel

/-- br1's read past the start, R165's second and third case, and what BR_LOAD then shows. -/
theorem test_br_load_overflow :
    results (run .brLoad [] (run .brRead [1] (run .brRead [3] (run .brRead [2] reading)))) = [3, 0, 0, 0]
    ∧ results (run .brPeek [4] (run .brRead [2] reading)) = [10, 0, 0, 0] := by
  decide +kernel

/-- br4, and the last byte 0. -/
theorem test_br_init :
    (run .brInit [0x100, 9] (put fresh 0x100 [0, 0, 0, 0, 0, 0, 0, 0, 0x80])).br.pos = 71
    ∧ err (run .brInit [0x100, 3] (put fresh 0x100 [0x12, 0x34, 0])) = (0x0B01, 2) := by
  decide +kernel

/-! ### FSE tables (§2) -/

theorem test_hist :
    results (run .hist [0x100, 11] (put fresh 0x100 [97, 98, 114, 97, 99, 97, 100, 97, 98, 114, 97])) = [114, 5, 0, 0]
    ∧ results (run .fseGetcount [98] (run .hist [0x100, 11]
        (put fresh 0x100 [97, 98, 114, 97, 99, 97, 100, 97, 98, 114, 97]))) = [2, 114, 5, 0] := by
  decide +kernel

theorem test_fse_optlog :
    results (run .fseOptlog [9, 1000, 35] fresh) = [7, 0, 0, 0]
    ∧ results (run .fseOptlog [12, 5, 200] fresh) = [5, 0, 0, 0] := by
  decide +kernel

/-- `[100, 1, 1, 1, 1, 1]` at log 5. -/
@[irreducible] def counted : State :=
  run .fseSetcount [5, 1] (run .fseSetcount [4, 1] (run .fseSetcount [3, 1] (run .fseSetcount [2, 1]
    (run .fseSetcount [1, 1] (run .fseSetcount [0, 100] fresh)))))

theorem test_fse_norm : (run .fseNorm [5, 105, 5] counted).normList = [27, -1, -1, -1, -1, -1] := by
  decide +kernel

theorem test_fse_wrnc :
    results (run .fseWrnc [0x300, 64] (run .fseNorm [5, 105, 5] counted)) = [3, 0, 0, 0]
    ∧ at_ (run .fseWrnc [0x300, 64] (run .fseNorm [5, 105, 5] counted)) 0x300 3 = [0xC0, 0x01, 0] := by
  decide +kernel

theorem test_fse_rdnc :
    results (run .fseRdnc [0x300, 2, 3, 5] (put fresh 0x300 [0x50, 0x1B])) = [2, 5, 3, 0]
    ∧ (run .fseRdnc [0x300, 2, 3, 5] (put fresh 0x300 [0x50, 0x1B])).normList = [20, 10, -1, -1] := by
  decide +kernel

theorem test_fse_rdnc_corrupt :
    err (run .fseRdnc [0x300, 2, 2, 12] (put fresh 0x300 [0x50, 0x1B])) = (0x0801, 1)
    ∧ err (run .fseRdnc [0x300, 1, 255, 12] (put fresh 0x300 [0x0F])) = (0x0701, 0) := by
  decide +kernel

/-- §2.4, the offset field. -/
theorem test_fse_lddef :
    at_ (run .fseWrnc [0x300, 64] (run (.fseLddef 1) [] fresh)) 0x300 14
      = [0x20, 0x84, 0x10, 0x42, 0x66, 0x46, 0x44, 0x44, 0x44, 0x44, 0x24, 0x49, 0x02, 0x00] := by
  decide +kernel

theorem test_fse_build_ct :
    results (run (.fseGetct 3) [2, 0] small) = [327648, 29, 32, 0x00030501]
    ∧ results (run (.fseGetct 3) [0, 0] small) = [65496, 0xFFFFFFFFFFFFFFEC, 32, 0x00030501] := by
  decide +kernel

theorem test_fse_build_dt :
    results (run (.fseGetdt 3) [17] small) = [1, 2, 28, 5] ∧ err (run (.fseGetdt 3) [32] small) = (0x4402, 0) := by
  decide +kernel

theorem test_fse_build_corrupt :
    err (run (.fseBuildDt 1) [] (run .fseSetnorm [1, 11, 1, 5] (run .fseSetnorm [0, 20, 1, 5] fresh))) = (0x0801, 0)
    ∧ err (run (.fseBuildCt 0) [] fresh) = (0x4502, 0) := by
  decide +kernel

/-- §2.3: the one-symbol tables. -/
theorem test_fse_rle :
    (run (.fseEncBegin 0 0) [7] (run (.fseRleCt 0) [7] fresh)).es[0] = 0
    ∧ err (run (.fseEnc 0 0) [6] (run .bwInit [0, 16] (run (.fseRleCt 0) [7] fresh))) = (0x104402, 0)
    ∧ results (run (.fseDec 0 0 true) [] (run .brInit [0x1000, 1] (run (.fseRleDt 0) [7] reading))) = [7, 0, 0, 0] := by
  decide +kernel

theorem test_fse_setnorm_refused :
    err (run .fseSetnorm [0, 0xFFFE, 3, 5] fresh) = (0x4402, 0) ∧ err (run .fseSetnorm [4, 1, 3, 5] fresh) = (0x4402, 0) := by
  decide +kernel

/-- R247: a negative share, sign extended. -/
theorem test_fse_getnorm : results (run .fseGetnorm [2] small) = [2 ^ 64 - 1, 3, 5, 1] := by
  decide +kernel

/-! ### FSE codec (§3) -/

/-- The symbols 0, 1, 2 encoded (R269, P2). -/
@[irreducible] def coded : State :=
  run .bwClose [] (run (.fseEncFinish 3 0) [] (run (.fseEnc 3 0) [0] (run (.fseEnc 3 0) [1] (run (.fseEncBegin 3 0) [2]
    (run .bwInit [0x1100, 16] small)))))

theorem test_fse_enc : at_ coded 0x1100 2 = [0x37, 0x01] ∧ results coded = [2, 0, 0, 0] := by decide +kernel

/-- The decoder over them. -/
@[irreducible] def decoding : State := run (.fseDecInit 3 0) [] (run .brInit [0x1100, 2] coded)

theorem test_fse_dec :
    results (run (.fseDec 3 0 true) [] decoding) = [0, 0, 0, 0]
    ∧ results (run (.fseDec 3 0 true) [] (run (.fseDec 3 0 true) [] decoding)) = [1, 0, 0, 0]
    ∧ results (run (.fseDec 3 0 false) [] (run (.fseDec 3 0 true) [] (run (.fseDec 3 0 true) [] decoding)))
        = [2, 0, 0, 0] := by
  decide +kernel

theorem test_fse_steps_invalid :
    err (run (.fseEnc 3 0) [0] (run .bwInit [0, 16] small)) = (0x104502, 0)
    ∧ err (run (.fseDec 3 0 false) [] { small with ds := #v[40, 0, 0, 0] }) = (0x4502, 0) := by
  decide +kernel

theorem test_fse_getstate : results (run (.fseGetstate 0) [] coded) = [coded.es[0].toNat, 0, 0, 0] := by
  decide +kernel

theorem test_fse_compress2 :
    at_ (run (.fseCompress2 3) [0x100, 10, 0x300, 64] (put small 0x100 [0, 1, 0, 0, 2, 0, 1, 3, 0, 0])) 0x300 4
      = [0x00, 0x29, 0xDB, 0x04]
    ∧ results (run (.fseCompress2 3) [0x100, 10, 0x300, 8] (put small 0x100 [0, 1, 0, 0, 2, 0, 1, 3, 0, 0]))
      = [0, 0, 0, 0] := by
  decide +kernel

theorem test_fse_decompress2 :
    at_ (run (.fseDecompress2 3) [0x100, 4, 0x300, 64] (put small 0x100 [0x00, 0x29, 0xDB, 0x04])) 0x300 10
      = [0, 1, 0, 0, 2, 0, 1, 3, 0, 0]
    ∧ err (run (.fseDecompress2 0) [0x100, 1, 0x300, 10] (put (run (.fseRleDt 0) [7] fresh) 0x100 [1])) = (0x0901, 1) := by
  decide +kernel

/-! ### Huffman (§4, §5.1) -/

theorem test_huf_optlog :
    results (run .hufOptlog [11, 1000, 3] fresh) = [8, 0, 0, 0]
    ∧ results (run .hufOptlog [6, 5000, 255] fresh) = [9, 0, 0, 0] := by
  decide +kernel

theorem test_huf_build :
    huff.res[0] = 3 ∧ huff.hpend = true
    ∧ results (run (.hufGetcode 1) [0] huff) = [1, 1, 4, 3] ∧ results (run (.hufGetcode 1) [4] huff) = [3, 3, 4, 3] := by
  decide +kernel

/-- The limited lengths of the Fibonacci row at 6 bits, and the other tie rule. -/
theorem test_huf_lengths :
    buildLengths .leaf [1, 1, 2, 3, 5, 8, 13, 21, 34, 55, 89, 144, 233, 377] 6
      = [6, 6, 6, 6, 6, 6, 6, 6, 6, 6, 5, 4, 2, 1]
    ∧ buildLengths .internal [5, 2, 2, 1, 1] 5 = [1, 2, 3, 4, 4] := by
  decide +kernel

theorem test_huf_write :
    at_ (run (.hufWrite 1) [0x300, 64] huff) 0x300 3 = [0x83, 0x31, 0x11]
    ∧ err (run (.hufWrite 0) [0x300, 64] fresh) = (0x4502, 0) := by
  decide +kernel

theorem test_huf_read :
    results huffDec = [3, 3, 5, 0]
    ∧ results (run .hufGetdt [5] huffDec) = [0, 1, 3, 0]
    ∧ err (run .hufRead [0x300, 3] (put fresh 0x300 [0x83, 0xF1, 0x11])) = (0x0D01, 0) := by
  decide +kernel

theorem test_huf_enc1 :
    at_ (run (.hufEnc1 1) [0x300, 7, 0x400, 64] (put huff 0x300 [0, 1, 2, 3, 4, 0, 0])) 0x400 2 = [0x4F, 0xC1] := by
  decide +kernel

theorem test_huf_dec1 :
    at_ (run .hufDec1 [0x300, 2, 0x400, 7] (put huffDec 0x300 [0x4F, 0xC1])) 0x400 7 = [0, 1, 2, 3, 4, 0, 0] := by
  decide +kernel

theorem test_huf_enc4 :
    at_ (run (.hufEnc4 1) [0x300, 16, 0x400, 64]
        (put huff 0x300 [0, 0, 1, 2, 3, 4, 0, 0, 0, 1, 2, 3, 4, 0, 0, 0])) 0x400 13
      = [0x02, 0, 0x02, 0, 0x02, 0, 0xC1, 0x01, 0x4F, 0x01, 0x0A, 0x06, 0x5F] := by
  decide +kernel

theorem test_huf_dec4 :
    at_ (run .hufDec4 [0x300, 13, 0x400, 16]
        (put huffDec 0x300 [0x02, 0, 0x02, 0, 0x02, 0, 0xC1, 0x01, 0x4F, 0x01, 0x0A, 0x06, 0x5F])) 0x400 16
      = [0, 0, 1, 2, 3, 4, 0, 0, 0, 1, 2, 3, 4, 0, 0, 0]
    ∧ err (run .hufDec4 [0x300, 9, 0x400, 16] (put huffDec 0x300 [1, 0, 1, 0, 1, 0, 1, 1, 1])) = (0x200101, 9) := by
  decide +kernel

theorem test_huf_est :
    results (run (.hufEst 1) [4] huff) = [2, 1, 0, 0] ∧ (run (.hufEst 1) [5] huff).res[1] = 0 := by
  decide +kernel

theorem test_huf_commit :
    results (run (.hufGetcode 0) [0] (run .hufCommit [] huff)) = [1, 1, 4, 3] ∧ (run .hufCommit [] huff).hpend = false
    ∧ (run .hufDiscard [] huff).ht[0] = none ∧ (run .hufDiscard [] huff).hpend = false := by
  decide +kernel

/-! ### Literals (§5.2, §5.3) -/

/-- 100 times `a`. -/
@[irreducible] def hundred : State := run .ssAppend [0x300, 100] (put fresh 0x300 (List.replicate 100 97))

theorem test_lit_encode :
    results (run .litEncode [0x400, 200] hundred) = [3, 1, 0, 0]
    ∧ at_ (run .litEncode [0x400, 200] hundred) 0x400 3 = [0x45, 0x06, 0x61] := by
  decide +kernel

theorem test_lit_decode :
    results (run .litDecode [0x300, 6] (put fresh 0x300 [0x28, 0x68, 0x65, 0x6C, 0x6C, 0x6F])) = [6, 5, 0, 0]
    ∧ err (run .litDecode [0x300, 3] (put fresh 0x300 [3, 0, 0])) = (0x1001, 0) := by
  decide +kernel

theorem test_lit_get :
    results (run .litGet [4] (run .litDecode [0x300, 6] (put fresh 0x300 [0x28, 0x68, 0x65, 0x6C, 0x6C, 0x6F])))
      = [0x6F, 5, 0, 0] := by
  decide +kernel

/-! ### Match finder and store (§6) -/

theorem test_mf_reset :
    err (run .mfReset [5, 0x0004554A] fresh) = (0x8003, 0) ∧ err (run .mfReset [5, 0x000C5545] fresh) = (0x4402, 0)
    ∧ results (run (.mfGet 0) [0] (run .mfReset [5, 0x000C554A] fresh)) = [0, 0, 5, 0] := by
  decide +kernel

/-- R401: the window base offset rises to `blockEnd - 2 ^ windowLog`, here 2^17. -/
theorem test_mf_window :
    (run .mfWindow [131073] (run .mfReset [5, 0x000C554A] fresh)).wbo = 1
    ∧ (run .mfWindow [131072] (run .mfReset [5, 0x000C554A] fresh)).wbo = 0 := by
  decide +kernel

theorem test_mf_block :
    results found = [3, 0, 0, 0] ∧ found.ss.seqs = [{ lla := 8, mla := 21, ofa := 11 }]
    ∧ found.repStage = { r0 := 8, r1 := 1 } := by
  decide +kernel

theorem test_ss_append :
    results (run .ssInfo [] stored) = [11, 1, 0, 0] ∧ results (run .ssGetlit [8] stored) = [120, 0, 0, 0] := by
  decide +kernel

theorem test_ss_codes : results (run .ssGet [0] (run .ssCodes [] stored)) = [8, 21, 11, 0x01031508] := by
  decide +kernel

theorem test_ss_store_long :
    results (run .ssInfo [] (run .ssStore [0x9000, 0, 7, 69997] fresh)) = [0, 1, 2, 0]
    ∧ (run .ssGet [0] (run .ssStore [0x9000, 0, 7, 69997] fresh)).res[1] = 69997
    ∧ err (run .ssStore [0x9000, 70000, 2, 70000] fresh) = (0x4802, 0) := by
  decide +kernel

theorem test_ss_reset : (run .ssReset [] stored).ss = SeqStore.reset := by decide +kernel

theorem test_rep_commit :
    results (run .repGet [] found) = [1, 4, 8, 1] ∧ results (run .repGet [] (run .repCommit [] found)) = [8, 1, 8, 1]
    ∧ (run .repInit [] huff).ht[1] = none := by
  decide +kernel

/-! ### Sequences and replay (§6, §9) -/

/-- The section of §6.1, encoded after the store. -/
@[irreducible] def encoded : State := run .seqEncode [0x500, 64] stored

theorem test_seq_encode : results encoded = [5, 0, 0, 0] ∧ at_ encoded 0x500 5 = [0x01, 0x00, 0x03, 0x0B, 0x17] := by
  decide +kernel

theorem test_seq_decode :
    results (run .sqGet [0] (run .seqDecode [0x500, 5] encoded)) = [8, 24, 8, 0]
    ∧ results (run .drepGet [] (run .seqDecode [0x500, 5] encoded)) = [8, 1, 4, 0] := by
  decide +kernel

theorem test_seq_decode_errors :
    err (run .seqDecode [0x300, 2] (put fresh 0x300 [0, 0])) = (0x0C01, 1)
    ∧ err (run .seqDecode [0x300, 4] (put fresh 0x300 [1, 0xFC, 0x24, 0])) = (0x1001, 2) := by
  decide +kernel

theorem test_drep_init :
    (run .drepInit [] { huffDec with drep := { r0 := 5, r1 := 6, r2 := 7 } }).drep = { r0 := 1, r1 := 4, r2 := 8 }
    ∧ (run .drepInit [] huffDec).hd = none := by
  decide +kernel

/-- A decoded block: `(2, 5, 2)` on `ab` (R530 case 6), and the history read `(3, 4, 5)` on `CDE` (case 12). -/
theorem test_replay :
    at_ (run .replay [0x600, 0, 100, 131072]
        { fresh with dlit := bytes [97, 98], sq := [{ ll := 2, ml := 5, off := 2 }] }) 0x600 7
      = [97, 98, 97, 98, 97, 98, 97]
    ∧ at_ (run .replay [0x600, 2, 7, 131072]
        { put fresh 0x600 [65, 66] with dlit := bytes [67, 68, 69], sq := [{ ll := 3, ml := 4, off := 5 }] }) 0x602 7
      = [67, 68, 69, 65, 66, 67, 68] := by
  decide +kernel

/-- Two sequences on `abcdEF` (R530 cases 8 and 9). -/
abbrev replaying : State :=
  { fresh with
    dlit := bytes [97, 98, 99, 100, 69, 70], sq := [{ ll := 1, ml := 3, off := 1 }, { ll := 2, ml := 4, off := 3 }] }

/-- R530 cases 7, 2, 9 and 11: LITERALS_OVERRUN, and OUTPUT_TOO_SMALL at a sequence and at the trailing literals. -/
theorem test_replay_limits :
    err (run .replay [0x600, 0, 100, 131072]
        { fresh with dlit := bytes [97, 98, 99], sq := [{ ll := 5, ml := 3, off := 1 }] }) = (0x0F01, 0)
    ∧ err (run .replay [0x600, 0, 9999, 131072]
        { fresh with dlit := bytes [97, 97], sq := [{ ll := 2, ml := 9998, off := 1 }] }) = (0x0901, 0)
    ∧ err (run .replay [0x600, 0, 12, 131072] replaying) = (0x0901, 2)
    ∧ err (run .replay [0x600, 0, 3, 131072] { fresh with dlit := bytes [119, 120, 121, 122] }) = (0x0901, 0) := by
  decide +kernel

/-- A sequence count of 0 in either form, with more bytes (§6; R128 and D43 for `80 00`, log entry 27). -/
theorem test_seq_decode_empty :
    err (run .seqDecode [0x300, 2] fresh) = (0x0C01, 1)
    ∧ err (run .seqDecode [0x300, 4] (put fresh 0x300 [0x80, 0x00, 0x00, 0x01])) = (0x0C01, 1)
    ∧ err (run .seqDecode [0x300, 1] (put fresh 0x300 [0x80])) = (0x0101, 1) := by
  decide +kernel

theorem test_replay_errors :
    err (run .replay [0x600, 0, 100, 0x80000000] fresh) = (0x4402, 0)
    ∧ err (run .replay [0x600, 2, 7, 131072]
        { put fresh 0x600 [65, 66] with dlit := bytes [67, 68, 69], sq := [{ ll := 3, ml := 4, off := 6 }] })
      = (0x0E01, 0) := by
  decide +kernel

/-! ### Witnesses: states and operands that meet the hypotheses of each statement, clause by clause -/

/-- An error is pending. -/
abbrev failed : State := { fresh with errKind := 2, errCode := 0x44 }

/-- A host that has one action to do. -/
abbrev hostOf (a : HostAction) (s : State) : State := { s with host := [a] }

theorem test_witness_RejectionOrder :
    (∃ w : BitVec 32, w.extractLsb' 24 8 ≠ 0)
    ∧ (∃ w : BitVec 32, w.extractLsb' 24 8 = 0 ∧ ∀ i : Instr, (encode i).extractLsb' 0 8 ≠ w.extractLsb' 0 8)
    ∧ (∃ w : BitVec 32, w.extractLsb' 24 8 = 0 ∧ (∃ i : Instr, (encode i).extractLsb' 0 8 = w.extractLsb' 0 8)
        ∧ ∀ i : Instr, encode i ≠ w)
    ∧ ∃ (w : BitVec 32) (i : Instr), encode i = w ∧ i.wf = false := by
  refine ⟨⟨0x01000000, by decide⟩, ⟨0x00000003, by decide, fun i => ?_⟩,
    ⟨0x00000100, by decide, ⟨.nop, by decide⟩, fun i h => ?_⟩, ⟨0x00000426, .fseBuildCt 4, by decide, by decide⟩⟩
  · cases i <;> (simp only [encode, commandWord, BitVec.extractLsb'_append_eq_right]; decide)
  · have h8 := congrArg (BitVec.extractLsb' 0 8) h
    revert h8
    cases i <;> (simp only [encode, commandWord, BitVec.extractLsb'_append_eq_right])
    case nop => exact absurd h (by decide)
    all_goals decide

theorem test_witness_StepRunsDecodedCommand :
    (decode 0x00000028 = .ok (.fseBuildDt 0) ∧ fresh.errKind = 0)
    ∧ (decode 0x00000002 = .ok .clrerr ∧ failed.errKind ≠ 0)
    ∧ ∃ s : State, s.host = .command 0x00000028 :: [] :=
  ⟨by decide +kernel, by decide +kernel, ⟨hostOf (.command 0x28) fresh, rfl⟩⟩

theorem test_witness_StickyErrors :
    (∃ s : State, s.host = [.command 0x00000025] ∧ s.errKind ≠ 0 ∧ (0x25 : BitVec 32).extractLsb' 0 8 ≠ 0x01
        ∧ (0x25 : BitVec 32).extractLsb' 0 8 ≠ 0x02)
    ∧ (∃ s : State, s.host = [.command 0x00000002] ∧ s.errKind ≠ 0)
    ∧ ∃ s : State, s.host = [.command 0x00000001] ∧ s.errKind ≠ 0 :=
  ⟨⟨hostOf (.command 0x25) failed, by decide⟩, ⟨hostOf (.command 2) failed, by decide⟩,
    ⟨hostOf (.command 1) failed, by decide⟩⟩

theorem test_witness_RejectedWordRaises :
    (∃ s : State, s.host = [.command 0x00000003] ∧ decode 0x00000003 = .error .illegalOpcode ∧ s.errKind = 0)
    ∧ ∃ s : State, s.host = [.command 0x01000001] ∧ decode 0x01000001 = .error .reservedBits ∧ s.errKind ≠ 0
        ∧ (0x01000001 : BitVec 32).extractLsb' 0 8 = 0x01 :=
  ⟨⟨hostOf (.command 3) fresh, by decide +kernel⟩, ⟨hostOf (.command 0x01000001) failed, by decide +kernel⟩⟩

theorem test_witness_HostActions :
    (∃ s : State, s.host = []) ∧ (∃ s : State, s.host = [.setArg 7 5]) ∧ ∃ s : State, s.host = [.setByte (-1) 9] :=
  ⟨⟨fresh, rfl⟩, ⟨hostOf (.setArg 7 5) fresh, rfl⟩, ⟨hostOf (.setByte (-1) 9) fresh, rfl⟩⟩

theorem test_witness_EveryCommandCompletes : ∃ s : State, s.errKind = 0 ∧ s.errCode = 0 := ⟨small, by decide +kernel⟩

theorem test_witness_CommandFrame :
    (∃ t, small.errKind = 0 ∧ exec (.fseGetstate 0) small = .next t ∧ t.errKind = 0
      ∧ Part.ct ∉ writesOf (.fseGetstate 0))
    ∧ ∃ t, small.errKind = 0 ∧ exec .fseNorm small = .next t ∧ t.errKind ≠ 0 ∧ Part.ct ∉ [.error, .res, .free, .mem]
      ∧ Part.ct ∉ clearsOf .fseNorm := by
  constructor
  · obtain ⟨t, h, ht⟩ := exists_next (o := exec (.fseGetstate 0) small) (p := fun t => t.errKind == 0) (by decide +kernel)
    exact ⟨t, by decide +kernel, h, by simpa using ht, by decide⟩
  · obtain ⟨t, h, ht⟩ := exists_next (o := exec .fseNorm small) (p := fun t => t.errKind == 2) (by decide +kernel)
    exact ⟨t, by decide +kernel, h, by simp at ht; simp [ht], by decide, by decide⟩

/-- A writer in the middle of a stream. -/
@[irreducible] def writing : State := run .bwAdd [0x1FF, 9] (run .bwInit [0x1000, 9] fresh)

theorem writing_ok : writing.bw.Ok := by
  unfold BitWriter.Ok
  decide +kernel

theorem test_witness_MemoryFrame : ∃ s t : State, s.bw.Ok ∧ exec .bwFlush s = .next t ∧ s.bw.valid = true := by
  obtain ⟨t, h, -⟩ := exists_next (o := exec .bwFlush writing) (p := fun _ => true) (by decide +kernel)
  exact ⟨writing, t, writing_ok, h, by decide +kernel⟩

/-- The premises of the four invariants, on states with tables, a store and an open writer. -/
theorem test_witness_StepKeepsMemory : ∃ s t : State, s.MemoryOk ∧ step s = .next t ∧ s.bw.valid = true := by
  refine ⟨hostOf (.setByte 1 2) writing, _, ⟨by decide +kernel, by decide +kernel, by decide +kernel, writing_ok⟩, rfl, ?_⟩
  decide +kernel

theorem limits_of {s : State} (h1 : s.ss.lit.length ≤ Config.blockMax ∧ s.ss.seqs.length ≤ Config.seqMax)
    (h2 : s.ss.longF = .none) (h3 : s.ss.codes = none)
    (h4 : s.dlit.length ≤ Config.blockMax ∧ s.sq.length ≤ Config.seqMax ∧ s.br.unl ≤ Config.brWindow
      ∧ s.FinderOk ∧ s.drep.r0 ≠ 0 ∧ s.drep.r1 ≠ 0 ∧ s.drep.r2 ≠ 0 ∧ ∀ q ∈ s.sq, q.off ≠ 0) : s.LimitsOk :=
  ⟨h1.1, h1.2, fun h => absurd h2 h, by rw [h3]; exact fun l h => (Option.some_ne_none l h.symm).elim, h4⟩

theorem test_witness_StepKeepsLimits : ∃ s t : State, s.LimitsOk ∧ step s = .next t ∧ s.ss.seqs ≠ [] := by
  refine ⟨hostOf (.setByte 1 2) stored, _, limits_of ?_ ?_ ?_ ?_, rfl, ?_⟩ <;> decide +kernel

theorem test_witness_StepKeepsErrors : ∃ s t : State, s.ErrorOk ∧ step s = .next t ∧ s.errKind ≠ 0 :=
  ⟨hostOf (.command 2) failed, _, ⟨.inr ⟨.argRange, rfl, rfl, rfl⟩, fun _ => rfl⟩, rfl, by decide⟩

theorem tables_of {s : State} (h1 : 5 ≤ s.nlog.toNat ∧ s.nlog.toNat ≤ 12)
    (h2 : (s.ct.toList.all fun o => match o with
      | none => true
      | some t => decide (t.log = 5) && decide (t.nextState.length = 2 ^ max t.log 1)) = true)
    (h3 : (s.dt.toList.all fun o => match o with
      | none => true
      | some t => decide (t.log = 5) && decide (t.entries.length = 2 ^ t.log)) = true)
    (h4 : s.hd = none) : s.TablesOk := by
  refine ⟨fun _ => h1, fun t ht => ?_, fun t ht => ?_, fun t ht => ?_⟩
  · have := List.all_eq_true.1 h2 _ ht
    simp at this
    exact ⟨.inr (by rw [this.1]; decide), this.2⟩
  · have := List.all_eq_true.1 h3 _ ht
    simp at this
    exact ⟨.inr (by rw [this.1]; decide), this.2⟩
  · rw [h4] at ht
    cases ht

theorem test_witness_StepKeepsTables : ∃ s t : State, s.TablesOk ∧ step s = .next t ∧ s.nvalid = true := by
  refine ⟨hostOf (.setByte 1 2) small, _, tables_of ?_ ?_ ?_ ?_, rfl, ?_⟩ <;> decide +kernel

theorem test_witness_ResetValues : ∃ s t : State, s.args ≠ State.reset.args ∧ exec .reset s = .next t :=
  ⟨withArgs fresh [7], _, by decide, rfl⟩

theorem test_witness_StateCommands : (∃ s : State, s.hpend = true) ∧ ∃ s : State, s.hpend = false :=
  ⟨⟨huff, by decide +kernel⟩, ⟨fresh, rfl⟩⟩

/-! Bit cursors -/

/-- An open writer over 16 bytes, `cnt` bits held, with operands. -/
abbrev wr (cnt : Nat) (l : List Nat) : State :=
  withArgs { run .bwInit [0x1000, 16] fresh with bw := { (run .bwInit [0x1000, 16] fresh).bw with cnt := cnt } } l

theorem test_witness_WriterSteps_add :
    (∃ s : State, s.bw.valid = false) ∧ (∃ s : State, s.bw.valid = true ∧ 57 < s.a1)
    ∧ (∃ s : State, s.bw.valid = true ∧ s.a1 ≤ 57 ∧ 2 ^ s.a1 ≤ s.a0)
    ∧ (∃ s : State, s.bw.valid = true ∧ s.a1 ≤ 57 ∧ s.a0 < 2 ^ s.a1 ∧ 64 < s.bw.cnt + s.a1)
    ∧ ∃ s : State, s.bw.valid = true ∧ s.a1 ≤ 57 ∧ s.a0 < 2 ^ s.a1 ∧ s.bw.cnt + s.a1 ≤ 64 :=
  ⟨⟨fresh, rfl⟩, ⟨wr 0 [0, 58], by decide +kernel⟩, ⟨wr 0 [2 ^ 57, 57], by decide +kernel⟩,
    ⟨wr 8 [2 ^ 57 - 1, 57], by decide +kernel⟩, ⟨wr 7 [2 ^ 57 - 1, 57], by decide +kernel⟩⟩

theorem test_witness_WriterSteps_flush :
    (∃ s : State, s.bw.valid = true ∧ 8 ≤ s.bw.cap.toNat
        ∧ s.bw.cur.toNat + s.bw.cnt / 8 ≤ s.bw.cap.toNat - 8)
    ∧ ∃ s : State, s.bw.valid = true ∧ 8 ≤ s.bw.cap.toNat
        ∧ s.bw.cap.toNat - 8 < s.bw.cur.toNat + s.bw.cnt / 8 :=
  ⟨⟨writing, by decide +kernel⟩, ⟨run .bwAdd [0x7F, 7] writing, by decide +kernel⟩⟩

theorem test_witness_WriterClose :
    (∃ s : State, s.bw.valid = true ∧ 64 ≤ s.bw.cnt)
    ∧ (∃ s : State, s.bw.valid = true ∧ s.bw.Ok ∧ s.bw.cnt < 64 ∧ s.bw.ovf = false
        ∧ s.bw.cap.toNat - 8 = s.bw.cur.toNat + (s.bw.cnt + 1) / 8)
    ∧ (∃ s : State, s.bw.valid = true ∧ s.bw.Ok ∧ s.bw.cnt < 64 ∧ s.bw.ovf = false
        ∧ s.bw.cap.toNat - 8 < s.bw.cur.toNat + (s.bw.cnt + 1) / 8)
    ∧ ∃ s : State, s.bw.valid = true ∧ s.bw.Ok ∧ s.bw.cnt < 64 ∧ s.bw.ovf = false
        ∧ s.bw.cur.toNat + (s.bw.cnt + 1) / 8 < s.bw.cap.toNat - 8 := by
  refine ⟨⟨wr 64 [], by decide +kernel⟩, ⟨writing, by decide +kernel, writing_ok, by decide +kernel⟩,
    ⟨run .bwAdd [0x7F, 7] writing, by decide +kernel, ?_, by decide +kernel⟩,
    ⟨run .bwAdd [5, 3] (run .bwInit [0x1000, 9] fresh), by decide +kernel, ?_, by decide +kernel⟩⟩ <;>
  · unfold BitWriter.Ok
    decide +kernel

theorem run_writer {s t : State} {f : BitField} {fs : List BitField} (h1 : f.width ≤ 57) (h2 : f.val < 2 ^ f.width)
    (h3 : nextAnd (exec .bwAdd { s with args :=
      (s.args.set 0 (BitVec.ofNat 64 f.val)).set 1 (BitVec.ofNat 64 f.width) }) (fun u => u.errKind == 0) = true)
    (h4 : ∀ u, exec .bwAdd { s with args :=
      (s.args.set 0 (BitVec.ofNat 64 f.val)).set 1 (BitVec.ofNat 64 f.width) } = .next u → WriterRun u fs t) :
    WriterRun s (f :: fs) t := by
  obtain ⟨u, hu, he⟩ := exists_next h3
  exact .add h1 h2 hu (by simpa using he) (h4 u hu)

/-- bw1 with a flush before the close. -/
theorem test_witness_FlushScheduleInvisible : ∃ (s0 s1 s2 s3 : State) (fs : List BitField), s0.errKind = 0
    ∧ exec .bwInit s0 = .next s1 ∧ s1.errKind = 0 ∧ WriterRun s1 fs s2 ∧ exec .bwClose s2 = .next s3 ∧ s3.errKind = 0
    ∧ fs = [{ val := 5, width := 3 }, { val := 3, width := 2 }] := by
  let s1 := run .bwInit [0x1000, 16] fresh
  let s2 := run .bwAdd [5, 3] s1
  let s3 := run .bwAdd [3, 2] s2
  let s4 := after (exec .bwFlush s3) s3
  let s5 := after (exec .bwClose s4) s4
  refine ⟨withArgs fresh [0x1000, 16], s1, s4, s5, _, rfl, ?_, by decide +kernel, ?_, ?_, by decide +kernel, rfl⟩
  · rfl
  · refine .add (t := s2) (by decide) (by decide) rfl (by decide +kernel) ?_
    refine .add (t := s3) (by decide) (by decide) rfl (by decide +kernel) ?_
    exact .flush rfl (by decide +kernel) (.done _)
  · rfl

theorem test_witness_StreamReadsBack :
    ∃ (fs : List BitField) (cap : Nat), (∀ f ∈ fs, f.val < 2 ^ f.width) ∧ closedStream fs cap ≠ [] :=
  ⟨[{ val := 5, width := 3 }, { val := 3, width := 2 }], 9, by decide +kernel⟩

theorem test_witness_CursorCommands_init :
    (∃ s : State, 2 ^ 31 ≤ s.a1) ∧ (∃ s : State, 2 ^ 64 < s.a0 + s.a1)
    ∧ (∃ s : State, s.a1 < 8 ∧ s.a0 + s.a1 ≤ 2 ^ 64) ∧ (∃ s : State, 8 ≤ s.a1 ∧ s.a1 < 2 ^ 31 ∧ s.a0 + s.a1 ≤ 2 ^ 64)
    ∧ (∃ s : State, s.a1 = 0)
    ∧ (∃ s : State, 0 < s.a1 ∧ s.a1 < 2 ^ 31 ∧ s.a0 + s.a1 ≤ 2 ^ 64 ∧ s.mem.read (s.a0 + s.a1 - 1) = 0)
    ∧ ∃ (s : State) (h : Nat), 0 < s.a1 ∧ s.a1 < 2 ^ 31 ∧ s.a0 + s.a1 ≤ 2 ^ 64
        ∧ 2 ^ h ≤ (s.mem.read (s.a0 + s.a1 - 1)).toNat ∧ (s.mem.read (s.a0 + s.a1 - 1)).toNat < 2 ^ (h + 1) :=
  ⟨⟨withArgs fresh [0, 2 ^ 31], by decide +kernel⟩, ⟨withArgs fresh [2 ^ 64 - 8, 9], by decide +kernel⟩,
    ⟨withArgs fresh [2 ^ 64 - 7, 7], by decide +kernel⟩, ⟨withArgs fresh [2 ^ 64 - 8, 8], by decide +kernel⟩,
    ⟨fresh, by decide +kernel⟩, ⟨withArgs fresh [2 ^ 64 - 1, 1], by decide +kernel⟩,
    ⟨withArgs reading [0x1000, 1], 5, by decide +kernel⟩⟩

/-- The reader of br1 with other operands, position and counter. -/
abbrev rd (n : Nat) (pos : Int) (unl : Nat) : State :=
  withArgs { reading with br := { reading.br with pos := pos, unl := unl } } [n]

theorem test_witness_CursorCommands_reader :
    (∃ s : State, s.br.valid = false) ∧ (∃ s : State, s.br.valid = true ∧ 57 < s.a0)
    ∧ (∃ s : State, s.br.valid = true ∧ s.a0 ≤ 57 ∧ 57 < s.br.unl + s.a0)
    ∧ (∃ s : State, s.br.valid = true ∧ s.br.unl + s.a0 ≤ 57 ∧ s.a0 = 0)
    ∧ (∃ s : State, s.br.valid = true ∧ s.br.unl + s.a0 ≤ 57 ∧ 0 < s.a0 ∧ (s.a0 : Int) ≤ s.br.pos)
    ∧ (∃ s : State, s.br.valid = true ∧ s.br.unl + s.a0 ≤ 57 ∧ 0 ≤ s.br.pos ∧ s.br.pos < s.a0)
    ∧ ∃ s : State, s.br.valid = true ∧ s.br.unl + s.a0 ≤ 57 ∧ s.br.pos < 0 :=
  ⟨⟨fresh, rfl⟩, ⟨rd 58 5 0, by decide +kernel⟩, ⟨rd 57 5 1, by decide +kernel⟩, ⟨rd 0 5 57, by decide +kernel⟩,
    ⟨rd 5 5 52, by decide +kernel⟩, ⟨rd 6 5 0, by decide +kernel⟩, ⟨rd 1 (-1) 0, by decide +kernel⟩⟩

/-! FSE -/

theorem test_witness_Histogram :
    (∃ s : State, 2 ^ 31 ≤ s.a1 ∨ 2 ^ 64 < s.a0 + s.a1) ∧ (∃ s : State, s.a1 < 2 ^ 31 ∧ s.a0 + s.a1 ≤ 2 ^ 64 ∧ s.a1 = 0)
    ∧ ∃ s : State, s.a1 < 2 ^ 31 ∧ s.a0 + s.a1 ≤ 2 ^ 64 ∧ 0 < s.a1 :=
  ⟨⟨withArgs fresh [2 ^ 64 - 1, 2], by decide +kernel⟩, ⟨fresh, by decide +kernel⟩,
    ⟨withArgs fresh [2 ^ 64 - 1, 1], by decide +kernel⟩⟩

theorem test_witness_TableLogs :
    (∃ s : State, s.a0 < 1) ∧ (∃ s : State, 12 < s.a0) ∧ (∃ s : State, 255 < s.a2) ∧ (∃ s : State, 2 ^ 31 ≤ s.a1)
    ∧ (∃ s : State, 1 ≤ s.a0 ∧ s.a0 ≤ 11 ∧ s.a2 ≤ 255 ∧ s.a1 < 2)
    ∧ (∃ s : State, 1 ≤ s.a0 ∧ s.a0 ≤ 12 ∧ s.a2 ≤ 255 ∧ 2 ≤ s.a1 ∧ s.a1 < 2 ^ 31)
    ∧ ∃ s : State, 1 ≤ s.a0 ∧ s.a0 ≤ 11 ∧ s.a2 ≤ 255 ∧ 2 ≤ s.a1 ∧ s.a1 < 2 ^ 31 :=
  ⟨⟨fresh, by decide +kernel⟩, ⟨withArgs fresh [13, 2], by decide +kernel⟩,
    ⟨withArgs fresh [5, 2, 256], by decide +kernel⟩, ⟨withArgs fresh [5, 2 ^ 31], by decide +kernel⟩,
    ⟨withArgs fresh [11, 1, 255], by decide +kernel⟩, ⟨withArgs fresh [12, 2, 255], by decide +kernel⟩,
    ⟨withArgs fresh [1, 2 ^ 31 - 1, 0], by decide +kernel⟩⟩

theorem test_witness_NormalizeCommand :
    (∃ s : State, s.a2 ≤ 255 ∧ 5 ≤ s.a0 ∧ s.a0 ≤ 12 ∧ s.a1 < 2 ^ 31 ∧ s.a1 ≠ (s.countList s.a2).sum)
    ∧ (∃ s : State, s.a2 ≤ 255 ∧ 5 ≤ s.a0 ∧ s.a0 ≤ 12 ∧ s.a1 < 2 ^ 31 ∧ s.a1 = (s.countList s.a2).sum
        ∧ 2 ≤ s.a1 ∧ s.a1 ∈ s.countList s.a2)
    ∧ (∃ s : State, s.a2 ≤ 255 ∧ 5 ≤ s.a0 ∧ s.a0 ≤ 12 ∧ s.a1 < 2 ^ 31 ∧ s.a1 = (s.countList s.a2).sum
        ∧ 2 ≤ s.a1 ∧ s.a1 ∉ s.countList s.a2 ∧ s.a0 < minTableLog s.a1 s.a2)
    ∧ ∃ (s : State) (norm : List Int), s.a2 ≤ 255 ∧ 5 ≤ s.a0 ∧ s.a0 ≤ 12 ∧ s.a1 < 2 ^ 31
        ∧ s.a1 = (s.countList s.a2).sum ∧ 2 ≤ s.a1 ∧ s.a1 ∉ s.countList s.a2 ∧ minTableLog s.a1 s.a2 ≤ s.a0
        ∧ normalize (s.countList s.a2) s.a0 s.a1 = .ok norm := by
  refine ⟨⟨withArgs counted [5, 104, 5], by decide +kernel⟩, ⟨withArgs counted [5, 100, 0], by decide +kernel⟩,
    ⟨withArgs counted [5, 105, 255], by decide +kernel⟩, ⟨withArgs counted [5, 105, 5], ?_⟩⟩
  obtain ⟨norm, h, -⟩ := exists_ok (x := normalize ((withArgs counted [5, 105, 5]).countList 5) 5 105)
    (p := fun _ => true) (by decide +kernel)
  exact ⟨norm, by decide +kernel, by decide +kernel, by decide +kernel, by decide +kernel, by decide +kernel,
    by decide +kernel, by decide +kernel, by decide +kernel, h⟩

theorem test_witness_NormalizePostconditions :
    ∃ s t : State, s.errKind = 0 ∧ exec .fseNorm s = .next t ∧ t.errKind = 0 := by
  obtain ⟨t, h, ht⟩ := exists_next (o := exec .fseNorm (withArgs counted [5, 105, 5])) (p := fun t => t.errKind == 0)
    (by decide +kernel)
  exact ⟨_, t, by decide +kernel, h, by simpa using ht⟩

theorem test_witness_DescriptionCommands :
    (∃ s : State, s.nvalid = false)
    ∧ (∃ (s : State) (hdr : List Byte), s.nvalid = true ∧ ncountBytes s.normAll s.nlog.toNat = some hdr
        ∧ s.a1 < hdr.length ∧ hdr.length ≤ s.a1 + 1)
    ∧ (∃ (s : State) (hdr : List Byte), s.nvalid = true ∧ ncountBytes s.normAll s.nlog.toNat = some hdr
        ∧ hdr.length = s.a1)
    ∧ (∃ s : State, s.a2 = 256) ∧ (∃ s : State, s.a3 = 4) ∧ (∃ s : State, s.a3 = 13)
    ∧ (∃ (s : State) (e : Err), s.a2 ≤ 255 ∧ 5 ≤ s.a3 ∧ s.a3 ≤ 12
        ∧ readNCount (s.window s.a0 s.a1) s.a2 s.a3 = .error e)
    ∧ ∃ (s : State) (d : NCount), s.a2 ≤ 255 ∧ 5 ≤ s.a3 ∧ s.a3 ≤ 12
        ∧ readNCount (s.window s.a0 s.a1) s.a2 s.a3 = .ok d := by
  refine ⟨⟨fresh, rfl⟩, ⟨withArgs small [0, 1], bytes [0x50, 0x1B], by decide +kernel⟩,
    ⟨withArgs small [0, 2], bytes [0x50, 0x1B], by decide +kernel⟩, ⟨withArgs fresh [0, 0, 256], by decide +kernel⟩,
    ⟨withArgs fresh [0, 0, 0, 4], by decide +kernel⟩, ⟨withArgs fresh [0, 0, 0, 13], by decide +kernel⟩, ?_, ?_⟩
  · obtain ⟨e, h, -⟩ := exists_error (x := readNCount [] 255 12) (p := fun _ => true) (by decide +kernel)
    exact ⟨withArgs fresh [0, 0, 255, 12], e, by decide +kernel, by decide +kernel, by decide +kernel, h⟩
  · obtain ⟨d, h, -⟩ := exists_ok (x := readNCount ((withArgs (put fresh 0x300 [0x50, 0x1B]) []).window 0x300 2) 3 5)
      (p := fun _ => true) (by decide +kernel)
    exact ⟨withArgs (put fresh 0x300 [0x50, 0x1B]) [0x300, 2, 3, 5], d, by decide +kernel, by decide +kernel,
      by decide +kernel, h⟩

theorem description_of {s : State} (h1 : s.nvalid = true ∧ 5 ≤ s.nlog.toNat ∧ s.nlog.toNat ≤ 12)
    (h2 : (s.normList.all fun n => decide (-1 ≤ n)) = true)
    (h3 : s.slotsBelow (s.nmax.toNat + 1) = 2 ^ s.nlog.toNat) : s.DescriptionOk := by
  refine ⟨h1.1, h1.2.1, h1.2.2, fun x => ?_, h3⟩
  unfold State.share
  by_cases hx : x < s.normList.length
  · rw [List.getD_eq_getElem _ _ hx]
    simpa using List.all_eq_true.1 h2 _ (List.getElem_mem hx)
  · rw [List.getD_eq_default _ _ (by omega)]
    decide

theorem small_description (l : List Nat) : (withArgs small l).DescriptionOk := by
  apply description_of
  · show small.nvalid = true ∧ 5 ≤ small.nlog.toNat ∧ small.nlog.toNat ≤ 12
    decide +kernel
  · show (small.normList.all fun n => decide (-1 ≤ n)) = true
    decide +kernel
  · show small.slotsBelow (small.nmax.toNat + 1) = 2 ^ small.nlog.toNat
    decide +kernel

theorem test_witness_DescriptionRoundTrip : ∃ s t u : State, s.errKind = 0 ∧ s.DescriptionOk
    ∧ (∀ x : Fin 256, s.nmax.toNat < x.val → s.norm[x] = 0) ∧ exec .fseWrnc s = .next t ∧ t.errKind = 0
    ∧ u.mem = t.mem ∧ u.a0 = s.a0 ∧ u.a1 = (t.res[0]).toNat ∧ s.nmax.toNat ≤ u.a2 ∧ u.a2 ≤ 255
    ∧ s.nlog.toNat ≤ u.a3 ∧ u.a3 ≤ 12 := by
  obtain ⟨t, h, ht⟩ := exists_next (o := exec .fseWrnc (withArgs small [0x300, 2]))
    (p := fun t => t.errKind == 0 && t.res[0] == 2) (by decide +kernel)
  simp only [Bool.and_eq_true, beq_iff_eq] at ht
  have hn : small.nmax.toNat ≤ 3 ∧ small.nlog.toNat ≤ 5 := by decide +kernel
  exact ⟨_, t, withArgs { small with mem := t.mem } [0x300, 2, 3, 5], by decide +kernel, small_description _,
    by decide +kernel, h, ht.1, rfl, rfl, by rw [ht.2]; rfl, hn.1, (by decide : 3 ≤ 255), hn.2, (by decide : 5 ≤ 12)⟩

/-- The machine under R245's bound on counts (log entry 11). -/
abbrev wide : State := { fresh with params := { Config.Params.spec with setcount := .command } }

theorem test_witness_FseSetters_distribution :
    (∃ s : State, s.a0 = 256) ∧ (∃ s : State, s.params.setcount = .general ∧ s.a1 = 2 ^ 31)
    ∧ (∃ s : State, s.params.setcount = .general ∧ s.a0 = (255 : Fin 256).val ∧ s.a1 + 1 = 2 ^ 31)
    ∧ (∃ s : State, s.params.setcount = .command ∧ s.a1 = 2 ^ 32)
    ∧ (∃ s : State, s.params.setcount = .command ∧ s.a0 = (255 : Fin 256).val ∧ s.a1 + 1 = 2 ^ 32)
    ∧ (∃ s : State, s.a1 < 2 ^ 16 ∧ (BitVec.ofNat 16 s.a1).toInt = -2)
    ∧ (∃ s : State, s.a0 = 5 ∧ s.a2 = 4)
    ∧ ∃ s : State, s.a1 < 2 ^ 16 ∧ s.a0 ≤ s.a2 ∧ s.a2 ≤ 255 ∧ 5 ≤ s.a3 ∧ s.a3 ≤ 12
        ∧ (BitVec.ofNat 16 s.a1).toInt = 2 ^ s.a3 ∧ s.a0 = (255 : Fin 256).val :=
  ⟨⟨withArgs fresh [256], by decide +kernel⟩, ⟨withArgs fresh [0, 2 ^ 31], by decide +kernel⟩,
    ⟨withArgs fresh [255, 2 ^ 31 - 1], by decide +kernel⟩, ⟨withArgs wide [0, 2 ^ 32], by decide +kernel⟩,
    ⟨withArgs wide [255, 2 ^ 32 - 1], by decide +kernel⟩, ⟨withArgs fresh [0, 0xFFFE, 3, 5], by decide +kernel⟩,
    ⟨withArgs fresh [5, 1, 4, 5], by decide +kernel⟩, ⟨withArgs fresh [255, 4096, 255, 12], by decide +kernel⟩⟩

/-- R230: the last symbol of each row and the rows' logs. -/
theorem test_lddef_rows :
    results (run .fseGetnorm [35] (run (.fseLddef 0) [] fresh)) = [2 ^ 64 - 1, 35, 6, 1]
    ∧ results (run .fseGetnorm [0] (run (.fseLddef 0) [] fresh)) = [4, 35, 6, 1]
    ∧ results (run .fseGetnorm [1] (run (.fseLddef 2) [] fresh)) = [4, 52, 6, 1] := by
  decide +kernel

/-- The first count out of range and the last one in it, under R114's bound and under R245's. -/
theorem test_setcount_bound :
    err (run .fseSetcount [0, 2 ^ 31] fresh) = (0x4402, 0) ∧ err (run .fseSetcount [0, 2 ^ 32] wide) = (0x4402, 0)
    ∧ results (run .fseGetcount [0] (run .fseSetcount [0, 2 ^ 31 - 1] fresh)) = [2 ^ 31 - 1, 0, 0, 0]
    ∧ results (run .fseGetcount [0] (run .fseSetcount [0, 2 ^ 32 - 1] wide)) = [2 ^ 32 - 1, 0, 0, 0] := by
  decide +kernel

/-- A distribution of 31 of 32 states, and one with a share of -2. -/
abbrev unfilled : State := run .fseSetnorm [1, 11, 1, 5] (run .fseSetnorm [0, 20, 1, 5] fresh)

theorem test_witness_BuildEncodingTable :
    (∃ s : State, s.nvalid = false)
    ∧ (∃ s : State, s.nvalid = true ∧ s.slotsBelow (s.nmax.toNat + 1) ≠ 2 ^ s.nlog.toNat)
    ∧ (∃ s : State, s.nvalid = true ∧ ∃ x, s.share x < -1)
    ∧ ∃ s : State, s.DescriptionOk ∧ s.share 0 = 20 ∧ s.share 2 = -1 ∧ s.share 4 = 0 :=
  ⟨⟨fresh, rfl⟩, ⟨unfilled, by decide +kernel⟩,
    ⟨{ unfilled with norm := unfilled.norm.set 0 (-2) }, by decide +kernel, 0, by decide +kernel⟩,
    ⟨withArgs small [], small_description [], by decide +kernel⟩⟩

theorem test_witness_BuildDecodingTable :
    (∃ s : State, s.nvalid = false)
    ∧ (∃ s : State, s.nvalid = true ∧ s.slotsBelow (s.nmax.toNat + 1) ≠ 2 ^ s.nlog.toNat)
    ∧ ∃ s : State, s.DescriptionOk :=
  ⟨⟨fresh, rfl⟩, ⟨unfilled, by decide +kernel⟩, ⟨withArgs small [], small_description []⟩⟩

theorem test_witness_FseSetters_oneSymbol :
    (∃ s : State, s.a0 = 256) ∧ (∃ s : State, s.a0 = (255 : Fin 256).val) ∧ ∃ s : State, s.a0 = (0 : Fin 256).val :=
  ⟨⟨withArgs fresh [256], by decide +kernel⟩, ⟨withArgs fresh [255], by decide +kernel⟩, ⟨fresh, by decide +kernel⟩⟩

/-- The tables of `small`. -/
theorem small_tables : ∃ (c : FseCT) (d : FseDT), small.ct[3] = some c ∧ small.dt[3] = some d
    ∧ c.log = 5 ∧ d.log = 5 ∧ c.present[0] = true ∧ c.present[4] = false ∧ c.maxSym = 3 := by
  have h : (match small.ct[3], small.dt[3] with
      | some c, some d => decide (c.log = 5 ∧ d.log = 5 ∧ c.present[0] = true ∧ c.present[4] = false ∧ c.maxSym = 3)
      | _, _ => false) = true := by decide +kernel
  revert h
  cases hc : small.ct[3] with
  | none => simp
  | some c =>
    cases hd : small.dt[3] with
    | none => simp
    | some d => exact fun h => ⟨c, d, rfl, rfl, of_decide_eq_true h⟩

theorem test_witness_TableInspection_fse :
    (∃ s : State, s.a0 = 256) ∧ (∃ s : State, s.a0 = (255 : Fin 256).val)
    ∧ (∃ s : State, s.dt[(3 : Fin 4)] = none ∧ s.ct[(3 : Fin 4)] = none)
    ∧ (∃ (s : State) (T : FseDT), s.dt[(3 : Fin 4)] = some T ∧ s.a0 = 2 ^ T.log)
    ∧ (∃ (s : State) (T : FseDT), s.dt[(3 : Fin 4)] = some T ∧ s.a0 + 1 = 2 ^ T.log)
    ∧ (∃ (s : State) (T : FseCT), s.ct[(3 : Fin 4)] = some T ∧ s.a1 = 2 ^ max T.log 1)
    ∧ ∃ (s : State) (T : FseCT), s.ct[(3 : Fin 4)] = some T ∧ s.a1 + 1 = 2 ^ max T.log 1
        ∧ (T.present[(0 : Fin 256)] = true) ∧ T.present[(4 : Fin 256)] = false ∧ T.maxSym.toNat < 4 := by
  obtain ⟨c, d, hc, hd, hcl, hdl, h0, h4, hm⟩ := small_tables
  refine ⟨⟨withArgs fresh [256], by decide +kernel⟩, ⟨withArgs fresh [255], by decide +kernel⟩,
    ⟨fresh, by decide +kernel⟩, ⟨withArgs small [32], d, hd, ?_⟩, ⟨withArgs small [31], d, hd, ?_⟩,
    ⟨withArgs small [0, 32], c, hc, ?_⟩, ⟨withArgs small [0, 31], c, hc, ?_, h0, h4, by rw [hm]; decide⟩⟩
  · rw [hdl]; rfl
  · rw [hdl]; rfl
  · rw [hcl]; rfl
  · rw [hcl]; rfl

/-- A built table with an absent symbol below its highest (R237, R250). -/
theorem test_witness_TableInspection_absent : ∃ (s : State) (T : FseCT), s.ct[(3 : Fin 4)] = some T
    ∧ s.a0 = (1 : Fin 256).val ∧ s.a1 < 2 ^ max T.log 1 ∧ T.log ≠ 0 ∧ 1 ≤ T.maxSym.toNat
    ∧ T.present[(1 : Fin 256)] = false := by
  let s : State :=
    withArgs (run (.fseBuildCt 3) [] (run .fseSetnorm [2, 12, 2, 5] (run .fseSetnorm [0, 20, 2, 5] fresh))) [1]
  have h : (match s.ct[3] with
      | some c => decide (s.a1 < 2 ^ max c.log 1 ∧ c.log ≠ 0 ∧ 1 ≤ c.maxSym.toNat ∧ c.present[1] = false)
      | none => false) = true := by decide +kernel
  revert h
  cases hc : s.ct[3] with
  | none => simp
  | some c => exact fun h => ⟨s, c, hc, by decide +kernel, of_decide_eq_true h⟩

/-- `small` with an open writer holding `cnt` bits, the encoder state `st` in `ES[0]` and a symbol. -/
abbrev enc (cnt st x : Nat) : State :=
  withArgs { small with
    bw := { acc := 0, cnt := cnt, base := 0x1000, cap := 16, cur := 0, ovf := false, valid := true }
    es := #v[BitVec.ofNat 16 st, 0, 0, 0] } [x]

theorem test_witness_FseStepCommands_encoder :
    (∃ s : State, s.ct[(3 : Fin 4)] = none)
    ∧ ∃ T : FseCT, T.log = 5
      ∧ (∃ s : State, s.ct[(3 : Fin 4)] = some T ∧ s.a0 = 256 ∧ s.bw.valid = true ∧ (s.es[(0 : Fin 4)]).toNat = 2 ^ T.log)
      ∧ (∃ s : State, s.ct[(3 : Fin 4)] = some T ∧ s.bw.valid = true ∧ (s.es[(0 : Fin 4)]).toNat = 2 ^ (T.log + 1))
      ∧ (∃ s : State, s.ct[(3 : Fin 4)] = some T ∧ s.a0 = (4 : Fin 256).val ∧ T.present[(4 : Fin 256)] = false
          ∧ s.bw.valid = true ∧ (s.es[(0 : Fin 4)]).toNat = 2 ^ T.log)
      ∧ (∃ s : State, s.ct[(3 : Fin 4)] = some T ∧ s.a0 = (0 : Fin 256).val ∧ T.present[(0 : Fin 256)] = true
          ∧ s.bw.valid = true ∧ (s.es[(0 : Fin 4)]).toNat + 1 = 2 ^ (T.log + 1) ∧ s.bw.cnt + T.log = 64)
      ∧ ∃ s : State, s.ct[(3 : Fin 4)] = some T ∧ s.bw.valid = true ∧ (s.es[(0 : Fin 4)]).toNat = 2 ^ T.log
          ∧ 64 < s.bw.cnt + T.log := by
  obtain ⟨c, d, hc, hd, hcl, hdl, h0, h4, hm⟩ := small_tables
  refine ⟨⟨fresh, by decide +kernel⟩, c, hcl, ⟨enc 0 32 256, hc, rfl, rfl, ?_⟩, ⟨enc 0 64 0, hc, rfl, ?_⟩,
    ⟨enc 0 32 4, hc, rfl, h4, rfl, ?_⟩, ⟨enc 59 63 0, hc, rfl, h0, rfl, ?_, ?_⟩, ⟨enc 60 32 0, hc, rfl, ?_, ?_⟩⟩ <;>
    rw [hcl] <;> first | rfl | decide

/-- `small` with an open reader at counter `unl` and the decoder state `st` in `DS[0]`. -/
abbrev dec (unl st : Nat) : State :=
  { small with
    br := { base := 0x1000, len := 8, pos := 60, unl := unl, valid := true }
    ds := #v[BitVec.ofNat 16 st, 0, 0, 0] }

theorem test_witness_FseStepCommands_decoder :
    (∃ s : State, s.dt[(3 : Fin 4)] = none)
    ∧ ∃ T : FseDT, T.log = 5
      ∧ (∃ s : State, s.dt[(3 : Fin 4)] = some T ∧ s.br.valid = false)
      ∧ (∃ s : State, s.dt[(3 : Fin 4)] = some T ∧ s.br.valid = true ∧ s.br.unl + T.log = 58)
      ∧ (∃ s : State, s.dt[(3 : Fin 4)] = some T ∧ s.br.valid = true ∧ s.br.unl + T.log = 57)
      ∧ (∃ s : State, s.dt[(3 : Fin 4)] = some T ∧ (s.ds[(0 : Fin 4)]).toNat = 2 ^ T.log)
      ∧ (∃ s : State, s.dt[(3 : Fin 4)] = some T ∧ (s.ds[(0 : Fin 4)]).toNat + 1 = 2 ^ T.log ∧ s.br.valid = true
          ∧ 57 < s.br.unl + (T.entry 31).nb.toNat)
      ∧ ∃ s : State, s.dt[(3 : Fin 4)] = some T ∧ (s.ds[(0 : Fin 4)]).toNat = 0 ∧ s.br.valid = true
          ∧ s.br.unl + (T.entry 0).nb.toNat ≤ 57 := by
  have h31 : (small.dt[3].map fun d => ((d.entry 31).nb.toNat, (d.entry 0).nb.toNat)) = some (5, 1) := by
    decide +kernel
  obtain ⟨c, d, hc, hd, hcl, hdl, -⟩ := small_tables
  rw [hd] at h31
  simp only [Option.map_some, Option.some.injEq, Prod.mk.injEq] at h31
  refine ⟨⟨fresh, by decide +kernel⟩, d, hdl, ⟨small, hd, by decide +kernel⟩, ⟨dec 53 0, hd, rfl, by rw [hdl]⟩,
    ⟨dec 52 0, hd, rfl, by rw [hdl]⟩, ⟨dec 0 32, hd, by rw [hdl]; rfl⟩, ⟨dec 53 31, hd, by rw [hdl]; rfl, rfl, ?_⟩,
    ⟨dec 56 0, hd, rfl, rfl, ?_⟩⟩
  · rw [h31.1]; decide
  · rw [h31.2]

/-- Both tables of the distribution of §2.2. -/
theorem built : ∃ (c : FseCT) (d : FseDT), checkedCT [20, 10, -1, -1] 5 = .ok c ∧ checkedDT [20, 10, -1, -1] 5 = .ok d
    ∧ c.has 0 = true ∧ c.has 2 = true ∧ compress2 c (bytes [0, 2]) 16 ≠ [] := by
  obtain ⟨c, hc, h⟩ := exists_ok (x := checkedCT [20, 10, -1, -1] 5)
    (p := fun c => c.has 0 && c.has 2 && !(compress2 c (bytes [0, 2]) 16).isEmpty) (by decide +kernel)
  obtain ⟨d, hd, -⟩ := exists_ok (x := checkedDT [20, 10, -1, -1] 5) (p := fun _ => true) (by decide +kernel)
  simp only [Bool.and_eq_true, Bool.not_eq_true', List.isEmpty_eq_false_iff] at h
  exact ⟨c, d, hc, hd, h.1.1, h.1.2, h.2⟩

theorem test_witness_FseStepsInvert : ∃ (norm : List Int) (tl : Nat) (c : FseCT) (d : FseDT) (x st : Nat),
    5 ≤ tl ∧ tl ≤ 12 ∧ norm.length ≤ 256 ∧ checkedCT norm tl = .ok c ∧ checkedDT norm tl = .ok d ∧ c.has x = true
      ∧ 2 ^ tl ≤ st ∧ st < 2 ^ (tl + 1) := by
  obtain ⟨c, d, hc, hd, -, h2, -⟩ := built
  exact ⟨_, 5, c, d, 2, 63, by decide, by decide, by decide, hc, hd, h2, by decide, by decide⟩

/-- Two windows that are not legal or share a byte (R82, R85). -/
abbrev overlapping (s : State) : Prop :=
  2 ^ 31 ≤ s.a1 ∨ 2 ^ 64 < s.a0 + s.a1 ∨ 2 ^ 31 ≤ s.a3 ∨ 2 ^ 64 < s.a2 + s.a3
    ∨ ∃ x, s.a0 ≤ x ∧ x < s.a0 + s.a1 ∧ s.a2 ≤ x ∧ x < s.a2 + s.a3

theorem apart {s : State} (h : windowPairOk s.a0 s.a1 s.a2 s.a3 = true) : ¬ overlapping s := by
  rw [overlapping, ← windowPairOk_eq_false, h]
  exact Bool.noConfusion

/-- Each way a pair of windows is bad, at its boundary, and the pairs that just are not: a last common byte, windows
that touch, and an empty window inside the other. -/
theorem test_witness_windows :
    (∃ s : State, s.a1 = 2 ^ 31 ∧ overlapping s) ∧ (∃ s : State, s.a0 + s.a1 = 2 ^ 64 + 1 ∧ overlapping s)
    ∧ (∃ s : State, s.a3 = 2 ^ 31 ∧ overlapping s) ∧ (∃ s : State, s.a2 + s.a3 = 2 ^ 64 + 1 ∧ overlapping s)
    ∧ (∃ s : State, s.a0 + s.a1 = s.a2 + 1 ∧ overlapping s) ∧ (∃ s : State, s.a0 + s.a1 = s.a2 ∧ ¬ overlapping s)
    ∧ (∃ s : State, s.a2 + s.a3 = 2 ^ 64 ∧ s.a1 + 1 = 2 ^ 31 ∧ ¬ overlapping s)
    ∧ ∃ s : State, s.a0 < s.a2 ∧ s.a2 < s.a0 + s.a1 ∧ s.a3 = 0 ∧ ¬ overlapping s :=
  ⟨⟨withArgs fresh [0, 2 ^ 31, 2 ^ 40, 1], by decide +kernel, .inl (by decide +kernel)⟩,
    ⟨withArgs fresh [2 ^ 64 - 1, 2, 0, 1], by decide +kernel, .inr (.inl (by decide +kernel))⟩,
    ⟨withArgs fresh [0, 1, 2 ^ 40, 2 ^ 31], by decide +kernel, .inr (.inr (.inl (by decide +kernel)))⟩,
    ⟨withArgs fresh [0, 1, 2 ^ 64 - 1, 2], by decide +kernel, .inr (.inr (.inr (.inl (by decide +kernel))))⟩,
    ⟨withArgs fresh [0x100, 2, 0x101, 2], by decide +kernel, .inr (.inr (.inr (.inr ⟨0x101, by decide +kernel⟩)))⟩,
    ⟨withArgs fresh [0x100, 2, 0x102, 2], by decide +kernel, apart (by decide +kernel)⟩,
    ⟨withArgs fresh [0, 2 ^ 31 - 1, 2 ^ 64 - 4, 4], by decide +kernel, by decide +kernel, apart (by decide +kernel)⟩,
    ⟨withArgs fresh [0x100, 4, 0x102, 0], by decide +kernel, by decide +kernel, by decide +kernel,
      apart (by decide +kernel)⟩⟩

theorem test_witness_TwoStateCommands :
    (∃ s : State, overlapping s)
    ∧ (∃ s : State, ¬ overlapping s ∧ s.ct[(3 : Fin 4)] = none ∧ s.dt[(3 : Fin 4)] = none)
    ∧ (∃ (s : State) (T : FseCT), ¬ overlapping s ∧ s.ct[(3 : Fin 4)] = some T ∧ s.a1 = 1)
    ∧ (∃ (s : State) (T : FseCT), ¬ overlapping s ∧ s.ct[(3 : Fin 4)] = some T ∧ s.a1 = 2
        ∧ ∀ b ∈ s.window s.a0 s.a1, T.has b.toNat = true)
    ∧ (∃ (s : State) (T : FseDT) (e : Err), ¬ overlapping s ∧ s.dt[(3 : Fin 4)] = some T
        ∧ decompress2 T (s.window s.a0 s.a1) s.a3 = .error e)
    ∧ ∃ (s : State) (T : FseDT) (out : List Byte), ¬ overlapping s
        ∧ s.dt[(3 : Fin 4)] = some T ∧ decompress2 T (s.window s.a0 s.a1) s.a3 = .ok out := by
  have hh : (small.ct[3].map fun c => c.has 0) = some true := by decide +kernel
  have h1 : (small.dt[3].map fun d => errAnd (decompress2 d (bytes [0]) 16) fun _ => true) = some true := by
    decide +kernel
  have h2 : (small.dt[3].map fun d => okAnd (decompress2 d (bytes [0, 4]) 2) fun _ => true) = some true := by
    decide +kernel
  obtain ⟨c, d, hc, hd, -⟩ := small_tables
  rw [hc] at hh
  rw [hd] at h1 h2
  simp only [Option.map_some, Option.some.injEq] at hh h1 h2
  obtain ⟨e, he, -⟩ := exists_error h1
  obtain ⟨out, ho, -⟩ := exists_ok h2
  refine ⟨⟨withArgs fresh [0x100, 2, 0x101, 2], .inr (.inr (.inr (.inr ⟨0x101, by decide +kernel⟩)))⟩,
    ⟨withArgs fresh [0x100, 2, 0x102, 2], apart (by decide +kernel), by decide +kernel, by decide +kernel⟩,
    ⟨withArgs small [0x100, 1, 0x300, 16], c, apart (by decide +kernel), hc, by decide +kernel⟩,
    ⟨withArgs small [0x100, 2, 0x300, 16], c, apart (by decide +kernel), hc, by decide +kernel, ?_⟩,
    ⟨withArgs small [0x100, 1, 0x300, 16], d, e, apart (by decide +kernel), hd, ?_⟩,
    ⟨withArgs (put small 0x100 [0, 4]) [0x100, 2, 0x300, 2], d, out, apart (by decide +kernel), ?_, ?_⟩⟩
  · have hw : (withArgs small [0x100, 2, 0x300, 16]).window 0x100 2 = bytes [0, 0] := by decide +kernel
    intro b hb
    have hb' : b ∈ bytes [0, 0] := hw ▸ hb
    simp [bytes] at hb'
    rw [hb']
    exact hh
  · have hw : (withArgs small [0x100, 1, 0x300, 16]).window 0x100 1 = bytes [0] := by decide +kernel
    exact (congrArg (fun w => decompress2 d w 16) hw).trans he
  · exact hd
  · have hw : (withArgs (put small 0x100 [0, 4]) [0x100, 2, 0x300, 2]).window 0x100 2 = bytes [0, 4] := by
      decide +kernel
    exact (congrArg (fun w => decompress2 d w 2) hw).trans ho

theorem test_witness_TwoStateRoundTrip : ∃ (norm : List Int) (tl : Nat) (c : FseCT) (d : FseDT) (xs : List Byte)
    (cap cap' : Nat), 5 ≤ tl ∧ tl ≤ 12 ∧ norm.length ≤ 256 ∧ (∀ n ∈ norm, n < 2 ^ tl) ∧ checkedCT norm tl = .ok c
      ∧ checkedDT norm tl = .ok d ∧ 2 ≤ xs.length ∧ (∀ x ∈ xs, c.has x.toNat = true) ∧ compress2 c xs cap ≠ []
      ∧ xs.length ≤ cap' := by
  obtain ⟨c, d, hc, hd, h0, h2, h3⟩ := built
  refine ⟨_, 5, c, d, bytes [0, 2], 16, 2, by decide, by decide, by decide, by decide, hc, hd, by decide, ?_, h3,
    by decide⟩
  intro x hx
  simp [bytes] at hx
  rcases hx with rfl | rfl
  · exact h0
  · exact h2

/-! Huffman and literals -/

theorem test_witness_HuffmanBuild :
    (∃ s : State, s.a0 = 0) ∧ (∃ s : State, s.a0 = 12) ∧ (∃ s : State, s.a1 = 256)
    ∧ (∃ s : State, 1 ≤ s.a0 ∧ s.a0 ≤ 11 ∧ s.a1 ≤ 255 ∧ (s.countList s.a1).countP (fun c => decide (0 < c)) = 1)
    ∧ (∃ s : State, 1 ≤ s.a0 ∧ s.a0 ≤ 11 ∧ s.a1 ≤ 255 ∧ 2 ≤ (s.countList s.a1).countP (fun c => decide (0 < c))
        ∧ (s.countList s.a1).getD s.a1 0 = 0)
    ∧ (∃ s : State, 1 ≤ s.a0 ∧ s.a0 ≤ 11 ∧ s.a1 ≤ 255
        ∧ 2 ^ s.a0 < (s.countList s.a1).countP (fun c => decide (0 < c)))
    ∧ ∃ s : State, 1 ≤ s.a0 ∧ s.a0 ≤ 11 ∧ s.a1 ≤ 255 ∧ (s.countList s.a1).getD s.a1 0 ≠ 0
        ∧ (s.countList s.a1).countP (fun c => decide (0 < c)) = 2 ^ s.a0 :=
  ⟨⟨fresh, by decide +kernel⟩, ⟨withArgs fresh [12], by decide +kernel⟩, ⟨withArgs fresh [1, 256], by decide +kernel⟩,
    ⟨withArgs counted [11, 0], by decide +kernel⟩, ⟨withArgs counted [11, 255], by decide +kernel⟩,
    ⟨withArgs counted [1, 2], by decide +kernel⟩, ⟨withArgs counted [1, 1], by decide +kernel⟩⟩

theorem test_witness_UnlimitedLengthsComplete : ∃ (tie : Config.HufTie) (counts : List Nat) (maxBits : Nat),
    2 ≤ counts.countP (fun c => decide (0 < c)) ∧ ∀ l ∈ rankLengths tie (rankedLeaves counts), l ≤ maxBits :=
  ⟨.internal, [5, 2, 0, 2, 1, 1], 4, by decide +kernel⟩

/-- A histogram whose tree is deeper than the limit. -/
theorem test_witness_LimitedLengthsComplete : ∃ (tie : Config.HufTie) (counts : List Nat) (maxBits : Nat),
    maxBits ≤ 11 ∧ 2 ≤ counts.countP (fun c => decide (0 < c)) ∧ counts.countP (fun c => decide (0 < c)) ≤ 2 ^ maxBits
      ∧ ∃ l ∈ rankLengths tie (rankedLeaves counts), maxBits < l :=
  ⟨.leaf, [1, 1, 2, 3, 5, 8, 13, 21, 34, 55, 89, 144, 233, 377], 11, by decide +kernel⟩

/-- The table of `huff` and the one read from its description. -/
theorem huff_tables : ∃ (T : HufTable) (d : HufDec), huffDec.ht[1] = some T ∧ huffDec.hd = some d ∧ d.log = 3
    ∧ (T.len[0] ≠ 0 ∧ T.len[5] = 0) ∧ okAnd (hufDescription T 3) (fun _ => true) = true
    ∧ errAnd (hufDescription T 2) (fun _ => true) = true ∧ okAnd (dec1 d (bytes [0x4F, 0xC1]) 7) (fun _ => true) = true
    ∧ errAnd (dec1 d [] 7) (fun _ => true) = true := by
  have h : (match huffDec.ht[1], huffDec.hd with
      | some T, some d => decide (d.log = 3 ∧ (T.len[0] ≠ 0 ∧ T.len[5] = 0)
          ∧ okAnd (hufDescription T 3) (fun _ => true) = true ∧ errAnd (hufDescription T 2) (fun _ => true) = true
          ∧ okAnd (dec1 d (bytes [0x4F, 0xC1]) 7) (fun _ => true) = true ∧ errAnd (dec1 d [] 7) (fun _ => true) = true)
      | _, _ => false) = true := by decide +kernel
  revert h
  cases hT : huffDec.ht[1] with
  | none => simp
  | some T =>
    cases hd : huffDec.hd with
    | none => simp
    | some d => exact fun h => ⟨T, d, rfl, rfl, of_decide_eq_true h⟩

theorem test_witness_HuffmanDescriptionCommands :
    (∃ s : State, 2 ^ 31 ≤ s.a1) ∧ (∃ s : State, s.ht[(1 : Fin 2)] = none ∧ s.a1 = 0)
    ∧ (∃ (s : State) (T : HufTable) (x : Err), s.ht[(1 : Fin 2)] = some T ∧ hufDescription T s.a1 = .error x)
    ∧ (∃ (s : State) (T : HufTable) (out : List Byte), s.ht[(1 : Fin 2)] = some T ∧ hufDescription T s.a1 = .ok out)
    ∧ (∃ (s : State) (x : Err), readHuf (s.window s.a0 s.a1) = .error x)
    ∧ ∃ (s : State) (d : HufDescription), readHuf (s.window s.a0 s.a1) = .ok d := by
  obtain ⟨T, d, hT, -, -, -, h1, h2, -⟩ := huff_tables
  obtain ⟨out, ho, -⟩ := exists_ok h1
  obtain ⟨x, hx, -⟩ := exists_error h2
  obtain ⟨y, hy, -⟩ := exists_error (x := readHuf []) (p := fun _ => true) (by decide +kernel)
  obtain ⟨e, he, -⟩ := exists_ok
    (x := readHuf ((withArgs (put fresh 0x200 [0x81, 0x10]) [0x200, 2]).window 0x200 2)) (p := fun _ => true)
    (by decide +kernel)
  exact ⟨⟨withArgs fresh [0, 2 ^ 31], by decide +kernel⟩, ⟨fresh, by decide +kernel⟩,
    ⟨withArgs huffDec [0, 2], T, x, hT, hx⟩, ⟨withArgs huffDec [0, 3], T, out, hT, ho⟩, ⟨fresh, y, hy⟩, ⟨_, e, he⟩⟩

theorem test_witness_WeightsRebuildCode : ∃ (lens : List Nat) (M : Nat), 1 ≤ M ∧ M ≤ 11 ∧ lens.length ≤ 256
    ∧ CodeComplete lens M ∧ listMax lens = M ∧ lens.getLast? ≠ some 0 := by
  refine ⟨[1, 0, 3, 3, 2], 3, by decide, by decide, by decide, ?_, by decide, by decide⟩
  unfold CodeComplete
  decide

theorem test_witness_HuffmanStreamCommands :
    (∃ s : State, overlapping s)
    ∧ (∃ s : State, ¬ overlapping s ∧ s.a1 = 131073)
    ∧ (∃ s : State, ¬ overlapping s ∧ s.a1 = 131072 ∧ s.ht[(1 : Fin 2)] = none)
    ∧ (∃ (s : State) (T : HufTable), ¬ overlapping s ∧ s.a1 ≤ 131072
        ∧ s.ht[(1 : Fin 2)] = some T ∧ ∃ b ∈ s.window s.a0 s.a1, T.lenOf b.toNat = 0)
    ∧ (∃ (s : State) (T : HufTable), ¬ overlapping s ∧ s.a1 = 1
        ∧ s.ht[(1 : Fin 2)] = some T ∧ ∀ b ∈ s.window s.a0 s.a1, T.lenOf b.toNat ≠ 0)
    ∧ (∃ s : State, ¬ overlapping s ∧ s.a3 = 131073)
    ∧ (∃ s : State, ¬ overlapping s ∧ s.a3 = 131072 ∧ s.hd = none)
    ∧ (∃ (s : State) (T : HufDec) (x : Err), ¬ overlapping s ∧ s.hd = some T
        ∧ dec1 T (s.window s.a0 s.a1) s.a3 = .error x)
    ∧ ∃ (s : State) (T : HufDec) (out : List Byte), ¬ overlapping s ∧ s.hd = some T
        ∧ dec1 T (s.window s.a0 s.a1) s.a3 = .ok out := by
  obtain ⟨T, d, hT, hd, -, ⟨hl0, hl5⟩, -, -, h1, h2⟩ := huff_tables
  obtain ⟨out, ho, -⟩ := exists_ok h1
  obtain ⟨x, hx, -⟩ := exists_error h2
  have w5 : (withArgs (put huffDec 0x300 [5]) [0x300, 1, 0x400, 16]).window 0x300 1 = bytes [5] := by decide +kernel
  have w0 : (withArgs (put huffDec 0x300 [0]) [0x300, 1, 0x400, 16]).window 0x300 1 = bytes [0] := by decide +kernel
  have wd : (withArgs (put huffDec 0x300 [0x4F, 0xC1]) [0x300, 2, 0x400, 7]).window 0x300 2 = bytes [0x4F, 0xC1] := by
    decide +kernel
  refine ⟨⟨withArgs fresh [0x100, 2, 0x101, 2], .inr (.inr (.inr (.inr ⟨0x101, by decide +kernel⟩)))⟩,
    ⟨withArgs fresh [0, 131073, 2 ^ 20, 2], apart (by decide +kernel), by decide +kernel⟩,
    ⟨withArgs fresh [0, 131072, 2 ^ 20, 2], apart (by decide +kernel), by decide +kernel, by decide +kernel⟩,
    ⟨withArgs (put huffDec 0x300 [5]) [0x300, 1, 0x400, 16], T, apart (by decide +kernel), by decide +kernel, hT, 5, ?_, ?_⟩,
    ⟨withArgs (put huffDec 0x300 [0]) [0x300, 1, 0x400, 16], T, apart (by decide +kernel), by decide +kernel, hT, ?_⟩,
    ⟨withArgs fresh [2 ^ 20, 2, 0, 131073], apart (by decide +kernel), by decide +kernel⟩,
    ⟨withArgs fresh [2 ^ 20, 2, 0, 131072], apart (by decide +kernel), by decide +kernel, by decide +kernel⟩,
    ⟨withArgs huffDec [0x300, 0, 0x400, 7], d, x, apart (by decide +kernel), hd, hx⟩,
    ⟨withArgs (put huffDec 0x300 [0x4F, 0xC1]) [0x300, 2, 0x400, 7], d, out, apart (by decide +kernel), hd, ?_⟩⟩
  · exact w5 ▸ (by decide : (5 : Byte) ∈ bytes [5])
  · show (at256 T.len 5 0).toNat = 0
    simp [at256, hl5]
  · intro b hb
    have hb' : b ∈ bytes [0] := w0 ▸ hb
    simp [bytes] at hb'
    subst hb'
    show (at256 T.len 0 0).toNat ≠ 0
    simpa [at256, BitVec.toNat_eq] using hl0
  · exact (congrArg (fun w => dec1 d w 7) wd).trans ho

/-- A two-symbol code and its decoding table. -/
def pair : HufTable := hufTableOf [1, 1]

def pairDec : HufDec := { log := 1, entries := [{ sym := 0, nb := 1 }, { sym := 1, nb := 1 }] }

theorem pair_matches : TableMatches pair pairDec := by
  refine ⟨by decide, ?_⟩
  have h : ∀ x : Fin 256, pair.lenOf x.val ≠ 0 → pair.lenOf x.val ≤ pairDec.log ∧ pair.valOf x.val < 2 ^ pair.lenOf x.val ∧
      ∀ i : Fin 2, i.val >>> (pairDec.log - pair.lenOf x.val) = pair.valOf x.val →
        (pairDec.entry i.val).sym.toNat = x.val ∧ (pairDec.entry i.val).nb.toNat = pair.lenOf x.val := by
    decide +kernel
  intro x hx h0
  obtain ⟨h1, h2, h3⟩ := h ⟨x, hx⟩ h0
  exact ⟨h1, h2, fun i hi => h3 ⟨i, hi⟩⟩

theorem test_witness_HuffmanStreamRoundTrip : ∃ (T : HufTable) (d : HufDec) (xs : List Byte) (cap : Nat),
    TableMatches T d ∧ (∀ x ∈ xs, T.lenOf x.toNat ≠ 0) ∧ xs.length ≤ 131072 ∧ enc1 T xs cap ≠ [] ∧ enc4 T xs cap ≠ [] :=
  ⟨pair, pairDec, bytes [0, 1, 0, 0, 0, 1, 1, 0, 0, 1, 0, 1], 64, pair_matches, by decide +kernel⟩

theorem test_witness_TableInspection_huffman :
    (∃ s : State, s.a0 = 256) ∧ (∃ s : State, s.a0 = 255 ∧ s.ht[(1 : Fin 2)] = none)
    ∧ (∃ (s : State) (T : HufTable), s.ht[(1 : Fin 2)] = some T ∧ s.a0 = (255 : Fin 256).val)
    ∧ (∃ (s : State) (T : HufTable), s.ht[(1 : Fin 2)] = some T ∧ s.a0 = (0 : Fin 256).val ∧ T.len[(0 : Fin 256)] ≠ 0)
    ∧ (∃ s : State, s.hd = none) ∧ (∃ (s : State) (d : HufDec), s.hd = some d ∧ s.a0 = 2 ^ d.log)
    ∧ ∃ (s : State) (d : HufDec), s.hd = some d ∧ s.a0 + 1 = 2 ^ d.log := by
  obtain ⟨T, d, hT, hd, hl, ⟨hl0, -⟩, -⟩ := huff_tables
  exact ⟨⟨withArgs fresh [256], by decide +kernel⟩, ⟨withArgs fresh [255], by decide +kernel⟩,
    ⟨withArgs huffDec [255], T, hT, by decide +kernel⟩, ⟨withArgs huffDec [0], T, hT, by decide +kernel, hl0⟩,
    ⟨fresh, rfl⟩, ⟨withArgs huffDec [8], d, hd, by rw [hl]; rfl⟩, ⟨withArgs huffDec [7], d, hd, by rw [hl]; rfl⟩⟩

theorem test_witness_LiteralsCommands :
    (∃ s : State, 2 ^ 64 < s.a0 + s.a1)
    ∧ (∃ (s : State) (e : Err), s.a1 = 0
        ∧ (encodeLiterals s.params.hufTie s.ht[0] s.ht[1] s.ss.lit s.a1).out = .error e)
    ∧ (∃ (s : State) (out : List Byte),
        (encodeLiterals s.params.hufTie s.ht[0] s.ht[1] s.ss.lit s.a1).out = .ok out)
    ∧ (∃ (s : State) (e : Err), (decodeLiterals s.hd (s.window s.a0 s.a1)).2 = .error e)
    ∧ (∃ (s : State) (x : LitDecoded), (decodeLiterals s.hd (s.window s.a0 s.a1)).2 = .ok x)
    ∧ (∃ s : State, s.dlit.length ≤ s.a0) ∧ ∃ (s : State) (b : Byte), s.dlit[s.a0]? = some b := by
  obtain ⟨e, he, -⟩ := exists_error (x := (encodeLiterals .leaf none none [] 0).out) (p := fun _ => true)
    (by decide +kernel)
  obtain ⟨o, ho, -⟩ := exists_ok (x := (encodeLiterals .leaf none none [] 1).out) (p := fun _ => true)
    (by decide +kernel)
  obtain ⟨x, hx, -⟩ := exists_error (x := (decodeLiterals none []).2) (p := fun _ => true) (by decide +kernel)
  obtain ⟨y, hy, -⟩ := exists_ok (x := (decodeLiterals none ((withArgs fresh [0, 1]).window 0 1)).2)
    (p := fun _ => true) (by decide +kernel)
  exact ⟨⟨withArgs fresh [2 ^ 64 - 1, 2], by decide +kernel⟩, ⟨fresh, e, by decide +kernel, he⟩,
    ⟨withArgs fresh [0, 1], o, ho⟩, ⟨fresh, x, hx⟩, ⟨withArgs fresh [0, 1], y, hy⟩, ⟨fresh, by decide +kernel⟩,
    ⟨withArgs { fresh with dlit := [7, 8] } [1], 8, by decide +kernel⟩⟩

theorem test_witness_PlainLiteralsRoundTrip :
    (∃ (s : State) (lits rest : List Byte), s.a1 < 2 ^ 31 ∧ s.a0 + s.a1 ≤ 2 ^ 64 ∧ lits.length ≤ 131072
      ∧ s.window s.a0 s.a1 = plainHeader 0 lits.length ++ lits ++ rest ∧ lits ≠ [] ∧ rest ≠ [])
    ∧ ∃ (s : State) (n : Nat) (b : Byte) (rest : List Byte), s.a1 < 2 ^ 31 ∧ s.a0 + s.a1 ≤ 2 ^ 64 ∧ n = 131072
      ∧ s.window s.a0 s.a1 = plainHeader 1 n ++ [b] ++ rest :=
  ⟨⟨withArgs (put fresh 0x300 [0x08, 0x78]) [0x300, 3], [0x78], [0], by decide +kernel⟩,
    ⟨withArgs (put fresh 0x300 [0x0D, 0x00, 0x20, 0x61]) [0x300, 4], 131072, 0x61, [], by decide +kernel⟩⟩

/-- 64 literals of two symbols, with a table for them in `HT[0]`. -/
abbrev paired : State :=
  withArgs { fresh with
    ht := #v[some pair, none]
    ss := { SeqStore.reset with lit := (List.range 64).map fun i => BitVec.ofNat 8 (i * i * i / 3 % 2) } } [0x5000, 600]

/-- A Raw section followed by another byte, and a Treeless one. -/
theorem test_witness_LiteralsRoundTrip :
    (∃ s t u : State, s.errKind = 0 ∧ s.LimitsOk ∧ exec .litEncode s = .next t ∧ t.errKind = 0
      ∧ (t.res[0]).toNat < u.a1 ∧ u.a1 < 2 ^ 31 ∧ u.a0 + u.a1 ≤ 2 ^ 64
      ∧ (∀ j, j < (t.res[0]).toNat → u.mem.read (u.a0 + j) = t.mem.read (s.a0 + j)) ∧ t.res[1] = 0 ∧ s.ss.lit ≠ [])
    ∧ ∃ s t u : State, s.errKind = 0 ∧ s.LimitsOk ∧ exec .litEncode s = .next t ∧ t.errKind = 0
      ∧ (t.res[0]).toNat ≤ u.a1 ∧ u.a1 < 2 ^ 31 ∧ u.a0 + u.a1 ≤ 2 ^ 64
      ∧ (∀ j, j < (t.res[0]).toNat → u.mem.read (u.a0 + j) = t.mem.read (s.a0 + j)) ∧ t.res[1] = 3
      ∧ ∃ T d, s.ht[0] = some T ∧ u.hd = some d ∧ TableMatches T d := by
  constructor
  · obtain ⟨t, h, ht⟩ := exists_next (o := exec .litEncode (withArgs stored [0x5000, 64]))
      (p := fun t => t.errKind == 0 && t.res[0] == 12 && t.res[1] == 0) (by decide +kernel)
    simp only [Bool.and_eq_true, beq_iff_eq] at ht
    obtain ⟨⟨he, h0⟩, h1⟩ := ht
    exact ⟨_, t, withArgs t [0x5000, 13], by decide +kernel,
      limits_of (by decide +kernel) (by decide +kernel) (by decide +kernel) (by decide +kernel), h, he,
      by rw [h0]; exact (by decide : (12 : DWord).toNat < 13), (by decide : 13 < 2 ^ 31),
      (by decide : 0x5000 + 13 ≤ 2 ^ 64), fun _ _ => rfl, h1,
      by decide +kernel⟩
  · obtain ⟨t, h, ht⟩ := exists_next (o := exec .litEncode paired)
      (p := fun t => t.errKind == 0 && t.res[0] == 12 && t.res[1] == 3) (by decide +kernel)
    simp only [Bool.and_eq_true, beq_iff_eq] at ht
    obtain ⟨⟨he, h0⟩, h1⟩ := ht
    exact ⟨_, t, withArgs { t with hd := some pairDec } [0x5000, 12], by decide +kernel,
      limits_of (by decide +kernel) rfl rfl (by decide +kernel), h, he,
      by rw [h0]; exact (by decide : (12 : DWord).toNat ≤ 12), (by decide : 12 < 2 ^ 31),
      (by decide : 0x5000 + 12 ≤ 2 ^ 64), fun _ _ => rfl, h1,
      pair, pairDec, rfl, rfl, pair_matches⟩

/-! Match finder, store, sequences and replay -/

/-- A match finder that has been set up with the given operands next. -/
abbrev finder (l : List Nat) : State := withArgs { fresh with mfValid := true, mfcfg := 0x000C554A } l

theorem test_witness_MatchFinderSetup :
    (∃ s : State, s.a1 = 2 ^ 22) ∧ (∃ s : State, s.a1 < 2 ^ 22 ∧ s.a1 % 32 = 5) ∧ (∃ s : State, s.a1 < 2 ^ 22 ∧ s.a1 % 32 = 25)
    ∧ (∃ s : State, s.a1 = 0x0004554A ∧ s.a1 / 2 ^ 19 % 8 = 0)
    ∧ (∃ s : State, s.a1 < 2 ^ 22 ∧ 6 ≤ s.a1 % 32 ∧ s.a1 % 32 ≤ 24 ∧ 6 ≤ s.a1 / 2 ^ 5 % 32 ∧ s.a1 / 2 ^ 5 % 32 ≤ 24
        ∧ 3 ≤ s.a1 / 2 ^ 10 % 16 ∧ s.a1 / 2 ^ 10 % 16 ≤ 7 ∧ 10 ≤ s.a1 / 2 ^ 14 % 32 ∧ s.a1 / 2 ^ 14 % 32 ≤ 31
        ∧ s.a1 / 2 ^ 19 % 8 = 1)
    ∧ (∃ s : State, s.mfValid = false) ∧ (∃ s : State, s.mfValid = true ∧ s.a0 = 2 ^ 32)
    ∧ (∃ s : State, s.mfValid = true ∧ s.a0 = 2 ^ (s.mfcfg.toNat / 2 ^ 14 % 32) + 1 ∧ s.wbo.toNat < 1)
    ∧ (∃ s : State, s.mfValid = true ∧ s.a0 = 2 ^ (s.mfcfg.toNat / 2 ^ 14 % 32))
    ∧ ∃ s : State, s.mfValid = true ∧ s.a0 + 1 = 2 ^ (s.mfcfg.toNat / 2 ^ 14 % 32) :=
  ⟨⟨withArgs fresh [0, 2 ^ 22], by decide +kernel⟩, ⟨withArgs fresh [0, 0x000C5545], by decide +kernel⟩,
    ⟨withArgs fresh [0, 0x000C5559], by decide +kernel⟩, ⟨withArgs fresh [0, 0x0004554A], by decide +kernel⟩,
    ⟨withArgs fresh [0, 0x000C554A], by decide +kernel⟩, ⟨fresh, rfl⟩, ⟨finder [2 ^ 32], by decide +kernel⟩,
    ⟨finder [131073], by decide +kernel⟩, ⟨finder [131072], by decide +kernel⟩, ⟨finder [131071], by decide +kernel⟩⟩

theorem finder_limits (l : List Nat) : (finder l).LimitsOk := by
  have h : (finder []).LimitsOk := limits_of (by decide +kernel) rfl rfl (by decide +kernel)
  exact h

theorem test_witness_BlockSearchCovers :
    (∃ s : State, s.mfValid = false) ∧ (∃ s : State, s.mfValid = true ∧ s.ss.lit ≠ [])
    ∧ (∃ s : State, s.mfValid = true ∧ s.ss.lit = [] ∧ s.ss.seqs = [] ∧ s.a1 = 131073)
    ∧ (∃ s : State, s.mfValid = true ∧ s.ss.lit = [] ∧ s.ss.seqs = [] ∧ s.a1 = 0 ∧ s.a0 = 2 ^ 32 + 1)
    ∧ ∃ s : State, s.mfValid = true ∧ s.ss.lit = [] ∧ s.ss.seqs = [] ∧ s.a1 = 131072 ∧ s.wbo.toNat ≤ s.a0
        ∧ s.a0 + s.a1 ≤ 2 ^ 32 ∧ s.a0 + s.a1 - s.wbo.toNat < 2 ^ 31 ∧ s.ctxBase.toNat + s.a0 + s.a1 ≤ 2 ^ 64
        ∧ s.LimitsOk :=
  ⟨⟨fresh, rfl⟩, ⟨{ finder [] with ss := { SeqStore.reset with lit := [1] } }, by decide +kernel⟩,
    ⟨finder [0, 131073], by decide +kernel⟩, ⟨finder [2 ^ 32 + 1, 0], by decide +kernel⟩,
    ⟨finder [0, 131072], by decide +kernel, by decide +kernel, by decide +kernel, by decide +kernel, by decide +kernel,
      by decide +kernel, by decide +kernel, by decide +kernel, finder_limits _⟩⟩

theorem test_witness_BlockLiteralsInOrder : ∃ (s t : State) (q : TrueSeq), s.errKind = 0 ∧ s.LimitsOk
    ∧ exec .mfBlock s = .next t ∧ t.errKind = 0 ∧ t.ss.trueSeqs[0]? = some q ∧ 0 < q.ll := by
  let s : State := withArgs { finder [] with ctxBase := 0x4000, mem := (put fresh 0x4000 block).mem } [0, 35]
  obtain ⟨t, h, ht⟩ := exists_next (o := exec .mfBlock s)
    (p := fun t => t.errKind == 0 && (t.ss.trueSeqs[0]?.map TrueSeq.ll == some 8)) (by decide +kernel)
  simp only [Bool.and_eq_true, beq_iff_eq, Option.map_eq_some_iff] at ht
  obtain ⟨he, q, hq, hl⟩ := ht
  exact ⟨s, t, q, by decide +kernel,
    limits_of (by decide +kernel) rfl rfl (by decide +kernel),
    h, he, hq, by rw [hl]; decide⟩

theorem test_witness_BlockMatchesVerified : ∃ (s t : State) (q : TrueSeq), s.errKind = 0 ∧ s.LimitsOk
    ∧ (∀ c ∈ s.lh ++ s.sh, c.2.toNat < s.a0 ∨ c.2 ≤ s.wbo) ∧ exec .mfBlock s = .next t ∧ t.errKind = 0
    ∧ t.ss.trueSeqs[0]? = some q ∧ 3 < q.ov := by
  let s : State := withArgs { finder [] with ctxBase := 0x4000, mem := (put fresh 0x4000 block).mem } [0, 35]
  obtain ⟨t, h, ht⟩ := exists_next (o := exec .mfBlock s)
    (p := fun t => t.errKind == 0 && (t.ss.trueSeqs[0]?.map TrueSeq.ov == some 11)) (by decide +kernel)
  simp only [Bool.and_eq_true, beq_iff_eq, Option.map_eq_some_iff] at ht
  obtain ⟨he, q, hq, hl⟩ := ht
  exact ⟨s, t, q, by decide +kernel, limits_of (by decide +kernel) rfl rfl (by decide +kernel),
    fun c hc => absurd hc List.not_mem_nil, h, he, hq, by rw [hl]; decide⟩

theorem test_witness_BlockTableEntries : ∃ s t : State, s.errKind = 0 ∧ s.LimitsOk ∧ exec .mfBlock s = .next t
    ∧ t.errKind = 0 ∧ (if s.a0 = s.wbo.toNat then s.a0 + 1 else s.a0) + 8 < s.a0 + s.a1 ∧ s.lh ≠ [] ∧ s.mfValid = true := by
  let s : State :=
    withArgs { finder [] with lh := [(3, 2)], ctxBase := 0x4000, mem := (put fresh 0x4000 block).mem } [0, 35]
  obtain ⟨t, h, ht⟩ := exists_next (o := exec .mfBlock s) (p := fun t => t.errKind == 0) (by decide +kernel)
  exact ⟨s, t, by decide +kernel, limits_of (by decide +kernel) rfl rfl (by decide +kernel), h, by simpa using ht,
    by decide +kernel, by decide +kernel, by decide +kernel⟩

theorem test_witness_StoreCommands :
    (∃ s : State, 2 ^ 31 ≤ s.a1)
    ∧ (∃ s : State, s.a1 < 2 ^ 31 ∧ s.a0 + s.a1 ≤ 2 ^ 64 ∧ s.a1 = 2 ^ 17)
    ∧ (∃ s : State, s.a1 = 65536 ∧ s.a3 = 65536)
    ∧ (∃ s : State, s.a1 = 65536 ∧ s.a3 < 65536 ∧ s.ss.longF = .none)
    ∧ (∃ s : State, s.a1 < 65536 ∧ s.a3 = 65536 ∧ s.ss.longF = .none)
    ∧ (∃ s : State, s.a1 = 65535 ∧ s.a3 = 65535 ∧ s.a2 ≤ 2 ^ 32 - 2 ∧ s.ss.lit.length + s.a1 ≤ 131072
        ∧ s.ss.seqs.length < 43690 ∧ s.a0 + s.a1 ≤ 2 ^ 64)
    ∧ (∃ s : State, s.ss.lit.length + s.a1 = 131073) ∧ ∃ s : State, s.ss.lit.length + s.a1 = 131072 :=
  ⟨⟨withArgs fresh [0, 2 ^ 31], by decide +kernel⟩, ⟨withArgs fresh [0, 2 ^ 17], by decide +kernel⟩,
    ⟨withArgs fresh [0, 65536, 2, 65536], by decide +kernel⟩, ⟨withArgs fresh [0, 65536, 2, 65535], by decide +kernel⟩,
    ⟨withArgs fresh [0, 65535, 2, 65536], by decide +kernel⟩,
    ⟨withArgs fresh [0, 65535, 2 ^ 32 - 2, 65535], by decide +kernel⟩,
    ⟨withArgs fresh [0, 131073], by decide +kernel⟩, ⟨withArgs fresh [0, 131072], by decide +kernel⟩⟩

theorem test_witness_BufferInspection :
    (∃ s : State, s.ss.seqs.length = s.a0) ∧ (∃ (s : State) (q : StoredSeq), s.ss.seqs[s.a0]? = some q ∧ s.ss.codes = none)
    ∧ (∃ (s : State) (q : StoredSeq) (l : List SeqCodes) (x : SeqCodes), s.ss.seqs[s.a0]? = some q
        ∧ s.ss.codes = some l ∧ l[s.a0]? = some x)
    ∧ (∃ s : State, s.mfValid = false) ∧ (∃ s : State, s.mfValid = true ∧ s.a0 = 2 ^ (s.mfcfg.toNat % 32))
    ∧ (∃ s : State, s.mfValid = true ∧ s.a0 + 1 = 2 ^ (s.mfcfg.toNat % 32)) ∧ (∃ s : State, s.ss.lit.length = s.a0)
    ∧ (∃ (s : State) (b : Byte), s.ss.lit[s.a0]? = some b) ∧ (∃ s : State, s.sq.length = s.a0)
    ∧ ∃ (s : State) (q : DecodedSeq), s.sq[s.a0]? = some q :=
  ⟨⟨fresh, by decide +kernel⟩, ⟨withArgs stored [0], { lla := 8, mla := 21, ofa := 11 }, by decide +kernel⟩,
    ⟨withArgs (run .ssCodes [] stored) [0], { lla := 8, mla := 21, ofa := 11 }, [{ llc := 8, mlc := 21, ofc := 3 }],
      { llc := 8, mlc := 21, ofc := 3 }, by decide +kernel⟩,
    ⟨fresh, rfl⟩, ⟨finder [1024], by decide +kernel⟩, ⟨finder [1023], by decide +kernel⟩, ⟨fresh, by decide +kernel⟩,
    ⟨withArgs stored [10], 122, by decide +kernel⟩, ⟨fresh, by decide +kernel⟩,
    ⟨{ fresh with sq := [{ ll := 2, ml := 5, off := 2 }] }, { ll := 2, ml := 5, off := 2 }, by decide +kernel⟩⟩

theorem test_witness_SequenceCodesAgree :
    (∃ base bits v, llRow 35 = some (base, bits) ∧ base ≤ v ∧ v + 1 = base + 2 ^ bits)
    ∧ ∃ base bits v, mlRow 52 = some (base, bits) ∧ base ≤ v + 3 ∧ v + 4 = base + 2 ^ bits :=
  ⟨⟨65536, 16, 131071, by decide +kernel⟩, ⟨65539, 16, 131071, by decide +kernel⟩⟩

theorem test_witness_HeaderFieldsReadBack : ∃ (w : List Nat) (cap : Nat) (out : List Byte), w.length = 128
    ∧ (∀ x ∈ w, x < 16) ∧ writeRawWeights w.length w cap = .ok out := by
  obtain ⟨out, h, -⟩ := exists_ok (x := writeRawWeights 128 (List.replicate 128 15) 65) (p := fun _ => true)
    (by decide +kernel)
  exact ⟨List.replicate 128 15, 65, out, by decide +kernel, by decide +kernel, h⟩

theorem test_witness_SequenceCommands :
    (∃ s : State, 2 ^ 31 ≤ s.a1)
    ∧ (∃ (s : State) (e : Err), encodeSequences s.params.selFactor s.ss.trueSeqs s.a1 = .error e)
    ∧ (∃ (s : State) (out : List Byte), encodeSequences s.params.selFactor s.ss.trueSeqs s.a1 = .ok out)
    ∧ (∃ (s : State) (e : Err), decodeSequences s.dt s.drep s.free (s.window s.a0 s.a1) = .error e)
    ∧ (∃ s : State, s.window s.a0 s.a1 = [0]) ∧ (∃ s : State, s.window s.a0 s.a1 = 0 :: [0])
    ∧ (∃ s : State, s.window s.a0 s.a1 = 0x80 :: 0 :: [])
    ∧ ∃ (s : State) (d : SeqDecoded), decodeSequences s.dt s.drep s.free (s.window s.a0 s.a1) = .ok (some d) := by
  obtain ⟨e, he, -⟩ := exists_error (x := encodeSequences 9 [] 0) (p := fun _ => true) (by decide +kernel)
  obtain ⟨o, ho, -⟩ := exists_ok (x := encodeSequences 9 [] 1) (p := fun _ => true) (by decide +kernel)
  obtain ⟨x, hx, -⟩ := exists_error (x := decodeSequences fresh.dt fresh.drep fresh.free []) (p := fun _ => true)
    (by decide +kernel)
  obtain ⟨d, hd, hs⟩ := exists_ok (x := decodeSequences fresh.dt fresh.drep fresh.free
    ((withArgs (put fresh 0x300 [0x01, 0x00, 0x03, 0x0B, 0x17]) [0x300, 5]).window 0x300 5)) (p := fun o => o.isSome)
    (by decide +kernel)
  obtain ⟨d', rfl⟩ := Option.isSome_iff_exists.1 hs
  let s : State := withArgs (put fresh 0x300 [0x01, 0x00, 0x03, 0x0B, 0x17]) [0x300, 5]
  have hw : s.window s.a0 s.a1 = (withArgs (put fresh 0x300 [0x01, 0x00, 0x03, 0x0B, 0x17]) [0x300, 5]).window 0x300 5 := by
    decide +kernel
  exact ⟨⟨withArgs fresh [0, 2 ^ 31], by decide +kernel⟩, ⟨fresh, e, he⟩, ⟨withArgs fresh [0, 1], o, ho⟩,
    ⟨fresh, x, hx⟩, ⟨withArgs fresh [0, 1], by decide +kernel⟩, ⟨withArgs fresh [0, 2], by decide +kernel⟩,
    ⟨withArgs (put fresh 0x300 [0x80]) [0x300, 2], by decide +kernel⟩, ⟨s, d', hw ▸ hd⟩⟩

theorem test_witness_SequencesRoundTrip : ∃ s t u : State, s.errKind = 0 ∧ s.LimitsOk ∧ (∀ q ∈ s.ss.trueSeqs, 1 ≤ q.ov)
    ∧ exec .seqEncode s = .next t ∧ t.errKind = 0 ∧ u.a1 = (t.res[0]).toNat ∧ u.a0 + u.a1 ≤ 2 ^ 64
    ∧ (∀ j, j < u.a1 → u.mem.read (u.a0 + j) = t.mem.read (s.a0 + j)) ∧ s.ss.trueSeqs ≠ [] := by
  obtain ⟨t, h, ht⟩ := exists_next (o := exec .seqEncode (withArgs stored [0x5000, 64]))
    (p := fun t => t.errKind == 0 && t.res[0] == 5) (by decide +kernel)
  simp only [Bool.and_eq_true, beq_iff_eq] at ht
  exact ⟨_, t, withArgs t [0x5000, 5], by decide +kernel,
    limits_of (by decide +kernel) (by decide +kernel) (by decide +kernel) (by decide +kernel), by decide +kernel, h, ht.1,
    by rw [ht.2]; rfl, (by decide : 0x5000 + 5 ≤ 2 ^ 64), fun _ _ => rfl, by decide +kernel⟩

theorem test_witness_OffsetResolution :
    (∃ (ov ll k : Nat), 1 ≤ ov ∧ ov ≤ 3 ∧ k = (if ll = 0 then ov else ov - 1) ∧ k = 1)
    ∧ (∃ (ov ll k : Nat), 1 ≤ ov ∧ ov ≤ 3 ∧ k = (if ll = 0 then ov else ov - 1) ∧ k = 3)
    ∧ (∃ ov : Nat, 3 < ov ∧ ov + 1 = 2 ^ 32) ∧ ∃ (ov ll : Nat), ov = 1 ∧ ll ≠ 0 :=
  ⟨⟨2, 1, 1, by decide⟩, ⟨3, 0, 3, by decide⟩, ⟨2 ^ 32 - 1, by decide⟩, ⟨1, 1, by decide⟩⟩

theorem replayable_of {s : State} (h : (s.sq.zipIdx.all fun x => decide (s.literalsBefore x.2 + x.1.ll.toNat ≤ s.dlit.length
      ∧ s.bytesBefore x.2 + x.1.ll.toNat + x.1.ml.toNat ≤ s.a2 ∧ 1 ≤ x.1.off.toNat
      ∧ x.1.off.toNat ≤ min (s.a1 + s.bytesBefore x.2 + x.1.ll.toNat) s.a3)) = true) :
    ∀ i q, s.sq[i]? = some q → s.Replayable i q := by
  intro i q hq
  have := List.all_eq_true.1 h (q, i) (List.mem_zipIdx_iff_getElem?.2 hq)
  simp only [decide_eq_true_eq] at this
  exact this

/-- One sequence over the literals `lits`. -/
abbrev replayOne (ll ml off : Word) (lits args : List Nat) : State :=
  withArgs { fresh with dlit := bytes lits, sq := [{ ll := ll, ml := ml, off := off }] } args

/-- R530 cases 7, 2, 13, an offset of 0, 9, 11, 8 with no room to spare, and 12 where the offset just reaches. -/
theorem test_witness_ReplayRegenerates :
    (∃ s : State, 2 ^ 31 ≤ s.a1 + s.a2) ∧ (∃ s : State, 2 ^ 64 < s.a0 + (s.a1 + s.a2) ∧ s.a1 + s.a2 < 2 ^ 31)
    ∧ (∃ s : State, s.a3 = 2 ^ 31)
    ∧ (∃ (s : State) (q : DecodedSeq), s.sq[0]? = some q ∧ s.dlit.length < s.literalsBefore 0 + q.ll.toNat)
    ∧ (∃ (s : State) (q : DecodedSeq), s.sq[0]? = some q ∧ s.literalsBefore 0 + q.ll.toNat ≤ s.dlit.length
        ∧ s.bytesBefore 0 + q.ll.toNat + q.ml.toNat = s.a2 + 1)
    ∧ (∃ (s : State) (q : DecodedSeq), s.sq[0]? = some q ∧ s.literalsBefore 0 + q.ll.toNat ≤ s.dlit.length
        ∧ s.bytesBefore 0 + q.ll.toNat + q.ml.toNat = s.a2
        ∧ q.off.toNat = min (s.a1 + s.bytesBefore 0 + q.ll.toNat) s.a3 + 1)
    ∧ (∃ (s : State) (q : DecodedSeq), s.sq[0]? = some q ∧ s.literalsBefore 0 + q.ll.toNat ≤ s.dlit.length
        ∧ s.bytesBefore 0 + q.ll.toNat + q.ml.toNat ≤ s.a2 ∧ q.off.toNat = 0)
    ∧ (∃ s : State, (∀ i q, s.sq[i]? = some q → s.Replayable i q) ∧ s.sq.length = 2
        ∧ s.a2 + 1 = s.dlit.length + (s.sq.map fun q => q.ml.toNat).sum)
    ∧ (∃ s : State, s.sq = [] ∧ s.a2 + 1 = s.dlit.length)
    ∧ (∃ s : State, s.a1 + s.a2 < 2 ^ 31 ∧ s.a0 + (s.a1 + s.a2) ≤ 2 ^ 64 ∧ s.a3 < 2 ^ 31
        ∧ (∀ i q, s.sq[i]? = some q → s.Replayable i q) ∧ s.sq.length = 2
        ∧ s.a2 = s.dlit.length + (s.sq.map fun q => q.ml.toNat).sum)
    ∧ ∃ (s : State) (q : DecodedSeq), (∀ i q, s.sq[i]? = some q → s.Replayable i q) ∧ s.sq[0]? = some q
        ∧ q.off.toNat = min (s.a1 + s.bytesBefore 0 + q.ll.toNat) s.a3 :=
  ⟨⟨withArgs fresh [0, 2 ^ 31 - 1, 1], by decide +kernel⟩, ⟨withArgs fresh [2 ^ 64 - 2, 1, 2], by decide +kernel⟩,
    ⟨withArgs fresh [0, 0, 0, 2 ^ 31], by decide +kernel⟩,
    ⟨replayOne 5 3 1 [97, 98, 99] [0x600, 0, 100, 131072], _, rfl, by decide +kernel⟩,
    ⟨replayOne 2 9998 1 [97, 97] [0x600, 0, 9999, 131072], _, rfl, by decide +kernel⟩,
    ⟨replayOne 3 4 6 [67, 68, 69] [0x600, 2, 7, 131072], _, rfl, by decide +kernel⟩,
    ⟨replayOne 3 4 0 [67, 68, 69] [0x600, 2, 7, 131072], _, rfl, by decide +kernel⟩,
    ⟨withArgs replaying [0x600, 0, 12, 131072], replayable_of (by decide +kernel), by decide +kernel⟩,
    ⟨withArgs { fresh with dlit := bytes [119, 120, 121, 122] } [0x600, 0, 3, 131072], rfl, by decide +kernel⟩,
    ⟨withArgs replaying [0x600, 0, 13, 131072], by decide +kernel, by decide +kernel, by decide +kernel,
      replayable_of (by decide +kernel), by decide +kernel⟩,
    ⟨replayOne 3 4 5 [67, 68, 69] [0x600, 2, 7, 131072], _, replayable_of (by decide +kernel), rfl, by decide +kernel⟩⟩

end Sys2Proof.Tests
end

section
/-! The frame of every command (R13, R551, R552): which parts of the state it changes when it succeeds, and which when
it fails. Each command of the model is taken apart once, along the checks and matches of its rule. -/

namespace Sys2Proof.Machine

/-! ### States that differ on listed parts only -/

/-- `t` agrees with `s` on every part outside `ps`. -/
def State.KeepsBut (s t : State) (ps : List Part) : Prop := ∀ p, p ∉ ps → s.Agree t p

/-- Agreement outside `ps`, field by field. -/
theorem State.keepsBut_iff {s t : State} {ps : List Part} : s.KeepsBut t ps ↔
    (.host ∉ ps → t.host = s.host) ∧ (.cmd ∉ ps → t.cmd = s.cmd) ∧ (.args ∉ ps → t.args = s.args)
    ∧ (.res ∉ ps → t.res = s.res)
    ∧ (.error ∉ ps → t.errKind = s.errKind ∧ t.errCode = s.errCode ∧ t.errOff = s.errOff)
    ∧ (.mfcfg ∉ ps → t.mfcfg = s.mfcfg) ∧ (.bw ∉ ps → t.bw = s.bw) ∧ (.br ∉ ps → t.br = s.br)
    ∧ (.counts ∉ ps → t.counts = s.counts ∧ t.hmax = s.hmax ∧ t.hlargest = s.hlargest)
    ∧ (.norm ∉ ps → t.norm = s.norm ∧ t.nmax = s.nmax ∧ t.nlog = s.nlog ∧ t.nvalid = s.nvalid)
    ∧ (.ct ∉ ps → t.ct = s.ct) ∧ (.dt ∉ ps → t.dt = s.dt) ∧ (.es ∉ ps → t.es = s.es) ∧ (.ds ∉ ps → t.ds = s.ds)
    ∧ (.ht ∉ ps → t.ht = s.ht ∧ t.hpend = s.hpend) ∧ (.hd ∉ ps → t.hd = s.hd)
    ∧ (.finder ∉ ps →
        t.lh = s.lh ∧ t.sh = s.sh ∧ t.ctxBase = s.ctxBase ∧ t.wbo = s.wbo ∧ t.mfValid = s.mfValid)
    ∧ (.rep ∉ ps → t.repLive = s.repLive ∧ t.repStage = s.repStage) ∧ (.store ∉ ps → t.ss = s.ss)
    ∧ (.drep ∉ ps → t.drep = s.drep) ∧ (.dlit ∉ ps → t.dlit = s.dlit) ∧ (.sq ∉ ps → t.sq = s.sq)
    ∧ (.mem ∉ ps → t.mem = s.mem) ∧ (.free ∉ ps → t.free = s.free) ∧ (.params ∉ ps → t.params = s.params) := by
  constructor
  · intro h
    exact ⟨h .host, h .cmd, h .args, h .res, h .error, h .mfcfg, h .bw, h .br, h .counts, h .norm, h .ct, h .dt, h .es,
      h .ds, h .ht, h .hd, h .finder, h .rep, h .store, h .drep, h .dlit, h .sq, h .mem, h .free, h .params⟩
  · rintro ⟨_, _, _, _, _, _, _, _, _, _, _, _, _, _, _, _, _, _, _, _, _, _, _, _, _⟩ p
    cases p <;> assumption

/-- The parts a failing command may change: those every error writes (R551 steps 1 to 3), and those its rule names
(step 4). -/
def failureParts (i : Instr) : List Part := [.error, .res, .free, .mem] ++ clearsOf i

/-! ### The two ways a command ends -/

/-- What the outcome `o` of command `i` in state `s` leaves alone: after a success, which brings no error, all that
the command does not write; after an error, all but the failure's parts. -/
inductive Framed (i : Instr) (s : State) : Out → Prop
  | done {t : State} (kind : s.errKind = 0 → t.errKind = 0) (keeps : s.KeepsBut t (writesOf i)) : Framed i s (.next t)
  | failed {e : Err} {u : State} (keeps : s.KeepsBut (u.fail e) (failureParts i)) : Framed i s (raiseErr e u)

/-- Every code has a kind (R550, R553), so a failure shows in `ERRKIND`. -/
theorem ErrCode.kind_ne_zero (c : ErrCode) : c.kind ≠ 0 := by
  cases c <;> decide

/-- The two clauses of the frame. -/
theorem Framed.agree {i : Instr} {s t : State} (h : Framed i s (.next t)) (h0 : s.errKind = 0) (p : Part) :
    (t.errKind = 0 → p ∉ writesOf i → s.Agree t p)
    ∧ (t.errKind ≠ 0 → p ∉ [.error, .res, .free, .mem] → p ∉ clearsOf i → s.Agree t p) := by
  cases h with
  | done kind keeps => exact ⟨fun _ => keeps p, fun hk => absurd (kind h0) hk⟩
  | failed keeps =>
    refine ⟨fun hk => absurd hk (ErrCode.kind_ne_zero _), fun _ hp hc => keeps p ?_⟩
    rw [failureParts, List.mem_append]
    exact not_or.2 ⟨hp, hc⟩

section Rules

variable {i : Instr} {s : State}

/-- An error that clears nothing. -/
theorem Framed.raisedErr {e : Err} : Framed i s (raiseErr e s) := .failed (by simp [State.keepsBut_iff, failureParts])

theorem Framed.raised {c : ErrCode} : Framed i s (raise c s) := .raisedErr

/-- An error that leaves any value in a window. -/
theorem Framed.raisedDst {e : Err} {a n : Nat} : Framed i s (raiseDst e a n s) :=
  .failed (u := s.clobber a n) (by simp [State.keepsBut_iff, failureParts])

/-- A check that raises an error. -/
theorem Framed.check {c : Prop} [Decidable c] {e : ErrCode} {o : Out} (h : Framed i s o) :
    Framed i s (if c then raise e s else o) := by
  split
  · exact .raised
  · exact h

theorem Framed.checkDst {c : Prop} [Decidable c] {e : Err} {a n : Nat} {o : Out} (h : Framed i s o) :
    Framed i s (if c then raiseDst e a n s else o) := by
  split
  · exact .raisedDst
  · exact h

/-- A command of a slot or state register (R115). -/
theorem Framed.four {k : BitVec 4} {f : Fin 4 → Out} (h : ∀ j, Framed i s (f j)) : Framed i s (withFour k s f) := by
  obtain ⟨j, hj⟩ | hr := withFour_cases (rfl : withFour k s f = _)
  · exact hj ▸ h j
  · exact hr ▸ .raised

/-- A command of a table of a pair (R115). -/
theorem Framed.two {k : BitVec 4} {f : Fin 2 → Out} (h : ∀ j, Framed i s (f j)) : Framed i s (withTwo k s f) := by
  obtain ⟨j, hj⟩ | hr := withTwo_cases (rfl : withTwo k s f = _)
  · exact hj ▸ h j
  · exact hr ▸ .raised

/-- A command that only answers: it writes result registers. -/
theorem Framed.answer {r : Vector DWord 4} (hr : .res ∈ writesOf i) : Framed i s (.next { s with res := r }) :=
  .done id (by simp [State.keepsBut_iff, hr])

/-- As `answer`, where the answer holds free values. -/
theorem Framed.answerFree {r : Vector DWord 4} {n : Nat} (hw : [.res, .free] ⊆ writesOf i) :
    Framed i s (.next { s with res := r, free := n }) := by
  simp only [List.cons_subset] at hw
  exact .done id (by simp [State.keepsBut_iff, hw])

/-- A command that writes its destination window and returns a size. -/
theorem Framed.output {m : Memory} {n : Nat} {r : Vector DWord 4} (hw : [.res, .mem, .free] ⊆ writesOf i) :
    Framed i s (.next { s with mem := m, free := n, res := r }) := by
  simp only [List.cons_subset] at hw
  exact .done id (by simp [State.keepsBut_iff, hw])

end Rules

section Commands

variable (s : State)

/-! ### System -/

theorem execNop_framed : Framed .nop s (execNop s) := .done id (by simp [State.keepsBut_iff])

theorem execReset_framed : Framed .reset s (execReset s) :=
  .done (fun _ => rfl) (by simp [State.keepsBut_iff, writesOf])

theorem execClrerr_framed : Framed .clrerr s (execClrerr s) :=
  .done (fun _ => rfl) (by simp [State.keepsBut_iff, writesOf])

/-! ### Bit cursors -/

theorem execBwInit_framed : Framed .bwInit s (execBwInit s) :=
  .check <| .check <| .done id (by simp [State.keepsBut_iff, writesOf])

theorem execBwAdd_framed : Framed .bwAdd s (execBwAdd s) :=
  .check <| .check <| .check <| .check <| .done id (by simp [State.keepsBut_iff, writesOf])

theorem execBwFlush_framed : Framed .bwFlush s (execBwFlush s) :=
  .check <| .done id (by simp [State.keepsBut_iff, writesOf])

theorem execBwClose_framed : Framed .bwClose s (execBwClose s) :=
  .check <| .check <| .done id (by simp [State.keepsBut_iff, writesOf, State.closeWriter])

theorem execBrInit_framed : Framed .brInit s (execBrInit s) := by
  unfold execBrInit
  refine .check ?_
  split
  · exact .raisedErr
  · dsimp only
    split
    · exact .raisedErr
    · exact .done id (by simp [State.keepsBut_iff, writesOf])

theorem execBrPeek_framed : Framed .brPeek s (execBrPeek s) := by
  unfold execBrPeek
  split
  · exact .raised
  · exact .answer (by simp [writesOf])

theorem execBrRead_framed : Framed .brRead s (execBrRead s) := by
  unfold execBrRead
  split
  · exact .raised
  · exact .done id (by simp [State.keepsBut_iff, writesOf])

theorem execBrLoad_framed : Framed .brLoad s (execBrLoad s) :=
  .check <| .done id (by simp [State.keepsBut_iff, writesOf])

/-! ### FSE tables -/

theorem execHist_framed : Framed .hist s (execHist s) :=
  .check <| .done id (by simp [State.keepsBut_iff, writesOf])

theorem execFseOptlog_framed : Framed .fseOptlog s (execFseOptlog s) :=
  .check <| .check <| .answer (by simp [writesOf])

theorem execFseNorm_framed : Framed .fseNorm s (execFseNorm s) := by
  unfold execFseNorm
  split
  · exact .failed (by simp [State.keepsBut_iff, failureParts, clearsOf])
  · exact .done id (by simp [State.keepsBut_iff, writesOf])

theorem execFseWrnc_framed : Framed .fseWrnc s (execFseWrnc s) := by
  unfold execFseWrnc
  refine .check <| .check ?_
  split <;> exact .checkDst <| .output (by simp [writesOf])

theorem execFseRdnc_framed : Framed .fseRdnc s (execFseRdnc s) := by
  unfold execFseRdnc
  refine .check ?_
  split
  · exact .failed (by simp [State.keepsBut_iff, failureParts, clearsOf])
  · exact .done id (by simp [State.keepsBut_iff, writesOf])

theorem execFseLddef_framed (sel : BitVec 4) : Framed (.fseLddef sel) s (execFseLddef sel s) :=
  .check <| .done id (by simp [State.keepsBut_iff, writesOf])

theorem execFseBuildCt_framed (slot : BitVec 4) : Framed (.fseBuildCt slot) s (execFseBuildCt slot s) := by
  refine .four fun k => .check ?_
  split
  · exact .failed (by simp [State.keepsBut_iff, failureParts, clearsOf])
  · exact .done id (by simp [State.keepsBut_iff, writesOf])

theorem execFseRleCt_framed (slot : BitVec 4) : Framed (.fseRleCt slot) s (execFseRleCt slot s) :=
  .four fun _ => .check <| .done id (by simp [State.keepsBut_iff, writesOf])

theorem execFseBuildDt_framed (slot : BitVec 4) : Framed (.fseBuildDt slot) s (execFseBuildDt slot s) := by
  refine .four fun k => ?_
  have dropped {e : Err} : Framed (.fseBuildDt slot) s (raiseErr e (s.setDT k none)) :=
    .failed (by simp [State.keepsBut_iff, failureParts, clearsOf])
  split
  · exact dropped
  · split
    · exact dropped
    · exact .done id (by simp [State.keepsBut_iff, writesOf])

theorem execFseRleDt_framed (slot : BitVec 4) : Framed (.fseRleDt slot) s (execFseRleDt slot s) :=
  .four fun _ => .check <| .done id (by simp [State.keepsBut_iff, writesOf])

theorem execFseSetcount_framed : Framed .fseSetcount s (execFseSetcount s) :=
  .check <| .done id (by simp [State.keepsBut_iff, writesOf])

theorem execFseSetnorm_framed : Framed .fseSetnorm s (execFseSetnorm s) :=
  .check <| .done id (by simp [State.keepsBut_iff, writesOf])

theorem execFseGetnorm_framed : Framed .fseGetnorm s (execFseGetnorm s) :=
  .check <| .answer (by simp [writesOf])

theorem execFseGetcount_framed : Framed .fseGetcount s (execFseGetcount s) :=
  .check <| .answer (by simp [writesOf])

theorem execFseGetdt_framed (slot : BitVec 4) : Framed (.fseGetdt slot) s (execFseGetdt slot s) := by
  refine .four fun k => ?_
  split
  · exact .raised
  · exact .check <| .answer (by simp [writesOf])

theorem execFseGetct_framed (slot : BitVec 4) : Framed (.fseGetct slot) s (execFseGetct slot s) := by
  refine .four fun k => ?_
  split
  · exact .raised
  · exact .check <| .answerFree (by simp [writesOf])

/-! ### FSE codec -/

theorem execFseEncBegin_framed (slot sel : BitVec 4) :
    Framed (.fseEncBegin slot sel) s (execFseEncBegin slot sel s) := by
  refine .four fun k => .four fun e => ?_
  split
  · exact .raised
  · exact .check <| .done id (by simp [State.keepsBut_iff, writesOf])

theorem execFseEnc_framed (slot sel : BitVec 4) : Framed (.fseEnc slot sel) s (execFseEnc slot sel s) := by
  refine .four fun k => .four fun e => ?_
  split
  · exact .raised
  · exact .check <| .check <| .check <| .check <| .done id (by simp [State.keepsBut_iff, writesOf])

theorem execFseEncFinish_framed (slot sel : BitVec 4) :
    Framed (.fseEncFinish slot sel) s (execFseEncFinish slot sel s) := by
  refine .four fun k => .four fun e => ?_
  split
  · exact .raised
  · exact .check <| .check <| .check <| .done id (by simp [State.keepsBut_iff, writesOf])

theorem execFseDecInit_framed (slot sel : BitVec 4) : Framed (.fseDecInit slot sel) s (execFseDecInit slot sel s) := by
  refine .four fun k => .four fun e => ?_
  split
  · exact .raised
  · exact .check <| .check <| .done id (by simp [State.keepsBut_iff, writesOf])

/-- With the update flag clear `FSE_DEC` only answers; with it set it also moves the reader and the state (R267). -/
theorem execFseDec_framed (slot sel : BitVec 4) (u : Bool) :
    Framed (.fseDec slot sel u) s (execFseDec slot sel u s) := by
  refine .four fun k => .four fun e => ?_
  split
  · exact .raised
  · refine .check ?_
    cases u with
    | false => exact .answer (by simp [writesOf])
    | true => exact .check <| .check <| .done id (by simp [State.keepsBut_iff, writesOf])

theorem execFseCompress2_framed (slot : BitVec 4) : Framed (.fseCompress2 slot) s (execFseCompress2 slot s) := by
  refine .four fun k => .check ?_
  split
  · exact .raisedDst
  · exact .checkDst <| .output (by simp [writesOf])

theorem execFseDecompress2_framed (slot : BitVec 4) :
    Framed (.fseDecompress2 slot) s (execFseDecompress2 slot s) := by
  refine .four fun k => .check ?_
  split
  · exact .raisedDst
  · split
    · exact .raisedDst
    · exact .output (by simp [writesOf])

theorem execFseGetstate_framed (sel : BitVec 4) : Framed (.fseGetstate sel) s (execFseGetstate sel s) :=
  .four fun _ => .answer (by simp [writesOf])

/-! ### Huffman tables and streams -/

theorem execHufOptlog_framed : Framed .hufOptlog s (execHufOptlog s) :=
  .check <| .check <| .answer (by simp [writesOf])

theorem execHufBuild_framed : Framed .hufBuild s (execHufBuild s) := by
  unfold execHufBuild
  split
  · exact .raised
  · exact .done id (by simp [State.keepsBut_iff, writesOf])

theorem execHufWrite_framed (sel : BitVec 4) : Framed (.hufWrite sel) s (execHufWrite sel s) := by
  refine .two fun e => .check ?_
  split
  · exact .raisedDst
  · split
    · exact .raisedDst
    · exact .output (by simp [writesOf])

theorem execHufRead_framed : Framed .hufRead s (execHufRead s) := by
  unfold execHufRead
  refine .check ?_
  split
  · exact .failed (by simp [State.keepsBut_iff, failureParts, clearsOf])
  · exact .done id (by simp [State.keepsBut_iff, writesOf])

theorem hufEncode_framed {i : Instr} (hw : [.res, .mem, .free] ⊆ writesOf i)
    (enc : HufTable → List Byte → Nat → List Byte) (sel : BitVec 4) : Framed i s (hufEncode enc sel s) := by
  refine .two fun e => .check <| .checkDst ?_
  split
  · exact .raisedDst
  · exact .checkDst <| .output hw

theorem execHufEnc1_framed (sel : BitVec 4) : Framed (.hufEnc1 sel) s (execHufEnc1 sel s) :=
  hufEncode_framed s (by simp [writesOf]) enc1 sel

theorem execHufEnc4_framed (sel : BitVec 4) : Framed (.hufEnc4 sel) s (execHufEnc4 sel s) :=
  hufEncode_framed s (by simp [writesOf]) enc4 sel

theorem hufDecode_framed {i : Instr} (hm : .mem ∈ writesOf i)
    (dec : HufDec → List Byte → Nat → Except Err (List Byte)) : Framed i s (hufDecode dec s) := by
  unfold hufDecode
  refine .check <| .checkDst ?_
  split
  · exact .raisedDst
  · split
    · exact .raisedDst
    · exact .done id (by simp [State.keepsBut_iff, hm])

theorem execHufDec1_framed : Framed .hufDec1 s (execHufDec1 s) := hufDecode_framed s (by simp [writesOf]) dec1

theorem execHufDec4_framed : Framed .hufDec4 s (execHufDec4 s) := hufDecode_framed s (by simp [writesOf]) dec4

theorem execHufEst_framed (sel : BitVec 4) : Framed (.hufEst sel) s (execHufEst sel s) := by
  refine .two fun e => .check ?_
  split <;> exact .answer (by simp [writesOf])

theorem execHufCommit_framed : Framed .hufCommit s (execHufCommit s) := by
  unfold execHufCommit
  split <;> exact .done id (by simp [State.keepsBut_iff, writesOf])

theorem execHufDiscard_framed : Framed .hufDiscard s (execHufDiscard s) :=
  .done id (by simp [State.keepsBut_iff, writesOf])

theorem execHufGetcode_framed (sel : BitVec 4) : Framed (.hufGetcode sel) s (execHufGetcode sel s) := by
  refine .two fun e => .check ?_
  split
  · exact .raised
  · exact .answerFree (by simp [writesOf])

theorem execHufGetdt_framed : Framed .hufGetdt s (execHufGetdt s) := by
  unfold execHufGetdt
  split
  · exact .raised
  · exact .check <| .answer (by simp [writesOf])

/-! ### Literals sections -/

/-- What LIT_ENCODE did to `HT[1]` before an error stays (log entry 8). -/
theorem execLitEncode_framed : Framed .litEncode s (execLitEncode s) := by
  unfold execLitEncode
  refine .check ?_
  dsimp only
  split
  · exact .failed (u := State.clobber _ s.a0 s.a1) (by simp [State.keepsBut_iff, failureParts, clearsOf])
  · exact .done id (by simp [State.keepsBut_iff, writesOf])

/-- Every failure of LIT_DECODE empties `DLIT` (log entry 9). -/
theorem execLitDecode_framed : Framed .litDecode s (execLitDecode s) := by
  unfold execLitDecode
  split
  · exact .failed (by simp [State.keepsBut_iff, failureParts, clearsOf])
  · dsimp only
    split
    · exact .failed (by simp [State.keepsBut_iff, failureParts, clearsOf])
    · exact .done id (by simp [State.keepsBut_iff, writesOf])

theorem execLitGet_framed : Framed .litGet s (execLitGet s) := .check <| .answer (by simp [writesOf])

/-! ### Match finder and sequence store -/

theorem execMfReset_framed : Framed .mfReset s (execMfReset s) :=
  .check <| .check <| .check <| .done id (by simp [State.keepsBut_iff, writesOf])

theorem execMfWindow_framed : Framed .mfWindow s (execMfWindow s) :=
  .check <| .check <| .done id (by simp [State.keepsBut_iff, writesOf])

theorem execMfBlock_framed : Framed .mfBlock s (execMfBlock s) :=
  .check <| .check <| .check <| .check <| .done id (by simp [State.keepsBut_iff, writesOf, State.searched])

theorem execSsReset_framed : Framed .ssReset s (execSsReset s) := .done id (by simp [State.keepsBut_iff, writesOf])

theorem execSsStore_framed : Framed .ssStore s (execSsStore s) := by
  unfold execSsStore
  split
  · exact .raised
  · exact .done id (by simp [State.keepsBut_iff, writesOf])

theorem execSsAppend_framed : Framed .ssAppend s (execSsAppend s) :=
  .check <| .check <| .done id (by simp [State.keepsBut_iff, writesOf])

theorem execSsCodes_framed : Framed .ssCodes s (execSsCodes s) := .done id (by simp [State.keepsBut_iff, writesOf])

theorem execRepInit_framed : Framed .repInit s (execRepInit s) := .done id (by simp [State.keepsBut_iff, writesOf])

theorem execRepCommit_framed : Framed .repCommit s (execRepCommit s) :=
  .done id (by simp [State.keepsBut_iff, writesOf])

theorem execSsGet_framed : Framed .ssGet s (execSsGet s) := by
  unfold execSsGet
  split
  · exact .raised
  · exact .answerFree (by simp [writesOf])

theorem execRepGet_framed : Framed .repGet s (execRepGet s) := .answer (by simp [writesOf])

theorem execSsInfo_framed : Framed .ssInfo s (execSsInfo s) := .answer (by simp [writesOf])

theorem execMfGet_framed (sel : BitVec 4) : Framed (.mfGet sel) s (execMfGet sel s) :=
  .two fun _ => .check <| .check <| .answer (by simp [writesOf])

theorem execSsGetlit_framed : Framed .ssGetlit s (execSsGetlit s) := by
  unfold execSsGetlit
  split
  · exact .raised
  · exact .answer (by simp [writesOf])

/-! ### Sequences sections and replay -/

theorem execSeqEncode_framed : Framed .seqEncode s (execSeqEncode s) := by
  unfold execSeqEncode
  refine .check ?_
  split
  · exact .raisedDst
  · exact .output (by simp [writesOf])

/-- Every failure of SEQ_DECODE drops `DT[0..2]` and the decoded sequences (log entry 9). -/
theorem execSeqDecode_framed : Framed .seqDecode s (execSeqDecode s) := by
  have dropped {e : Err} : Framed .seqDecode s (raiseErr e s.dropSequences) :=
    .failed (by simp [State.keepsBut_iff, failureParts, clearsOf])
  unfold execSeqDecode
  split
  · exact dropped
  · split
    · exact dropped
    · exact .done id (by simp [State.keepsBut_iff, writesOf])
    · exact .done id (by simp [State.keepsBut_iff, writesOf])

theorem execDrepInit_framed : Framed .drepInit s (execDrepInit s) := .done id (by simp [State.keepsBut_iff, writesOf])

theorem execSqGet_framed : Framed .sqGet s (execSqGet s) := by
  unfold execSqGet
  split
  · exact .raised
  · exact .answer (by simp [writesOf])

theorem execDrepGet_framed : Framed .drepGet s (execDrepGet s) := .answer (by simp [writesOf])

theorem execReplay_framed : Framed .replay s (execReplay s) := by
  unfold execReplay
  refine .check <| .checkDst ?_
  split
  · exact .raisedDst
  · exact .output (by simp [writesOf])

end Commands

/-! ### The obligation -/

/-- Every command keeps to its frame. -/
theorem exec_framed (i : Instr) (s : State) : Framed i s (exec i s) := by
  cases i with
  | nop => exact execNop_framed s
  | reset => exact execReset_framed s
  | clrerr => exact execClrerr_framed s
  | bwInit => exact execBwInit_framed s
  | bwAdd => exact execBwAdd_framed s
  | bwFlush => exact execBwFlush_framed s
  | bwClose => exact execBwClose_framed s
  | brInit => exact execBrInit_framed s
  | brPeek => exact execBrPeek_framed s
  | brRead => exact execBrRead_framed s
  | brLoad => exact execBrLoad_framed s
  | hist => exact execHist_framed s
  | fseOptlog => exact execFseOptlog_framed s
  | fseNorm => exact execFseNorm_framed s
  | fseWrnc => exact execFseWrnc_framed s
  | fseRdnc => exact execFseRdnc_framed s
  | fseLddef sel => exact execFseLddef_framed s sel
  | fseBuildCt slot => exact execFseBuildCt_framed s slot
  | fseRleCt slot => exact execFseRleCt_framed s slot
  | fseBuildDt slot => exact execFseBuildDt_framed s slot
  | fseRleDt slot => exact execFseRleDt_framed s slot
  | fseSetcount => exact execFseSetcount_framed s
  | fseSetnorm => exact execFseSetnorm_framed s
  | fseGetnorm => exact execFseGetnorm_framed s
  | fseGetcount => exact execFseGetcount_framed s
  | fseGetdt slot => exact execFseGetdt_framed s slot
  | fseGetct slot => exact execFseGetct_framed s slot
  | fseEncBegin slot sel => exact execFseEncBegin_framed s slot sel
  | fseEnc slot sel => exact execFseEnc_framed s slot sel
  | fseEncFinish slot sel => exact execFseEncFinish_framed s slot sel
  | fseDecInit slot sel => exact execFseDecInit_framed s slot sel
  | fseDec slot sel u => exact execFseDec_framed s slot sel u
  | fseCompress2 slot => exact execFseCompress2_framed s slot
  | fseDecompress2 slot => exact execFseDecompress2_framed s slot
  | fseGetstate sel => exact execFseGetstate_framed s sel
  | hufOptlog => exact execHufOptlog_framed s
  | hufBuild => exact execHufBuild_framed s
  | hufWrite sel => exact execHufWrite_framed s sel
  | hufRead => exact execHufRead_framed s
  | hufEnc1 sel => exact execHufEnc1_framed s sel
  | hufEnc4 sel => exact execHufEnc4_framed s sel
  | hufDec1 => exact execHufDec1_framed s
  | hufDec4 => exact execHufDec4_framed s
  | hufEst sel => exact execHufEst_framed s sel
  | hufCommit => exact execHufCommit_framed s
  | hufDiscard => exact execHufDiscard_framed s
  | hufGetcode sel => exact execHufGetcode_framed s sel
  | hufGetdt => exact execHufGetdt_framed s
  | litEncode => exact execLitEncode_framed s
  | litDecode => exact execLitDecode_framed s
  | litGet => exact execLitGet_framed s
  | mfReset => exact execMfReset_framed s
  | mfWindow => exact execMfWindow_framed s
  | mfBlock => exact execMfBlock_framed s
  | ssReset => exact execSsReset_framed s
  | ssStore => exact execSsStore_framed s
  | ssAppend => exact execSsAppend_framed s
  | ssCodes => exact execSsCodes_framed s
  | repInit => exact execRepInit_framed s
  | repCommit => exact execRepCommit_framed s
  | ssGet => exact execSsGet_framed s
  | repGet => exact execRepGet_framed s
  | ssInfo => exact execSsInfo_framed s
  | mfGet sel => exact execMfGet_framed s sel
  | ssGetlit => exact execSsGetlit_framed s
  | seqEncode => exact execSeqEncode_framed s
  | seqDecode => exact execSeqDecode_framed s
  | drepInit => exact execDrepInit_framed s
  | sqGet => exact execSqGet_framed s
  | drepGet => exact execDrepGet_framed s
  | replay => exact execReplay_framed s

/-- Settles O9, command by command. -/
theorem commandFrame : Obligations.CommandFrame := by
  unfold Obligations.CommandFrame
  intro i s t h0 h p
  exact (h ▸ exec_framed i s : Framed i s (.next t)).agree h0 p

end Sys2Proof.Machine
end

section
/-! Conditions on a few parts of the state (Safety.lean's invariants): a command that leaves those parts alone keeps
them, so a step lemma takes apart only the commands that write them. -/

namespace Sys2Proof.Machine

/-! ### Conditions on listed parts -/

/-- Every state the outcome can give meets `P`. -/
def Ensures (P : State → Prop) (o : Out) : Prop := ∀ t, o = .next t → P t

/-- The parts the host writes between commands, and those every failing command may change (R551 steps 1 to 3). -/
def quietParts : List Part := [.host, .cmd, .args, .res, .error, .mem, .free]

/-- `P` speaks of the parts `ps` only, none of which the host or an error alone changes. -/
structure SpeaksOf (P : State → Prop) (ps : List Part) : Prop where
  quiet : ∀ p ∈ quietParts, p ∉ ps
  respects : ∀ {s t : State}, (∀ p ∈ ps, s.Agree t p) → P s → P t

/-- Neither the success nor the failure of a command changes a part of `ps` (R13, R551). -/
def leavesAlone (i : Instr) (ps : List Part) : Bool := ps.all fun p => !(writesOf i ++ clearsOf i).contains p

theorem Ensures.next {P : State → Prop} {s : State} (h : P s) : Ensures P (.next s) := by
  rintro _ ⟨⟩
  exact h

section Rules

variable {P : State → Prop} {ps : List Part} {s t : State}

theorem SpeaksOf.keep {qs : List Part} (hP : SpeaksOf P ps) (h : P s) (k : s.KeepsBut t qs)
    (hq : ∀ q ∈ qs, q ∉ ps) : P t :=
  hP.respects (fun p hp => k p fun hpq => hq p hpq hp) h

theorem SpeaksOf.fail (hP : SpeaksOf P ps) (h : P s) (e : Err) : P (s.fail e) :=
  hP.keep h (qs := [.res, .error, .free]) (by simp [State.keepsBut_iff]) fun q hq =>
    hP.quiet q ((by decide : [Part.res, .error, .free] ⊆ quietParts) hq)

theorem SpeaksOf.raised (hP : SpeaksOf P ps) (h : P s) (e : Err) : Ensures P (raiseErr e s) := .next (hP.fail h e)

/-- A check that raises an error. -/
theorem SpeaksOf.check {c : Prop} [Decidable c] {e : ErrCode} {o : Out} (hP : SpeaksOf P ps) (h : P s)
    (ho : ¬ c → Ensures P o) : Ensures P (if c then raise e s else o) := by
  split
  · exact hP.raised h _
  · exact ho ‹_›

/-- A command of a slot or state register (R115). -/
theorem SpeaksOf.four {k : BitVec 4} {f : Fin 4 → Out} (hP : SpeaksOf P ps) (h : P s)
    (hf : ∀ j, Ensures P (f j)) : Ensures P (withFour k s f) := by
  obtain ⟨j, hj⟩ | hr := withFour_cases (rfl : withFour k s f = _)
  · exact hj ▸ hf j
  · exact hr ▸ hP.raised h _

/-- A command that leaves the parts alone keeps the condition. -/
theorem SpeaksOf.untouched {i : Instr} (hP : SpeaksOf P ps) (h : P s) (hi : leavesAlone i ps = true) :
    Ensures P (exec i s) := by
  simp only [leavesAlone, List.all_eq_true, Bool.not_eq_true', List.contains_eq_mem, decide_eq_false_iff_not,
    List.mem_append, not_or] at hi
  intro t ht
  obtain ⟨_, keeps⟩ | keeps := ht ▸ exec_framed i s
  · exact hP.keep h keeps fun q hq hp => (hi q hp).1 hq
  · refine hP.keep h keeps fun q hq hp => ?_
    rcases List.mem_append.1 hq with hq | hq
    · exact hP.quiet q ((by decide : [Part.error, .res, .free, .mem] ⊆ quietParts) hq) hp
    · exact (hi q hp).2 hq

/-- A condition every command keeps is kept by every step: what the host writes is no part of it. -/
theorem SpeaksOf.kept (hP : SpeaksOf P ps) (hx : ∀ i s, P s → Ensures P (exec i s)) :
    ∀ s t, P s → step s = .next t → P t := by
  intro s t h ht
  have quiet {t : State} (k : s.KeepsBut t [.host, .cmd, .args, .mem]) : P t :=
    hP.keep h k fun q hq => hP.quiet q ((by decide : [Part.host, .cmd, .args, .mem] ⊆ quietParts) hq)
  suffices hs : Ensures P (step s) from hs t ht
  unfold step
  split
  · exact .next h
  · next a rest _ =>
    cases a with
    | setArg k v => exact .next (quiet (by simp [State.keepsBut_iff]))
    | setByte a b => exact .next (quiet (by simp [State.keepsBut_iff]))
    | command w =>
      have hw : P { s with host := rest, cmd := w } := quiet (by simp [State.keepsBut_iff])
      simp only [hostAct, issue]
      split
      · exact .next hw
      · split
        · exact hP.raised hw _
        · exact hx _ _ hw

end Rules

end Sys2Proof.Machine
end

section
/-! The block search (R411): from cursor to cursor it covers the block without a gap, and a hash table changes only
where a position of the block is put at its own hash. -/

namespace Sys2Proof.Machine

/-! ### Covering a stretch of the block (R414) -/

/-- The sequences cover the positions from `a` to `b`: each one's literals begin where the match before it ends. -/
def Covers : Nat → List Emitted → Nat → Prop
  | a, [], b => a = b
  | a, e :: es, b => e.litFrom = a ∧ a ≤ e.litTo ∧ 1 ≤ e.mlBase ∧ Covers (e.litTo + (e.mlBase + 3)) es b

theorem Covers.append {es es' : List Emitted} {a b c : Nat} (h : Covers a es b) (h' : Covers b es' c) :
    Covers a (es ++ es') c := by
  induction es generalizing a with
  | nil => exact (h : a = b) ▸ h'
  | cons e es ih =>
    obtain ⟨hfrom, hto, hml, hrest⟩ := h
    exact ⟨hfrom, hto, hml, ih hrest⟩

/-- Every match is at least 4 long, so the literals and four bytes for each sequence fit the stretch. -/
theorem Covers.bound {es : List Emitted} {a b : Nat} (h : Covers a es b) :
    a + ((es.map fun e => e.litTo - e.litFrom).sum + 4 * es.length) ≤ b := by
  induction es generalizing a with
  | nil => exact Nat.le_of_eq h
  | cons e es ih =>
    obtain ⟨hfrom, hto, hml, hrest⟩ := h
    have := ih hrest
    simp only [List.map_cons, List.sum_cons, List.length_cons]
    omega

/-! ### Hash table entries -/

namespace SearchEnv

variable (v : SearchEnv) (first : Nat)

/-- The entry at `h` is a position of the block, not before `first`, that stands at its own hash with 8 bytes from it
on. -/
def Inserted (hash : Nat → Nat) (table : List (Nat × Word)) (h : Nat) : Prop :=
  ∃ p, first ≤ p ∧ p + 8 ≤ v.fin ∧ hash p = h ∧ sparseRead h table = BitVec.ofNat 32 p

/-- Every entry is the old one or an inserted one. -/
def Grown (hash : Nat → Nat) (old new : List (Nat × Word)) : Prop :=
  ∀ h, sparseRead h new = sparseRead h old ∨ v.Inserted first hash new h

variable {v first} {hash : Nat → Nat} {t t' t'' : List (Nat × Word)} {p : Nat}

theorem Grown.refl : v.Grown first hash t t := fun _ => .inl rfl

/-- An inserted entry stays one. -/
theorem Inserted.grown {h : Nat} (hi : v.Inserted first hash t h) (hg : v.Grown first hash t t') :
    v.Inserted first hash t' h := by
  obtain e | hi' := hg h
  · obtain ⟨p, hfirst, hfin, hp, hr⟩ := hi
    exact ⟨p, hfirst, hfin, hp, e.trans hr⟩
  · exact hi'

theorem Grown.trans (h : v.Grown first hash t t') (h' : v.Grown first hash t' t'') :
    v.Grown first hash t t'' := by
  intro x
  obtain e | hi := h' x
  · exact (h x).imp e.trans (·.grown h')
  · exact .inr hi

theorem inserted_setPosition (h1 : first ≤ p) (h2 : p + 8 ≤ v.fin) :
    v.Inserted first hash (setPosition (hash p) p t) (hash p) :=
  ⟨p, h1, h2, rfl, sparseRead_write_inside (j := 0) (hash p) [BitVec.ofNat 32 p] t (by simp)⟩

theorem grown_setPosition (h1 : first ≤ p) (h2 : p + 8 ≤ v.fin) :
    v.Grown first hash t (setPosition (hash p) p t) := by
  intro h
  by_cases hh : h = hash p
  · subst hh
    exact .inr (inserted_setPosition h1 h2)
  · exact .inl (sparseRead_write_outside _ _ _ (by simp; omega))

/-! ### From cursor to cursor -/

variable (v first) in
/-- Where a cursor may stand. -/
structure Ready (c : SearchCursor) : Prop where
  first : first ≤ c.ip
  anchor : c.anchor ≤ c.ip
  fin : c.anchor ≤ v.fin

variable (v first) in
/-- The search goes from one cursor to the other with the sequences `es`. -/
structure Moves (c : SearchCursor) (es : List Emitted) (c' : SearchCursor) : Prop where
  ready : v.Ready first c'
  covers : Covers c.anchor es c'.anchor
  long : v.Grown first v.longHash c.lh c'.lh
  short : v.Grown first v.shortHash c.sh c'.sh

variable {c c' c'' : SearchCursor} {es es' : List Emitted} {m : MatchFound}

theorem Moves.refl (hc : v.Ready first c) : v.Moves first c [] c := ⟨hc, rfl, .refl, .refl⟩

theorem Moves.trans (h : v.Moves first c es c') (h' : v.Moves first c' es' c'') :
    v.Moves first c (es ++ es') c'' :=
  ⟨h'.ready, h.covers.append h'.covers, h.long.trans h'.long, h.short.trans h'.short⟩

theorem moves_insert (hc : v.Ready first c) (h1 : first ≤ p) (h2 : p + 8 ≤ v.fin) :
    v.Moves first c [] (v.insert p c) :=
  ⟨⟨hc.first, hc.anchor, hc.fin⟩, rfl, grown_setPosition h1 h2, grown_setPosition h1 h2⟩

/-- `count` compares at most as many bytes as it is given. -/
theorem count_le (v : SearchEnv) (fuel a m : Nat) : v.count fuel a m ≤ fuel := by
  induction fuel generalizing a m with
  | zero => exact Nat.le_refl 0
  | succ fuel ih =>
    simp only [count]
    split
    · exact Nat.succ_le_succ (ih _ _)
    · omega

/-- A match ends within the block. -/
theorem matchLength_bounds {ip m n : Nat} (h : ip + n ≤ v.fin) :
    n ≤ v.matchLength ip m n ∧ ip + v.matchLength ip m n ≤ v.fin := by
  have := v.count_le (v.fin - (ip + n)) (ip + n) (m + n)
  unfold matchLength
  omega

/-- The backward extension goes no further than it is given. -/
theorem back_le (v : SearchEnv) (fuel ip m : Nat) : v.back fuel ip m ≤ fuel := by
  induction fuel generalizing ip m with
  | zero => exact Nat.le_refl 0
  | succ fuel ih =>
    simp only [back]
    split
    · exact Nat.succ_le_succ (ih _ _)
    · omega

variable (v) in
/-- What a match found by a probe of position `ip` reaches: from the anchor on, over at least 4 bytes beyond `ip`,
within the block. -/
structure Found (anchor ip : Nat) (m : MatchFound) : Prop where
  start : anchor ≤ m.ip
  length : 4 ≤ m.ml
  past : ip + 4 ≤ m.ip + m.ml
  fin : m.ip + m.ml ≤ v.fin

/-- A candidate for `q`, the probed position or the next one, extended both ways. -/
theorem found_extend {anchor ip q n : Nat} (cand : Nat) (ha : anchor ≤ q) (hq : ip ≤ q) (hn : 4 ≤ n)
    (hf : q + n ≤ v.fin) : v.Found anchor ip (v.extend anchor q cand n) := by
  have hback := v.back_le (q - anchor) q cand
  obtain ⟨hlen, hend⟩ := matchLength_bounds (m := cand) hf
  constructor <;> simp only [extend] <;> omega

/-- The cursor a probe leaves, and the match it may have found. -/
theorem probe_moves (hc : v.Ready first c) (hf : c.ip + 8 < v.fin) :
    v.Moves first (v.insert c.ip c) [] (v.probe c).2 ∧ (v.probe c).2.ip = c.ip ∧ (v.probe c).2.anchor = c.anchor
      ∧ ∀ m, (v.probe c).1 = some m → v.Found c.anchor c.ip m := by
  have hfirst := hc.first
  have hanchor := hc.anchor
  have h1 := moves_insert hc hc.first hf.le
  have found {q n : Nat} (cand : Nat) (hq : c.ip ≤ q) (hn : 4 ≤ n) (hf : q + n ≤ v.fin) :
      ∀ m, some (v.extend c.anchor q cand n) = some m → v.Found c.anchor c.ip m := by
    rintro _ ⟨⟩
    exact found_extend cand (by omega) hq hn hf
  simp only [probe]
  split
  · refine ⟨.refl h1.ready, rfl, rfl, ?_⟩
    rintro _ ⟨⟩
    obtain ⟨hlen, hend⟩ := matchLength_bounds (m := c.ip + 1 - c.o1.toNat) (show c.ip + 1 + 4 ≤ v.fin by omega)
    constructor <;> simp only <;> omega
  · split
    · exact ⟨.refl h1.ready, rfl, rfl, found _ (by omega) (by omega) (by omega)⟩
    · split
      · have h2 : v.Moves first (v.insert c.ip c) []
            { v.insert c.ip c with
              lh := setPosition (v.longHash (c.ip + 1)) (c.ip + 1) (v.insert c.ip c).lh } :=
          ⟨⟨hc.first, hc.anchor, hc.fin⟩, rfl, grown_setPosition (by omega) (by omega), .refl⟩
        split
        · exact ⟨h2, rfl, rfl, found _ (by omega) (by omega) (by omega)⟩
        · exact ⟨h2, rfl, rfl, found _ (by omega) (by omega) (by omega)⟩
      · exact ⟨.refl h1.ready, rfl, rfl, by simp⟩

/-- A probe puts its position into both tables. -/
theorem probe_inserts (hc : v.Ready first c) (hf : c.ip + 8 < v.fin) :
    v.Inserted first v.longHash (v.probe c).2.lh (v.longHash c.ip)
      ∧ v.Inserted first v.shortHash (v.probe c).2.sh (v.shortHash c.ip) := by
  obtain ⟨hm, -⟩ := probe_moves hc hf
  exact ⟨(inserted_setPosition hc.first hf.le).grown hm.long, (inserted_setPosition hc.first hf.le).grown hm.short⟩

end SearchEnv

@[simp] theorem SearchCursor.pass_ip (c : SearchCursor) (m : MatchFound) : (c.pass m).ip = m.ip + m.ml := by
  unfold SearchCursor.pass
  split <;> rfl

@[simp] theorem SearchCursor.pass_anchor (c : SearchCursor) (m : MatchFound) :
    (c.pass m).anchor = m.ip + m.ml := by
  unfold SearchCursor.pass
  split <;> rfl

@[simp] theorem SearchCursor.pass_lh (c : SearchCursor) (m : MatchFound) : (c.pass m).lh = c.lh := by
  unfold SearchCursor.pass
  split <;> rfl

@[simp] theorem SearchCursor.pass_sh (c : SearchCursor) (m : MatchFound) : (c.pass m).sh = c.sh := by
  unfold SearchCursor.pass
  split <;> rfl

namespace SearchEnv

variable {v : SearchEnv} {first : Nat} {c : SearchCursor} {m : MatchFound}

theorem moves_pass {ip : Nat} (hip : first ≤ ip) (hm : v.Found c.anchor ip m) :
    v.Moves first c [m.emitted c.anchor] (c.pass m) := by
  obtain ⟨hstart, hlen, hpast, hfin⟩ := hm
  refine ⟨⟨?_, ?_, ?_⟩, ⟨rfl, hstart, ?_, ?_⟩, ?_, ?_⟩
  · simp only [SearchCursor.pass_ip]; omega
  · simp
  · simpa using hfin
  · simp only [MatchFound.emitted]; omega
  · simp only [MatchFound.emitted, SearchCursor.pass_anchor, Covers]; omega
  · exact c.pass_lh m ▸ .refl
  · exact c.pass_sh m ▸ .refl

/-- The immediate-repeat loop stands behind a match: no literals come between. -/
theorem repeatLoop_moves (fuel : Nat) (hc : v.Ready first c) (ha : c.anchor = c.ip) :
    v.Moves first c (v.repeatLoop fuel c).1 (v.repeatLoop fuel c).2 := by
  induction fuel generalizing c with
  | zero => exact .refl hc
  | succ fuel ih =>
    have hfirst := hc.first
    simp only [repeatLoop]
    split
    · next h =>
      obtain ⟨hlen, hend⟩ := matchLength_bounds (m := c.ip - c.o2.toNat) (show c.ip + 4 ≤ v.fin by omega)
      have hins := moves_insert hc hc.first h.1
      have h1 : v.Moves first c
          [{ litFrom := c.ip, litTo := c.ip, code := 0, mlBase := v.matchLength c.ip (c.ip - c.o2.toNat) 4 - 3 }]
          { v.insert c.ip c with
            ip := c.ip + v.matchLength c.ip (c.ip - c.o2.toNat) 4
            anchor := c.ip + v.matchLength c.ip (c.ip - c.o2.toNat) 4
            o1 := c.o2, o2 := c.o1 } :=
        ⟨⟨by simp only; omega, Nat.le_refl _, hend⟩, ⟨ha.symm, ha.le, by simp only; omega, by
          simp only [Covers]; omega⟩, hins.long, hins.short⟩
      exact h1.trans (ih h1.ready rfl)
    · exact .refl hc

/-- After a match that went at least 4 bytes past the probed position `cur`. -/
theorem afterMatch_moves {cur : Nat} (hc : v.Ready first c) (ha : c.anchor = c.ip) (h1 : first ≤ cur)
    (h2 : cur + 4 ≤ c.ip) : v.Moves first c (v.afterMatch cur c).1 (v.afterMatch cur c).2 := by
  simp only [afterMatch]
  split
  · have hins := moves_insert (p := cur + 2) hc (by omega) (by omega)
    have hins' := moves_insert (p := c.ip - 2) hins.ready (by omega) (by omega)
    exact (hins.trans hins').trans (repeatLoop_moves v.fin hins'.ready ha)
  · exact .refl hc

/-- One iteration of the main loop, from the cursor its probe leaves, where the iterations after it move on. -/
theorem loop_succ_moves {fuel : Nat} (hc : v.Ready first c) (hf : c.ip + 8 < v.fin)
    (hrest : ∀ {c'}, v.Ready first c' → v.Moves first c' (v.loop fuel c').1 (v.loop fuel c').2) :
    v.Moves first (v.probe c).2 (v.loop (fuel + 1) c).1 (v.loop (fuel + 1) c).2 := by
  obtain ⟨hprobe, -, hanchor, hfound⟩ := probe_moves hc hf
  have hfirst := hc.first
  have hle := hc.anchor
  simp only [loop, if_pos hf]
  rcases hp : v.probe c with ⟨_ | m, c1⟩
  · rw [hp] at hprobe hanchor
    have hnext : v.Ready first { c1 with ip := c.ip + ((c.ip - c.anchor) >>> 8) + 1 } :=
      ⟨by simp only; omega, by simp only at hanchor ⊢; omega, hprobe.ready.fin⟩
    have hskip : v.Moves first c1 [] { c1 with ip := c.ip + ((c.ip - c.anchor) >>> 8) + 1 } :=
      ⟨hnext, rfl, .refl, .refl⟩
    exact hskip.trans (hrest hnext)
  · rw [hp] at hprobe hanchor hfound
    have hm := hfound m rfl
    have hpass : v.Moves first c1 [m.emitted c1.anchor] (c1.pass m) := moves_pass hfirst (hanchor ▸ hm)
    have hafter := afterMatch_moves (cur := c.ip) hpass.ready (by simp) hfirst (by simpa using hm.past)
    have hall := (hpass.trans hafter).trans (hrest hafter.ready)
    simpa [show c1.anchor = c.anchor from hanchor] using hall

/-- The main loop covers what it passes, from any cursor. -/
theorem loop_moves (fuel : Nat) (hc : v.Ready first c) : v.Moves first c (v.loop fuel c).1 (v.loop fuel c).2 := by
  induction fuel generalizing c with
  | zero => exact .refl hc
  | succ fuel ih =>
    by_cases hf : c.ip + 8 < v.fin
    · have hprobe := (moves_insert hc hc.first hf.le).trans (probe_moves hc hf).1
      exact hprobe.trans (loop_succ_moves hc hf ih)
    · rw [loop, if_neg hf]
      exact .refl hc

/-- A loop that runs at all leaves an inserted entry at its first position's hashes. -/
theorem loop_inserts (fuel : Nat) (hc : v.Ready first c) (hf : c.ip + 8 < v.fin) :
    v.Inserted first v.longHash (v.loop (fuel + 1) c).2.lh (v.longHash c.ip)
      ∧ v.Inserted first v.shortHash (v.loop (fuel + 1) c).2.sh (v.shortHash c.ip) := by
  have hrest := loop_succ_moves hc hf (loop_moves fuel)
  obtain ⟨hlong, hshort⟩ := probe_inserts hc hf
  exact ⟨hlong.grown hrest.long, hshort.grown hrest.short⟩

/-- The first position `search` probes (R411). -/
def firstProbed (wb start : Nat) : Nat := if start = wb then start + 1 else start

theorem le_firstProbed (wb start : Nat) : start ≤ firstProbed wb start := by
  unfold firstProbed
  split <;> omega

/-- What a search of a block gives: it covers the block up to its last anchor and moves the tables from `lh` and `sh`
on. -/
theorem search_moves {start size r0 r1 : Nat} {lh sh : List (Nat × Word)} (hfin : v.fin = start + size) :
    let r := v.search start size r0 r1 lh sh
    let first := firstProbed v.wb start
    Covers start r.seqs r.cursor.anchor ∧ r.cursor.anchor ≤ start + size
      ∧ v.Grown first v.longHash lh r.cursor.lh ∧ v.Grown first v.shortHash sh r.cursor.sh
      ∧ (first + 8 < start + size →
          v.Inserted first v.longHash r.cursor.lh (v.longHash first)
            ∧ v.Inserted first v.shortHash r.cursor.sh (v.shortHash first)) := by
  simp only [search]
  rw [show (if start = v.wb then start + 1 else start) = firstProbed v.wb start from rfl]
  generalize hc : SearchCursor.mk (firstProbed v.wb start) start _ _ lh sh = c
  have hready : v.Ready (firstProbed v.wb start) c := by
    subst hc
    exact ⟨Nat.le_refl _, le_firstProbed _ _, by simp only; omega⟩
  have hmoves := loop_moves (size + 1) hready
  have hins := loop_inserts size hready
  subst hc
  exact ⟨hmoves.covers, hfin ▸ hmoves.ready.fin, hmoves.long, hmoves.short, fun h => hins (hfin ▸ h)⟩

end SearchEnv

end Sys2Proof.Machine
end

section
/-! The limits on the store, the decoder's buffers, the refill counter, the match finder's configuration and the decoded
offsets (R37, R49, R50, R172, R400, R523): every command keeps them. -/

namespace Sys2Proof.Machine

/-! ### The limits by part -/

/-- What `LimitsOk` says of the store (R49). -/
structure SeqStore.Fits (ss : SeqStore) : Prop where
  lit : ss.lit.length ≤ Config.blockMax
  seqs : ss.seqs.length ≤ Config.seqMax
  long : ss.longF ≠ .none → ss.longP.toNat < ss.seqs.length
  codes : ∀ l, ss.codes = some l → l.length = ss.seqs.length

/-- No repeated offset of the decoder is 0 (R50, R523). -/
structure DecRep.Nonzero (r : DecRep) : Prop where
  r0 : r.r0 ≠ 0
  r1 : r.r1 ≠ 0
  r2 : r.r2 ≠ 0

/-- `LimitsOk`, a field for each part of the state. -/
structure State.Limits (s : State) : Prop where
  store : s.ss.Fits
  dlit : s.dlit.length ≤ Config.blockMax
  sq : s.sq.length ≤ Config.seqMax
  reader : s.br.unl ≤ Config.brWindow
  finder : s.FinderOk
  history : s.drep.Nonzero
  offsets : ∀ q ∈ s.sq, q.off ≠ 0

theorem State.limitsOk_iff {s : State} : s.LimitsOk ↔ s.Limits := by
  constructor
  · rintro ⟨hlit, hseqs, hlong, hcodes, hdlit, hsq, hunl, hfinder, h0, h1, h2, hoff⟩
    exact ⟨⟨hlit, hseqs, hlong, hcodes⟩, hdlit, hsq, hunl, hfinder, ⟨h0, h1, h2⟩, hoff⟩
  · rintro ⟨⟨hlit, hseqs, hlong, hcodes⟩, hdlit, hsq, hunl, hfinder, ⟨h0, h1, h2⟩, hoff⟩
    exact ⟨hlit, hseqs, hlong, hcodes, hdlit, hsq, hunl, hfinder, h0, h1, h2, hoff⟩

theorem State.limits_speaksOf : SpeaksOf State.Limits [.mfcfg, .br, .finder, .store, .drep, .dlit, .sq] where
  quiet := by decide
  respects := by
    intro s t k h
    simp only [List.forall_mem_cons, State.Agree] at k
    obtain ⟨hcfg, hbr, ⟨-, -, -, -, hvalid⟩, hss, hdrep, hdlit, hsq, -⟩ := k
    refine ⟨hss ▸ h.store, hdlit ▸ h.dlit, hsq ▸ h.sq, hbr ▸ h.reader, ?_, hdrep ▸ h.history, hsq ▸ h.offsets⟩
    rw [State.FinderOk, hcfg, hvalid]
    exact h.finder

/-! ### The sequence store -/

theorem SeqStore.fits_reset : SeqStore.reset.Fits := ⟨by decide, by decide, fun h => absurd rfl h, by simp [reset]⟩

/-- A sequence and its literals are appended (R421): the long field, where it is set, is that of a stored sequence. -/
theorem SeqStore.Fits.push {ss : SeqStore} (h : ss.Fits) {lits : List Byte} (mlBase ofa : Nat)
    (hlit : ss.lit.length + lits.length ≤ Config.blockMax) (hseq : ss.seqs.length < Config.seqMax) :
    (ss.push lits mlBase ofa).Fits := by
  have hlen : (ss.push lits mlBase ofa).seqs.length = ss.seqs.length + 1 := by simp [SeqStore.push]
  refine ⟨by simpa [SeqStore.push] using hlit, by omega, fun hl => ?_, by simp [SeqStore.push]⟩
  rw [hlen]
  by_cases hlong : 65536 ≤ mlBase ∨ 65536 ≤ lits.length
  · simp only [SeqStore.push, if_pos hlong, BitVec.toNat_ofNat]
    omega
  · obtain ⟨hm, hn⟩ := not_or.1 hlong
    have := h.long (by simpa [SeqStore.push, hm, hn] using hl)
    simp only [SeqStore.push, if_neg hlong]
    omega

/-- The sequences of a search fit where their literals and their number do. -/
theorem SearchEnv.store_fits (v : SearchEnv) {es : List Emitted} {ss : SeqStore} (h : ss.Fits)
    (hlit : ss.lit.length + (es.map fun e => e.litTo - e.litFrom).sum ≤ Config.blockMax)
    (hseq : ss.seqs.length + es.length ≤ Config.seqMax) : (v.store es ss).Fits := by
  induction es generalizing ss with
  | nil => exact h
  | cons e es ih =>
    simp only [List.map_cons, List.sum_cons, List.length_cons] at hlit hseq
    refine ih (h.push _ _ (by simp; omega) (by omega)) ?_ ?_
    · simp [SeqStore.push]; omega
    · simp [SeqStore.push]; omega

/-- The sequences of a block cover at most its size (R414), so an empty store holds them. -/
theorem SearchEnv.search_fits {v : SearchEnv} {ss : SeqStore} {start size r0 r1 : Nat} {lh sh : List (Nat × Word)}
    (hfin : v.fin = start + size) (h : ss.Fits) (hlit : ss.lit.length = 0) (hseq : ss.seqs.length = 0)
    (hsize : size ≤ Config.blockMax) : (v.store (v.search start size r0 r1 lh sh).seqs ss).Fits := by
  obtain ⟨hcovers, hend, -⟩ := SearchEnv.search_moves (r0 := r0) (r1 := r1) (lh := lh) (sh := sh) hfin
  have hbound := hcovers.bound
  have hmax : Config.blockMax ≤ 4 * Config.seqMax := by decide
  exact v.store_fits h (by omega) (by omega)

theorem ssStoreCheck_none {ss : SeqStore} {addr ll code mlBase : Nat}
    (h : ssStoreCheck ss addr ll code mlBase = none) :
    ss.lit.length + ll ≤ Config.blockMax ∧ ss.seqs.length < Config.seqMax := by
  simp only [ssStoreCheck] at h
  split at h <;> [cases h; split at h <;> [cases h; split at h]]
  · cases h
  · next hr =>
    simp only [Bool.or_eq_true, decide_eq_true_eq, not_or, not_le, not_lt] at hr
    omega

/-! ### Decoded offsets -/

/-- A value that fits its register or is free is not 0. -/
theorem offsetWord_ne_zero (tag i : Nat) {v : Nat} (h : 1 ≤ v) : offsetWord tag i v ≠ 0 := by
  have key : ∀ n : Nat, 1 ≤ n → n < 2 ^ 32 → BitVec.ofNat 32 n ≠ 0 := by
    intro n h1 h2 h
    have := congrArg BitVec.toNat h
    rw [BitVec.toNat_ofNat, Nat.mod_eq_of_lt h2] at this
    exact absurd this (by simp; omega)
  unfold offsetWord
  split
  · exact key v h ‹_›
  · exact key _ (by omega) (by omega)

/-- Offsets are resolved to nonzero ones from a nonzero history (R480). -/
theorem resolveOffset_nonzero {rep : DecRep} (h : rep.Nonzero) (tag i ov ll : Nat) :
    (resolveOffset tag i ov ll rep).1 ≠ 0 ∧ (resolveOffset tag i ov ll rep).2.Nonzero := by
  simp only [resolveOffset]
  split
  · next hov =>
    have := offsetWord_ne_zero tag i (v := ov - 3) (by omega)
    exact ⟨this, this, h.r0, h.r1⟩
  · generalize ov - 1 + (if ll = 0 then 1 else 0) = k
    split
    · exact ⟨h.r0, h⟩
    · generalize (if k = 3 then rep.r0 - 1 else if k = 1 then rep.r1 else rep.r2) = t
      have ht : (if t = 0 then 1 else t) ≠ 0 := by
        split
        · decide
        · assumption
      refine ⟨ht, ht, h.r0, ?_⟩
      dsimp only
      split
      · exact h.r2
      · exact h.r1

theorem SeqCursor.sequence_nonzero {tLL tOF tML : FseDT} {c : SeqCursor} (h : c.rep.Nonzero) (tag i : Nat) :
    (c.sequence tLL tOF tML tag i).1.off ≠ 0 ∧ (c.sequence tLL tOF tML tag i).2.rep.Nonzero :=
  resolveOffset_nonzero h _ _ _ _

theorem decodeSeqLoop_nonzero (tLL tOF tML : FseDT) (tag n i : Nat) {c : SeqCursor} (h : c.rep.Nonzero) :
    (∀ q ∈ (decodeSeqLoop tLL tOF tML tag n i c).1, q.off ≠ 0)
      ∧ (decodeSeqLoop tLL tOF tML tag n i c).2.rep.Nonzero := by
  induction n generalizing i c with
  | zero => exact ⟨by simp [decodeSeqLoop], h⟩
  | succ n ih =>
    obtain ⟨hoff, hrep⟩ := SeqCursor.sequence_nonzero (tLL := tLL) (tOF := tOF) (tML := tML) h tag i
    have hnext : (if n = 0 then (c.sequence tLL tOF tML tag i).2
        else (c.sequence tLL tOF tML tag i).2.update tLL tOF tML).rep.Nonzero := by
      split
      · exact hrep
      · exact hrep
    obtain ⟨hrest, hlast⟩ := ih (i + 1) hnext
    simp only [decodeSeqLoop, List.forall_mem_cons]
    exact ⟨⟨hoff, hrest⟩, hlast⟩

/-- A section that decodes to sequences: its three tables, and the stream read with them (R475). -/
theorem decodeSequences_eq_some {dt : Vector (Option FseDT) 4} {rep : DecRep} {tag : Nat} {bs : List Byte}
    {d : SeqDecoded} (h : decodeSequences dt rep tag bs = .ok (some d)) :
    ∃ n modes p, decodeSeqTables dt rep tag n modes bs p = .ok d := by
  match bs with
  | [] => cases h
  | b0 :: rest =>
    simp only [decodeSequences] at h
    split at h
    · split at h <;> cases h
    · split at h
      · cases h
      · split at h
        · cases h
        · split at h
          · cases h
          · split at h
            · cases h
            · split at h
              · cases h
              · split at h
                · cases h
                · cases h
                  exact ⟨_, _, _, ‹_›⟩

/-- The three tables of a decoded section, each read in its place. -/
theorem decodeSeqTables_eq_ok {dt : Vector (Option FseDT) 4} {rep : DecRep} {tag n modes p : Nat} {bs : List Byte}
    {d : SeqDecoded} (h : decodeSeqTables dt rep tag n modes bs p = .ok d) :
    ∃ p1 p2 p3, readField 0 (modes / 2 ^ 6 % 4) dt[0] bs p = .ok (d.tLL, p1)
      ∧ readField 1 (modes / 2 ^ 4 % 4) dt[1] bs p1 = .ok (d.tOF, p2)
      ∧ readField 2 (modes / 2 ^ 2 % 4) dt[2] bs p2 = .ok (d.tML, p3)
      ∧ decodeSeqStream d.tLL d.tOF d.tML rep tag n bs p3 = .ok d := by
  have stream {tLL tOF tML : FseDT} {p3 : Nat} (h : decodeSeqStream tLL tOF tML rep tag n bs p3 = .ok d) :
      d.tLL = tLL ∧ d.tOF = tOF ∧ d.tML = tML := by
    simp only [decodeSeqStream] at h
    split at h
    · cases h
    · split at h
      · cases h
      · split at h
        · cases h
          exact ⟨rfl, rfl, rfl⟩
        · cases h
  simp only [decodeSeqTables] at h
  split at h
  · cases h
  · next tLL p1 hLL =>
    split at h
    · cases h
    · next tOF p2 hOF =>
      split at h
      · cases h
      · next tML p3 hML =>
        obtain ⟨rfl, rfl, rfl⟩ := stream h
        exact ⟨p1, p2, p3, hLL, hOF, hML, h⟩

theorem decodeSeqStream_nonzero {tLL tOF tML : FseDT} {rep : DecRep} {tag n p : Nat} {bs : List Byte}
    {d : SeqDecoded} (hr : rep.Nonzero) (h : decodeSeqStream tLL tOF tML rep tag n bs p = .ok d) :
    (∀ q ∈ d.seqs, q.off ≠ 0) ∧ d.rep.Nonzero := by
  simp only [decodeSeqStream] at h
  split at h
  · cases h
  · split at h
    · cases h
    · split at h
      · cases h
        exact decodeSeqLoop_nonzero _ _ _ _ _ _ hr
      · cases h

theorem decodeSequences_nonzero {dt : Vector (Option FseDT) 4} {rep : DecRep} {tag : Nat} {bs : List Byte}
    {d : SeqDecoded} (hr : rep.Nonzero) (h : decodeSequences dt rep tag bs = .ok (some d)) :
    (∀ q ∈ d.seqs, q.off ≠ 0) ∧ d.rep.Nonzero := by
  obtain ⟨n, modes, p, htables⟩ := decodeSequences_eq_some h
  obtain ⟨_, _, _, -, -, -, hstream⟩ := decodeSeqTables_eq_ok htables
  exact decodeSeqStream_nonzero hr hstream

/-! ### The match finder's configuration -/

theorem inRange_iff (lo hi n : Nat) : inRange lo hi n = true ↔ lo ≤ n ∧ n ≤ hi := by simp [inRange]

/-- The configuration MF_RESET accepts (R37, R400). -/
theorem finderOk_of_checks {s : State} {n : Nat} (hcfg : s.mfcfg = BitVec.ofNat 32 n) (h1 : n < 2 ^ 22)
    (h2 : cfgLegal n = true) (h3 : cfgStrategy n = 1) : s.FinderOk := by
  intro _
  have hn : s.mfcfg.toNat = n := by
    rw [hcfg, BitVec.toNat_ofNat, Nat.mod_eq_of_lt (by omega)]
  simp only [cfgLegal, Bool.and_eq_true, inRange_iff, cfgHashLog, cfgChainLog, cfgSearchLength, cfgWindowLog,
    cfgStrategy, Nat.shiftRight_eq_div_pow, Nat.reducePow] at h1 h2 h3
  simp only [hn, Nat.reducePow]
  omega

/-- What BR_PEEK and BR_READ accept stays within the refill limit (R172). -/
theorem readerCheck_none {s : State} {n : Nat} (h : s.readerCheck n = none) :
    ¬ Config.brWindow < s.br.unl + n := by
  unfold State.readerCheck at h
  split at h
  · cases h
  · split at h
    · cases h
    · split at h
      · cases h
      · assumption

section Commands

variable {s : State} (h : s.Limits)

include h

/-! ### Commands on the bit reader -/

theorem execBrInit_keepsLimits : Ensures State.Limits (execBrInit s) := by
  unfold execBrInit
  refine State.limits_speaksOf.check h fun _ => ?_
  split
  · exact State.limits_speaksOf.raised h _
  · dsimp only
    split
    · exact State.limits_speaksOf.raised h _
    · exact .next { h with reader := by simp }

/-- Bits within the refill limit are consumed (R172). -/
theorem State.Limits.readerSkip {n : Nat} (hn : ¬ Config.brWindow < s.br.unl + n) : (s.readerSkip n).Limits :=
  { h with reader := by simpa using hn }

theorem execBrRead_keepsLimits : Ensures State.Limits (execBrRead s) := by
  unfold execBrRead
  split
  · exact State.limits_speaksOf.raised h _
  · next hc => exact .next { h.readerSkip (readerCheck_none hc) with }

theorem execBrLoad_keepsLimits : Ensures State.Limits (execBrLoad s) :=
  State.limits_speaksOf.check h fun _ => .next { h with reader := Nat.zero_le _ }

theorem execFseDecInit_keepsLimits (slot sel : BitVec 4) : Ensures State.Limits (execFseDecInit slot sel s) := by
  refine State.limits_speaksOf.four h fun k => State.limits_speaksOf.four h fun e => ?_
  split
  · exact State.limits_speaksOf.raised h _
  · exact State.limits_speaksOf.check h fun _ => State.limits_speaksOf.check h fun hn =>
      .next { h.readerSkip hn with }

theorem execFseDec_keepsLimits (slot sel : BitVec 4) (u : Bool) :
    Ensures State.Limits (execFseDec slot sel u s) := by
  refine State.limits_speaksOf.four h fun k => State.limits_speaksOf.four h fun e => ?_
  split
  · exact State.limits_speaksOf.raised h _
  · refine State.limits_speaksOf.check h fun _ => ?_
    cases u with
    | false => exact .next { h with }
    | true =>
      exact State.limits_speaksOf.check h fun _ => State.limits_speaksOf.check h fun hn =>
        .next { h.readerSkip hn with }

/-! ### Commands on the match finder and the store -/

theorem execMfReset_keepsLimits : Ensures State.Limits (execMfReset s) :=
  State.limits_speaksOf.check h fun h1 => State.limits_speaksOf.check h fun h2 =>
    State.limits_speaksOf.check h fun h3 =>
      .next { h with finder := finderOk_of_checks rfl (not_le.1 h1) (by simpa using h2) (not_not.1 h3) }

theorem execMfWindow_keepsLimits : Ensures State.Limits (execMfWindow s) :=
  State.limits_speaksOf.check h fun _ => State.limits_speaksOf.check h fun _ => .next { h with }

theorem execMfBlock_keepsLimits : Ensures State.Limits (execMfBlock s) := by
  refine State.limits_speaksOf.check h fun _ => State.limits_speaksOf.check h fun hempty =>
    State.limits_speaksOf.check h fun hrange => State.limits_speaksOf.check h fun _ => .next { h with store := ?_ }
  simp only [ne_eq, Bool.or_eq_true, not_or, not_not, decide_eq_true_eq] at hempty hrange
  obtain ⟨hlit, hseq⟩ := hempty
  obtain ⟨⟨hsize, -⟩, -⟩ := hrange
  exact { SearchEnv.search_fits rfl h.store hlit hseq (not_lt.1 hsize) with codes := nofun }

theorem execSsStore_keepsLimits : Ensures State.Limits (execSsStore s) := by
  unfold execSsStore
  split
  · exact State.limits_speaksOf.raised h _
  · next hc =>
    obtain ⟨hlit, hseq⟩ := ssStoreCheck_none hc
    exact .next { h with store := h.store.push _ _ (by simpa using hlit) hseq }

theorem execSsAppend_keepsLimits : Ensures State.Limits (execSsAppend s) :=
  State.limits_speaksOf.check h fun _ => State.limits_speaksOf.check h fun hlit =>
    .next { h with store := { h.store with lit := by simpa using hlit } }

theorem execSsCodes_keepsLimits : Ensures State.Limits (execSsCodes s) :=
  .next { h with store := { h.store with codes := by simp [SeqStore.trueSeqs] } }

/-! ### Commands of the decoder -/

theorem execLitDecode_keepsLimits : Ensures State.Limits (execLitDecode s) := by
  have dropped (d : Option HufDec) : State.Limits { s with dlit := [], hd := d } := { h with dlit := by simp }
  unfold execLitDecode
  split
  · exact State.limits_speaksOf.raised (dropped s.hd) _
  · dsimp only
    split
    · exact State.limits_speaksOf.raised (dropped _) _
    · next d hd => exact .next { h with dlit := (decodeLiterals_bounds hd).2 }

theorem execSeqDecode_keepsLimits : Ensures State.Limits (execSeqDecode s) := by
  have dropped : s.dropSequences.Limits := { h with sq := by simp, offsets := by simp }
  unfold execSeqDecode
  split
  · exact State.limits_speaksOf.raised dropped _
  · split
    · exact State.limits_speaksOf.raised dropped _
    · exact .next { h with sq := by simp, offsets := by simp }
    · next d hd =>
      obtain ⟨hoff, hrep⟩ := decodeSequences_nonzero h.history hd
      exact .next { h with sq := decodeSequences_length hd, history := hrep, offsets := hoff }

end Commands

/-! ### Every command, every step -/

theorem DecRep.nonzero_initial : DecRep.initial.Nonzero := ⟨by decide, by decide, by decide⟩

theorem State.limits_reset : State.reset.Limits :=
  ⟨SeqStore.fits_reset, Nat.zero_le _, Nat.zero_le _, Nat.zero_le _, nofun, DecRep.nonzero_initial,
    by simp [State.reset]⟩

theorem exec_keepsLimits (i : Instr) (s : State) (h : s.Limits) : Ensures State.Limits (exec i s) := by
  cases i with
  | reset => exact .next { State.limits_reset with }
  | brInit => exact execBrInit_keepsLimits h
  | brRead => exact execBrRead_keepsLimits h
  | brLoad => exact execBrLoad_keepsLimits h
  | fseDecInit slot sel => exact execFseDecInit_keepsLimits h slot sel
  | fseDec slot sel u => exact execFseDec_keepsLimits h slot sel u
  | mfReset => exact execMfReset_keepsLimits h
  | mfWindow => exact execMfWindow_keepsLimits h
  | mfBlock => exact execMfBlock_keepsLimits h
  | ssReset => exact .next { h with store := SeqStore.fits_reset }
  | ssStore => exact execSsStore_keepsLimits h
  | ssAppend => exact execSsAppend_keepsLimits h
  | ssCodes => exact execSsCodes_keepsLimits h
  | litDecode => exact execLitDecode_keepsLimits h
  | seqDecode => exact execSeqDecode_keepsLimits h
  | drepInit => exact .next { h with history := DecRep.nonzero_initial }
  | _ => exact State.limits_speaksOf.untouched h rfl

/-- Settles O12: only sixteen commands write a part the limits speak of. -/
theorem stepKeepsLimits : Obligations.StepKeepsLimits := by
  unfold Obligations.StepKeepsLimits
  simp only [State.limitsOk_iff]
  exact State.limits_speaksOf.kept exec_keepsLimits

end Sys2Proof.Machine
end

section
/-! What MF_BLOCK leaves in the hash tables (R405, R411): the search's own hashes are those of the block's bytes in
memory. -/

namespace Sys2Proof.Machine

/-- Bytes read as a list of reads. -/
theorem Memory.readBytes_eq_map (m : Memory) (a n : Nat) :
    m.readBytes a n = (List.range n).map fun i => m.read (a + i) :=
  List.ext_getElem (by simp) fun i _ _ => by simp [Memory.readBytes_getElem]

/-- `rd` within the window reads memory (R405). -/
theorem State.searchEnv_rd (s : State) {fin p n : Nat} (h1 : s.wbo.toNat ≤ p) (h2 : p + n ≤ fin) :
    (s.searchEnv fin).rd p n = leValue (s.window (s.ctxBase.toNat + p) n) := by
  rw [SearchEnv.rd, State.window, Memory.readBytes_eq_map]
  congr 1
  refine List.map_congr_left fun i hi => ?_
  have hi := List.mem_range.1 hi
  have hlen : p + i - s.wbo.toNat < (s.window (s.ctxBase.toNat + s.wbo.toNat) (fin - s.wbo.toNat)).length := by
    rw [State.window_length]
    omega
  have hin : (s.searchEnv fin).wb ≤ p + i ∧ p + i < (s.searchEnv fin).fin := by
    change s.wbo.toNat ≤ p + i ∧ p + i < fin
    omega
  rw [SearchEnv.byte, if_pos hin]
  simp only [State.searchEnv, Array.getD_eq_getD_getElem?, List.getElem?_toArray, List.getElem?_eq_getElem hlen,
    Option.getD_some, State.window_getElem]
  congr 1
  omega

/-- `h8` as R405 gives it. -/
theorem hash8_eq (v b : Nat) : hash8 v b = v * 0xCF1BBCDCB7A56463 % 2 ^ 64 / 2 ^ (64 - b) := by
  rw [hash8, Nat.shiftRight_eq_div_pow, hashPrime]
  all_goals decide

/-- `hN` as R405 gives it, for the lengths 4 to 7. -/
theorem hashShort_eq {v b m : Nat} (h1 : 4 ≤ m) (h2 : m ≤ 7) : hashShort v b m =
    if m = 4 then v % 2 ^ 32 * 0x9E3779B1 % 2 ^ 32 / 2 ^ (32 - b)
    else v * 2 ^ (64 - 8 * m) % 2 ^ 64
      * (if m = 5 then 0xCF1BBCDCBB else if m = 6 then 0xCF1BBCDCBF9B else 0xCF1BBCDCBFA563) % 2 ^ 64
      / 2 ^ (64 - b) := by
  obtain rfl | rfl | rfl | rfl : m = 4 ∨ m = 5 ∨ m = 6 ∨ m = 7 := by omega
  all_goals simp [hashShort, hashPrime, Nat.shiftRight_eq_div_pow, Nat.shiftLeft_eq]

/-- The search's long hash of a position is that of the bytes in memory. -/
theorem State.searchEnv_longHash (s : State) {fin p : Nat} (h1 : s.wbo.toNat ≤ p) (h2 : p + 8 ≤ fin) :
    (s.searchEnv fin).longHash p = leValue (s.window (s.ctxBase.toNat + p) 8) * 0xCF1BBCDCB7A56463 % 2 ^ 64
      / 2 ^ (64 - s.mfcfg.toNat % 32) := by
  rw [SearchEnv.longHash, s.searchEnv_rd h1 h2, hash8_eq]
  rfl

/-- The search's short hash of a position is that of the bytes in memory, for a legal configuration. -/
theorem State.searchEnv_shortHash (s : State) {fin p : Nat} (h1 : s.wbo.toNat ≤ p) (h2 : p + 8 ≤ fin)
    (hcfg : s.mfcfg.toNat / 2 ^ 10 % 16 ≤ 7) :
    let mls := max (s.mfcfg.toNat / 2 ^ 10 % 16) 4
    let value (n : Nat) := leValue (s.window (s.ctxBase.toNat + p) n)
    let prime := if mls = 5 then 0xCF1BBCDCBB else if mls = 6 then 0xCF1BBCDCBF9B else 0xCF1BBCDCBFA563
    (s.searchEnv fin).shortHash p =
      if mls = 4 then value 4 * 0x9E3779B1 % 2 ^ 32 / 2 ^ (32 - s.mfcfg.toNat / 2 ^ 5 % 32)
      else value 8 * 2 ^ (64 - 8 * mls) % 2 ^ 64 * prime % 2 ^ 64 / 2 ^ (64 - s.mfcfg.toNat / 2 ^ 5 % 32) := by
  intro mls value prime
  have hmls : (s.searchEnv fin).mls = mls := by
    simp only [State.searchEnv, cfgSearchLength, Nat.shiftRight_eq_div_pow]
    rfl
  have hlog : (s.searchEnv fin).chainLog = s.mfcfg.toNat / 2 ^ 5 % 32 := by
    simp only [State.searchEnv, cfgChainLog, Nat.shiftRight_eq_div_pow]
    rfl
  have hsmall : value 4 < 2 ^ 32 := by simpa using leValue_lt (s.window (s.ctxBase.toNat + p) 4)
  rw [SearchEnv.shortHash, hmls, hlog, s.searchEnv_rd h1 h2, s.searchEnv_rd h1 (n := 4) (by omega),
    hashShort_eq (by omega) (by omega)]
  by_cases h4 : mls = 4
  · simp only [if_pos h4]
    rw [Nat.mod_eq_of_lt hsmall]
  · simp only [if_neg h4]
    rfl

namespace SearchEnv

variable {v : SearchEnv} {first : Nat} {hash hash' : Nat → Nat} {t t' : List (Nat × Word)}

/-- Only the hashes of the block's positions matter. -/
theorem Inserted.congr {h : Nat} (hi : v.Inserted first hash t h)
    (he : ∀ p, first ≤ p → p + 8 ≤ v.fin → hash p = hash' p) : v.Inserted first hash' t h := by
  obtain ⟨p, hfirst, hfin, hp, hr⟩ := hi
  exact ⟨p, hfirst, hfin, he p hfirst hfin ▸ hp, hr⟩

theorem Grown.congr (hg : v.Grown first hash t t') (he : ∀ p, first ≤ p → p + 8 ≤ v.fin → hash p = hash' p) :
    v.Grown first hash' t t' :=
  fun h => (hg h).imp id (·.congr he)

end SearchEnv

/-- A check that was passed, where the command ended without error. -/
theorem passed_of_ok {c : Prop} [Decidable c] {e : ErrCode} {s t : State} {o : Out}
    (h : (if c then raise e s else o) = .next t) (ht : t.errKind = 0) : ¬ c ∧ o = .next t := by
  split at h
  · cases h
    exact absurd ht (ErrCode.kind_ne_zero e)
  · exact ⟨‹_›, h⟩

/-- A successful MF_BLOCK has searched its block, which does not begin below `WBO`, with a match finder that was set up
(R410). -/
theorem execMfBlock_ok {s t : State} (h : exec .mfBlock s = .next t) (ht : t.errKind = 0) :
    s.mfValid = true ∧ s.wbo.toNat ≤ s.a0 ∧ t = s.searched s.a0 s.a1 := by
  obtain ⟨hvalid, h⟩ := passed_of_ok h ht
  obtain ⟨-, h⟩ := passed_of_ok h ht
  obtain ⟨hrange, h⟩ := passed_of_ok h ht
  obtain ⟨-, h⟩ := passed_of_ok h ht
  simp only [Bool.or_eq_true, decide_eq_true_eq, not_or, not_lt] at hrange
  obtain ⟨⟨-, hbase⟩, -⟩ := hrange
  cases h
  exact ⟨by simpa using hvalid, hbase, rfl⟩

/-- Settles O52: a search moves the tables by inserting positions at the search's hashes, and those are the ones R405
gives for the bytes in memory. -/
theorem blockTableEntries : Obligations.BlockTableEntries := by
  unfold Obligations.BlockTableEntries
  intro s t _ hlim hexec ht cfg mls prime value long short first inserted
  obtain ⟨hvalid, hbase, rfl⟩ := execMfBlock_ok hexec ht
  obtain ⟨-, -, -, -, -, hmls, -⟩ := (State.limitsOk_iff.1 hlim).finder hvalid
  have hfirst : s.wbo.toNat ≤ first := hbase.trans (SearchEnv.le_firstProbed s.wbo.toNat s.a0)
  have hlong (p : Nat) (h1 : first ≤ p) (h2 : p + 8 ≤ s.a0 + s.a1) :
      (s.searchEnv (s.a0 + s.a1)).longHash p = long p := s.searchEnv_longHash (hfirst.trans h1) h2
  have hshort (p : Nat) (h1 : first ≤ p) (h2 : p + 8 ≤ s.a0 + s.a1) :
      (s.searchEnv (s.a0 + s.a1)).shortHash p = short p := s.searchEnv_shortHash (hfirst.trans h1) h2 hmls
  obtain ⟨-, -, hlh, hsh, hsearched⟩ := SearchEnv.search_moves (v := s.searchEnv (s.a0 + s.a1)) (start := s.a0)
    (size := s.a1) (r0 := s.repLive.r0.toNat) (r1 := s.repLive.r1.toNat) (lh := s.lh) (sh := s.sh) rfl
  refine ⟨hlh.congr hlong, hsh.congr hshort, fun hsize => ?_⟩
  obtain ⟨hl, hs⟩ := hsearched hsize
  exact ⟨hlong first (Nat.le_refl _) hsize.le ▸ hl.congr hlong,
    hshort first (Nat.le_refl _) hsize.le ▸ hs.congr hshort⟩

end Sys2Proof.Machine
end

section
/-! The shape of every valid table (R41 to R43, R46): a legal log, and an entry for every state or index. What each
builder returns has it, and every command keeps it. -/

namespace Sys2Proof.Machine

/-! ### The shapes -/

/-- The log of a valid distribution (R41). -/
def normLogOk (log : Nat) : Prop := Config.fseMinLog ≤ log ∧ log ≤ Config.fseMaxLog

/-- The shape of a compression table (R42). -/
def FseCT.Shaped (t : FseCT) : Prop := fseLogOk t.log ∧ t.nextState.length = 2 ^ max t.log 1

/-- The shape of a decoding table (R43). -/
def FseDT.Shaped (t : FseDT) : Prop := fseLogOk t.log ∧ t.entries.length = 2 ^ t.log

/-- The shape of the Huffman decoding table (R46). -/
def HufDec.Shaped (t : HufDec) : Prop :=
  1 ≤ t.log ∧ t.log ≤ Config.hufDecMaxLog ∧ t.entries.length = 2 ^ t.log

/-- `TablesOk`, a field for each part of the state. -/
structure State.Tables (s : State) : Prop where
  norm : s.nvalid = true → normLogOk s.nlog.toNat
  ct : ∀ t, some t ∈ s.ct.toList → t.Shaped
  dt : ∀ t, some t ∈ s.dt.toList → t.Shaped
  hd : ∀ t, s.hd = some t → t.Shaped

theorem State.tablesOk_iff {s : State} : s.TablesOk ↔ s.Tables :=
  ⟨fun ⟨hnorm, hct, hdt, hhd⟩ => ⟨hnorm, hct, hdt, hhd⟩, fun ⟨hnorm, hct, hdt, hhd⟩ => ⟨hnorm, hct, hdt, hhd⟩⟩

theorem State.tables_speaksOf : SpeaksOf State.Tables [.norm, .ct, .dt, .hd] where
  quiet := by decide
  respects := by
    intro s t k h
    simp only [List.forall_mem_cons, State.Agree] at k
    obtain ⟨⟨-, -, hnlog, hnvalid⟩, hct, hdt, hhd, -⟩ := k
    exact ⟨hnlog ▸ hnvalid ▸ h.norm, hct ▸ h.ct, hdt ▸ h.dt, hhd ▸ h.hd⟩

/-! ### FSE tables (R223, R235 to R242) -/

/-- A log that was read from a description. -/
theorem readNCount_log {bs : List Byte} {maxSym maxLog : Nat} {d : NCount} (h : readNCount bs maxSym maxLog = .ok d) :
    5 ≤ d.log ∧ d.log ≤ maxLog := by
  simp only [readNCount] at h
  split at h
  · cases h
  · split at h
    · cases h
    · split at h
      · cases h
      · split at h
        · cases h
        · cases h
          exact ⟨Nat.le_add_left _ _, not_lt.1 ‹_›⟩

/-- A fold that only sets entries keeps a table's length. -/
theorem foldl_fst_length {α β γ : Type} {f : List α × β → γ → List α × β}
    (hf : ∀ x c, (f x c).1.length = x.1.length) (l : List γ) (x : List α × β) :
    (l.foldl f x).1.length = x.1.length := by
  induction l generalizing x with
  | nil => rfl
  | cons c l ih => exact (ih _).trans (hf x c)

theorem spreadLow_length (norm : List Int) (size : Nat) : (spreadLow norm size).1.length = size := by
  refine (foldl_fst_length (fun x c => ?_) _ _).trans (by simp)
  split
  · simp
  · rfl

/-- A spread names a symbol for every state (R235). -/
theorem spread_length {norm : List Int} {tl : Nat} {syms : List Nat} (h : spread norm tl = some syms) :
    syms.length = 2 ^ tl := by
  simp only [spread] at h
  split at h
  · cases h
    exact (foldl_fst_length (by simp) _ _).trans (spreadLow_length _ _)
  · cases h

theorem nextStates_length (norm : List Int) (syms : List Nat) (size : Nat) :
    (nextStates norm syms size).length = size :=
  (foldl_fst_length (by simp) _ _).trans (by simp)

theorem dtEntries_length (tl u : Nat) (next syms : List Nat) : (dtEntries tl u next syms).length = syms.length := by
  induction syms generalizing u next with
  | nil => rfl
  | cons s syms ih => simp [dtEntries, ih]

/-- A table log of R41 is one of an FSE table. -/
theorem normLogOk.fse {log : Nat} (h : normLogOk log) : fseLogOk log := .inr h

theorem buildCT_shaped {norm : List Int} {tl : Nat} {t : FseCT} (hl : normLogOk tl) (h : buildCT norm tl = some t) :
    t.Shaped := by
  have hmax : max tl 1 = tl := Nat.max_eq_left ((by decide : 1 ≤ Config.fseMinLog).trans hl.1)
  simp only [buildCT] at h
  split at h
  · cases h
  · cases h
    exact ⟨hl.fse, by simp only [nextStates_length, hmax]⟩

theorem buildDT_shaped {norm : List Int} {tl : Nat} {t : FseDT} (hl : normLogOk tl) (h : buildDT norm tl = some t) :
    t.Shaped := by
  simp only [buildDT] at h
  split at h
  · cases h
  · next syms hs =>
    cases h
    exact ⟨hl.fse, (dtEntries_length _ _ _ _).trans (spread_length hs)⟩

theorem checkedCT_shaped {norm : List Int} {tl : Nat} {t : FseCT} (hl : normLogOk tl)
    (h : checkedCT norm tl = .ok t) : t.Shaped := by
  unfold checkedCT at h
  split at h
  · cases h
  · split at h
    · cases h
    · cases h
      exact buildCT_shaped hl ‹_›

theorem checkedDT_shaped {norm : List Int} {tl : Nat} {t : FseDT} (hl : normLogOk tl)
    (h : checkedDT norm tl = .ok t) : t.Shaped := by
  unfold checkedDT at h
  split at h
  · cases h
  · split at h
    · cases h
    · cases h
      exact buildDT_shaped hl ‹_›

theorem rleCT_shaped (sym : Nat) : (rleCT sym).Shaped := ⟨.inl rfl, rfl⟩

theorem rleDT_shaped (sym : Nat) : (rleDT sym).Shaped := ⟨.inl rfl, rfl⟩

/-- The predefined distributions have a legal log (R230). -/
theorem defaultDist_log (f : Nat) : normLogOk (defaultDist f).2 := by
  unfold defaultDist
  split <;> exact ⟨by decide, by decide⟩

theorem fieldMaxLog_le (f : Nat) : fieldMaxLog f ≤ Config.fseMaxLog := by
  unfold fieldMaxLog
  split <;> decide

/-- What FSE_NORM accepts (R210). -/
theorem normCommand_log {count : List Nat} {log total maxSym : Nat} {norm : List Int}
    (h : normCommand count log total maxSym = .ok norm) : normLogOk log := by
  unfold normCommand at h
  split at h
  · cases h
  · next hc =>
    simp only [Bool.or_eq_true, decide_eq_true_eq, not_or, not_lt] at hc
    obtain ⟨⟨⟨-, h5⟩, h12⟩, -⟩ := hc
    exact ⟨h5, h12⟩

/-! ### The tables of a sequences section (R475) -/

theorem builtTable_eq_ok {α : Type} {o : Option α} {t : α} : builtTable o = .ok t ↔ o = some t := by
  cases o <;> simp [builtTable]

theorem readField_shaped {f m p p' : Nat} {prev : Option FseDT} {bs : List Byte} {t : FseDT}
    (hprev : ∀ t, prev = some t → t.Shaped) (h : readField f m prev bs p = .ok (t, p')) : t.Shaped := by
  unfold readField at h
  split at h
  · split at h
    · cases h
    · cases h
      exact buildDT_shaped (defaultDist_log f) (builtTable_eq_ok.1 ‹_›)
  · split at h
    · cases h
    · split at h
      · cases h
      · cases h
        exact rleDT_shaped _
  · split at h
    · cases h
    · next d hd =>
      obtain ⟨h5, hmax⟩ := readNCount_log (shiftErr_eq_ok.1 hd)
      split at h
      · cases h
      · cases h
        exact buildDT_shaped ⟨h5, hmax.trans (fieldMaxLog_le f)⟩ (builtTable_eq_ok.1 ‹_›)
  · split at h
    · cases h
    · cases h
      exact hprev t rfl

/-- Every table of a decoded section is built, one symbol's, or the slot's own. -/
theorem decodeSequences_shaped {dt : Vector (Option FseDT) 4} {rep : DecRep} {tag : Nat} {bs : List Byte}
    {d : SeqDecoded} (hdt : ∀ t, some t ∈ dt.toList → t.Shaped) (h : decodeSequences dt rep tag bs = .ok (some d)) :
    d.tLL.Shaped ∧ d.tOF.Shaped ∧ d.tML.Shaped := by
  have hslot (k : Fin 4) (t : FseDT) (ht : dt[k] = some t) : t.Shaped :=
    hdt t (ht ▸ by simp)
  obtain ⟨n, modes, p, htables⟩ := decodeSequences_eq_some h
  obtain ⟨_, _, _, hLL, hOF, hML, -⟩ := decodeSeqTables_eq_ok htables
  exact ⟨readField_shaped (hslot 0) hLL, readField_shaped (hslot 1) hOF, readField_shaped (hslot 2) hML⟩

/-! ### The Huffman decoding table (R331, R332) -/

/-- The indexes of one weight. -/
theorem sum_weight_places {log y : Nat} (h : y ≤ log) :
    ((List.range log).map fun x => if y = x + 1 then 2 ^ x else 0).sum = 2 ^ y / 2 := by
  induction log with
  | zero => simp [Nat.le_zero.1 h]
  | succ log ih =>
    rw [List.range_succ, List.map_append, List.sum_append]
    by_cases hy : y = log + 1
    · subst hy
      have hrest : ((List.range log).map fun x => if log + 1 = x + 1 then 2 ^ x else 0).sum = 0 := by
        refine List.sum_eq_zero fun z hz => ?_
        obtain ⟨x, hx, rfl⟩ := List.mem_map.1 hz
        have := List.mem_range.1 hx
        rw [if_neg (by omega)]
      rw [hrest]
      simp [pow_succ]
    · rw [ih (by omega)]
      simp [hy]

/-- Weights within the log fill as many indexes as R331's sum counts. -/
theorem hufEntries_length {log : Nat} {w : List Nat} (h : ∀ y ∈ w, y ≤ log) :
    (hufEntries log w).length = weightTotal w := by
  have hinner (x : Nat) (k : Nat) (w : List Nat) :
      ((w.zipIdx k).flatMap fun y => if y.1 = x + 1 then
        List.replicate (2 ^ x) ({ sym := BitVec.ofNat 8 y.2, nb := BitVec.ofNat 4 (log - x) } : HufEntry)
        else []).length = (w.map fun y => if y = x + 1 then 2 ^ x else 0).sum := by
    induction w generalizing k with
    | nil => rfl
    | cons y w ih =>
      simp only [List.zipIdx_cons, List.flatMap_cons, List.length_append, List.map_cons, List.sum_cons, ih]
      split <;> simp
  simp only [hufEntries, List.length_flatMap, hinner]
  induction w with
  | nil => simp [weightTotal]
  | cons y w ih =>
    obtain ⟨hy, hw⟩ := List.forall_mem_cons.1 h
    simp only [List.map_cons, List.sum_cons, List.sum_map_add, ih hw, sum_weight_places hy, weightTotal]

theorem le_weightTotal {w : List Nat} {y : Nat} (h : y ∈ w) : 2 ^ y / 2 ≤ weightTotal w :=
  List.le_sum_of_mem (List.mem_map.2 ⟨y, h, rfl⟩)

/-- What R331's checks let through. -/
theorem completeWeights_eq_ok {w all : List Nat} {log : Nat} (h : completeWeights w = .ok (log, all)) :
    weightTotal w ≠ 0 ∧ log = highestBit (weightTotal w) + 1 ∧ log ≤ Config.hufDecMaxLog
      ∧ 2 ^ highestBit (2 ^ log - weightTotal w) = 2 ^ log - weightTotal w
      ∧ all = w ++ [highestBit (2 ^ log - weightTotal w) + 1] := by
  simp only [completeWeights] at h
  split at h
  · cases h
  · split at h
    · cases h
    · next hzero =>
      split at h
      · cases h
      · next hlog =>
        split at h
        · cases h
        · next hpow =>
          split at h
          · cases h
          · split at h
            · cases h
            · cases h
              exact ⟨hzero, rfl, not_lt.1 hlog, not_not.1 hpow, rfl⟩

/-- The weights with the implicit one fill the table: none is above its log, and their sum is its size (R331). -/
theorem completeWeights_fill {w all : List Nat} {log : Nat} (h : completeWeights w = .ok (log, all)) :
    (∀ y ∈ all, y ≤ log) ∧ weightTotal all = 2 ^ log := by
  obtain ⟨hzero, hlog, -, hpow, hall⟩ := completeWeights_eq_ok h
  have hlow : 2 ^ highestBit (weightTotal w) ≤ weightTotal w := Nat.log2_self_le hzero
  have hhigh : weightTotal w < 2 ^ log := hlog ▸ Nat.lt_log2_self
  have hhalf : 2 ^ log = 2 * 2 ^ highestBit (weightTotal w) := by rw [hlog, pow_succ, Nat.mul_comm]
  have hlast : highestBit (2 ^ log - weightTotal w) ≤ highestBit (weightTotal w) :=
    (Nat.pow_le_pow_iff_right (by decide : 1 < 2)).1 (by omega)
  have hsent (y : Nat) (hy : y ∈ w) : y ≤ log := by
    by_contra hlt
    have hpow : 2 ^ (log + 1) ≤ 2 ^ y := Nat.pow_le_pow_right (by decide) (by omega)
    have := le_weightTotal hy
    rw [pow_succ] at hpow
    omega
  refine ⟨?_, ?_⟩
  · simp only [hall, List.mem_append, List.mem_singleton]
    rintro y (hy | rfl)
    · exact hsent y hy
    · omega
  · have himplicit : weightTotal all = weightTotal w + (2 ^ log - weightTotal w) := by
      simp [hall, weightTotal, pow_succ] at hpow ⊢
      exact hpow
    omega

theorem decodeHufTable_shaped {w : List Nat} {t : HufDec} (h : decodeHufTable w = .ok t) : t.Shaped := by
  unfold decodeHufTable at h
  split at h
  · cases h
  · next log all hc =>
    cases h
    obtain ⟨-, hlog, hmax, -⟩ := completeWeights_eq_ok hc
    obtain ⟨hle, hsum⟩ := completeWeights_fill hc
    exact ⟨hlog ▸ Nat.le_add_left _ _, hmax, (hufEntries_length hle).trans hsum⟩

theorem readHuf_shaped {bs : List Byte} {d : HufDescription} (h : readHuf bs = .ok d) : d.table.Shaped := by
  unfold readHuf at h
  split at h
  · cases h
  · split at h
    · cases h
    · cases h
      exact decodeHufTable_shaped ‹_›

/-- `HD` after a literals section is the old one, none, or the section's own (R380). -/
theorem decodeLiterals_shaped {hd : Option HufDec} {bs : List Byte} (hh : ∀ t, hd = some t → t.Shaped) :
    ∀ t, (decodeLiterals hd bs).1 = some t → t.Shaped := by
  match bs with
  | [] => exact hh
  | b0 :: rest =>
    simp only [decodeLiterals]
    split
    · exact hh
    · split
      · exact hh
      · split
        · split
          · nofun
          · next d hd =>
            split
            · nofun
            · rintro _ ⟨⟩
              exact readHuf_shaped (shiftErr_eq_ok.1 hd)
        · split <;> exact hh

/-! ### The commands that write tables -/

theorem forall_eq_some {α : Type} {p : α → Prop} {a : α} (h : p a) : ∀ t, some a = some t → p t := by
  rintro _ ⟨⟩
  exact h

section Commands

variable {s : State} (h : s.Tables)

include h

theorem State.Tables.setNorm {log : Nat} (hl : normLogOk log) (norm : List Int) : (s.setNorm norm log).Tables := by
  refine { h with norm := fun _ => ?_ }
  have hlt : log < 2 ^ 4 := hl.2.trans_lt (by decide)
  rwa [State.setNorm_nlog, BitVec.toNat_ofNat, Nat.mod_eq_of_lt hlt]

theorem State.Tables.setCT (k : Fin 4) {o : Option FseCT} (ho : ∀ t, o = some t → t.Shaped) :
    (s.setCT k o).Tables := by
  refine { h with ct := fun t ht => ?_ }
  rw [State.setCT_ct, Vector.toList_set] at ht
  exact (List.mem_or_eq_of_mem_set ht).elim (h.ct t) fun e => ho t e.symm

theorem State.Tables.setDT (k : Fin 4) {o : Option FseDT} (ho : ∀ t, o = some t → t.Shaped) :
    (s.setDT k o).Tables := by
  refine { h with dt := fun t ht => ?_ }
  rw [State.setDT_dt, Vector.toList_set] at ht
  exact (List.mem_or_eq_of_mem_set ht).elim (h.dt t) fun e => ho t e.symm

/-- `DT[0..2]` replaced. -/
theorem State.Tables.threeTables {a b c : Option FseDT} (ha : ∀ t, a = some t → t.Shaped)
    (hb : ∀ t, b = some t → t.Shaped) (hc : ∀ t, c = some t → t.Shaped) :
    ∀ t, some t ∈ (#v[a, b, c, s.dt[3]]).toList → t.Shaped := by
  intro t ht
  obtain e | e | e | e : some t = a ∨ some t = b ∨ some t = c ∨ some t = s.dt[3] := by simpa using ht
  · exact ha t e.symm
  · exact hb t e.symm
  · exact hc t e.symm
  · exact h.dt t (e ▸ by simp)

theorem execFseNorm_keepsTables : Ensures State.Tables (execFseNorm s) := by
  unfold execFseNorm
  split
  · refine State.tables_speaksOf.raised ?_ _
    exact { h with norm := nofun }
  · exact .next (h.setNorm (normCommand_log ‹_›) _)

theorem execFseRdnc_keepsTables : Ensures State.Tables (execFseRdnc s) := by
  unfold execFseRdnc
  refine State.tables_speaksOf.check h fun hc => ?_
  simp only [Bool.or_eq_true, decide_eq_true_eq, not_or, not_lt] at hc
  obtain ⟨-, h12⟩ := hc
  split
  · refine State.tables_speaksOf.raised ?_ _
    exact { h with norm := nofun }
  · next d hd =>
    obtain ⟨h5, hmax⟩ := readNCount_log hd
    exact .next { h.setNorm ⟨h5, hmax.trans h12⟩ d.norm with }

theorem execFseLddef_keepsTables (sel : BitVec 4) : Ensures State.Tables (execFseLddef sel s) :=
  State.tables_speaksOf.check h fun _ => .next (h.setNorm (defaultDist_log _) _)

theorem execFseBuildCt_keepsTables (slot : BitVec 4) : Ensures State.Tables (execFseBuildCt slot s) := by
  refine State.tables_speaksOf.four h fun k => State.tables_speaksOf.check h fun hv => ?_
  split
  · exact State.tables_speaksOf.raised (h.setCT k (o := none) nofun) _
  · next t ht =>
    have hshape := checkedCT_shaped (h.norm (by simpa using hv)) ht
    exact .next (h.setCT k (forall_eq_some hshape))

theorem execFseRleCt_keepsTables (slot : BitVec 4) : Ensures State.Tables (execFseRleCt slot s) :=
  State.tables_speaksOf.four h fun k => State.tables_speaksOf.check h fun _ =>
    .next (h.setCT k (forall_eq_some (rleCT_shaped _)))

theorem execFseBuildDt_keepsTables (slot : BitVec 4) : Ensures State.Tables (execFseBuildDt slot s) := by
  refine State.tables_speaksOf.four h fun k => ?_
  split
  · exact State.tables_speaksOf.raised (h.setDT k (o := none) nofun) _
  · next hv =>
    split
    · exact State.tables_speaksOf.raised (h.setDT k (o := none) nofun) _
    · next t ht =>
      have hshape := checkedDT_shaped (h.norm (by simpa using hv)) ht
      exact .next (h.setDT k (forall_eq_some hshape))

theorem execFseRleDt_keepsTables (slot : BitVec 4) : Ensures State.Tables (execFseRleDt slot s) :=
  State.tables_speaksOf.four h fun k => State.tables_speaksOf.check h fun _ =>
    .next (h.setDT k (forall_eq_some (rleDT_shaped _)))

theorem execFseSetnorm_keepsTables : Ensures State.Tables (execFseSetnorm s) := by
  refine State.tables_speaksOf.check h fun hc => ?_
  simp only [Bool.or_eq_true, decide_eq_true_eq, not_or, not_lt] at hc
  obtain ⟨⟨⟨⟨-, h5⟩, h12⟩, -⟩, -⟩ := hc
  exact .next { h with norm := (h.setNorm ⟨h5, h12⟩ []).norm }

theorem execHufRead_keepsTables : Ensures State.Tables (execHufRead s) := by
  unfold execHufRead
  refine State.tables_speaksOf.check h fun _ => ?_
  split
  · refine State.tables_speaksOf.raised ?_ _
    exact { h with hd := nofun }
  · next d hd => exact .next { h with hd := forall_eq_some (readHuf_shaped hd) }

theorem execLitDecode_keepsTables : Ensures State.Tables (execLitDecode s) := by
  unfold execLitDecode
  split
  · refine State.tables_speaksOf.raised ?_ _
    exact { h with }
  · dsimp only
    split
    · refine State.tables_speaksOf.raised ?_ _
      exact { h with hd := decodeLiterals_shaped h.hd }
    · exact .next { h with hd := decodeLiterals_shaped h.hd }

theorem execSeqDecode_keepsTables : Ensures State.Tables (execSeqDecode s) := by
  have dropped : s.dropSequences.Tables := { h with dt := h.threeTables nofun nofun nofun }
  unfold execSeqDecode
  split
  · exact State.tables_speaksOf.raised dropped _
  · split
    · exact State.tables_speaksOf.raised dropped _
    · exact .next { h with }
    · next d hd =>
      obtain ⟨hLL, hOF, hML⟩ := decodeSequences_shaped h.dt hd
      exact .next { h with dt := h.threeTables (forall_eq_some hLL) (forall_eq_some hOF) (forall_eq_some hML) }

end Commands

/-! ### Every command, every step -/

theorem State.tables_reset : State.reset.Tables :=
  ⟨nofun, by simp [State.reset], by simp [State.reset], nofun⟩

theorem exec_keepsTables (i : Instr) (s : State) (h : s.Tables) : Ensures State.Tables (exec i s) := by
  cases i with
  | reset => exact .next { State.tables_reset with }
  | fseNorm => exact execFseNorm_keepsTables h
  | fseRdnc => exact execFseRdnc_keepsTables h
  | fseLddef sel => exact execFseLddef_keepsTables h sel
  | fseBuildCt slot => exact execFseBuildCt_keepsTables h slot
  | fseRleCt slot => exact execFseRleCt_keepsTables h slot
  | fseBuildDt slot => exact execFseBuildDt_keepsTables h slot
  | fseRleDt slot => exact execFseRleDt_keepsTables h slot
  | fseSetnorm => exact execFseSetnorm_keepsTables h
  | hufRead => exact execHufRead_keepsTables h
  | litDecode => exact execLitDecode_keepsTables h
  | seqDecode => exact execSeqDecode_keepsTables h
  | drepInit => exact .next { h with dt := h.threeTables nofun nofun nofun, hd := nofun }
  | fseDec slot sel u => cases u <;> exact State.tables_speaksOf.untouched h rfl
  | _ => exact State.tables_speaksOf.untouched h rfl

/-- Settles O14: only thirteen commands write a table or the distribution, and what a builder returns is shaped. -/
theorem stepKeepsTables : Obligations.StepKeepsTables := by
  unfold Obligations.StepKeepsTables
  simp only [State.tablesOk_iff]
  exact State.tables_speaksOf.kept exec_keepsTables

end Sys2Proof.Machine
end

section
/-! The state after reset (R52), the bits of `STATUS` (R35), and what one action of the host does (R31, R33, R80). -/

namespace Sys2Proof.Machine

/-! ### Reset -/

theorem State.memoryOk_reset : State.reset.MemoryOk := ⟨Memory.blank_wf, sparseWf_nil, sparseWf_nil, nofun⟩

theorem State.errorOk_reset : State.reset.ErrorOk := ⟨.inl ⟨rfl, rfl⟩, fun _ => rfl⟩

/-- Settles O15: each invariant by its own lemma about reset. -/
theorem resetMeetsInvariants : Obligations.ResetMeetsInvariants := by
  unfold Obligations.ResetMeetsInvariants
  exact ⟨State.memoryOk_reset, State.limitsOk_iff.2 State.limits_reset, State.errorOk_reset,
    State.tablesOk_iff.2 State.tables_reset⟩

theorem State.status_reset : State.reset.status = 0 := by decide

/-- Settles O16: the registers of one value are replicated arrays, the others stand in `State.reset` as R52 lists them. -/
theorem resetValues : Obligations.ResetValues := by
  unfold Obligations.ResetValues
  constructor
  · rintro s rfl
    simp [State.reset, BitWriter.reset, BitReader.reset, SeqStore.reset, RepPair.initial, DecRep.initial]
    exact State.status_reset
  · rintro s t ⟨⟩
    rfl

/-! ### `STATUS` -/

/-- Settles O17: each bit by its place in the layout of R35. -/
theorem statusBits : Obligations.StatusBits := by
  unfold Obligations.StatusBits
  intro s j hj
  simp only [State.status, BitVec.getLsbD_append, BitVec.getLsbD_ofBool, State.brOvf, State.brEos]
  -- the fields of more than one bit, then the single bits from 16 on
  by_cases h2 : j < 2
  · simp only [if_pos h2]
  by_cases h8 : j < 8
  · simp only [if_neg h2, if_pos h8, if_pos (show j - 2 < 6 by omega)]
    exact BitVec.getLsbD_zero
  by_cases h16 : j < 16
  · simp only [if_neg h2, if_neg h8, if_pos h16, if_neg (show ¬ j - 2 < 6 by omega), Nat.sub_sub, Nat.reduceAdd,
      if_pos (show j - 8 < 8 by omega)]
  obtain ⟨k, rfl⟩ := Nat.exists_eq_add_of_le (not_lt.1 h16)
  have hk : k < 16 := by omega
  clear h2 h8 h16 hj
  interval_cases k <;> simp

/-! ### Host actions -/

/-- Settles O7: a byte written reads back, and the bytes around it read as before. -/
theorem hostActions : Obligations.HostActions := by
  unfold Obligations.HostActions
  refine fun s rest => ⟨fun h => ?_, fun k v h => ?_, fun a b h => ?_⟩
  · simp only [step, h]
  · simp only [step, h, hostAct]
  · refine ⟨s.mem.writeBytes a.toNat [b], by simp only [step, h, hostAct], ?_, fun x hx => ?_⟩
    · exact s.mem.read_writeBytes_inside a.toNat [b] (j := 0) (by simp)
    · exact s.mem.read_writeBytes_outside a.toNat [b] (by simp; omega)

/-! ### The issue of a command -/

theorem fieldOpc_commandWord (opc : BitVec 8) (slot sel : BitVec 4) (flags : BitVec 8) :
    fieldOpc (commandWord opc slot sel flags) = opc := by
  refine BitVec.eq_of_getLsbD_eq fun k hk => ?_
  rw [fieldOpc, BitVec.getLsbD_extractLsb', commandWord]
  exact (congrArg _ BitVec.getLsbD_append).trans (by simp [hk])

/-- A row of the opcode map makes instructions of its own opcode (R116). -/
theorem opcode_of_commandRow {opc : Nat} {r : CommandRow} (h : commandRow opc = some r) (slot sel : BitVec 4)
    (u : Bool) : (fieldOpc (encode (r.make slot sel u))).toNat = opc := by
  unfold commandRow at h
  split at h <;> cases h <;> exact congrArg BitVec.toNat (fieldOpc_commandWord _ _ _ _)

/-- A word decodes to an instruction of its own opcode. -/
theorem fieldOpc_encode_of_decode {w : BitVec 32} {i : Instr} (h : decode w = .ok i) :
    fieldOpc (encode i) = fieldOpc w := by
  unfold decode at h
  split at h
  · cases h
  · split at h
    · cases h
    · next r hr =>
      split at h
      · cases h
      · split at h
        · cases h
        · cases h
          exact BitVec.eq_of_toNat_eq (opcode_of_commandRow hr _ _ _)

theorem alwaysDecoded_of_decode {w : BitVec 32} {i : Instr} (h : decode w = .ok i) (hi : i = .reset ∨ i = .clrerr) :
    alwaysDecoded w = true := by
  rw [alwaysDecoded, ← fieldOpc_encode_of_decode h]
  obtain rfl | rfl := hi <;> decide

/-- A command word that is not ignored runs the command it decodes to (R110). -/
theorem issue_of_decode {w : BitVec 32} {i : Instr} {s : State} (h : decode w = .ok i)
    (hs : s.errKind = 0 ∨ i = .reset ∨ i = .clrerr) : issue w s = exec i s := by
  have hpass : ¬ (s.errKind ≠ 0 ∧ alwaysDecoded w = false) := by
    rintro ⟨hkind, hw⟩
    have := alwaysDecoded_of_decode h (hs.resolve_left hkind)
    simp [hw] at this
  rw [issue, if_neg hpass, h]

/-- Settles O4: both ways a command word is written come down to its issue. -/
theorem stepRunsDecodedCommand : Obligations.StepRunsDecodedCommand := by
  unfold Obligations.StepRunsDecodedCommand
  intro s w rest i hdec hs
  refine ⟨fun hhost => ?_, fun n => ?_⟩
  · simp only [step, hhost, hostAct]
    exact issue_of_decode hdec hs
  · simp only [State.withFetchWord, BitVec.ofNat_toNat, BitVec.setWidth_eq]
    exact issue_of_decode hdec hs

end Sys2Proof.Machine
end

section
/-! What a command does to host memory (R80, R83, R84, R96): it changes no byte outside its destination window, and
keeps memory canonical. Each command of the model is taken apart once, along the checks and matches of its rule. -/

namespace Sys2Proof.Machine

/-! ### Memory changed in one window -/

/-- `m'` reads as `m` outside the window `w`, and is canonical if `m` is. -/
def Memory.Confined (m m' : Memory) (w : Nat × Nat) : Prop := m.SameOutside m' w.1 w.2 ∧ (m.wf → m'.wf)

variable {m m' m'' : Memory} {w : Nat × Nat} {a n tag : Nat}

theorem Memory.Confined.refl : m.Confined m w := ⟨fun _ _ => rfl, id⟩

theorem Memory.Confined.trans (h : m.Confined m' w) (h' : m'.Confined m'' w) : m.Confined m'' w :=
  ⟨fun k hk => (h'.1 k hk).trans (h.1 k hk), h'.2 ∘ h.2⟩

/-- Bytes written inside a window. -/
theorem Memory.confined_writeBytes {bs : List Byte} (h1 : w.1 ≤ a) (h2 : a + bs.length ≤ w.1 + w.2)
    (hw : w.1 + w.2 ≤ Config.addrLimit) : m.Confined (m.writeBytes a bs) w :=
  ⟨fun _ _ => m.read_writeBytes_outside a bs (by omega), fun h => Memory.writeBytes_wf h a bs (by omega)⟩

/-- Bytes of a window that hold any value afterwards. -/
theorem Memory.confined_clobber (h1 : w.1 ≤ a) (h2 : a + n ≤ w.1 + w.2) (hw : w.1 + w.2 ≤ Config.addrLimit) :
    m.Confined (m.clobber a n tag) w :=
  ⟨fun _ _ => m.read_clobber_outside a n tag (by omega), fun h => Memory.clobber_wf h a n tag (by omega)⟩

/-! ### The bit writer's window (R152) -/

/-- The invariant of an open writer: `BitWriter.Ok` without its premise. -/
structure BitWriter.Open (b : BitWriter) : Prop where
  room : b.cur.toNat + Config.bwSlack ≤ b.cap.toNat
  window : b.base.toNat + b.cap.toNat ≤ Config.addrLimit
  bits : b.cnt ≤ Config.bwAcc
  acc : b.acc.toNat < 2 ^ b.cnt

theorem BitWriter.ok_iff {b : BitWriter} : b.Ok ↔ (b.valid = true → b.Open) :=
  ⟨fun h hv => have ⟨hroom, hwindow, hbits, hacc⟩ := h hv; ⟨hroom, hwindow, hbits, hacc⟩,
    fun h hv => have ⟨hroom, hwindow, hbits, hacc⟩ := h hv; ⟨hroom, hwindow, hbits, hacc⟩⟩

/-- The window of the writer. -/
def BitWriter.dst (b : BitWriter) : Nat × Nat := (b.base.toNat, b.cap.toNat)

/-- The cursor after a flush is still 8 bytes inside the window (R155). -/
theorem BitWriter.flushed_cur (b : BitWriter) : b.flushed.cur.toNat ≤ b.cap.toNat - Config.bwSlack := by
  have hcap := b.cap.isLt
  simp only [flushed, limit, BitVec.toNat_ofNat]
  exact (Nat.mod_le _ _).trans (Nat.min_le_right _ _)

/-- The size BW_CLOSE returns is inside the window (R157). -/
theorem BitWriter.closedSize_le (b : BitWriter) : b.closedSize ≤ b.cap.toNat := by
  unfold closedSize
  split
  · exact Nat.zero_le _
  · next h =>
    simp only [Bool.or_eq_true, decide_eq_true_eq, not_or, not_le] at h
    have hcur : b.cur.toNat < b.cap.toNat - Config.bwSlack := h.2
    split <;> omega

/-- A flush writes the accumulator's 8 bytes at the cursor (R155). -/
theorem State.flushWriter_confined {s : State} (h1 : s.bw.cur.toNat + Config.bwSlack ≤ s.bw.cap.toNat)
    (h2 : s.bw.base.toNat + s.bw.cap.toNat ≤ Config.addrLimit) : s.mem.Confined s.flushWriter.mem s.bw.dst := by
  rw [State.flushWriter_mem]
  refine Memory.confined_writeBytes (Nat.le_add_right _ _) ?_ h2
  simp only [BitWriter.dst, leBytes_length]
  rw [Config.bwSlack] at h1
  omega

/-- BW_CLOSE flushes, and leaves any value from the returned size on (R156, R157). -/
theorem State.closeWriter_confined {s : State} (h : s.bw.Open) : s.mem.Confined s.closeWriter.mem s.bw.dst := by
  have hflush : s.mem.Confined _ s.bw.dst :=
    State.flushWriter_confined (s := { s with bw := s.bw.add 1 1 }) h.room h.window
  refine hflush.trans (Memory.confined_clobber (Nat.le_add_right _ _) ?_ h.window)
  have hsize : (s.bw.add 1 1).flushed.closedSize ≤ s.bw.cap.toNat := (s.bw.add 1 1).flushed.closedSize_le
  simp only [State.flushWriter_bw, BitWriter.dst]
  change s.bw.base.toNat + _ + (s.bw.cap.toNat - _) ≤ _
  omega

/-! ### The outcome of a command -/

/-- Whatever the outcome leaves, it changes memory in the window `w` only. -/
def Confines (s : State) (w : Nat × Nat) (o : Out) : Prop := Ensures (fun t => s.mem.Confined t.mem w) o

section Rules

variable {s : State}

theorem Confines.next {t : State} (h : s.mem.Confined t.mem w) : Confines s w (.next t) := Ensures.next h

/-- A state that holds the old memory. -/
theorem Confines.same {t : State} (h : t.mem = s.mem) : Confines s w (.next t) := .next (h ▸ .refl)

/-- An error, which alone writes no memory (R551). -/
theorem Confines.raisedErr {e : Err} {u : State} (h : u.mem = s.mem) : Confines s w (raiseErr e u) := .same h

theorem Confines.raised {c : ErrCode} : Confines s w (raise c s) := .same rfl

/-- A check that raises an error. -/
theorem Confines.check {c : Prop} [Decidable c] {e : ErrCode} {o : Out} (h : ¬ c → Confines s w o) :
    Confines s w (if c then raise e s else o) := by
  split
  · exact .raised
  · exact h ‹_›

/-- A command of a slot or state register (R115). -/
theorem Confines.four {k : BitVec 4} {f : Fin 4 → Out} (h : ∀ j, Confines s w (f j)) :
    Confines s w (withFour k s f) := by
  obtain ⟨j, hj⟩ | hr := withFour_cases (rfl : withFour k s f = _)
  · exact hj ▸ h j
  · exact hr ▸ .raised

/-- A command of a table of a pair (R115). -/
theorem Confines.two {k : BitVec 4} {f : Fin 2 → Out} (h : ∀ j, Confines s w (f j)) :
    Confines s w (withTwo k s f) := by
  obtain ⟨j, hj⟩ | hr := withTwo_cases (rfl : withTwo k s f = _)
  · exact hj ▸ h j
  · exact hr ▸ .raised

section Window

variable (hw : a + n ≤ Config.addrLimit)

include hw

/-- An error that leaves any value in the window (R551 step 3). -/
theorem Confines.raisedDst {e : Err} {u : State} (h : u.mem = s.mem) : Confines s (a, n) (raiseDst e a n u) :=
  .next (h ▸ Memory.confined_clobber (Nat.le_refl _) (Nat.le_refl _) hw)

theorem Confines.checkDst {c : Prop} [Decidable c] {e : Err} {o : Out} (h : ¬ c → Confines s (a, n) o) :
    Confines s (a, n) (if c then raiseDst e a n s else o) := by
  split
  · exact .raisedDst hw rfl
  · exact h ‹_›

/-- An output that fits the window (R84). -/
theorem Confines.output {u t : State} {out : List Byte} (hl : out.length ≤ n) (hu : u.mem = s.mem)
    (ht : t.mem = (u.writeOut a n out).mem) : Confines s (a, n) (.next t) := by
  refine .next ?_
  rw [ht, State.writeOut_mem, hu]
  exact (Memory.confined_clobber (Nat.le_refl _) (Nat.le_refl _) hw).trans
    (Memory.confined_writeBytes (Nat.le_refl _) (Nat.add_le_add_left hl _) hw)

end Window

end Rules

/-- A window that passed its check lies in the address space (R82). -/
theorem windowOk_addr {a n : Nat} (h : ¬ (!windowOk a n) = true) : a + n ≤ Config.addrLimit :=
  ((windowOk_iff a n).1 (by simpa using h)).2

/-- So does the second one of a pair (R85). -/
theorem windowPairOk_addr {a la b lb : Nat} (h : ¬ (!windowPairOk a la b lb) = true) : b + lb ≤ Config.addrLimit := by
  obtain ⟨-, hb, -⟩ := (windowPairOk_iff a la b lb).1 (by simpa using h)
  exact ((windowOk_iff b lb).1 hb).2

section Commands

variable {s : State}

/-! ### Commands with a select, or that match on a table or a result, and write no memory -/

theorem execBrInit_confines : Confines s w (execBrInit s) := by
  refine .check fun _ => ?_
  split
  · exact .raisedErr rfl
  · dsimp only
    split
    · exact .raisedErr rfl
    · exact .same rfl

theorem execBrPeek_confines : Confines s w (execBrPeek s) := by
  unfold execBrPeek
  split
  · exact .raised
  · exact .same rfl

theorem execBrRead_confines : Confines s w (execBrRead s) := by
  unfold execBrRead
  split
  · exact .raised
  · exact .same rfl

theorem execFseNorm_confines : Confines s w (execFseNorm s) := by
  unfold execFseNorm
  split
  · exact .raisedErr rfl
  · exact .same rfl

theorem execFseRdnc_confines : Confines s w (execFseRdnc s) := by
  refine .check fun _ => ?_
  split
  · exact .raisedErr rfl
  · exact .same rfl

theorem execFseBuildCt_confines (slot : BitVec 4) : Confines s w (execFseBuildCt slot s) := by
  refine .four fun k => .check fun _ => ?_
  split
  · exact .raisedErr rfl
  · exact .same rfl

theorem execFseRleCt_confines (slot : BitVec 4) : Confines s w (execFseRleCt slot s) :=
  .four fun _ => .check fun _ => .same rfl

theorem execFseBuildDt_confines (slot : BitVec 4) : Confines s w (execFseBuildDt slot s) := by
  refine .four fun k => ?_
  split
  · exact .raisedErr rfl
  · split
    · exact .raisedErr rfl
    · exact .same rfl

theorem execFseRleDt_confines (slot : BitVec 4) : Confines s w (execFseRleDt slot s) :=
  .four fun _ => .check fun _ => .same rfl

theorem execFseGetdt_confines (slot : BitVec 4) : Confines s w (execFseGetdt slot s) := by
  refine .four fun k => ?_
  split
  · exact .raised
  · exact .check fun _ => .same rfl

theorem execFseGetct_confines (slot : BitVec 4) : Confines s w (execFseGetct slot s) := by
  refine .four fun k => ?_
  split
  · exact .raised
  · exact .check fun _ => .same rfl

theorem execFseEncBegin_confines (slot sel : BitVec 4) : Confines s w (execFseEncBegin slot sel s) := by
  refine .four fun k => .four fun e => ?_
  split
  · exact .raised
  · exact .check fun _ => .same rfl

theorem execFseEnc_confines (slot sel : BitVec 4) : Confines s w (execFseEnc slot sel s) := by
  refine .four fun k => .four fun e => ?_
  split
  · exact .raised
  · exact .check fun _ => .check fun _ => .check fun _ => .check fun _ => .same rfl

theorem execFseDecInit_confines (slot sel : BitVec 4) : Confines s w (execFseDecInit slot sel s) := by
  refine .four fun k => .four fun e => ?_
  split
  · exact .raised
  · exact .check fun _ => .check fun _ => .same rfl

theorem execFseDec_confines (slot sel : BitVec 4) (u : Bool) : Confines s w (execFseDec slot sel u s) := by
  refine .four fun k => .four fun e => ?_
  split
  · exact .raised
  · refine .check fun _ => ?_
    cases u with
    | false => exact .same rfl
    | true => exact .check fun _ => .check fun _ => .same rfl

theorem execFseGetstate_confines (sel : BitVec 4) : Confines s w (execFseGetstate sel s) := .four fun _ => .same rfl

theorem execHufBuild_confines : Confines s w (execHufBuild s) := by
  unfold execHufBuild
  split
  · exact .raised
  · exact .same rfl

theorem execHufRead_confines : Confines s w (execHufRead s) := by
  refine .check fun _ => ?_
  split
  · exact .raisedErr rfl
  · exact .same rfl

theorem execHufEst_confines (sel : BitVec 4) : Confines s w (execHufEst sel s) := by
  refine .two fun e => .check fun _ => ?_
  split
  · exact .same rfl
  · exact .same rfl

theorem execHufCommit_confines : Confines s w (execHufCommit s) := by
  refine .same ?_
  split <;> rfl

theorem execHufGetcode_confines (sel : BitVec 4) : Confines s w (execHufGetcode sel s) := by
  refine .two fun e => .check fun _ => ?_
  split
  · exact .raised
  · exact .same rfl

theorem execHufGetdt_confines : Confines s w (execHufGetdt s) := by
  unfold execHufGetdt
  split
  · exact .raised
  · exact .check fun _ => .same rfl

theorem execLitDecode_confines : Confines s w (execLitDecode s) := by
  unfold execLitDecode
  split
  · exact .raisedErr rfl
  · dsimp only
    split
    · exact .raisedErr rfl
    · exact .same rfl

theorem execSsStore_confines : Confines s w (execSsStore s) := by
  unfold execSsStore
  split
  · exact .raised
  · exact .same rfl

theorem execSsGet_confines : Confines s w (execSsGet s) := by
  unfold execSsGet
  split
  · exact .raised
  · exact .same rfl

theorem execMfGet_confines (sel : BitVec 4) : Confines s w (execMfGet sel s) :=
  .two fun _ => .check fun _ => .check fun _ => .same rfl

theorem execSsGetlit_confines : Confines s w (execSsGetlit s) := by
  unfold execSsGetlit
  split
  · exact .raised
  · exact .same rfl

theorem execSeqDecode_confines : Confines s w (execSeqDecode s) := by
  unfold execSeqDecode
  split
  · exact .raisedErr rfl
  · split
    · exact .raisedErr rfl
    · exact .same rfl
    · exact .same rfl

theorem execSqGet_confines : Confines s w (execSqGet s) := by
  unfold execSqGet
  split
  · exact .raised
  · exact .same rfl

/-! ### Commands that write the bit writer's window (R155, R157, R265) -/

section Writer

variable (hok : s.bw.Ok)

include hok

/-- A command that checked that the writer is open meets its invariant. -/
theorem open_of_check (hv : ¬ (!s.bw.valid) = true) : s.bw.Open := BitWriter.ok_iff.1 hok (by simpa using hv)

theorem execBwFlush_confines : Confines s s.bw.dst (execBwFlush s) :=
  .check fun hv =>
    have hopen := open_of_check hok hv
    .next (State.flushWriter_confined hopen.room hopen.window)

theorem execBwClose_confines : Confines s s.bw.dst (execBwClose s) :=
  .check fun hv => .check fun _ => .next (State.closeWriter_confined (open_of_check hok hv))

theorem execFseEncFinish_confines (slot sel : BitVec 4) : Confines s s.bw.dst (execFseEncFinish slot sel s) := by
  refine .four fun k => .four fun e => ?_
  split
  · exact .raised
  · refine .check fun hv => .check fun _ => .check fun _ => .next ?_
    have hopen := open_of_check hok hv
    exact State.flushWriter_confined (s := s.addField _) hopen.room hopen.window

end Writer

/-! ### Commands with a destination operand -/

/-- A description of R220 fits, or its bytes are any value (log entry 21). -/
theorem execFseWrnc_confines : Confines s (s.a0, s.a1) (execFseWrnc s) := by
  refine .check fun _ => .check fun hw => ?_
  have haddr := windowOk_addr hw
  split
  · exact .checkDst haddr fun hfits => .output (u := s) haddr (not_lt.1 hfits) rfl rfl
  · exact .checkDst haddr fun _ => .next (Memory.confined_clobber (Nat.le_refl _) (Nat.le_refl _) haddr)

theorem execFseCompress2_confines (slot : BitVec 4) : Confines s (s.a2, s.a3) (execFseCompress2 slot s) := by
  refine .four fun k => .check fun hw => ?_
  have haddr := windowPairOk_addr hw
  split
  · exact .raisedDst haddr rfl
  · exact .checkDst haddr fun _ => .output (u := s) haddr (compress2_length_le _ _ _) rfl rfl

theorem execFseDecompress2_confines (slot : BitVec 4) : Confines s (s.a2, s.a3) (execFseDecompress2 slot s) := by
  refine .four fun k => .check fun hw => ?_
  have haddr := windowPairOk_addr hw
  split
  · exact .raisedDst haddr rfl
  · split
    · exact .raisedDst haddr rfl
    · next hout => exact .output (u := s) haddr (decompress2_length hout).2 rfl rfl

theorem execHufWrite_confines (sel : BitVec 4) : Confines s (s.a0, s.a1) (execHufWrite sel s) := by
  refine .two fun e => .check fun hw => ?_
  have haddr := windowOk_addr hw
  split
  · exact .raisedDst haddr rfl
  · split
    · exact .raisedDst haddr rfl
    · next hout => exact .output (u := s) haddr (hufDescription_length_le hout) rfl rfl

theorem hufEncode_confines {enc : HufTable → List Byte → Nat → List Byte}
    (hfits : ∀ t xs cap, (enc t xs cap).length ≤ cap) (sel : BitVec 4) :
    Confines s (s.a2, s.a3) (hufEncode enc sel s) := by
  refine .two fun e => .check fun hw => ?_
  have haddr := windowPairOk_addr hw
  refine .checkDst haddr fun _ => ?_
  split
  · exact .raisedDst haddr rfl
  · exact .checkDst haddr fun _ => .output (u := s) haddr (hfits _ _ _) rfl rfl

/-- The decoders write exactly `A3` bytes (R355, R357). -/
theorem hufDecode_confines {dec : HufDec → List Byte → Nat → Except Err (List Byte)}
    (hlen : ∀ t bs n out, dec t bs n = .ok out → out.length = n) :
    Confines s (s.a2, s.a3) (hufDecode dec s) := by
  refine .check fun hw => ?_
  have haddr := windowPairOk_addr hw
  refine .checkDst haddr fun _ => ?_
  split
  · exact .raisedDst haddr rfl
  · split
    · exact .raisedDst haddr rfl
    · next hout =>
      exact .next (Memory.confined_writeBytes (Nat.le_refl _) (Nat.add_le_add_left (hlen _ _ _ _ hout).le _) haddr)

theorem execLitEncode_confines : Confines s (s.a0, s.a1) (execLitEncode s) := by
  refine .check fun hw => ?_
  have haddr := windowOk_addr hw
  dsimp only
  split
  · exact .raisedDst haddr rfl
  · next hout =>
    obtain ⟨hfits, -⟩ := encodeLiterals_fits s.params.hufTie s.ht[0] s.ht[1] s.ss.lit s.a1
    exact .output (u := { s with ht := _, hpend := _ }) haddr (hfits _ hout) rfl rfl

theorem execSeqEncode_confines : Confines s (s.a0, s.a1) (execSeqEncode s) := by
  refine .check fun hw => ?_
  have haddr := windowOk_addr hw
  split
  · exact .raisedDst haddr rfl
  · next hout => exact .output (u := s) haddr (encodeSequences_length_le hout) rfl rfl

/-- REPLAY writes the new region alone (R520, log entry 7). -/
theorem execReplay_confines : Confines s (s.a0 + s.a1, s.a2) (execReplay s) := by
  refine .check fun hw => ?_
  have haddr := windowOk_addr hw
  rw [← Nat.add_assoc] at haddr
  refine .checkDst haddr fun _ => ?_
  split
  · exact .raisedDst haddr rfl
  · next rev hrev =>
    have hfits : rev.reverse.length ≤ s.a2 := by
      rw [List.length_reverse]
      exact (replayLoop_length hrev).2
    exact .output (u := s) haddr hfits rfl rfl

end Commands

/-! ### Every command -/

/-- Every command changes memory in its destination window only, and keeps it canonical. -/
theorem exec_confines (i : Instr) {s : State} (hok : s.bw.Ok) : Confines s (destination i s) (exec i s) := by
  cases i with
  | nop => exact .same rfl
  | reset => exact .same rfl
  | clrerr => exact .same rfl
  | bwInit => exact .check fun _ => .check fun _ => .same rfl
  | bwAdd => exact .check fun _ => .check fun _ => .check fun _ => .check fun _ => .same rfl
  | bwFlush => exact execBwFlush_confines hok
  | bwClose => exact execBwClose_confines hok
  | brInit => exact execBrInit_confines
  | brPeek => exact execBrPeek_confines
  | brRead => exact execBrRead_confines
  | brLoad => exact .check fun _ => .same rfl
  | hist => exact .check fun _ => .same rfl
  | fseOptlog => exact .check fun _ => .check fun _ => .same rfl
  | fseNorm => exact execFseNorm_confines
  | fseWrnc => exact execFseWrnc_confines
  | fseRdnc => exact execFseRdnc_confines
  | fseLddef sel => exact .check fun _ => .same rfl
  | fseBuildCt slot => exact execFseBuildCt_confines slot
  | fseRleCt slot => exact execFseRleCt_confines slot
  | fseBuildDt slot => exact execFseBuildDt_confines slot
  | fseRleDt slot => exact execFseRleDt_confines slot
  | fseSetcount => exact .check fun _ => .same rfl
  | fseSetnorm => exact .check fun _ => .same rfl
  | fseGetnorm => exact .check fun _ => .same rfl
  | fseGetcount => exact .check fun _ => .same rfl
  | fseGetdt slot => exact execFseGetdt_confines slot
  | fseGetct slot => exact execFseGetct_confines slot
  | fseEncBegin slot sel => exact execFseEncBegin_confines slot sel
  | fseEnc slot sel => exact execFseEnc_confines slot sel
  | fseEncFinish slot sel => exact execFseEncFinish_confines hok slot sel
  | fseDecInit slot sel => exact execFseDecInit_confines slot sel
  | fseDec slot sel u => exact execFseDec_confines slot sel u
  | fseCompress2 slot => exact execFseCompress2_confines slot
  | fseDecompress2 slot => exact execFseDecompress2_confines slot
  | fseGetstate sel => exact execFseGetstate_confines sel
  | hufOptlog => exact .check fun _ => .check fun _ => .same rfl
  | hufBuild => exact execHufBuild_confines
  | hufWrite sel => exact execHufWrite_confines sel
  | hufRead => exact execHufRead_confines
  | hufEnc1 sel => exact hufEncode_confines enc1_length_le sel
  | hufEnc4 sel => exact hufEncode_confines enc4_length_le sel
  | hufDec1 => exact hufDecode_confines fun _ _ _ _ => dec1_length
  | hufDec4 => exact hufDecode_confines fun _ _ _ _ => dec4_length
  | hufEst sel => exact execHufEst_confines sel
  | hufCommit => exact execHufCommit_confines
  | hufDiscard => exact .same rfl
  | hufGetcode sel => exact execHufGetcode_confines sel
  | hufGetdt => exact execHufGetdt_confines
  | litEncode => exact execLitEncode_confines
  | litDecode => exact execLitDecode_confines
  | litGet => exact .check fun _ => .same rfl
  | mfReset => exact .check fun _ => .check fun _ => .check fun _ => .same rfl
  | mfWindow => exact .check fun _ => .check fun _ => .same rfl
  | mfBlock => exact .check fun _ => .check fun _ => .check fun _ => .check fun _ => .same rfl
  | ssReset => exact .same rfl
  | ssStore => exact execSsStore_confines
  | ssAppend => exact .check fun _ => .check fun _ => .same rfl
  | ssCodes => exact .same rfl
  | repInit => exact .same rfl
  | repCommit => exact .same rfl
  | ssGet => exact execSsGet_confines
  | repGet => exact .same rfl
  | ssInfo => exact .same rfl
  | mfGet sel => exact execMfGet_confines sel
  | ssGetlit => exact execSsGetlit_confines
  | seqEncode => exact execSeqEncode_confines
  | seqDecode => exact execSeqDecode_confines
  | drepInit => exact .same rfl
  | sqGet => exact execSqGet_confines
  | drepGet => exact .same rfl
  | replay => exact execReplay_confines

/-- Settles O10: no command writes outside its destination window. -/
theorem memoryFrame : Obligations.MemoryFrame := by
  unfold Obligations.MemoryFrame
  intro i s t hok h
  exact (exec_confines i hok t h).1

end Sys2Proof.Machine
end

section
/-! The invariants of memory, the hash tables and the bit writer (R80, R152): every step keeps them. -/

namespace Sys2Proof.Machine

/-! ### Canonical hash tables -/

/-- Both tables of a cursor are canonical. -/
def SearchCursor.Canonical (c : SearchCursor) : Prop := sparseWf c.lh ∧ sparseWf c.sh

theorem SearchCursor.Canonical.pass {c : SearchCursor} (h : c.Canonical) (m : MatchFound) : (c.pass m).Canonical := by
  rwa [SearchCursor.Canonical, SearchCursor.pass_lh, SearchCursor.pass_sh]

theorem setPosition_wf (h p : Nat) {t : List (Nat × Word)} (ht : sparseWf t) : sparseWf (setPosition h p t) :=
  sparseWrite_wf _ _ ht

namespace SearchEnv

variable (v : SearchEnv) {c : SearchCursor}

theorem insert_canonical (p : Nat) (h : c.Canonical) : (v.insert p c).Canonical :=
  ⟨setPosition_wf _ _ h.1, setPosition_wf _ _ h.2⟩

theorem probe_canonical (h : c.Canonical) : (v.probe c).2.Canonical := by
  have hins := v.insert_canonical c.ip h
  simp only [probe]
  split
  · exact hins
  · split
    · exact hins
    · split
      · have hnext : SearchCursor.Canonical { v.insert c.ip c with
            lh := setPosition (v.longHash (c.ip + 1)) (c.ip + 1) (v.insert c.ip c).lh } :=
          ⟨setPosition_wf _ _ hins.1, hins.2⟩
        split <;> exact hnext
      · exact hins

theorem repeatLoop_canonical (fuel : Nat) (h : c.Canonical) : (v.repeatLoop fuel c).2.Canonical := by
  induction fuel generalizing c with
  | zero => exact h
  | succ fuel ih =>
    simp only [repeatLoop]
    split
    · exact ih (v.insert_canonical c.ip h)
    · exact h

theorem afterMatch_canonical (cur : Nat) (h : c.Canonical) : (v.afterMatch cur c).2.Canonical := by
  unfold afterMatch
  split
  · exact v.repeatLoop_canonical _ (v.insert_canonical _ (v.insert_canonical _ h))
  · exact h

theorem loop_canonical (fuel : Nat) (h : c.Canonical) : (v.loop fuel c).2.Canonical := by
  induction fuel generalizing c with
  | zero => exact h
  | succ fuel ih =>
    have hprobe := v.probe_canonical h
    simp only [loop]
    split
    · split
      · next hp =>
        rw [hp] at hprobe
        exact ih hprobe
      · next m _ hp =>
        rw [hp] at hprobe
        exact ih (v.afterMatch_canonical _ (hprobe.pass m))
    · exact h

theorem search_canonical (start size r0 r1 : Nat) {lh sh : List (Nat × Word)} (hlh : sparseWf lh)
    (hsh : sparseWf sh) : (v.search start size r0 r1 lh sh).cursor.Canonical :=
  v.loop_canonical _ ⟨hlh, hsh⟩

end SearchEnv

/-! ### The open bit writer (R152) -/

/-- A writer that BW_INIT opened (R153). -/
theorem BitWriter.open_init {cap : Nat} {b : BitWriter} (hcap : b.cap = BitVec.ofNat 32 cap) (hcur : b.cur = 0)
    (hcnt : b.cnt = 0) (hacc : b.acc = 0) (hw : windowOk b.base.toNat cap = true) (h8 : Config.bwSlack ≤ cap) :
    b.Open := by
  obtain ⟨hlen, haddr⟩ := (windowOk_iff _ _).1 hw
  have hn : b.cap.toNat = cap := by
    rw [hcap, BitVec.toNat_ofNat, Nat.mod_eq_of_lt (by rw [Config.lenLimit] at hlen; omega)]
  exact ⟨by simpa [hcur, hn] using h8, by rwa [hn], by simp [hcnt], by simp [hcnt, hacc]⟩

/-- A field that fits beside the bits held (R154). -/
theorem BitWriter.Open.add {b : BitWriter} (h : b.Open) {x n : Nat} (hx : x < 2 ^ n)
    (hfit : b.cnt + n ≤ Config.bwAcc) : (b.add x n).Open := by
  refine ⟨h.room, h.window, hfit, ?_⟩
  have hlt : x * 2 ^ b.cnt < 2 ^ (b.cnt + n) := by
    rw [Nat.add_comm, pow_add]
    exact Nat.mul_lt_mul_of_pos_right hx (Nat.two_pow_pos _)
  have hle : (BitVec.ofNat 64 x <<< b.cnt).toNat ≤ x * 2 ^ b.cnt := by
    rw [BitVec.toNat_shiftLeft, Nat.shiftLeft_eq, BitVec.toNat_ofNat]
    exact (Nat.mod_le _ _).trans (Nat.mul_le_mul_right _ (Nat.mod_le _ _))
  have hacc : b.acc.toNat < 2 ^ (b.cnt + n) := h.acc.trans_le (Nat.pow_le_pow_right (by decide) (Nat.le_add_right _ _))
  simp only [BitWriter.add, BitVec.toNat_or]
  exact Nat.or_lt_two_pow hacc (hle.trans_lt hlt)

/-- A flush takes whole bytes from the accumulator and moves the cursor no further than its limit (R155). -/
theorem BitWriter.Open.flushed {b : BitWriter} (h : b.Open) : b.flushed.Open := by
  have hcur := b.flushed_cur
  have hroom := h.room
  refine ⟨?_, h.window, ?_, ?_⟩
  · change b.flushed.cur.toNat + _ ≤ b.cap.toNat
    omega
  · exact (Nat.mod_le _ _).trans h.bits
  · change (b.acc >>> (8 * (b.cnt / 8))).toNat < 2 ^ (b.cnt % 8)
    rw [BitVec.toNat_ushiftRight, Nat.shiftRight_eq_div_pow]
    refine Nat.div_lt_of_lt_mul ?_
    rw [← pow_add, Nat.div_add_mod]
    exact h.acc

/-! ### The hash tables and the writer together -/

/-- `MemoryOk` but for memory itself, a field for each part of the state. -/
structure State.CursorsOk (s : State) : Prop where
  long : sparseWf s.lh
  short : sparseWf s.sh
  writer : s.bw.valid = true → s.bw.Open

theorem State.memoryOk_iff {s : State} : s.MemoryOk ↔ s.mem.wf ∧ s.CursorsOk := by
  rw [State.MemoryOk, BitWriter.ok_iff]
  exact ⟨fun ⟨hm, hl, hs, hb⟩ => ⟨hm, hl, hs, hb⟩, fun ⟨hm, hl, hs, hb⟩ => ⟨hm, hl, hs, hb⟩⟩

theorem State.cursorsOk_speaksOf : SpeaksOf State.CursorsOk [.bw, .finder] where
  quiet := by decide
  respects := by
    intro s t k h
    simp only [List.forall_mem_cons, State.Agree] at k
    obtain ⟨hbw, ⟨hlh, hsh, -, -, -⟩, -⟩ := k
    exact ⟨hlh ▸ h.long, hsh ▸ h.short, hbw ▸ h.writer⟩

section Commands

variable {s : State} (h : s.CursorsOk)

include h

theorem execBwInit_keepsCursors : Ensures State.CursorsOk (execBwInit s) := by
  refine State.cursorsOk_speaksOf.check h fun hw => State.cursorsOk_speaksOf.check h fun h8 => .next ?_
  have hw : windowOk s.a0 s.a1 = true := by simpa using hw
  exact { h with writer := fun _ => BitWriter.open_init rfl rfl rfl rfl hw (not_lt.1 h8) }

theorem execBwAdd_keepsCursors : Ensures State.CursorsOk (execBwAdd s) :=
  State.cursorsOk_speaksOf.check h fun hv => State.cursorsOk_speaksOf.check h fun _ =>
    State.cursorsOk_speaksOf.check h fun hx => State.cursorsOk_speaksOf.check h fun hfit =>
      .next { h with writer := fun _ => (h.writer (by simpa using hv)).add (not_le.1 hx) (not_lt.1 hfit) }

theorem execBwFlush_keepsCursors : Ensures State.CursorsOk (execBwFlush s) :=
  State.cursorsOk_speaksOf.check h fun hv =>
    .next { h with writer := fun _ => (h.writer (by simpa using hv)).flushed }

theorem execBwClose_keepsCursors : Ensures State.CursorsOk (execBwClose s) :=
  State.cursorsOk_speaksOf.check h fun _ => State.cursorsOk_speaksOf.check h fun _ => .next { h with writer := nofun }

theorem execFseEnc_keepsCursors (slot sel : BitVec 4) : Ensures State.CursorsOk (execFseEnc slot sel s) := by
  refine State.cursorsOk_speaksOf.four h fun k => State.cursorsOk_speaksOf.four h fun e => ?_
  split
  · exact State.cursorsOk_speaksOf.raised h _
  · next t _ =>
    refine State.cursorsOk_speaksOf.check h fun hv => State.cursorsOk_speaksOf.check h fun _ =>
      State.cursorsOk_speaksOf.check h fun _ => State.cursorsOk_speaksOf.check h fun hfit => .next ?_
    have hfield := Nat.mod_lt (s.es[e]).toNat (Nat.two_pow_pos (encWidth t (s.es[e]).toNat s.a0))
    exact { h with writer := fun _ => (h.writer (by simpa using hv)).add hfield (not_lt.1 hfit) }

theorem execFseEncFinish_keepsCursors (slot sel : BitVec 4) :
    Ensures State.CursorsOk (execFseEncFinish slot sel s) := by
  refine State.cursorsOk_speaksOf.four h fun k => State.cursorsOk_speaksOf.four h fun e => ?_
  split
  · exact State.cursorsOk_speaksOf.raised h _
  · next t _ =>
    refine State.cursorsOk_speaksOf.check h fun hv => State.cursorsOk_speaksOf.check h fun _ =>
      State.cursorsOk_speaksOf.check h fun hfit => .next ?_
    have hfield := Nat.mod_lt (s.es[e]).toNat (Nat.two_pow_pos t.log)
    exact { h with writer := fun _ => ((h.writer (by simpa using hv)).add hfield (not_lt.1 hfit)).flushed }

theorem execMfReset_keepsCursors : Ensures State.CursorsOk (execMfReset s) :=
  State.cursorsOk_speaksOf.check h fun _ => State.cursorsOk_speaksOf.check h fun _ =>
    State.cursorsOk_speaksOf.check h fun _ => .next { h with long := sparseWf_nil, short := sparseWf_nil }

theorem execMfWindow_keepsCursors : Ensures State.CursorsOk (execMfWindow s) :=
  State.cursorsOk_speaksOf.check h fun _ => State.cursorsOk_speaksOf.check h fun _ => .next { h with }

theorem execMfBlock_keepsCursors : Ensures State.CursorsOk (execMfBlock s) := by
  refine State.cursorsOk_speaksOf.check h fun _ => State.cursorsOk_speaksOf.check h fun _ =>
    State.cursorsOk_speaksOf.check h fun _ => State.cursorsOk_speaksOf.check h fun _ => .next ?_
  obtain ⟨hlong, hshort⟩ := (s.searchEnv (s.a0 + s.a1)).search_canonical s.a0 s.a1 s.repLive.r0.toNat
    s.repLive.r1.toNat h.long h.short
  exact { h with long := hlong, short := hshort }

end Commands

theorem State.cursorsOk_reset : State.reset.CursorsOk := ⟨sparseWf_nil, sparseWf_nil, nofun⟩

theorem exec_keepsCursors (i : Instr) (s : State) (h : s.CursorsOk) : Ensures State.CursorsOk (exec i s) := by
  cases i with
  | reset => exact .next { State.cursorsOk_reset with }
  | bwInit => exact execBwInit_keepsCursors h
  | bwAdd => exact execBwAdd_keepsCursors h
  | bwFlush => exact execBwFlush_keepsCursors h
  | bwClose => exact execBwClose_keepsCursors h
  | fseEnc slot sel => exact execFseEnc_keepsCursors h slot sel
  | fseEncFinish slot sel => exact execFseEncFinish_keepsCursors h slot sel
  | mfReset => exact execMfReset_keepsCursors h
  | mfWindow => exact execMfWindow_keepsCursors h
  | mfBlock => exact execMfBlock_keepsCursors h
  | fseDec slot sel u => cases u <;> exact State.cursorsOk_speaksOf.untouched h rfl
  | _ => exact State.cursorsOk_speaksOf.untouched h rfl

/-! ### Memory over a step -/

/-- What the host writes is one byte of the address space, and a command keeps memory canonical. -/
theorem step_keepsMemoryWf {s : State} (hm : s.mem.wf) (hb : s.bw.Ok) : Ensures (fun t => t.mem.wf) (step s) := by
  unfold step
  split
  · exact .next hm
  · next a rest _ =>
    cases a with
    | setArg k v => exact .next hm
    | setByte a b => exact .next (Memory.writeBytes_wf hm _ _ a.isLt)
    | command w =>
      simp only [hostAct, issue]
      split
      · exact .next hm
      · split
        · exact .next hm
        · next i _ => exact fun t ht => (exec_confines i (s := { s with host := rest, cmd := w }) hb t ht).2 hm

/-- Settles O11: memory by the windows the commands write, the tables and the writer by the commands that write them. -/
theorem stepKeepsMemory : Obligations.StepKeepsMemory := by
  unfold Obligations.StepKeepsMemory
  intro s t h hstep
  obtain ⟨hm, hc⟩ := State.memoryOk_iff.1 h
  exact State.memoryOk_iff.2 ⟨step_keepsMemoryWf hm (BitWriter.ok_iff.2 hc.writer) t hstep,
    State.cursorsOk_speaksOf.kept exec_keepsCursors s t hc hstep⟩

end Sys2Proof.Machine
end

section
/-! The replay engine (R520 to R526): where its checks stop it, and what it leaves in the new region. -/

namespace Sys2Proof.Machine

/-! ### Bytes in place -/

theorem Memory.holds_append {m : Memory} {a : Nat} {xs ys : List Byte} :
    m.Holds a (xs ++ ys) ↔ m.Holds a xs ∧ m.Holds (a + xs.length) ys := by
  constructor
  · refine fun h => ⟨fun j hj => ?_, fun j hj => ?_⟩
    · rw [h j (by simp; omega), List.getElem_append_left]
    · rw [Nat.add_assoc, h (xs.length + j) (by simp; omega), List.getElem_append_right (by omega)]
      simp
  · rintro ⟨hx, hy⟩ j hj
    by_cases hlt : j < xs.length
    · rw [List.getElem_append_left hlt, hx j hlt]
    · rw [List.getElem_append_right (by omega), ← hy (j - xs.length) (by simp at hj; omega)]
      congr 1
      omega

theorem Memory.holds_singleton {m : Memory} {a : Nat} {b : Byte} : m.Holds a [b] ↔ m.read a = b :=
  ⟨fun h => h 0 (by simp), fun h j hj => by
    obtain rfl : j = 0 := by simpa using hj
    exact h⟩

/-- What was produced first stands first. -/
theorem Memory.Holds.of_suffix {m : Memory} {a : Nat} {rev out : List Byte} (h : m.Holds a out.reverse)
    (hs : rev <:+ out) : m.Holds a rev.reverse := by
  obtain ⟨new, rfl⟩ := hs
  rw [List.reverse_append] at h
  exact (Memory.holds_append.1 h).1

/-! ### The bytes a replay produces (R521, R524 to R526) -/

theorem copyMatch_suffix (m : Memory) (top off ml : Nat) (rev : List Byte) : rev <:+ copyMatch m top off ml rev := by
  induction ml generalizing rev with
  | zero => exact List.suffix_refl _
  | succ ml ih => exact (List.suffix_cons _ _).trans (ih _)

/-- The bytes produced once a sequence's literals are there, for literals that suffice. -/
theorem length_takeLiterals {n : Nat} {lits : List Byte} (h : n ≤ lits.length) (rev : List Byte) :
    ((lits.take n).reverse ++ rev).length = rev.length + n := by
  rw [List.length_append, List.length_reverse, List.length_take_of_le h, Nat.add_comm]

/-- What a sequence that passes its checks does, and what its passing says. -/
theorem replayLoop_cons_ok {m : Memory} {base hist cap window i : Nat} {q : DecodedSeq} {qs : List DecodedSeq}
    {lits rev out : List Byte} (h : replayLoop m base hist cap window i (q :: qs) lits rev = .ok out) :
    q.ll.toNat ≤ lits.length ∧ rev.length + q.ll.toNat + q.ml.toNat ≤ cap ∧ 1 ≤ q.off.toNat
      ∧ q.off.toNat ≤ min (hist + (rev.length + q.ll.toNat)) window
      ∧ replayLoop m base hist cap window (i + 1) qs (lits.drop q.ll.toNat)
          (copyMatch m (base + hist) q.off.toNat q.ml.toNat ((lits.take q.ll.toNat).reverse ++ rev)) = .ok out := by
  simp only [replayLoop] at h
  split at h
  · cases h
  · next hlit =>
    split at h
    · cases h
    · split at h
      · cases h
      · next hoff =>
        rw [length_takeLiterals (not_lt.1 hlit)] at hoff
        exact ⟨by omega, by omega, by omega, by omega, h⟩

theorem replayLoop_suffix {m : Memory} {base hist cap window i : Nat} {qs : List DecodedSeq} {lits rev out : List Byte}
    (h : replayLoop m base hist cap window i qs lits rev = .ok out) : rev <:+ out := by
  induction qs generalizing i lits rev with
  | nil =>
    simp only [replayLoop] at h
    split at h
    · cases h
    · cases h
      exact List.suffix_append _ _
  | cons q qs ih =>
    obtain ⟨-, -, -, -, hrest⟩ := replayLoop_cons_ok h
    exact (List.suffix_append _ _).trans ((copyMatch_suffix _ _ _ _ _).trans (ih hrest))

section Produced

/-! `m` is the memory before the replay, `M` the one after it, which agrees with `m` below the new region at `top`. -/

variable {m M : Memory} {top off : Nat} (hbelow : ∀ a, a < top → M.read a = m.read a)

include hbelow

/-- The byte `off` places back is the one memory holds there, in the new region or in the history below it (R523). -/
theorem replayByte_eq_read {rev : List Byte} (hrev : M.Holds top rev.reverse) (h1 : 1 ≤ off)
    (h2 : off ≤ top + rev.length) : replayByte m top off rev = M.read (top + rev.length - off) := by
  unfold replayByte
  by_cases hin : off - 1 < rev.length
  · have hj : rev.length - off < rev.reverse.length := by simp; omega
    rw [List.getElem?_eq_getElem hin, show top + rev.length - off = top + (rev.length - off) by omega, hrev _ hj,
      List.getElem_reverse]
    exact getElem_congr_idx (by omega)
  · rw [List.getElem?_eq_none (by omega), hbelow _ (by omega)]

/-- Every byte of a match is the byte `off` before it (R524). -/
theorem read_copyMatch {ml : Nat} {rev : List Byte} (h : M.Holds top (copyMatch m top off ml rev).reverse)
    (h1 : 1 ≤ off) (h2 : off ≤ top + rev.length) {j : Nat} (hj : j < ml) :
    M.read (top + rev.length + j) = M.read (top + rev.length + j - off) := by
  induction ml generalizing rev j with
  | zero => cases hj
  | succ ml ih =>
    cases j with
    | zero =>
      have hnext := h.of_suffix (copyMatch_suffix m top off ml (replayByte m top off rev :: rev))
      rw [List.reverse_cons, Memory.holds_append, Memory.holds_singleton, List.length_reverse] at hnext
      exact hnext.2.trans (replayByte_eq_read hbelow hnext.1 h1 h2)
    | succ j =>
      have hrest := ih h (by simp; omega) (Nat.lt_of_succ_lt_succ hj)
      rw [List.length_cons] at hrest
      rwa [show top + rev.length + (j + 1) = top + (rev.length + 1) + j by omega]

end Produced

/-- A memory that holds what the loop produced, and the history, holds what the sequences regenerate. -/
theorem replayLoop_regenerated {m M : Memory} {base hist cap window i : Nat} {qs : List DecodedSeq}
    {lits rev out : List Byte} (hbelow : ∀ a, a < base + hist → M.read a = m.read a)
    (h : replayLoop m base hist cap window i qs lits rev = .ok out) (hout : M.Holds (base + hist) out.reverse) :
    Regenerated M (base + hist) rev.length qs lits := by
  induction qs generalizing i lits rev with
  | nil =>
    simp only [replayLoop] at h
    split at h
    · cases h
    · cases h
      rw [List.reverse_append, List.reverse_reverse, Memory.holds_append, List.length_reverse] at hout
      exact hout.2
  | cons q qs ih =>
    obtain ⟨hlit, -, hoff1, hoff2, hrest⟩ := replayLoop_cons_ok h
    have hcopied := hout.of_suffix (replayLoop_suffix hrest)
    have hlen := length_takeLiterals hlit rev
    refine ⟨?_, fun j hj => ?_, ?_⟩
    · have hlits := hcopied.of_suffix (copyMatch_suffix _ _ _ _ _)
      rw [List.reverse_append, List.reverse_reverse, Memory.holds_append, List.length_reverse] at hlits
      exact hlits.2
    · have := read_copyMatch hbelow hcopied hoff1 (by omega) hj
      rwa [hlen, ← Nat.add_assoc] at this
    · have := ih hrest
      rwa [copyMatch_length, hlen] at this

/-! ### The sequence the loop has reached -/

theorem State.literalsBefore_succ {s : State} {i : Nat} {q : DecodedSeq} (h : s.sq[i]? = some q) :
    s.literalsBefore (i + 1) = s.literalsBefore i + q.ll.toNat := by
  simp [State.literalsBefore, List.take_add_one, h]

theorem State.bytesBefore_succ {s : State} {i : Nat} {q : DecodedSeq} (h : s.sq[i]? = some q) :
    s.bytesBefore (i + 1) = s.bytesBefore i + (q.ll.toNat + q.ml.toNat) := by
  simp [State.bytesBefore, List.take_add_one, h]

/-- The loop of R521, as `REPLAY` starts it. -/
def State.replayed (s : State) : Except Err (List Byte) :=
  replayLoop s.mem s.a0 s.a1 s.a2 s.a3 0 s.sq s.dlit []

/-- The loop of R521 from sequence `i` on, after the bytes `rev` of the sequences before it. -/
def State.replayedFrom (s : State) (i : Nat) (rev : List Byte) : Except Err (List Byte) :=
  replayLoop s.mem s.a0 s.a1 s.a2 s.a3 i (s.sq.drop i) (s.dlit.drop (s.literalsBefore i)) rev

/-- The sequences before `i` pass their checks. -/
def State.ReplayableBelow (s : State) (i : Nat) : Prop := ∀ j p, j < i → s.sq[j]? = some p → s.Replayable j p

/-- Sequences that pass their checks are done, and the loop goes on with the next one. -/
theorem State.replayed_eq_from {s : State} {i : Nat} (hi : i ≤ s.sq.length) (h : s.ReplayableBelow i) :
    ∃ rev, rev.length = s.bytesBefore i ∧ s.literalsBefore i ≤ s.dlit.length ∧ s.replayed = s.replayedFrom i rev := by
  induction i with
  | zero => exact ⟨[], rfl, Nat.zero_le _, rfl⟩
  | succ i ih =>
    obtain ⟨rev, hlen, -, heq⟩ := ih (by omega) fun j p hj => h j p (by omega)
    have hq : s.sq[i]? = some s.sq[i] := List.getElem?_eq_getElem hi
    obtain ⟨hlit, hcap, hoff1, hoff2⟩ := h i _ (Nat.lt_succ_self i) hq
    have hleft : s.sq[i].ll.toNat ≤ (s.dlit.drop (s.literalsBefore i)).length := by
      rw [List.length_drop]; omega
    have hrev1 := length_takeLiterals hleft rev
    refine ⟨copyMatch s.mem (s.a0 + s.a1) s.sq[i].off.toNat s.sq[i].ml.toNat
      ((List.take s.sq[i].ll.toNat (s.dlit.drop (s.literalsBefore i))).reverse ++ rev), ?_, ?_, ?_⟩
    · rw [copyMatch_length, hrev1, hlen, State.bytesBefore_succ hq, Nat.add_assoc]
    · rwa [State.literalsBefore_succ hq]
    · rw [heq, State.replayedFrom, State.replayedFrom, List.drop_eq_getElem_cons hi, replayLoop]
      dsimp only
      rw [if_neg (not_lt.2 hleft), if_neg (by omega), if_neg (by omega),
        List.drop_drop, State.literalsBefore_succ hq]

section Reached

variable {s : State} {i : Nat} {q : DecodedSeq} (hq : s.sq[i]? = some q) (hbelow : s.ReplayableBelow i)

include hq hbelow

/-- What the loop answers at the first sequence that may fail a check. -/
theorem State.replayed_at : ∃ rev, rev.length = s.bytesBefore i ∧ s.literalsBefore i ≤ s.dlit.length ∧
    s.replayed = replayLoop s.mem s.a0 s.a1 s.a2 s.a3 i (q :: s.sq.drop (i + 1))
      (s.dlit.drop (s.literalsBefore i)) rev := by
  obtain ⟨hi, rfl⟩ := List.getElem?_eq_some_iff.1 hq
  obtain ⟨rev, hlen, hlit, heq⟩ := State.replayed_eq_from (Nat.le_of_lt hi) hbelow
  exact ⟨rev, hlen, hlit, by rw [heq, State.replayedFrom, List.drop_eq_getElem_cons hi]⟩

/-- The literals run out (R522). -/
theorem State.replayed_overrun (h : s.dlit.length < s.literalsBefore i + q.ll.toNat) :
    s.replayed = .error { code := .literalsOverrun, off := i } := by
  obtain ⟨rev, -, hlit, heq⟩ := State.replayed_at hq hbelow
  rw [heq, replayLoop]
  dsimp only
  rw [if_pos (by rw [List.length_drop]; omega)]

/-- The capacity does not suffice (R522). -/
theorem State.replayed_tooSmall (h1 : ¬ s.dlit.length < s.literalsBefore i + q.ll.toNat)
    (h2 : s.a2 < s.bytesBefore i + q.ll.toNat + q.ml.toNat) :
    s.replayed = .error { code := .outputTooSmall, off := i } := by
  obtain ⟨rev, hlen, hlit, heq⟩ := State.replayed_at hq hbelow
  rw [heq, replayLoop]
  dsimp only
  rw [if_neg (by rw [List.length_drop]; omega), if_pos (by omega)]

/-- The offset is 0 or reaches too far back (R522, R523). -/
theorem State.replayed_outOfRange (h1 : ¬ s.dlit.length < s.literalsBefore i + q.ll.toNat)
    (h2 : ¬ s.a2 < s.bytesBefore i + q.ll.toNat + q.ml.toNat)
    (h3 : q.off.toNat < 1 ∨ min (s.a1 + s.bytesBefore i + q.ll.toNat) s.a3 < q.off.toNat) :
    s.replayed = .error { code := .offsetOutOfRange, off := i } := by
  obtain ⟨rev, hlen, hlit, heq⟩ := State.replayed_at hq hbelow
  have hleft : q.ll.toNat ≤ (s.dlit.drop (s.literalsBefore i)).length := by
    rw [List.length_drop]; omega
  have hrev1 := length_takeLiterals hleft rev
  rw [heq, replayLoop]
  dsimp only
  rw [if_neg (not_lt.2 hleft), if_neg (by omega), if_pos (by omega)]

/-- A loop that ends without error has passed the checks of the sequence. -/
theorem State.replayable_of_replayed {out : List Byte} (h : s.replayed = .ok out) : s.Replayable i q := by
  obtain ⟨rev, hlen, hlit, heq⟩ := State.replayed_at hq hbelow
  obtain ⟨hll, hcap, hoff1, hoff2, -⟩ := replayLoop_cons_ok (heq ▸ h)
  rw [List.length_drop] at hll
  exact ⟨by omega, by omega, hoff1, by omega⟩

end Reached

/-- A loop that ends without error has passed every check. -/
theorem State.allReplayable_of_replayed {s : State} {out : List Byte} (h : s.replayed = .ok out) :
    ∀ i q, s.sq[i]? = some q → s.Replayable i q := by
  intro i
  induction i using Nat.strongRecOn with
  | ind i ih => exact fun q hq => State.replayable_of_replayed hq (fun j p hj => ih j hj p) h

/-- The bytes the sequences regenerate, by the literals they take. -/
theorem State.bytesBefore_eq (s : State) (i : Nat) :
    s.bytesBefore i = s.literalsBefore i + ((s.sq.take i).map fun q => q.ml.toNat).sum := by
  simp only [State.bytesBefore, State.literalsBefore]
  exact List.sum_map_add

/-- Where every sequence passes, the loop fails only at its end, for trailing literals that do not fit (R526). -/
theorem State.replayed_of_allReplayable {s : State} (h : ∀ i q, s.sq[i]? = some q → s.Replayable i q) :
    let size := s.dlit.length + (s.sq.map fun q => q.ml.toNat).sum
    (s.a2 < size → s.replayed = .error { code := .outputTooSmall, off := s.sq.length })
    ∧ (size ≤ s.a2 → ∃ out, s.replayed = .ok out) := by
  intro size
  obtain ⟨rev, hlen, hlit, heq⟩ := State.replayed_eq_from (Nat.le_refl s.sq.length) fun j p _ => h j p
  have hsize : rev.length + (s.dlit.drop (s.literalsBefore s.sq.length)).length = size := by
    rw [hlen, State.bytesBefore_eq, List.take_length, List.length_drop]
    omega
  rw [heq, State.replayedFrom, List.drop_length, replayLoop, hsize]
  exact ⟨fun hs => if_pos hs, fun hs => ⟨_, if_neg (not_lt.2 hs)⟩⟩

/-! ### The command (R521) -/

section Command

variable {s : State} (hw : windowOk s.a0 (s.a1 + s.a2) = true) (hc : countOk s.a3 = true)

include hw hc

/-- A failing loop fails the command. -/
theorem exec_replay_error {e : Err} (h : s.replayed = .error e) :
    exec .replay s = raiseDst e (s.a0 + s.a1) s.a2 s := by
  change execReplay s = _
  rw [State.replayed] at h
  simp only [execReplay, hw, hc, h, Bool.not_true, Bool.false_eq_true, if_false]

/-- A loop that ends well writes its bytes. -/
theorem exec_replay_ok {out : List Byte} (h : s.replayed = .ok out) :
    exec .replay s = .next ((s.writeOut (s.a0 + s.a1) s.a2 out.reverse).setRes0 (res64 out.length)) := by
  change execReplay s = _
  rw [State.replayed] at h
  simp only [execReplay, hw, hc, h, Bool.not_true, Bool.false_eq_true, if_false]

/-- A replay without error comes from a loop that ended well. -/
theorem replayed_of_exec_ok {t : State} (h : exec .replay s = .next t) (ht : t.errKind = 0) :
    ∃ out, s.replayed = .ok out := by
  cases hr : s.replayed with
  | ok out => exact ⟨out, rfl⟩
  | error e =>
    rw [exec_replay_error hw hc hr] at h
    cases h
    exact absurd ht (ErrCode.kind_ne_zero _)

/-- What a replay that ends well leaves. -/
theorem exec_replay_delivers {out : List Byte} (h : s.replayed = .ok out) : ∃ m n,
    exec .replay s = .next { s with mem := m, free := n, res := s.res.set 0 (res64 out.length) }
      ∧ s.mem.SameOutside m (s.a0 + s.a1) s.a2 ∧ Regenerated m (s.a0 + s.a1) 0 s.sq s.dlit := by
  have hcap : out.reverse.length ≤ s.a2 := by
    rw [List.length_reverse]
    exact (replayLoop_length h).2
  have houtside := s.writeOut_sameOutside (s.a0 + s.a1) s.a2 out.reverse hcap
  exact ⟨_, _, exec_replay_ok hw hc h, houtside,
    replayLoop_regenerated (rev := []) (fun a ha => houtside a (.inl ha)) h (State.writeOut_holds _ _ _ _)⟩

end Command

/-- Settles O60: the sequences before the first bad one are done, so the loop stands at it with the literals and bytes
the statement counts. -/
theorem replayRegenerates : Obligations.ReplayRegenerates := by
  unfold Obligations.ReplayRegenerates
  intro s size
  refine ⟨fun hbad => raises_of_raise ?_, fun hlen haddr => ⟨fun hbig =>
    raisesDst_of_raiseDst (e := { code := .argRange, off := 0 }) ?_, fun hcount => ?_⟩⟩
  · change execReplay s = _
    simp [execReplay, windowOk_false_of hbad]
  · change execReplay s = _
    simp [execReplay, (windowOk_iff s.a0 (s.a1 + s.a2)).2 ⟨hlen, haddr⟩, (countOk_eq_false _).2 hbig]
  · have hw := (windowOk_iff s.a0 (s.a1 + s.a2)).2 ⟨hlen, haddr⟩
    have hc := (countOk_iff s.a3).2 hcount
    have failed {e : Err} (h : s.replayed = .error e) :
        RaisesDst .replay s s e.code e.off (s.a0 + s.a1) s.a2 := raisesDst_of_raiseDst (exec_replay_error hw hc h)
    refine ⟨fun i q hq hbelow => ?_, fun hall => ?_, fun t ht hkind => ?_⟩
    · have hbelow : s.ReplayableBelow i := hbelow
      exact ⟨fun h => failed (State.replayed_overrun hq hbelow h),
        fun h1 h => failed (State.replayed_tooSmall hq hbelow h1 h),
        fun h1 h2 h => failed (State.replayed_outOfRange hq hbelow h1 h2 h)⟩
    · obtain ⟨hsmall, hfits⟩ := State.replayed_of_allReplayable hall
      refine ⟨fun h => failed (hsmall h), fun h => ?_⟩
      obtain ⟨out, hout⟩ := hfits h
      have hsize : out.length = size := by simpa using (replayLoop_length hout).1
      exact hsize ▸ exec_replay_delivers hw hc hout
    · obtain ⟨out, hout⟩ := replayed_of_exec_ok hw hc ht hkind
      obtain ⟨hsize, hcap⟩ := replayLoop_length hout
      exact ⟨by simpa [size, hsize] using hcap, State.allReplayable_of_replayed hout⟩

end Sys2Proof.Machine
end

section
/-! The whole-string commands on two windows (R82, R85): FSE (R270, R275, R276) and Huffman streams (R350, R352, R355,
R357), their checks in order and what they deliver. -/

namespace Sys2Proof.Machine

/-! ### Delivering an output and its size (R84) -/

/-- A command that writes an output into its window and its size into `RES0`. -/
theorem delivers_size {i : Instr} {s : State} {addr cap : Nat} {out : List Byte}
    (h : exec i s = .next ((s.writeOut addr cap out).setRes0 (res64 out.length))) (hl : out.length ≤ cap) :
    Delivers i s { s with res := s.res.set 0 (res64 out.length) } addr cap out :=
  delivers_of_writeOut h hl

/-- A command that writes an output that fills its window, and no result. -/
theorem delivers_of_writeBytes {i : Instr} {s : State} {addr cap : Nat} {out : List Byte}
    (h : exec i s = .next { s with mem := s.mem.writeBytes addr out }) (hl : out.length = cap) :
    Delivers i s s addr cap out :=
  ⟨_, _, h, fun _ hk => s.mem.read_writeBytes_outside addr out (by omega),
    fun _ hj => s.mem.read_writeBytes_inside addr out hj⟩

/-- The pair check passes where no case of R82 and R85 applies. -/
theorem windowPairOk_of_not {a la b lb : Nat}
    (h : ¬ (2 ^ 31 ≤ la ∨ 2 ^ 64 < a + la ∨ 2 ^ 31 ≤ lb ∨ 2 ^ 64 < b + lb
      ∨ ∃ x, a ≤ x ∧ x < a + la ∧ b ≤ x ∧ x < b + lb)) : windowPairOk a la b lb = true := by
  rw [← windowPairOk_eq_false] at h
  simpa using h

/-! ### FSE_COMPRESS2 and FSE_DECOMPRESS2 -/

section Fse

variable {s : State} {k : Fin 4}

theorem exec_fseCompress2 : exec (.fseCompress2 (nib k)) s = execFseCompress2 (nib k) s := rfl

theorem exec_fseDecompress2 : exec (.fseDecompress2 (nib k)) s = execFseDecompress2 (nib k) s := rfl

theorem fseWindows_bad (h : windowPairOk s.a0 s.a1 s.a2 s.a3 = false) :
    exec (.fseCompress2 (nib k)) s = raise .argRange s ∧ exec (.fseDecompress2 (nib k)) s = raise .argRange s := by
  simp [exec_fseCompress2, exec_fseDecompress2, execFseCompress2, execFseDecompress2, h]

variable (hw : windowPairOk s.a0 s.a1 s.a2 s.a3 = true)

include hw

theorem exec_fseCompress2_none (hk : s.ct[k] = none) :
    exec (.fseCompress2 (nib k)) s = raiseDst { code := .stateInvalid, off := 0 } s.a2 s.a3 s := by
  simp only [exec_fseCompress2, execFseCompress2, withFour_nib, hw, hk, Bool.not_true, Bool.false_eq_true, if_false]

theorem exec_fseDecompress2_none (hk : s.dt[k] = none) :
    exec (.fseDecompress2 (nib k)) s = raiseDst { code := .stateInvalid, off := 0 } s.a2 s.a3 s := by
  simp only [exec_fseDecompress2, execFseDecompress2, withFour_nib, hw, hk, Bool.not_true, Bool.false_eq_true, if_false]

/-- A string too short, or with a byte the table does not hold (R270). -/
theorem exec_fseCompress2_argRange {t : FseCT} (hk : s.ct[k] = some t)
    (h : s.a1 < 2 ∨ ∃ b ∈ s.window s.a0 s.a1, t.has b.toNat = false) :
    exec (.fseCompress2 (nib k)) s = raiseDst { code := .argRange, off := 0 } s.a2 s.a3 s := by
  have hcheck : (decide (s.a1 < 2) || (s.window s.a0 s.a1).any fun x => !t.has x.toNat) = true := by simpa using h
  simp only [exec_fseCompress2, execFseCompress2, withFour_nib, hw, hk, Bool.not_true,
    Bool.false_eq_true, if_false, hcheck, if_true]

theorem exec_fseCompress2_some {t : FseCT} (hk : s.ct[k] = some t) (h2 : 2 ≤ s.a1)
    (h : ∀ b ∈ s.window s.a0 s.a1, t.has b.toNat = true) :
    exec (.fseCompress2 (nib k)) s = .next ((s.writeOut s.a2 s.a3 (compress2 t (s.window s.a0 s.a1) s.a3)).setRes0
      (res64 (compress2 t (s.window s.a0 s.a1) s.a3).length)) := by
  have hcheck : (decide (s.a1 < 2) || (s.window s.a0 s.a1).any fun x => !t.has x.toNat) = false := by
    simpa [Nat.lt_of_succ_le h2] using h
  simp only [exec_fseCompress2, execFseCompress2, withFour_nib, hw, hk, Bool.not_true,
    Bool.false_eq_true, if_false, hcheck]

theorem exec_fseDecompress2_error {t : FseDT} {e : Err} (hk : s.dt[k] = some t)
    (h : decompress2 t (s.window s.a0 s.a1) s.a3 = .error e) :
    exec (.fseDecompress2 (nib k)) s = raiseDst e s.a2 s.a3 s := by
  simp only [exec_fseDecompress2, execFseDecompress2, withFour_nib, hw, hk, Bool.not_true,
    Bool.false_eq_true, if_false, h]

theorem exec_fseDecompress2_ok {t : FseDT} {out : List Byte} (hk : s.dt[k] = some t)
    (h : decompress2 t (s.window s.a0 s.a1) s.a3 = .ok out) :
    exec (.fseDecompress2 (nib k)) s = .next ((s.writeOut s.a2 s.a3 out).setRes0 (res64 out.length)) := by
  simp only [exec_fseDecompress2, execFseDecompress2, withFour_nib, hw, hk, Bool.not_true,
    Bool.false_eq_true, if_false, h]

end Fse

/-- Settles O36: one outcome for each case of the checks, in their order. -/
theorem twoStateCommands : Obligations.TwoStateCommands := by
  unfold Obligations.TwoStateCommands
  intro s k bad src
  refine ⟨fun hbad => ?_, fun hgood hk => ?_, fun hgood hk => ?_, fun hgood T hk => ?_, fun hgood T hk => ?_⟩
  · obtain ⟨hcompress, hdecompress⟩ := fseWindows_bad (k := k) ((windowPairOk_eq_false _ _ _ _).2 hbad)
    exact ⟨raises_of_raise hcompress, raises_of_raise hdecompress⟩
  · exact raisesDst_of_raiseDst (exec_fseCompress2_none (windowPairOk_of_not hgood) hk)
  · exact raisesDst_of_raiseDst (exec_fseDecompress2_none (windowPairOk_of_not hgood) hk)
  · have hw := windowPairOk_of_not hgood
    have hfits := compress2_length_le T src s.a3
    exact ⟨fun h => raisesDst_of_raiseDst (exec_fseCompress2_argRange hw hk h),
      fun h2 h => ⟨hfits, delivers_size (exec_fseCompress2_some hw hk h2 h) hfits⟩⟩
  · have hw := windowPairOk_of_not hgood
    refine ⟨fun e h => raisesDst_of_raiseDst (exec_fseDecompress2_error hw hk h), fun out h => ?_⟩
    obtain ⟨htwo, hfits⟩ := decompress2_length h
    exact ⟨htwo, hfits, delivers_size (exec_fseDecompress2_ok hw hk h) hfits⟩

/-! ### HUF_ENC1 and HUF_ENC4 -/

section HufEncode

/-! The steps the two share, for an instruction that runs them with the encoder `enc`. -/

variable {i : Instr} {enc : HufTable → List Byte → Nat → List Byte} {s : State} {e : Fin 2}
  (hi : exec i s = hufEncode enc (nib e) s)

include hi

theorem hufEncode_badWindows (h : windowPairOk s.a0 s.a1 s.a2 s.a3 = false) : Raises i s .argRange 0 :=
  raises_of_raise (by simp [hi, hufEncode, h])

variable (hw : windowPairOk s.a0 s.a1 s.a2 s.a3 = true)

include hw

theorem hufEncode_tooLong (h : 131072 < s.a1) : RaisesDst i s s .argRange 0 s.a2 s.a3 :=
  raisesDst_of_raiseDst (e := { code := .argRange, off := 0 }) (by simp [hi, hufEncode, hw, h])

variable (hlen : s.a1 ≤ 131072)

include hlen

theorem hufEncode_noTable (h : s.ht[e] = none) : RaisesDst i s s .stateInvalid 0 s.a2 s.a3 :=
  raisesDst_of_raiseDst (e := { code := .stateInvalid, off := 0 }) (by
    simp only [hi, hufEncode, withTwo_nib, hw, not_lt.2 hlen, h, Bool.not_true, Bool.false_eq_true, if_false])

/-- A source byte without a code (R350, log entry 28). -/
theorem hufEncode_noCode {t : HufTable} (ht : s.ht[e] = some t)
    (h : ∃ b ∈ s.window s.a0 s.a1, t.lenOf b.toNat = 0) : RaisesDst i s s .argRange 0 s.a2 s.a3 := by
  have hcheck : ((s.window s.a0 s.a1).any fun x => t.lenOf x.toNat == 0) = true := by simpa using h
  exact raisesDst_of_raiseDst (e := { code := .argRange, off := 0 }) (by
    simp only [hi, hufEncode, withTwo_nib, hw, not_lt.2 hlen, ht, hcheck, Bool.not_true, Bool.false_eq_true,
      if_false, if_true])

theorem hufEncode_delivers {t : HufTable} (ht : s.ht[e] = some t)
    (h : ∀ b ∈ s.window s.a0 s.a1, t.lenOf b.toNat ≠ 0)
    (hfits : (enc t (s.window s.a0 s.a1) s.a3).length ≤ s.a3) :
    Delivers i s { s with res := s.res.set 0 (res64 (enc t (s.window s.a0 s.a1) s.a3).length) } s.a2 s.a3
      (enc t (s.window s.a0 s.a1) s.a3) := by
  have hcheck : ((s.window s.a0 s.a1).any fun x => t.lenOf x.toNat == 0) = false := by simpa using h
  refine delivers_size ?_ hfits
  simp only [hi, hufEncode, withTwo_nib, hw, not_lt.2 hlen, ht, hcheck, Bool.not_true, Bool.false_eq_true, if_false]

end HufEncode

/-! ### HUF_DEC1 and HUF_DEC4 -/

section HufDecode

/-! The steps the two share, for an instruction that runs them with the decoder `dec`. -/

variable {i : Instr} {dec : HufDec → List Byte → Nat → Except Err (List Byte)} {s : State}
  (hi : exec i s = hufDecode dec s)

include hi

theorem hufDecode_badWindows (h : windowPairOk s.a0 s.a1 s.a2 s.a3 = false) : Raises i s .argRange 0 :=
  raises_of_raise (by simp [hi, hufDecode, h])

variable (hw : windowPairOk s.a0 s.a1 s.a2 s.a3 = true)

include hw

theorem hufDecode_tooLong (h : 131072 < s.a3) : RaisesDst i s s .argRange 0 s.a2 s.a3 :=
  raisesDst_of_raiseDst (e := { code := .argRange, off := 0 }) (by simp [hi, hufDecode, hw, h])

variable (hlen : s.a3 ≤ 131072)

include hlen

theorem hufDecode_noTable (h : s.hd = none) : RaisesDst i s s .stateInvalid 0 s.a2 s.a3 :=
  raisesDst_of_raiseDst (e := { code := .stateInvalid, off := 0 }) (by simp [hi, hufDecode, hw, not_lt.2 hlen, h])

theorem hufDecode_error {t : HufDec} {x : Err} (ht : s.hd = some t)
    (h : dec t (s.window s.a0 s.a1) s.a3 = .error x) : RaisesDst i s s x.code x.off s.a2 s.a3 :=
  raisesDst_of_raiseDst (by simp [hi, hufDecode, hw, not_lt.2 hlen, ht, h])

theorem hufDecode_delivers {t : HufDec} {out : List Byte} (ht : s.hd = some t)
    (h : dec t (s.window s.a0 s.a1) s.a3 = .ok out) (hout : out.length = s.a3) : Delivers i s s s.a2 s.a3 out :=
  delivers_of_writeBytes (by simp [hi, hufDecode, hw, not_lt.2 hlen, ht, h]) hout

end HufDecode

/-- Settles O43: each pair of commands by the steps it shares. -/
theorem huffmanStreamCommands : Obligations.HuffmanStreamCommands := by
  unfold Obligations.HuffmanStreamCommands
  intro s e bad src
  have h1 : exec (.hufEnc1 (nib e)) s = hufEncode enc1 (nib e) s := rfl
  have h4 : exec (.hufEnc4 (nib e)) s = hufEncode enc4 (nib e) s := rfl
  have d1 : exec .hufDec1 s = hufDecode dec1 s := rfl
  have d4 : exec .hufDec4 s = hufDecode dec4 s := rfl
  refine ⟨fun hbad => ?_, fun hgood => ?_, fun hgood => ?_, fun hgood => ?_, fun hgood => ?_, fun hgood => ?_,
    fun hgood => ?_⟩
  · have hw := (windowPairOk_eq_false _ _ _ _).2 hbad
    exact ⟨hufEncode_badWindows h1 hw, hufEncode_badWindows h4 hw, hufDecode_badWindows d1 hw,
      hufDecode_badWindows d4 hw⟩
  all_goals have hw := windowPairOk_of_not hgood
  · exact fun hlong => ⟨hufEncode_tooLong h1 hw hlong, hufEncode_tooLong h4 hw hlong⟩
  · exact fun hlen ht => ⟨hufEncode_noTable h1 hw hlen ht, hufEncode_noTable h4 hw hlen ht⟩
  · intro hlen T ht
    have hfits1 := enc1_length_le T src s.a3
    have hfits4 := enc4_length_le T src s.a3
    exact ⟨fun h => ⟨hufEncode_noCode h1 hw hlen ht h, hufEncode_noCode h4 hw hlen ht h⟩,
      fun h => ⟨hfits1, hfits4, hufEncode_delivers h1 hw hlen ht h hfits1, hufEncode_delivers h4 hw hlen ht h hfits4⟩⟩
  · exact fun hlong => ⟨hufDecode_tooLong d1 hw hlong, hufDecode_tooLong d4 hw hlong⟩
  · exact fun hlen ht => ⟨hufDecode_noTable d1 hw hlen ht, hufDecode_noTable d4 hw hlen ht⟩
  · exact fun hlen T ht => ⟨fun x h => hufDecode_error d1 hw hlen ht h, fun x h => hufDecode_error d4 hw hlen ht h,
      fun out h => ⟨dec1_length h, hufDecode_delivers d1 hw hlen ht h (dec1_length h)⟩,
      fun out h => ⟨dec4_length h, hufDecode_delivers d4 hw hlen ht h (dec4_length h)⟩⟩

end Sys2Proof.Machine
end

section
/-! The command word (R110 to R117): a word is its five fields, and a row of the opcode map makes the instruction of
every word that sets no field the row does not use. -/

namespace Sys2Proof

/-! ### Command words and their fields -/

theorem commandWord_fields {w : BitVec 32} (h : fieldReserved w = 0) :
    commandWord (fieldOpc w) (fieldSlot w) (fieldSel w) (fieldFlags w) = w := by
  rw [commandWord, ← h]
  simp only [fieldReserved, fieldOpc, fieldSlot, fieldSel, fieldFlags,
    BitVec.extractLsb'_append_extractLsb'_eq_extractLsb', BitVec.extractLsb'_eq_self]

/-- Only bit 0 of `FLAGS` can be a flag, where a row defines one (R111). -/
theorem flag_as_bit {b : Bool} {flags : BitVec 8} (h : flags &&& ~~~ (if b then 1 else 0) = 0) :
    (if b && (flags != 0) then 1 else 0) = flags := by
  revert b flags
  decide

/-- The word of the instruction a row makes holds the fields the row uses, and no others (R116). -/
theorem encode_make {opc : Nat} {r : CommandRow} (h : commandRow opc = some r) (slot sel : BitVec 4) (u : Bool) :
    encode (r.make slot sel u) = commandWord (BitVec.ofNat 8 opc) (if r.usesSlot then slot else 0)
      (if r.selMax.isNone then 0 else sel) (if r.usesFlag && u then 1 else 0) := by
  unfold commandRow at h
  split at h <;> cases h <;> rfl

/-- A word that passes step (5) of R110 is the word of the instruction its row makes. -/
theorem encode_make_fields {w : BitVec 32} {r : CommandRow} (h0 : fieldReserved w = 0)
    (hr : commandRow (fieldOpc w).toNat = some r) (hu : r.unusedNonzero w = false) :
    encode (r.make (fieldSlot w) (fieldSel w) (fieldFlags w != 0)) = w := by
  simp only [CommandRow.unusedNonzero, Bool.or_eq_false_iff, bne_eq_false_iff_eq, Bool.and_eq_false_imp,
    Bool.not_eq_true'] at hu
  obtain ⟨⟨hslot, hsel⟩, hflags⟩ := hu
  have hs : (if r.usesSlot then fieldSlot w else 0) = fieldSlot w := by
    split
    · rfl
    · exact (hslot (Bool.eq_false_iff.2 ‹_›)).symm
  have he : (if r.selMax.isNone then 0 else fieldSel w) = fieldSel w := by
    split
    · exact (hsel ‹_›).symm
    · rfl
  rw [encode_make hr, hs, he, flag_as_bit hflags, BitVec.ofNat_toNat, BitVec.setWidth_eq, commandWord_fields h0]

/-! ### Decoding: the steps of R110, and the word of an instruction -/

theorem decode_of_reserved {w : BitVec 32} (h : fieldReserved w ≠ 0) : decode w = .error .reservedBits := by
  rw [decode, if_pos (by simpa using h)]

theorem decode_of_noRow {w : BitVec 32} (h0 : fieldReserved w = 0) (hr : commandRow (fieldOpc w).toNat = none) :
    decode w = .error .illegalOpcode := by
  simp [decode, h0, hr]

theorem decode_of_row {w : BitVec 32} {r : CommandRow} (h0 : fieldReserved w = 0)
    (hr : commandRow (fieldOpc w).toNat = some r) :
    decode w = if r.unusedNonzero w then .error .reservedBits
      else if r.outOfRange w then .error .argRange
      else .ok (r.make (fieldSlot w) (fieldSel w) (fieldFlags w != 0)) := by
  simp [decode, h0, hr]

open Laws in
/-- What its word decodes to, for every instruction. -/
theorem encodingRow (i : Instr) : EncodingRow.Statement i := by
  cases i with
  | nop => exact EncodingRow.nop
  | reset => exact EncodingRow.reset
  | clrerr => exact EncodingRow.clrerr
  | bwInit => exact EncodingRow.bwInit
  | bwAdd => exact EncodingRow.bwAdd
  | bwFlush => exact EncodingRow.bwFlush
  | bwClose => exact EncodingRow.bwClose
  | brInit => exact EncodingRow.brInit
  | brPeek => exact EncodingRow.brPeek
  | brRead => exact EncodingRow.brRead
  | brLoad => exact EncodingRow.brLoad
  | hist => exact EncodingRow.hist
  | fseOptlog => exact EncodingRow.fseOptlog
  | fseNorm => exact EncodingRow.fseNorm
  | fseWrnc => exact EncodingRow.fseWrnc
  | fseRdnc => exact EncodingRow.fseRdnc
  | fseLddef sel => exact EncodingRow.fseLddef sel
  | fseBuildCt slot => exact EncodingRow.fseBuildCt slot
  | fseRleCt slot => exact EncodingRow.fseRleCt slot
  | fseBuildDt slot => exact EncodingRow.fseBuildDt slot
  | fseRleDt slot => exact EncodingRow.fseRleDt slot
  | fseSetcount => exact EncodingRow.fseSetcount
  | fseSetnorm => exact EncodingRow.fseSetnorm
  | fseGetnorm => exact EncodingRow.fseGetnorm
  | fseGetcount => exact EncodingRow.fseGetcount
  | fseGetdt slot => exact EncodingRow.fseGetdt slot
  | fseGetct slot => exact EncodingRow.fseGetct slot
  | fseEncBegin slot sel => exact EncodingRow.fseEncBegin slot sel
  | fseEnc slot sel => exact EncodingRow.fseEnc slot sel
  | fseEncFinish slot sel => exact EncodingRow.fseEncFinish slot sel
  | fseDecInit slot sel => exact EncodingRow.fseDecInit slot sel
  | fseDec slot sel u => exact EncodingRow.fseDec slot sel u
  | fseCompress2 slot => exact EncodingRow.fseCompress2 slot
  | fseDecompress2 slot => exact EncodingRow.fseDecompress2 slot
  | fseGetstate sel => exact EncodingRow.fseGetstate sel
  | hufOptlog => exact EncodingRow.hufOptlog
  | hufBuild => exact EncodingRow.hufBuild
  | hufWrite sel => exact EncodingRow.hufWrite sel
  | hufRead => exact EncodingRow.hufRead
  | hufEnc1 sel => exact EncodingRow.hufEnc1 sel
  | hufEnc4 sel => exact EncodingRow.hufEnc4 sel
  | hufDec1 => exact EncodingRow.hufDec1
  | hufDec4 => exact EncodingRow.hufDec4
  | hufEst sel => exact EncodingRow.hufEst sel
  | hufCommit => exact EncodingRow.hufCommit
  | hufDiscard => exact EncodingRow.hufDiscard
  | hufGetcode sel => exact EncodingRow.hufGetcode sel
  | hufGetdt => exact EncodingRow.hufGetdt
  | litEncode => exact EncodingRow.litEncode
  | litDecode => exact EncodingRow.litDecode
  | litGet => exact EncodingRow.litGet
  | mfReset => exact EncodingRow.mfReset
  | mfWindow => exact EncodingRow.mfWindow
  | mfBlock => exact EncodingRow.mfBlock
  | ssReset => exact EncodingRow.ssReset
  | ssStore => exact EncodingRow.ssStore
  | ssAppend => exact EncodingRow.ssAppend
  | ssCodes => exact EncodingRow.ssCodes
  | repInit => exact EncodingRow.repInit
  | repCommit => exact EncodingRow.repCommit
  | ssGet => exact EncodingRow.ssGet
  | repGet => exact EncodingRow.repGet
  | ssInfo => exact EncodingRow.ssInfo
  | mfGet sel => exact EncodingRow.mfGet sel
  | ssGetlit => exact EncodingRow.ssGetlit
  | seqEncode => exact EncodingRow.seqEncode
  | seqDecode => exact EncodingRow.seqDecode
  | drepInit => exact EncodingRow.drepInit
  | sqGet => exact EncodingRow.sqGet
  | drepGet => exact EncodingRow.drepGet
  | replay => exact EncodingRow.replay

theorem decode_encode (i : Instr) : decode (encode i) = if i.wf then .ok i else .error .argRange :=
  (encodingRow i).2.1

/-- A word that decodes is the word of what it decodes to. -/
theorem encode_of_decode {w : BitVec 32} {i : Instr} (h : decode w = .ok i) : encode i = w := by
  have h0 : fieldReserved w = 0 := by
    by_contra h0
    simp [decode_of_reserved h0] at h
  cases hr : commandRow (fieldOpc w).toNat with
  | none => simp [decode_of_noRow h0 hr] at h
  | some r =>
    rw [decode_of_row h0 hr] at h
    split at h
    · cases h
    · split at h
      · cases h
      · cases h
        exact encode_make_fields h0 hr (Bool.eq_false_iff.2 ‹_›)

/-- Settles O1: what decodes is an instruction's word, and each instruction's word decodes as its row says. -/
theorem decodeIffEncode : Obligations.DecodeIffEncode := by
  unfold Obligations.DecodeIffEncode
  refine fun w i => ⟨fun h => ?_, ?_⟩
  · obtain rfl := encode_of_decode h
    refine ⟨by_contra fun hwf => ?_, rfl⟩
    simp [decode_encode, hwf] at h
  · rintro ⟨hwf, rfl⟩
    simp [decode_encode, hwf]

/-! ### Rejected words -/

/-- The opcodes of the map are those of instructions (R116). -/
theorem commandRow_eq_none {w : BitVec 32} (h : ∀ i, fieldOpc (encode i) ≠ fieldOpc w) :
    commandRow (fieldOpc w).toNat = none := by
  by_contra hr
  obtain ⟨r, hr⟩ := Option.ne_none_iff_exists'.1 hr
  exact h (r.make 0 0 false) (BitVec.eq_of_toNat_eq (Machine.opcode_of_commandRow hr 0 0 false))

theorem exists_commandRow (i : Instr) : ∃ r, commandRow (fieldOpc (encode i)).toNat = some r := by
  refine Option.ne_none_iff_exists'.1 fun hr => ?_
  have h := decode_of_noRow (encodingRow i).1 hr
  rw [decode_encode] at h
  split at h <;> cases h

/-- Settles O2: each clause is one step of R110, and a word that passes step (5) is an instruction's. -/
theorem rejectionOrder : Obligations.RejectionOrder := by
  unfold Obligations.RejectionOrder
  refine fun w => ⟨decode_of_reserved, fun h0 hopc => decode_of_noRow h0 (commandRow_eq_none hopc), ?_, ?_⟩
  · rintro h0 ⟨i, hi⟩ hw
    obtain ⟨r, hr⟩ := exists_commandRow i
    rw [show fieldOpc (encode i) = fieldOpc w from hi] at hr
    have hu : r.unusedNonzero w = true := by
      by_contra hu
      exact hw _ (encode_make_fields h0 hr (Bool.eq_false_iff.2 hu))
    rw [decode_of_row h0 hr, if_pos hu]
  · rintro i rfl hwf
    simp [decode_encode, hwf]

/-- Settles O3: closed words. -/
theorem specWordsDecode : Obligations.SpecWordsDecode := by
  unfold Obligations.SpecWordsDecode
  decide

end Sys2Proof
end

section
/-! What a write of a command word does while an error is pending, and where the word is rejected (R110 to R112, R551,
R555, R592). -/

namespace Sys2Proof.Machine

/-- The step that writes a command word issues it. -/
theorem step_command {s : State} {w : BitVec 32} {rest : List HostAction} (h : s.host = .command w :: rest) :
    step s = issue w { s with host := rest, cmd := w } := by
  simp only [step, h, hostAct]

theorem issue_of_pending {w : BitVec 32} {s : State} (hs : s.errKind ≠ 0) (hw : alwaysDecoded w = false) :
    issue w s = .next s := by
  rw [issue, if_pos ⟨hs, hw⟩]

/-- A rejected word that is not ignored raises its decode step's error (R110). -/
theorem issue_of_rejected {w : BitVec 32} {e : DecodeError} {s : State} (h : decode w = .error e)
    (hs : s.errKind = 0 ∨ alwaysDecoded w = true) : issue w s = raise (errorOfDecode e) s := by
  have hpass : ¬ (s.errKind ≠ 0 ∧ alwaysDecoded w = false) := by
    rintro ⟨hkind, hw⟩
    simp [hs.resolve_left hkind] at hw
  rw [issue, if_neg hpass, h]

theorem alwaysDecoded_iff (w : BitVec 32) :
    alwaysDecoded w = true ↔ w.extractLsb' 0 8 = 0x01 ∨ w.extractLsb' 0 8 = 0x02 := by
  simp [alwaysDecoded, fieldOpc]

/-- Settles O5: an ignored word leaves the state of its issue, and the two others run their command. -/
theorem stickyErrors : Obligations.StickyErrors := by
  unfold Obligations.StickyErrors
  intro s w rest hhost
  rw [step_command hhost]
  refine ⟨fun hs h1 h2 => ⟨w, issue_of_pending hs ?_⟩, ?_, ?_⟩
  · rw [← Bool.not_eq_true, alwaysDecoded_iff]
    exact not_or.2 ⟨h1, h2⟩
  · rintro rfl
    exact ⟨_, issue_of_decode (i := .clrerr) ((decodeIffEncode _ _).2 ⟨rfl, by decide⟩) (.inr (.inr rfl))⟩
  · rintro rfl
    exact ⟨_, issue_of_decode (i := .reset) ((decodeIffEncode _ _).2 ⟨rfl, by decide⟩) (.inr (.inl rfl)), rfl, rfl, rfl⟩

/-- Settles O6: the error a rejected word raises is the one of its decode step. -/
theorem rejectedWordRaises : Obligations.RejectedWordRaises := by
  unfold Obligations.RejectedWordRaises
  intro s w rest e hhost hdec hs
  have hissue := issue_of_rejected (s := { s with host := rest, cmd := w }) hdec
    (hs.imp_right (alwaysDecoded_iff w).2)
  rw [step_command hhost, hissue]
  cases e <;> exact ⟨_, _, _, rfl⟩

end Sys2Proof.Machine
end

section
/-! Header fields and plain literals sections read back (R121, R124, R127, R322, R330, R370, R380, R466). -/

namespace Sys2Proof.Machine

/-! ### The sequence count (R127, R466) -/

theorem nbSeqBytes_length_le (n : Nat) : (nbSeqBytes n).length ≤ 3 := by
  unfold nbSeqBytes
  split
  · simp
  · split <;> simp

theorem readNbSeq_nbSeqBytes {n : Nat} (hn : n ≤ 43690) (rest : List Byte) :
    readNbSeq (nbSeqBytes n ++ rest) = .ok (n, (nbSeqBytes n).length) := by
  unfold nbSeqBytes
  split
  · next h =>
    have hd : n % 256 = n := by omega
    simp [readNbSeq, hd, show n < 128 by omega]
  · next h1 =>
    split
    · next h2 =>
      have hd : (n >>> 8 + 128) % 256 = n / 256 + 128 := by rw [Nat.shiftRight_eq_div_pow]; omega
      simp [readNbSeq, hd, show n / 256 + 128 < 255 by omega, Nat.div_add_mod']
    · next h2 =>
      have hd : (n - 32512) % 256 + (n - 32512) / 256 % 256 * 256 + 32512 = n := by omega
      simp [readNbSeq, Nat.shiftRight_eq_div_pow, hd]

/-! ### The raw form of Huffman weights (R124, R322, R330) -/

theorem unpackNibbles_packNibbles {w : List Nat} (h : ∀ x ∈ w, x < 16) (rest : List Byte) :
    (unpackNibbles (packNibbles w ++ rest)).take w.length = w := by
  match w with
  | [] => rfl
  | [a] =>
    have ha : a < 16 := h a (by simp)
    simp [packNibbles, unpackNibbles, show a * 16 % 256 / 16 = a by omega]
  | a :: b :: w =>
    have ha : a < 16 := h a (by simp)
    have hb : b < 16 := h b (by simp)
    have ih := unpackNibbles_packNibbles (w := w) (fun x hx => h x (by simp [hx])) rest
    simp [packNibbles, unpackNibbles, ih, show (a * 16 + b) % 256 / 16 = a by omega, Nat.mod_eq_of_lt hb]

theorem readWeights_writeRawWeights {w : List Nat} {cap : Nat} {out : List Byte} (h1 : 1 ≤ w.length)
    (hw : ∀ x ∈ w, x < 16) (h : writeRawWeights w.length w cap = .ok out) (rest : List Byte) :
    readWeights (out ++ rest) = .ok (w, out.length) := by
  unfold writeRawWeights at h
  split at h
  · cases h
  split at h
  · cases h
  cases h
  have hb : (BitVec.ofNat 8 (127 + w.length)).toNat = 127 + w.length := by
    rw [BitVec.toNat_ofNat]
    omega
  simp only [readWeights, List.cons_append, hb, List.length_cons, List.length_append, packNibbles_length,
    Nat.add_sub_cancel_left, unpackNibbles_packNibbles hw]
  rw [if_pos (by omega), if_neg (by omega), Nat.add_comm]

/-- Settles O56: the count by the three sizes of its field, the raw form two weights to a byte. -/
theorem headerFieldsReadBack : Obligations.HeaderFieldsReadBack := by
  unfold Obligations.HeaderFieldsReadBack
  refine ⟨fun n rest hn => ⟨readNbSeq_nbSeqBytes hn rest, nbSeqBytes_length_le n⟩, fun w cap out rest h1 hw h => ?_⟩
  exact ⟨writeRawWeights_length_le rfl h, readWeights_writeRawWeights h1 hw h rest⟩

/-! ### Raw and RLE literals sections (R121, R370, R380) -/

/-- What R380 reads from a plain header, as the number `v` of its `hs` bytes: the type `t`, the size format that gives
`hs`, and the number `n` of literals. -/
structure PlainHeaderFields (t n hs v : Nat) : Prop where
  fits : v < 256 ^ hs
  kind : v % 4 = t
  hs_eq : hs = if v / 4 % 4 = 1 then 2 else if v / 4 % 4 = 3 then 3 else 1
  size : (if hs = 1 then v >>> 3 else v >>> 4) = n

/-- Each form of the header R370 chooses tells its fields. -/
theorem plainHeader_fields {t n : Nat} (ht : t < 2) (hn : n ≤ 131072) :
    ∃ hs v, plainHeader t n = leBytes hs v ∧ PlainHeaderFields t n hs v := by
  simp only [plainHeader]
  split
  · refine ⟨1, _, rfl, by omega, by omega, ?_, ?_⟩
    · rw [if_neg (by omega), if_neg (by omega)]
    · rw [if_pos rfl, Nat.shiftRight_eq_div_pow]
      omega
  · split
    · refine ⟨2, _, rfl, by omega, by omega, ?_, ?_⟩
      · rw [if_pos (by omega)]
      · rw [if_neg (by omega), Nat.shiftRight_eq_div_pow]
        omega
    · refine ⟨3, _, rfl, by omega, by omega, ?_, ?_⟩
      · rw [if_neg (by omega), if_pos (by omega)]
      · rw [if_neg (by omega), Nat.shiftRight_eq_div_pow]
        omega

theorem PlainHeaderFields.hs_pos {t n hs v : Nat} (h : PlainHeaderFields t n hs v) : 1 ≤ hs := by
  rw [h.hs_eq]
  split
  · omega
  · split <;> omega

section Plain

variable {t n hs v : Nat} (h : PlainHeaderFields t n hs v)

include h

theorem decodeLiterals_plain (ht : t < 2) (hd : Option HufDec) (body : List Byte) :
    decodeLiterals hd (leBytes hs v ++ body) = (hd, decodePlain (leBytes hs v ++ body) t (v / 4 % 4)) := by
  obtain ⟨k, rfl⟩ := Nat.exists_eq_succ_of_ne_zero (Nat.one_le_iff_ne_zero.1 h.hs_pos)
  have hkind : v % 256 % 4 = t := by
    have := h.kind
    omega
  have hsf : v % 256 / 4 % 4 = v / 4 % 4 := by omega
  simp only [leBytes, List.cons_append, decodeLiterals, BitVec.toNat_ofNat, Nat.reducePow, hkind, hsf, if_pos ht]

/-- The header's own length and the number it holds, as R380 reads them. -/
theorem plainHeader_read (body : List Byte) :
    (if v / 4 % 4 = 1 then 2 else if v / 4 % 4 = 3 then 3 else 1) = hs
      ∧ leValue ((leBytes hs v ++ body).take hs) = v := by
  refine ⟨h.hs_eq.symm, ?_⟩
  rw [List.take_left' (leBytes_length hs v), leValue_leBytes, Nat.mod_eq_of_lt h.fits]

end Plain

/-- A Raw section's literals. -/
theorem decodePlain_raw {n hs v : Nat} (h : PlainHeaderFields 0 n hs v) {lits : List Byte} (hl : lits.length = n)
    (hn : n ≤ 131072) (rest : List Byte) : decodePlain (leBytes hs v ++ (lits ++ rest)) 0 (v / 4 % 4)
      = .ok { lits := lits, used := hs + n, kind := 0 } := by
  obtain ⟨hhs, hv⟩ := plainHeader_read h (lits ++ rest)
  simp only [decodePlain, hhs, hv, h.size, List.length_append, leBytes_length, if_true,
    List.drop_left' (leBytes_length hs v), List.take_left' hl]
  rw [if_neg (by omega), if_neg (by simp only [Config.blockMax]; omega), if_neg (by omega)]

/-- An RLE section's literals. -/
theorem decodePlain_rle {n hs v : Nat} (h : PlainHeaderFields 1 n hs v) (hn : n ≤ 131072) (b : Byte)
    (rest : List Byte) : decodePlain (leBytes hs v ++ b :: rest) 1 (v / 4 % 4)
      = .ok { lits := List.replicate n b, used := hs + 1, kind := 1 } := by
  obtain ⟨hhs, hv⟩ := plainHeader_read h (b :: rest)
  have hb : (leBytes hs v ++ b :: rest).getD hs 0 = b := by
    simp
  simp only [decodePlain, hhs, hv, h.size, List.length_append, leBytes_length, List.length_cons, hb]
  rw [if_neg (by omega), if_neg (by simp only [Config.blockMax]; omega), if_neg (by omega), if_neg (by omega)]

/-- A LIT_DECODE that succeeds (R380). -/
theorem exec_litDecode_ok {s : State} {hd : Option HufDec} {d : LitDecoded} (hw : windowOk s.a0 s.a1 = true)
    (h : decodeLiterals s.hd (s.window s.a0 s.a1) = (hd, .ok d)) :
    exec .litDecode s = .next { s with
      dlit := d.lits
      hd := hd
      res := ((s.res.set 0 (res64 d.used)).set 1 (res64 d.lits.length)).set 2 (res64 d.kind) } := by
  simp only [exec, execLitDecode, hw, h, Bool.not_true, Bool.false_eq_true, if_false]
  rfl

/-- Settles O46: the header is read back, and the window holds the literals, or the byte, it announces. -/
theorem plainLiteralsRoundTrip : Obligations.PlainLiteralsRoundTrip := by
  unfold Obligations.PlainLiteralsRoundTrip
  intro s rest h1 h0
  have hw : windowOk s.a0 s.a1 = true := (windowOk_iff _ _).2 ⟨h1, h0⟩
  refine ⟨fun lits hl hwin => ?_, fun n b hn hwin => ?_⟩
  · obtain ⟨hs, v, heq, h⟩ := plainHeader_fields (t := 0) (by omega) hl
    rw [heq, List.append_assoc] at hwin
    rw [exec_litDecode_ok hw (by rw [hwin, decodeLiterals_plain h (by omega), decodePlain_raw h rfl hl]), heq,
      leBytes_length]
    rfl
  · obtain ⟨hs, v, heq, h⟩ := plainHeader_fields (t := 1) (by omega) hn
    rw [heq, List.append_assoc] at hwin
    rw [exec_litDecode_ok hw (by rw [hwin, decodeLiterals_plain h (by omega), List.singleton_append,
      decodePlain_rle h hn]), heq, leBytes_length, List.length_replicate]
    rfl

end Sys2Proof.Machine
end

section
/-! SEQ_ENCODE and SEQ_DECODE (R465, R475): the errors of reading a section, and the two commands. -/

namespace Sys2Proof.Machine

/-! ### Errors of kind MalformedInput (R550, R560) -/

/-- Every error the reading can end with is of kind MalformedInput. -/
def Malformed {α : Type} (x : Except Err α) : Prop := ∀ e, x = .error e → e.code.kind = 1

section Rules

variable {α : Type} {e : Err} {x : Except Err α}

theorem Malformed.ok {a : α} : Malformed (.ok a : Except Err α) := nofun

theorem Malformed.error (h : e.code.kind = 1) : Malformed (.error e : Except Err α) := by
  rintro _ ⟨⟩
  exact h

/-- A check before the rest of a reading. -/
theorem Malformed.check {c : Prop} [Decidable c] (he : e.code.kind = 1) (h : ¬ c → Malformed x) :
    Malformed (if c then .error e else x) := by
  split
  · exact .error he
  · exact h ‹_›

theorem Malformed.shift {base : Nat} (h : Malformed x) : Malformed (shiftErr base x) := by
  cases x with
  | ok a => exact .ok
  | error e => exact .error (h e rfl)

end Rules

/-! ### Table descriptions (R223) -/

theorem ncConsume_malformed (len bits k : Nat) : Malformed (ncConsume len bits k) :=
  .check rfl fun _ => .ok

theorem ncRepeat_malformed (v len fuel bits n0 : Nat) : Malformed (ncRepeat v len fuel bits n0) := by
  induction fuel generalizing bits n0 with
  | zero => exact .ok
  | succ fuel ih =>
    rw [ncRepeat]
    split
    · split
      · next he => exact .error (ncConsume_malformed _ _ _ _ he)
      · exact ih _ _
    · exact .ok

theorem ncZeros_malformed (v len maxSym bits s : Nat) : Malformed (ncZeros v len maxSym bits s) := by
  rw [ncZeros]
  split
  · next he => exact .error (ncRepeat_malformed _ _ _ _ _ _ he)
  · dsimp only
    split
    · next he => exact .error (ncConsume_malformed _ _ _ _ he)
    · exact .check rfl fun _ => .ok

theorem ncCount_malformed (v len bits threshold nb : Nat) (remaining : Int) :
    Malformed (ncCount v len bits threshold nb remaining) := by
  simp only [ncCount]
  split <;> split
  · next he => exact .error (ncConsume_malformed _ _ _ _ he)
  · exact .ok
  · next he => exact .error (ncConsume_malformed _ _ _ _ he)
  · exact .ok

theorem ncLoop_malformed (v len maxSym fuel bits : Nat) (remaining : Int) (threshold nb : Nat) (prev0 : Bool)
    (norm : List Int) : Malformed (ncLoop v len maxSym fuel bits remaining threshold nb prev0 norm) := by
  induction fuel generalizing bits remaining threshold nb prev0 norm with
  | zero => exact .ok
  | succ fuel ih =>
    have hzeros : Malformed (if prev0 then ncZeros v len maxSym bits norm.length else .ok (bits, norm.length)) := by
      split
      · exact ncZeros_malformed _ _ _ _ _
      · exact .ok
    rw [ncLoop]
    split
    · exact .ok
    · split
      · next he => exact .error (hzeros _ he)
      · split
        · next he => exact .error (ncCount_malformed _ _ _ _ _ _ _ he)
        · exact ih _ _ _ _ _ _

theorem readNCount_malformed (bs : List Byte) (maxSym maxLog : Nat) : Malformed (readNCount bs maxSym maxLog) := by
  simp only [readNCount]
  split
  · next he => exact .error (ncConsume_malformed _ _ _ _ he)
  · refine .check rfl fun _ => ?_
    split
    · next he => exact .error (ncLoop_malformed _ _ _ _ _ _ _ _ _ _ _ he)
    · exact .check rfl fun _ => .ok

/-! ### A sequences section (R475) -/

theorem builtTable_malformed {α : Type} (t : Option α) : Malformed (builtTable t) := by
  cases t with
  | none => exact .error rfl
  | some _ => exact .ok

theorem readField_malformed (f m : Nat) (prev : Option FseDT) (bs : List Byte) (p : Nat) :
    Malformed (readField f m prev bs p) := by
  unfold readField
  split
  · split
    · next he => exact .error (builtTable_malformed _ _ he)
    · exact .ok
  · split
    · exact .error rfl
    · exact .check rfl fun _ => .ok
  · split
    · next he => exact .error ((readNCount_malformed _ _ _).shift _ he)
    · split
      · next he => exact .error (builtTable_malformed _ _ he)
      · exact .ok
  · split
    · exact .error rfl
    · exact .ok

theorem openStream_malformed (bs : List Byte) : Malformed (openStream bs) := by
  unfold openStream
  split
  · exact .error rfl
  · exact .check rfl fun _ => .ok

theorem decodeSeqStream_malformed (tLL tOF tML : FseDT) (rep : DecRep) (tag n : Nat) (bs : List Byte) (p : Nat) :
    Malformed (decodeSeqStream tLL tOF tML rep tag n bs p) := by
  refine .check rfl fun _ => ?_
  split
  · next he => exact .error ((openStream_malformed _).shift _ he)
  · dsimp only
    split
    · exact .ok
    · exact .error rfl

theorem decodeSeqTables_malformed (dt : Vector (Option FseDT) 4) (rep : DecRep) (tag n modes : Nat) (bs : List Byte)
    (p : Nat) : Malformed (decodeSeqTables dt rep tag n modes bs p) := by
  unfold decodeSeqTables
  split
  · next he => exact .error (readField_malformed _ _ _ _ _ _ he)
  · split
    · next he => exact .error (readField_malformed _ _ _ _ _ _ he)
    · split
      · next he => exact .error (readField_malformed _ _ _ _ _ _ he)
      · exact decodeSeqStream_malformed _ _ _ _ _ _ _ _

theorem readNbSeq_malformed (bs : List Byte) : Malformed (readNbSeq bs) := by
  simp only [readNbSeq]
  split
  · exact .ok
  · split <;> exact .check rfl fun _ => .ok

theorem decodeSequences_malformed (dt : Vector (Option FseDT) 4) (rep : DecRep) (tag : Nat) (bs : List Byte) :
    Malformed (decodeSequences dt rep tag bs) := by
  unfold decodeSequences
  split
  · exact .error rfl
  split
  · exact .check rfl fun _ => .ok
  split
  · next he => exact .error (readNbSeq_malformed _ _ he)
  refine .check rfl fun _ => .check rfl fun _ => ?_
  split
  · exact .error rfl
  refine .check rfl fun _ => ?_
  split
  · next he => exact .error (decodeSeqTables_malformed _ _ _ _ _ _ _ _ he)
  · exact .ok

/-- A stream decodes to the sequences it was asked for (R476). -/
theorem decodeSeqStream_length {tLL tOF tML : FseDT} {rep : DecRep} {tag n p : Nat} {bs : List Byte} {d : SeqDecoded}
    (h : decodeSeqStream tLL tOF tML rep tag n bs p = .ok d) : d.seqs.length = n := by
  simp only [decodeSeqStream] at h
  split at h
  · cases h
  split at h
  · cases h
  split at h
  · cases h
    exact decodeSeqLoop_length _ _ _ _ _ _ _
  · cases h

/-- A section with tables has sequences (R128). -/
theorem decodeSequences_pos {dt : Vector (Option FseDT) 4} {rep : DecRep} {tag : Nat} {bs : List Byte}
    {d : SeqDecoded} (h : decodeSequences dt rep tag bs = .ok (some d)) : 1 ≤ d.seqs.length := by
  unfold decodeSequences at h
  split at h
  · cases h
  split at h
  · split at h <;> cases h
  split at h
  · cases h
  split at h
  · cases h
  split at h
  · cases h
  split at h
  · cases h
  split at h
  · cases h
  split at h
  · cases h
  cases h
  obtain ⟨_, _, _, -, -, -, hstream⟩ := decodeSeqTables_eq_ok ‹_›
  rw [decodeSeqStream_length hstream]
  omega

/-- An empty section that is not the one byte 0: longer, or in the two-byte form (R128, D43, log entry 27). -/
theorem decodeSequences_zero_long (dt : Vector (Option FseDT) 4) (rep : DecRep) (tag : Nat) {rest : List Byte}
    (h : rest ≠ []) : decodeSequences dt rep tag (0 :: rest) = .error { code := .bitstreamNotConsumed, off := 1 } := by
  simp [decodeSequences, h]

theorem decodeSequences_zero_twoByte (dt : Vector (Option FseDT) 4) (rep : DecRep) (tag : Nat) (rest : List Byte) :
    decodeSequences dt rep tag (0x80 :: 0 :: rest) = .error { code := .bitstreamNotConsumed, off := 1 } := by
  have hcount : readNbSeq (0x80 :: 0 :: rest) = .ok (0, 2) := by simp [readNbSeq]
  rw [decodeSequences, hcount]
  rfl

/-! ### The two commands -/

section Commands

variable {s : State} (hw : windowOk s.a0 s.a1 = true)

include hw

theorem exec_seqEncode_error {e : Err} (h : encodeSequences s.params.selFactor s.ss.trueSeqs s.a1 = .error e) :
    exec .seqEncode s = raiseDst e s.a0 s.a1 s := by
  simp only [exec, execSeqEncode, hw, h, Bool.not_true, Bool.false_eq_true, if_false]

theorem exec_seqEncode_ok {out : List Byte} (h : encodeSequences s.params.selFactor s.ss.trueSeqs s.a1 = .ok out) :
    exec .seqEncode s = .next ((s.writeOut s.a0 s.a1 out).setRes0 (res64 out.length)) := by
  simp only [exec, execSeqEncode, hw, h, Bool.not_true, Bool.false_eq_true, if_false]

theorem seqDecode_raises {e : Err} (h : decodeSequences s.dt s.drep s.free (s.window s.a0 s.a1) = .error e) :
    RaisesFrom .seqDecode s s.dropSequences e.code e.off :=
  raisesFrom_of_raiseErr (by simp only [exec, execSeqDecode, hw, h, Bool.not_true, Bool.false_eq_true, if_false])

theorem exec_seqDecode_empty (h : s.window s.a0 s.a1 = [0]) :
    exec .seqDecode s = .next { s with sq := [], res := (s.res.set 0 1).set 1 0 } := by
  simp only [exec, execSeqDecode, hw, h, Bool.not_true, Bool.false_eq_true, if_false]
  rfl

theorem exec_seqDecode_some {d : SeqDecoded}
    (h : decodeSequences s.dt s.drep s.free (s.window s.a0 s.a1) = .ok (some d)) :
    exec .seqDecode s = .next { s with
      dt := #v[some d.tLL, some d.tOF, some d.tML, s.dt[3]], drep := d.rep, sq := d.seqs, free := s.free + 1
      res := (s.res.set 0 (res64 s.a1)).set 1 (res64 d.seqs.length) } := by
  simp only [exec, execSeqDecode, hw, h, Bool.not_true, Bool.false_eq_true, if_false]
  rfl

end Commands

/-- Settles O57: the window check, then each result of the bodies R465 and R475 describe. -/
theorem sequenceCommands : Obligations.SequenceCommands := by
  unfold Obligations.SequenceCommands
  intro s bad src u
  refine ⟨fun hbad => ?_, fun hgood => ?_⟩
  · have hw := windowOk_false_of hbad
    exact ⟨raises_of_raise (by simp [exec, execSeqEncode, hw]),
      raisesFrom_of_raise (u := s.dropSequences) (by simp [exec, execSeqDecode, hw])⟩
  have hw := windowOk_of_not hgood
  refine ⟨fun e h => raisesDst_of_raiseDst (exec_seqEncode_error hw h), fun out h => ?_, fun e h => ?_,
    exec_seqDecode_empty hw, fun rest h hrest => ?_, fun rest h => ?_, fun d h => ?_⟩
  · have hl := encodeSequences_length_le h
    exact ⟨hl, delivers_size (exec_seqEncode_ok hw h) hl⟩
  · exact ⟨decodeSequences_malformed _ _ _ _ e h, seqDecode_raises hw h⟩
  · exact seqDecode_raises hw ((congrArg _ h).trans (decodeSequences_zero_long _ _ _ hrest))
  · exact seqDecode_raises hw ((congrArg _ h).trans (decodeSequences_zero_twoByte _ _ _ rest))
  · exact ⟨decodeSequences_pos h, decodeSequences_length h, _, exec_seqDecode_some hw h⟩

end Sys2Proof.Machine
end

section
/-! The commands that load a distribution, set a count or a share, or make a one-symbol table (R225, R230, R238, R242,
R245, R246). -/

namespace Sys2Proof.Machine

/-! ### The predefined distributions (R230) -/

theorem exec_fseLddef (f : Fin 3) (s : State) :
    exec (.fseLddef (nib f)) s = .next (s.setNorm (defaultDist f).1 (defaultDist f).2) := by
  have hf : (nib f).toNat = f.val := by
    simp only [nib, BitVec.toNat_ofNat]
    omega
  simp only [exec, execFseLddef, hf]
  exact if_neg (by omega)

/-- Shares that fit their registers read back (R41). -/
theorem normRegisters_toInt {norm : List Int} (h : ∀ c ∈ norm, -2 ^ 15 ≤ c ∧ c < 2 ^ 15) (x : Fin 256) :
    (normRegisters norm)[x].toInt = norm.getD x.val 0 := by
  rw [normRegisters, tab256_get]
  have hx : -2 ^ 15 ≤ norm.getD x.val 0 ∧ norm.getD x.val 0 < 2 ^ 15 := by
    rw [List.getD_eq_getElem?_getD]
    cases hget : norm[x.val]? with
    | none => decide
    | some c => exact h c (List.mem_of_getElem? hget)
  exact BitVec.toInt_ofInt_eq_self (by decide) hx.1 hx.2

theorem defaultDist_fits (f : Fin 3) : ∀ c ∈ (defaultDist f).1, -2 ^ 15 ≤ c ∧ c < 2 ^ 15 := by
  revert f
  decide

theorem defaultDist_fills (f : Fin 3) : ((defaultDist f).1.map Int.natAbs).sum = 2 ^ (defaultDist f).2 := by
  revert f
  decide

/-! ### Counts and shares (R245, R246) -/

theorem setcountLimit_eq (b : Config.CountBound) :
    setcountLimit b = if b = .general then 2 ^ 31 else 2 ^ 32 := by
  cases b <;> rfl

theorem exec_fseSetcount (s : State) : exec .fseSetcount s =
    if 255 < s.a0 ∨ setcountLimit s.params.setcount ≤ s.a1 then raise .argRange s
    else .next { s with counts := set256 s.counts s.a0 (BitVec.ofNat 32 s.a1) } := by
  simp only [exec, execFseSetcount, Bool.or_eq_true, Bool.not_eq_true', symbolOk_eq_false, decide_eq_true_eq]

/-- The operands FSE_SETNORM accepts (R246). -/
abbrev State.ShareOk (s : State) : Prop :=
  s.a1 < 2 ^ 16 ∧ s.a0 ≤ s.a2 ∧ s.a2 ≤ 255 ∧ 5 ≤ s.a3 ∧ s.a3 ≤ 12
    ∧ -1 ≤ signedValue s.a1 ∧ signedValue s.a1 ≤ 2 ^ s.a3

theorem exec_fseSetnorm (s : State) : exec .fseSetnorm s =
    if s.ShareOk then .next { s with
      norm := set256 s.norm s.a0 (BitVec.ofNat 16 s.a1), nmax := BitVec.ofNat 8 s.a2, nlog := BitVec.ofNat 4 s.a3
      nvalid := true }
    else raise .argRange s := by
  rw [← ite_not]
  simp only [exec, execFseSetnorm, Bool.or_eq_true, Bool.not_eq_true', signedOk_eq_false, symbolOk_eq_false,
    decide_eq_true_eq, State.ShareOk, not_and_or, not_le, not_lt, or_assoc]

/-! ### One-symbol tables (R238, R242) -/

section Rle

variable {s : State} (k : Fin 4)

theorem rle_raises (h : 255 < s.a0) :
    Raises (.fseRleCt (nib k)) s .argRange 0 ∧ Raises (.fseRleDt (nib k)) s .argRange 0 := by
  have hsym := (symbolOk_eq_false _).2 h
  exact ⟨raises_of_raise (by simp [exec, execFseRleCt, hsym]), raises_of_raise (by simp [exec, execFseRleDt, hsym])⟩

variable {x : Fin 256} (h : s.a0 = x.val)

include h

theorem exec_fseRleCt : exec (.fseRleCt (nib k)) s = .next (s.setCT k (some (rleCT x.val))) := by
  simp [exec, execFseRleCt, h]

theorem exec_fseRleDt : exec (.fseRleDt (nib k)) s = .next (s.setDT k (some (rleDT x.val))) := by
  simp [exec, execFseRleDt, h]

end Rle

theorem rleCT_present (x y : Fin 256) : (rleCT x.val).present[y] = true ↔ y = x := by
  rw [rleCT, tab256_get, beq_iff_eq, Fin.ext_iff]

/-- Settles O30: each command's operands in range and not, and what it stores. -/
theorem fseSetters : Obligations.FseSetters := by
  unfold Obligations.FseSetters
  refine ⟨fun s => ⟨?_, ?_, ?_⟩, fun s k => ⟨rle_raises k, fun x hx => ⟨?_, exec_fseRleDt k hx⟩⟩⟩
  · intro basic f d log h
    have hrows : ∀ f : Fin 3, basic[f.val]? = some (defaultDist f) := by decide
    obtain ⟨rfl, rfl⟩ := Prod.mk.inj (Option.some.inj ((hrows f).symm.trans h))
    exact ⟨_, exec_fseLddef f s, normRegisters_toInt (defaultDist_fits f), defaultDist_fills f⟩
  · intro limit
    have hlimit : setcountLimit s.params.setcount = limit := setcountLimit_eq _
    have hexec := exec_fseSetcount s
    rw [hlimit] at hexec
    refine ⟨fun h => raises_of_raise (hexec.trans (if_pos h)), fun x hx hc => ?_⟩
    rw [hexec, if_neg (by omega), hx, set256_fin]
  · intro value ok
    refine ⟨fun h => raises_of_raise ((exec_fseSetnorm s).trans (if_neg h)), fun h x hx => ?_⟩
    rw [exec_fseSetnorm, if_pos (show s.ShareOk from h), hx, set256_fin]
  · refine ⟨rleCT x.val, exec_fseRleCt k hx, rfl, ?_, rfl, rleCT_present x, ?_, ?_⟩
    · exact (BitVec.toNat_ofNat _ _).trans (Nat.mod_eq_of_lt x.isLt)
    · exact tab256_get _ _
    · exact tab256_get _ _

end Sys2Proof.Machine
end

section
/-! The bit writer's commands (R152 to R157): where a flush leaves the writer and the bytes in its window, what a close
returns and keeps. -/

namespace Sys2Proof.Machine

/-! ### The writer after a flush (R155) -/

section Flushed

variable (b : BitWriter)

/-- The complete bytes fit below the limit of R152. -/
theorem BitWriter.flushed_of_le (h : b.cur.toNat + b.cnt / 8 ≤ b.cap.toNat - 8) :
    b.flushed.cur.toNat = b.cur.toNat + b.cnt / 8 ∧ b.flushed.ovf = b.ovf := by
  have hcap := b.cap.isLt
  constructor
  · simp only [flushed, limit, Config.bwSlack, Nat.min_eq_left h, BitVec.toNat_ofNat]
    omega
  · simp [flushed, limit, not_lt.2 h]

/-- The complete bytes pass the limit: the cursor stops there. -/
theorem BitWriter.flushed_of_lt (h : b.cap.toNat - 8 < b.cur.toNat + b.cnt / 8) :
    b.flushed.cur.toNat = b.cap.toNat - 8 ∧ b.flushed.ovf = true := by
  have hcap := b.cap.isLt
  constructor
  · simp only [flushed, limit, Config.bwSlack, Nat.min_eq_right h.le, BitVec.toNat_ofNat]
    omega
  · simp [flushed, limit, h]

/-- The size BW_CLOSE returns, by the writer before its flush (R157). -/
theorem BitWriter.closedSize_flushed : b.flushed.closedSize =
    if b.ovf = true ∨ b.cap.toNat - 8 ≤ b.cur.toNat + b.cnt / 8 then 0 else b.cur.toNat + (b.cnt + 7) / 8 := by
  have hcap : b.flushed.cap = b.cap := rfl
  have hcnt : b.flushed.cnt = b.cnt % 8 := rfl
  simp only [closedSize, limit, hcap, hcnt, Config.bwSlack, Bool.or_eq_true, decide_eq_true_eq]
  rcases le_or_gt (b.cur.toNat + b.cnt / 8) (b.cap.toNat - 8) with h | h
  · obtain ⟨hcur, hovf⟩ := b.flushed_of_le h
    rw [hcur, hovf]
    split
    · rfl
    · split <;> omega
  · obtain ⟨-, hovf⟩ := b.flushed_of_lt h
    rw [if_pos (.inl hovf), if_pos (.inr h.le)]

end Flushed

/-! ### The bytes a flush writes (R155) -/

theorem two_pow_eight_mul (n : Nat) : 2 ^ (8 * n) = 256 ^ n := pow_mul 2 8 n

/-- A byte of a word. -/
theorem ofNat_div_eq_extractLsb' (x : DWord) (i : Nat) :
    BitVec.ofNat 8 (x.toNat / 256 ^ i) = x.extractLsb' (8 * i) 8 := by
  apply BitVec.eq_of_toNat_eq
  rw [BitVec.toNat_ofNat, BitVec.extractLsb'_toNat, Nat.shiftRight_eq_div_pow, two_pow_eight_mul]

theorem State.read_flushWriter (s : State) {i : Nat} (hi : i < 8) :
    s.flushWriter.mem.read (s.bw.base.toNat + s.bw.cur.toNat + i) = s.bw.acc.extractLsb' (8 * i) 8 := by
  have hlen : i < (leBytes 8 s.bw.acc.toNat).length := by simpa using hi
  rw [State.flushWriter_mem, Memory.read_writeBytes_inside _ _ _ hlen, leBytes_getElem, ofNat_div_eq_extractLsb']

theorem State.flushWriter_sameOutside (s : State) :
    s.mem.SameOutside s.flushWriter.mem (s.bw.base.toNat + s.bw.cur.toNat) 8 := by
  intro a ha
  exact s.mem.read_writeBytes_outside _ _ (by simpa using ha)

/-! ### The bytes a close keeps (R156, R157) -/

/-- The field BW_CLOSE adds (R157). -/
abbrev endMark : BitField := { val := 1, width := 1 }

/-- Below the size it returns, BW_CLOSE leaves what its flush wrote. -/
theorem State.read_closeWriter (s : State) {a : Nat} (ha : a < (s.addField endMark).bw.flushed.closedSize) :
    s.closeWriter.mem.read (s.bw.base.toNat + a)
      = (s.addField endMark).flushWriter.mem.read (s.bw.base.toNat + a) :=
  Memory.read_clobber_outside _ _ _ _ (.inl (Nat.add_lt_add_left ha _))

/-! ### The commands -/

/-- The checks of BW_ADD in their order (R154). -/
theorem execBwAdd_raises {s : State} :
    (s.bw.valid = false → exec .bwAdd s = raise .stateInvalid s)
    ∧ (s.bw.valid = true → 57 < s.a1 ∨ 2 ^ s.a1 ≤ s.a0 → exec .bwAdd s = raise .argRange s)
    ∧ (s.bw.valid = true → s.a1 ≤ 57 → s.a0 < 2 ^ s.a1 → 64 < s.bw.cnt + s.a1 →
        exec .bwAdd s = raise .bwAccFull s) := by
  change (_ → execBwAdd s = _) ∧ (_ → _ → execBwAdd s = _) ∧ (_ → _ → _ → _ → execBwAdd s = _)
  unfold execBwAdd
  refine ⟨fun hv => by simp [hv], fun hv h => ?_, fun hv h1 h2 h3 => ?_⟩
  · rcases h with h | h
    · simp [hv, h]
    · simp [hv, h]
  · simp [hv, not_lt.2 h1, not_le.2 h2, h3]

/-- A field that passes the checks is added (R154). -/
theorem execBwAdd_adds {s : State} (hv : s.bw.valid = true) (h1 : s.a1 ≤ 57) (h2 : s.a0 < 2 ^ s.a1)
    (h3 : s.bw.cnt + s.a1 ≤ 64) : exec .bwAdd s = .next { s with bw := s.bw.add s.a0 s.a1 } := by
  change execBwAdd s = _
  simp [execBwAdd, hv, not_lt.2 h1, not_le.2 h2, not_lt.2 h3]

theorem execBwFlush_flushes {s : State} (hv : s.bw.valid = true) : exec .bwFlush s = .next s.flushWriter := by
  change execBwFlush s = _
  simp [execBwFlush, hv]

theorem execBwClose_closes {s : State} (hv : s.bw.valid = true) (hcnt : s.bw.cnt < 64) :
    exec .bwClose s = .next s.closeWriter := by
  change execBwClose s = _
  simp [execBwClose, hv, Nat.not_lt.2 (Nat.succ_le_of_lt hcnt)]

/-- The accumulator with a field added, its value read from the argument register. -/
theorem State.add_a0 (s : State) (n : Nat) : s.bw.add s.a0 n =
    { s.bw with acc := s.bw.acc ||| (s.args[0] <<< s.bw.cnt), cnt := s.bw.cnt + n } := by
  rw [BitWriter.add, State.a0, BitVec.ofNat_toNat, BitVec.setWidth_eq]

/-- Settles O19: one outcome for each case of BW_ADD's checks, and for BW_FLUSH the cursor below its limit or stopped
at it. -/
theorem writerSteps : Obligations.WriterSteps := by
  unfold Obligations.WriterSteps
  refine ⟨fun s => ?_, fun s => ⟨fun hv => raises_of_raise ?_, fun hv _ => ?_⟩⟩
  · obtain ⟨hinvalid, hrange, hfull⟩ := execBwAdd_raises (s := s)
    refine ⟨fun hv => raises_of_raise (hinvalid hv), fun hv h => raises_of_raise (hrange hv (.inl h)),
      fun hv _ h => raises_of_raise (hrange hv (.inr h)), fun hv h1 h2 h => raises_of_raise (hfull hv h1 h2 h),
      fun hv h1 h2 h3 => ?_⟩
    rw [execBwAdd_adds hv h1 h2 h3, State.add_a0]
  · change execBwFlush s = _
    simp [execBwFlush, hv]
  · exact ⟨_, _, execBwFlush_flushes hv, fun i => s.read_flushWriter, s.flushWriter_sameOutside, rfl, rfl, hv, rfl, rfl,
      s.bw.flushed_of_le, s.bw.flushed_of_lt⟩

/-- Settles O20: BW_CLOSE is a flush with the end mark added, and the window keeps what that flush wrote below the size
returned. -/
theorem writerClose : Obligations.WriterClose := by
  unfold Obligations.WriterClose
  intro s
  refine ⟨fun hv => raises_of_raise ?_, fun hv h => raises_of_raise ?_, fun hv hok hcnt => ?_⟩
  · change execBwClose s = _
    simp [execBwClose, hv]
  · change execBwClose s = _
    simp [execBwClose, hv, Nat.lt_succ_of_le h]
  let t := s.addField endMark
  have hsize : t.bw.flushed.closedSize = if s.bw.ovf = true ∨ s.bw.cap.toNat - 8 ≤ s.bw.cur.toNat + (s.bw.cnt + 1) / 8
      then 0 else s.bw.cur.toNat + (s.bw.cnt + 1 + 7) / 8 := t.bw.closedSize_flushed
  have hframe := (State.closeWriter_confined (BitWriter.ok_iff.1 hok hv)).1
  refine ⟨_, _, _, t.bw.flushed.closedSize, execBwClose_closes hv hcnt, rfl, rfl, rfl, rfl, rfl, t.bw.flushed_of_le,
    t.bw.flushed_of_lt, fun h => hsize.trans (if_pos h), fun hovf hfits => ?_, hframe⟩
  rw [if_neg (not_or.2 ⟨by simp [hovf], not_le.2 hfits⟩)] at hsize
  refine ⟨hsize, fun a ha => ?_, fun i hi => ?_⟩
  · refine (s.read_closeWriter (by rw [hsize]; omega)).trans ?_
    exact t.flushWriter_sameOutside _ (.inl (Nat.add_lt_add_left ha _))
  · rw [Nat.add_assoc]
    refine (s.read_closeWriter hi).trans ?_
    rw [← Nat.add_assoc]
    exact t.read_flushWriter (by omega)

end Sys2Proof.Machine
end

section
/-! Streams (R150 to R158): a closed stream read backward, and the stream that a run of adds and flushes leaves in
memory. -/

namespace Sys2Proof.Machine

/-- Settles O22: the end mark is the top bit of the stream's value, and the fields are the bits below it. -/
theorem streamReadsBack : Obligations.StreamReadsBack := by
  unfold Obligations.StreamReadsBack
  intro fs cap hf hne
  have hlt := fieldsValue_lt hf
  have hv := leValue_closedStream hf hne
  have hopen := openStream_of_value (t := totalBits fs) (closedStream_length hne) (by omega)
    (by rw [pow_succ]; omega)
  have hread := readFields_fields fs 1 hf
  rw [Nat.mul_one, ← hv] at hread
  refine ⟨closedStream_length_le fs cap, fun h0 => ?_, _, hopen, rfl, ?_, ?_⟩
  · simp [openStream, h0] at hopen
  · rw [hread]
  · rw [hread]

/-! ### Bytes in memory and their value -/

/-- Memory holds a byte string where it holds its value (R10). -/
theorem Memory.holds_of_leValue {m : Memory} {a : Nat} {bs : List Byte}
    (h : leValue (m.readBytes a bs.length) = leValue bs) : m.Holds a bs := by
  have hbytes : m.readBytes a bs.length = bs := by
    have hread := leBytes_leValue (m.readBytes a bs.length)
    rw [Memory.readBytes_length, h, leBytes_leValue] at hread
    exact hread.symm
  intro j hj
  rw [← m.readBytes_getElem a bs.length j (by simpa using hj)]
  exact List.getElem_of_eq hbytes _

theorem Memory.readBytes_add (m : Memory) (a n k : Nat) :
    m.readBytes a (n + k) = m.readBytes a n ++ m.readBytes (a + n) k := by
  simp only [Memory.readBytes_eq_map, List.range_add, List.map_append, List.map_map]
  congr 2
  funext i
  simp [Nat.add_assoc]

theorem Memory.readBytes_congr {m m' : Memory} {a n : Nat} (h : ∀ i, i < n → m'.read (a + i) = m.read (a + i)) :
    m'.readBytes a n = m.readBytes a n := by
  simp only [Memory.readBytes_eq_map]
  exact List.map_congr_left fun i hi => h i (List.mem_range.1 hi)

/-- The low bytes of a number that was written. -/
theorem Memory.readBytes_writeBytes_leBytes (m : Memory) (a v : Nat) {k n : Nat} (hk : k ≤ n) :
    (m.writeBytes a (leBytes n v)).readBytes a k = leBytes k v := by
  refine List.ext_getElem (by simp) fun i hi _ => ?_
  have hin : i < (leBytes n v).length := by simp at hi ⊢; omega
  rw [Memory.readBytes_getElem, Memory.read_writeBytes_inside _ _ _ hin, leBytes_getElem, leBytes_getElem]

/-! ### What an open writer holds -/

/-- The fields `fs` were added to the writer `b`, which has flushed into `m`: they are in the bytes below the cursor and
in the accumulator, or they were lost because they do not fit (R152, R154, R155). -/
structure BitWriter.Carries (b : BitWriter) (m : Memory) (fs : List BitField) : Prop where
  isOpen : b.Open
  inWidth : ∀ f ∈ fs, f.val < 2 ^ f.width
  lost : b.ovf = true → b.cap.toNat - 8 < totalBits fs / 8
  bits : b.ovf = false → 8 * b.cur.toNat + b.cnt = totalBits fs
  value : b.ovf = false →
    leValue (m.readBytes b.base.toNat b.cur.toNat) + 256 ^ b.cur.toNat * b.acc.toNat = fieldsValue fs

/-- The accumulator with a field added is a sum (R154). -/
theorem BitWriter.Open.add_acc {b : BitWriter} (h : b.Open) {x n : Nat} (hx : x < 2 ^ n)
    (hfit : b.cnt + n ≤ Config.bwAcc) : (b.add x n).acc.toNat = b.acc.toNat + x * 2 ^ b.cnt := by
  have hword : x * 2 ^ b.cnt < 2 ^ 64 := calc
    x * 2 ^ b.cnt < 2 ^ n * 2 ^ b.cnt := Nat.mul_lt_mul_of_pos_right hx (Nat.two_pow_pos _)
    _ = 2 ^ (b.cnt + n) := by rw [Nat.add_comm, pow_add]
    _ ≤ 2 ^ 64 := Nat.pow_le_pow_right (by decide) hfit
  have hx64 : x < 2 ^ 64 := (Nat.le_mul_of_pos_right x (Nat.two_pow_pos _)).trans_lt hword
  rw [← or_shiftLeft_eq_add h.acc, BitWriter.add, BitVec.toNat_or, BitVec.toNat_shiftLeft, BitVec.toNat_ofNat,
    Nat.mod_eq_of_lt hx64, Nat.mod_eq_of_lt (by rwa [Nat.shiftLeft_eq])]

theorem BitWriter.Carries.add {b : BitWriter} {m : Memory} {fs : List BitField} (h : b.Carries m fs) {f : BitField}
    (hf : f.val < 2 ^ f.width) (hfit : b.cnt + f.width ≤ Config.bwAcc) :
    (b.add f.val f.width).Carries m (fs ++ [f]) := by
  have htotal : totalBits (fs ++ [f]) = totalBits fs + f.width := by simp
  refine ⟨h.isOpen.add hf hfit, fun g hg => ?_, fun hovf => ?_, fun hovf => ?_, fun hovf => ?_⟩
  · rcases List.mem_append.1 hg with hg | hg
    · exact h.inWidth g hg
    · rwa [List.mem_singleton.1 hg]
  · have := h.lost hovf
    rw [htotal]
    exact this.trans_le (Nat.div_le_div_right (Nat.le_add_right _ _))
  · have hbits := h.bits hovf
    change 8 * b.cur.toNat + (b.cnt + f.width) = _
    omega
  · have hplace : 2 ^ totalBits fs = 256 ^ b.cur.toNat * 2 ^ b.cnt := by
      rw [← h.bits hovf, pow_add, two_pow_eight_mul]
    calc leValue (m.readBytes b.base.toNat b.cur.toNat) + 256 ^ b.cur.toNat * (b.add f.val f.width).acc.toNat
      _ = leValue (m.readBytes b.base.toNat b.cur.toNat) + 256 ^ b.cur.toNat * b.acc.toNat
            + 256 ^ b.cur.toNat * 2 ^ b.cnt * f.val := by rw [h.isOpen.add_acc hf hfit]; ring
      _ = fieldsValue fs + 2 ^ totalBits fs * f.val := by rw [h.value hovf, hplace]
      _ = fieldsValue (fs ++ [f]) := by simp [fieldsValue_append, fieldsValue]

/-- A flush puts the low bytes of the accumulator after those below the cursor (R155). -/
theorem State.leValue_flushWriter (s : State) {k : Nat} (hk : k ≤ 8) :
    leValue (s.flushWriter.mem.readBytes s.bw.base.toNat (s.bw.cur.toNat + k))
      = leValue (s.mem.readBytes s.bw.base.toNat s.bw.cur.toNat)
        + 256 ^ s.bw.cur.toNat * (s.bw.acc.toNat % 256 ^ k) := by
  have hbelow : s.flushWriter.mem.readBytes s.bw.base.toNat s.bw.cur.toNat
      = s.mem.readBytes s.bw.base.toNat s.bw.cur.toNat :=
    Memory.readBytes_congr fun i hi => s.flushWriter_sameOutside _ (.inl (Nat.add_lt_add_left hi _))
  rw [Memory.readBytes_add, leValue_append, hbelow, Memory.readBytes_length, State.flushWriter_mem,
    Memory.readBytes_writeBytes_leBytes _ _ _ hk, leValue_leBytes]

theorem State.flushWriter_carries {s : State} {fs : List BitField} (h : s.bw.Carries s.mem fs) :
    s.flushWriter.bw.Carries s.flushWriter.mem fs := by
  have hcnt : s.bw.cnt ≤ 64 := h.isOpen.bits
  rw [State.flushWriter_bw]
  rcases le_or_gt (s.bw.cur.toNat + s.bw.cnt / 8) (s.bw.cap.toNat - 8) with hle | hgt
  · obtain ⟨hcur, hovf⟩ := s.bw.flushed_of_le hle
    refine ⟨h.isOpen.flushed, h.inWidth, fun ho => h.lost (hovf ▸ ho), fun ho => ?_, fun ho => ?_⟩
    · have hbits := h.bits (hovf ▸ ho)
      change 8 * s.bw.flushed.cur.toNat + s.bw.cnt % 8 = _
      omega
    · have hacc : s.bw.flushed.acc.toNat = s.bw.acc.toNat / 256 ^ (s.bw.cnt / 8) := by
        change (s.bw.acc >>> (8 * (s.bw.cnt / 8))).toNat = _
        rw [BitVec.toNat_ushiftRight, Nat.shiftRight_eq_div_pow, two_pow_eight_mul]
      change leValue (s.flushWriter.mem.readBytes s.bw.base.toNat _) + _ = _
      rw [hcur, hacc, s.leValue_flushWriter (by omega), ← h.value (hovf ▸ ho), pow_add, Nat.add_assoc, Nat.mul_assoc,
        ← Nat.mul_add, Nat.mod_add_div]
  · obtain ⟨-, hovf⟩ := s.bw.flushed_of_lt hgt
    refine ⟨h.isOpen.flushed, h.inWidth, fun _ => ?_, fun ho => absurd ho (by simp [hovf]),
      fun ho => absurd ho (by simp [hovf])⟩
    change s.bw.cap.toNat - 8 < _
    by_cases ho : s.bw.ovf = true
    · exact h.lost ho
    · have hbits := h.bits (by simpa using ho)
      omega

/-! ### A run of adds and flushes -/

/-- What holds of a state between BW_INIT with the window `(base, cap)` and BW_CLOSE, after the fields `fs`. -/
structure State.Writing (s : State) (base : DWord) (cap : Word) (fs : List BitField) : Prop where
  valid : s.bw.valid = true
  base_eq : s.bw.base = base
  cap_eq : s.bw.cap = cap
  carries : s.bw.Carries s.mem fs

/-- BW_INIT without error opens an empty writer over its window (R153). -/
theorem State.writing_of_init {s t : State} (h : exec .bwInit s = .next t) (ht : t.errKind = 0) :
    t.Writing s.args[0] (BitVec.ofNat 32 s.a1) [] ∧ s.a1 < 2 ^ 31 := by
  obtain ⟨hw, h⟩ := passed_of_ok h ht
  obtain ⟨h8, h⟩ := passed_of_ok h ht
  cases h
  have hw : windowOk s.a0 s.a1 = true := by simpa using hw
  refine ⟨⟨rfl, rfl, rfl, BitWriter.open_init rfl rfl rfl rfl hw (not_lt.1 h8), by simp, nofun, fun _ => rfl,
    fun _ => rfl⟩, ((windowOk_iff _ _).1 hw).1⟩

/-- BW_ADD without error adds the field its operands are (R154). -/
theorem State.Writing.add {s t : State} {base : DWord} {cap : Word} {fs : List BitField} (hs : s.Writing base cap fs)
    (h : exec .bwAdd s = .next t) (ht : t.errKind = 0) :
    t.Writing base cap (fs ++ [{ val := s.a0, width := s.a1 }]) := by
  obtain ⟨-, h⟩ := passed_of_ok h ht
  obtain ⟨-, h⟩ := passed_of_ok h ht
  obtain ⟨hval, h⟩ := passed_of_ok h ht
  obtain ⟨hfit, h⟩ := passed_of_ok h ht
  have hadded := hs.carries.add (f := { val := s.a0, width := s.a1 }) (not_le.1 hval) (not_lt.1 hfit)
  cases h
  exact ⟨hs.valid, hs.base_eq, hs.cap_eq, hadded⟩

/-- The state with a field as the operands of BW_ADD. -/
def State.withField (s : State) (f : BitField) : State :=
  { s with args := (s.args.set 0 (BitVec.ofNat 64 f.val)).set 1 (BitVec.ofNat 64 f.width) }

theorem State.withField_operands (s : State) {f : BitField} (h57 : f.width ≤ 57) (hf : f.val < 2 ^ f.width) :
    { val := (s.withField f).a0, width := (s.withField f).a1 } = f := by
  have hval : f.val < 2 ^ 64 := hf.trans_le (Nat.pow_le_pow_right (by decide) (by omega))
  have ha0 : (s.withField f).a0 = f.val := by
    simpa [withField, State.a0] using hval
  have ha1 : (s.withField f).a1 = f.width := by
    simp only [withField, State.a1, Vector.getElem_set_self, BitVec.toNat_ofNat]
    omega
  rw [ha0, ha1]

theorem State.Writing.flush {s t : State} {base : DWord} {cap : Word} {fs : List BitField}
    (hs : s.Writing base cap fs) (h : exec .bwFlush s = .next t) : t.Writing base cap fs := by
  rw [execBwFlush_flushes hs.valid] at h
  cases h
  exact ⟨hs.valid, hs.base_eq, hs.cap_eq, State.flushWriter_carries hs.carries⟩

theorem State.Writing.run {s t : State} {base : DWord} {cap : Word} {fs gs : List BitField} (hrun : WriterRun s gs t)
    (hs : s.Writing base cap fs) : t.Writing base cap (fs ++ gs) := by
  induction hrun generalizing fs with
  | done s => simpa using hs
  | @add s t u f gs h57 hf hexec ht _ ih =>
    have hfield : (s.withField f).Writing base cap fs := ⟨hs.valid, hs.base_eq, hs.cap_eq, hs.carries⟩
    have hadded := hfield.add hexec ht
    rw [s.withField_operands h57 hf] at hadded
    simpa using ih hadded
  | flush hexec _ _ ih => exact ih (hs.flush hexec)

/-! ### The close -/

theorem totalBits_endMark (fs : List BitField) : totalBits (fs ++ [endMark]) = totalBits fs + 1 := by simp

section Marked

variable {s : State} {fs : List BitField} {cap : Nat} (h : s.bw.Carries s.mem (fs ++ [endMark]))
  (hcap : s.bw.cap.toNat = cap)

include h hcap

/-- Nothing was lost of a stream that is not given up (R158). -/
theorem State.ovf_eq_false_of_closed (hne : closedStream fs cap ≠ []) : s.bw.ovf = false := by
  have hfits := (closedStream_eq hne).2
  have hlost := h.lost
  rw [totalBits_endMark, hcap] at hlost
  by_contra ho
  have := hlost (by simpa using ho)
  omega

/-- The size returned is 0 where the stream is given up, and else the stream's length (R157, R158). -/
theorem State.closedSize_eq_length : s.bw.flushed.closedSize = (closedStream fs cap).length := by
  have hgiven := closedStream_eq_nil_iff fs cap
  have hbits := h.bits
  rw [totalBits_endMark] at hbits
  rw [s.bw.closedSize_flushed, hcap]
  by_cases hnil : closedStream fs cap = []
  · rw [hnil, List.length_nil, if_pos]
    have hle := hgiven.1 hnil
    by_cases ho : s.bw.ovf = true
    · exact .inl ho
    · have := hbits (by simpa using ho)
      exact .inr (by omega)
  · have hfits := mt hgiven.2 hnil
    have ho := State.ovf_eq_false_of_closed h hcap hnil
    have := hbits ho
    rw [closedStream_length hnil, if_neg (not_or.2 ⟨by simp [ho], by omega⟩)]
    omega

/-- The flush of a close leaves the stream in memory (R157). -/
theorem State.flushWriter_holds {base : Nat} (hbase : s.bw.base.toNat = base) :
    s.flushWriter.mem.Holds base (closedStream fs cap) := by
  by_cases hne : closedStream fs cap = []
  · simp [hne, Memory.Holds]
  have ho := State.ovf_eq_false_of_closed h hcap hne
  have hbits := h.bits ho
  have hcnt : s.bw.cnt ≤ 64 := h.isOpen.bits
  have hwhole : s.bw.acc.toNat < 256 ^ ((s.bw.cnt + 7) / 8) := by
    rw [← two_pow_eight_mul]
    exact h.isOpen.acc.trans_le (Nat.pow_le_pow_right (by decide) (by omega))
  have hf : ∀ f ∈ fs, f.val < 2 ^ f.width := fun f hf => h.inWidth f (List.mem_append_left _ hf)
  have hlen : (closedStream fs cap).length = s.bw.cur.toNat + (s.bw.cnt + 7) / 8 := by
    rw [totalBits_endMark] at hbits
    rw [closedStream_length hne]
    omega
  refine hbase ▸ Memory.holds_of_leValue ?_
  rw [hlen, s.leValue_flushWriter (by omega), Nat.mod_eq_of_lt hwhole, h.value ho, leValue_closedStream hf hne,
    fieldsValue_append]
  simp [fieldsValue]

end Marked

/-- Settles O21: an open writer carries its fields whatever was flushed, and its close adds the end mark and flushes. -/
theorem flushScheduleInvisible : Obligations.FlushScheduleInvisible := by
  unfold Obligations.FlushScheduleInvisible
  intro s0 s1 s2 s3 fs _ hinit h1 hrun hclose h3
  obtain ⟨hempty, hlen⟩ := State.writing_of_init hinit h1
  obtain ⟨-, hbase, hcap, hcarries⟩ := hempty.run hrun
  obtain ⟨-, hclose⟩ := passed_of_ok hclose h3
  obtain ⟨hfit, hclose⟩ := passed_of_ok hclose h3
  cases hclose
  have hmarked : (s2.addField endMark).bw.Carries (s2.addField endMark).mem (fs ++ [endMark]) :=
    hcarries.add (by decide) (not_lt.1 hfit)
  have hcap : (s2.addField endMark).bw.cap.toNat = s0.a1 := by
    rw [show (s2.addField endMark).bw.cap = _ from hcap, BitVec.toNat_ofNat, Nat.mod_eq_of_lt (by omega)]
  have hbase : s2.bw.base.toNat = s0.a0 := congrArg BitVec.toNat hbase
  have hsize := State.closedSize_eq_length hmarked hcap
  refine ⟨?_, fun j hj => ?_, closedStream_eq_nil_iff fs s0.a1⟩
  · rw [← hsize]
    exact Vector.getElem_set_self _
  · rw [← State.flushWriter_holds hmarked hcap hbase j hj, ← hbase]
    exact s2.read_closeWriter (hsize.symm ▸ hj)

end Sys2Proof.Machine
end

section
/-! The bit reader's commands (R160 to R168), and the opening of both cursors (R153, R162). -/

namespace Sys2Proof.Machine

/-! ### Reads (R165) -/

/-- R165's four cases: no bits, bits that are all there, bits of which the low ones are missing, a reader that has
passed the start. -/
theorem streamBits_cases (v : Nat) (pos : Int) (n : Nat) :
    (n = 0 → streamBits v pos n = 0)
    ∧ ((n : Int) ≤ pos → streamBits v pos n = v / 2 ^ (pos.toNat - n) % 2 ^ n)
    ∧ (0 ≤ pos → pos < n → streamBits v pos n = v % 2 ^ pos.toNat * 2 ^ (n - pos.toNat))
    ∧ (pos < 0 → streamBits v pos n = 0) := by
  refine ⟨fun hn => if_pos hn, fun h => ?_, fun h0 h => ?_, fun h => ?_⟩
  · lift pos to Nat using (by omega)
    exact streamBits_of_le (by omega)
  · rw [streamBits, if_neg (by omega), if_neg (not_le.2 h), if_pos h0, Nat.shiftLeft_eq]
  · rw [streamBits, if_neg (c := (n : Int) ≤ pos) (by omega), if_neg (not_le.2 h), ite_self]

/-- A read of up to 57 bits in a result register. -/
theorem State.toNat_readerBits (s : State) {n : Nat} (hn : n ≤ 57) : (res64 (s.readerBits n)).toNat = s.readerBits n :=
  res64_toNat ((streamBits_lt _ _ _).trans_le (Nat.pow_le_pow_right (by decide) (by omega)))

/-! ### The checks of BR_PEEK and BR_READ (R166, R172) -/

section Reader

variable {s : State}

theorem reader_raises {c : ErrCode} (h : s.readerCheck s.a0 = some c) :
    Raises .brPeek s c 0 ∧ Raises .brRead s c 0 := by
  refine ⟨raises_of_raise ?_, raises_of_raise ?_⟩
  · change execBrPeek s = _
    simp [execBrPeek, h]
  · change execBrRead s = _
    simp [execBrRead, h]

theorem reader_reads (h : s.readerCheck s.a0 = none) :
    exec .brPeek s = .next (s.setRes0 (res64 (s.readerBits s.a0)))
    ∧ exec .brRead s = .next ((s.readerSkip s.a0).setRes0 (res64 (s.readerBits s.a0))) := by
  change execBrPeek s = _ ∧ execBrRead s = _
  simp [execBrPeek, execBrRead, h]

variable {n : Nat}

theorem readerCheck_invalid (hv : s.br.valid = false) : s.readerCheck n = some .stateInvalid := by
  simp [State.readerCheck, hv]

variable (hv : s.br.valid = true)

include hv

theorem readerCheck_wide (h : 57 < n) : s.readerCheck n = some .argRange := by
  simp [State.readerCheck, hv, h]

theorem readerCheck_spent (h1 : n ≤ 57) (h2 : 57 < s.br.unl + n) : s.readerCheck n = some .brNeedsLoad := by
  simp [State.readerCheck, hv, not_lt.2 h1, h2]

theorem readerCheck_passes (h : s.br.unl + n ≤ 57) : s.readerCheck n = none := by
  simp [State.readerCheck, hv, not_lt.2 h, not_lt.2 ((Nat.le_add_left n s.br.unl).trans h)]

end Reader

/-! ### Opening a cursor (R153, R162) -/

section Init

variable {s : State}

theorem init_raises (h : 2 ^ 31 ≤ s.a1 ∨ 2 ^ 64 < s.a0 + s.a1) :
    Raises .bwInit s .argRange 0 ∧ Raises .brInit s .argRange 0 := by
  have hw := windowOk_false_of h
  refine ⟨raises_of_raise ?_, raises_of_raise ?_⟩
  · change execBwInit s = _
    simp [execBwInit, hw]
  · change execBrInit s = _
    simp [execBrInit, hw]

variable (hw : windowOk s.a0 s.a1 = true)

include hw

theorem exec_bwInit : exec .bwInit s =
    if s.a1 < 8 then raise .dstTooSmall s
    else .next { s with bw :=
      { base := s.args[0], cap := BitVec.ofNat 32 s.a1, cur := 0, acc := 0, cnt := 0, ovf := false
        valid := true } } := by
  change execBwInit s = _
  simp [execBwInit, hw]

theorem exec_brInit (h0 : 0 < s.a1) : exec .brInit s =
    if s.mem.read (s.a0 + s.a1 - 1) = 0 then raiseErr { code := .bitstreamNoEndMark, off := s.a1 - 1 } s
    else .next { s with br :=
      { base := s.args[0], len := BitVec.ofNat 32 s.a1
        pos := 8 * ((s.a1 : Int) - 1) + highestBit (s.mem.read (s.a0 + s.a1 - 1)).toNat, unl := 0
        valid := true } } := by
  change execBrInit s = _
  simp [execBrInit, hw, h0.ne']

end Init

theorem highestBit_eq {v h : Nat} (h1 : 2 ^ h ≤ v) (h2 : v < 2 ^ (h + 1)) : highestBit v = h :=
  (Nat.log2_eq_iff (by have := Nat.two_pow_pos h; omega)).2 ⟨h1, h2⟩

/-- Settles O23: each command's checks in order, and a read by R165's cases. -/
theorem cursorCommands : Obligations.CursorCommands := by
  unfold Obligations.CursorCommands
  have window {s : State} (h1 : s.a1 < 2 ^ 31) (h2 : s.a0 + s.a1 ≤ 2 ^ 64) : windowOk s.a0 s.a1 = true :=
    (windowOk_iff _ _).2 ⟨h1, h2⟩
  refine ⟨fun s => ⟨init_raises, fun h8 haddr => ?_, fun h8 hlen haddr => ?_, fun h0 => ?_,
    fun h0 hlen haddr hlast => ?_, fun h0 hlen haddr h h1 h2 => ?_⟩, fun s => ⟨fun hv => ?_, fun hv h => reader_raises (readerCheck_wide hv h),
    fun hv h1 h2 => reader_raises (readerCheck_spent hv h1 h2), fun hv hfit => ?_, fun hv => ?_⟩⟩
  · exact raises_of_raise ((exec_bwInit (window (by omega) haddr)).trans (if_pos h8))
  · exact (exec_bwInit (window hlen haddr)).trans (if_neg (not_lt.2 h8))
  · refine raisesFrom_of_raiseErr (e := { code := .inputTooShort, off := 0 }) ?_
    have hw := window (s := s) (by omega) (by have := s.a0_lt; omega)
    rw [h0] at hw
    change execBrInit s = _
    simp [execBrInit, h0, hw]
  · exact raisesFrom_of_raiseErr (e := { code := .bitstreamNoEndMark, off := s.a1 - 1 })
      ((exec_brInit (window hlen haddr) h0).trans (if_pos hlast))
  · have hlast : s.mem.read (s.a0 + s.a1 - 1) ≠ 0 := by
      intro h0
      have := Nat.two_pow_pos h
      simp [h0] at h1
    rw [exec_brInit (window hlen haddr) h0, if_neg hlast, highestBit_eq h1 h2]
  · obtain ⟨hpeek, hread⟩ := reader_raises (readerCheck_invalid (n := s.a0) hv)
    refine ⟨hpeek, hread, raises_of_raise ?_⟩
    change execBrLoad s = _
    simp [execBrLoad, hv]
  · obtain ⟨hpeek, hread⟩ := reader_reads (readerCheck_passes hv hfit)
    have hbits := s.toNat_readerBits ((Nat.le_add_left s.a0 s.br.unl).trans hfit)
    obtain ⟨hnone, hall, hpart, hpast⟩ :=
      streamBits_cases (leValue (s.window s.br.base.toNat s.br.len.toNat)) s.br.pos s.a0
    exact ⟨_, hpeek, hread, fun h => congrArg res64 (hnone h), fun _ h => hbits.trans (hall h),
      fun h0 h => hbits.trans (hpart h0 h), fun h => congrArg res64 (hpast h)⟩
  · change execBrLoad s = _
    simp [execBrLoad, hv, loadStatus, State.setRes0]

end Sys2Proof.Machine
end

section
/-! R235's spread: the walk visits every place below the reserved ones exactly once, so every symbol takes as many
states as its share. -/

namespace Sys2Proof.Machine

/-! ### Entries set one after another -/

/-- The entries at the places `ps` replaced by `vs`, the first first. -/
def scatter {α : Type} (t : List α) (ps : List Nat) (vs : List α) : List α :=
  (ps.zip vs).foldl (fun t x => t.set x.1 x.2) t

@[simp] theorem scatter_nil {α : Type} (t vs : List α) : scatter t [] vs = t := rfl

@[simp] theorem scatter_cons {α : Type} (t : List α) (p : Nat) (ps : List Nat) (v : α) (vs : List α) :
    scatter t (p :: ps) (v :: vs) = scatter (t.set p v) ps vs := rfl

theorem scatter_append {α : Type} (t : List α) {ps : List Nat} {vs : List α} (h : ps.length = vs.length)
    (qs : List Nat) (ws : List α) : scatter t (ps ++ qs) (vs ++ ws) = scatter (scatter t ps vs) qs ws := by
  simp only [scatter, List.zip_append h, List.foldl_append]

theorem scatter_length {α : Type} (t : List α) (ps : List Nat) (vs : List α) :
    (scatter t ps vs).length = t.length := by
  induction ps generalizing t vs with
  | nil => rfl
  | cons p ps ih =>
    cases vs with
    | nil => rfl
    | cons v vs => simp [ih]

theorem scatter_getElem?_of_notMem {α : Type} (t : List α) {ps : List Nat} {u : Nat} (hu : u ∉ ps) (vs : List α) :
    (scatter t ps vs)[u]? = t[u]? := by
  induction ps generalizing t vs with
  | nil => rfl
  | cons p ps ih =>
    rw [List.mem_cons, not_or] at hu
    obtain ⟨hp, hps⟩ := hu
    cases vs with
    | nil => rfl
    | cons v vs => rw [scatter_cons, ih _ hps, List.getElem?_set_ne (Ne.symm hp)]

/-- Entries set at different places are read back there. -/
theorem map_getElem?_scatter {α : Type} (t : List α) {ps : List Nat} {vs : List α} (hnd : ps.Nodup)
    (hlen : ps.length = vs.length) (hin : ∀ p ∈ ps, p < t.length) :
    ps.map (fun p => (scatter t ps vs)[p]?) = vs.map some := by
  induction ps generalizing t vs with
  | nil => simp [List.length_eq_zero_iff.1 hlen.symm]
  | cons p ps ih =>
    obtain _ | ⟨v, vs⟩ := vs
    · cases hlen
    obtain ⟨hp, hnd⟩ := List.nodup_cons.1 hnd
    have hpin : p < t.length := hin p (by simp)
    rw [List.map_cons, scatter_cons, ih _ hnd (Nat.succ.inj hlen) (fun q hq => by simpa using hin q (by simp [hq])),
      scatter_getElem?_of_notMem _ hp, List.getElem?_set_self hpin, List.map_cons]

/-- A table with every place set holds the values set, in some order. -/
theorem scatter_perm {α : Type} (t : List α) {ps : List Nat} {vs : List α} (hps : ps.Perm (List.range t.length))
    (hlen : ps.length = vs.length) : (scatter t ps vs).Perm vs := by
  have hread := map_getElem?_scatter t (hps.nodup_iff.2 List.nodup_range) hlen
    fun p hp => List.mem_range.1 (hps.mem_iff.1 hp)
  have hall : (List.range t.length).map (fun p => (scatter t ps vs)[p]?) = (scatter t ps vs).map some := by
    apply List.ext_getElem
    · simp [scatter_length]
    · intro i hi hi'
      simp at hi'
      simp [List.getElem?_eq_getElem hi']
  rw [← List.map_perm_map_iff (Option.some_injective α), ← hread, ← hall]
  exact (hps.map _).symm

/-! ### The walk (R235) -/

/-- The step from one place to the next. -/
abbrev walkStep (size : Nat) : Nat := (size >>> 1) + (size >>> 3) + 3

/-- The places below `free` among the first `n` of the walk, from `pos` on. -/
def walk (size free : Nat) : Nat → Nat → List Nat
  | 0, _ => []
  | n + 1, pos =>
    (if pos < free then [pos] else []) ++ walk size free n ((pos + walkStep size) % size)

variable {size free : Nat}

theorem walk_succ_of_lt {n pos : Nat} (h : pos < free) : walk size free (n + 1) pos =
    pos :: walk size free n ((pos + walkStep size) % size) := by
  simp [walk, h]

theorem walk_succ_of_le {n pos : Nat} (h : free ≤ pos) : walk size free (n + 1) pos =
    walk size free n ((pos + walkStep size) % size) := by
  simp [walk, not_lt.2 h]

/-- Where the walk goes on, the place the spread takes next is the walk's. -/
theorem spreadNext_walk {n fuel pos : Nat} (hn : n ≤ fuel)
    (h : walk size free n ((pos + walkStep size) % size) ≠ []) :
    spreadNext size free fuel pos < free ∧ ∃ m ≤ n, walk size free m (spreadNext size free fuel pos)
      = walk size free n ((pos + walkStep size) % size) := by
  induction n generalizing fuel pos with
  | zero => exact absurd rfl h
  | succ n ih =>
    obtain ⟨fuel, rfl⟩ := Nat.exists_eq_succ_of_ne_zero (Nat.ne_of_gt (Nat.lt_of_lt_of_le n.succ_pos hn))
    rw [Nat.succ_le_succ_iff] at hn
    simp only [spreadNext]
    split
    · next hlt => exact ⟨hlt, _, le_rfl, rfl⟩
    · next hge =>
      rw [walk_succ_of_le (not_lt.1 hge)] at h ⊢
      obtain ⟨hlt, m, hm, hwalk⟩ := ih hn h
      exact ⟨hlt, m, hm.trans n.le_succ, hwalk⟩

/-- R235's loop sets its symbols at the places of the walk. -/
theorem spreadLoop_eq_scatter {n pos : Nat} {syms : List Nat} (table : List Nat) (hn : n ≤ size)
    (hpos : pos < free ∨ syms = []) (hlen : syms.length ≤ (walk size free n pos).length) :
    (syms.foldl (fun (t : List Nat × Nat) s => (t.1.set t.2 s, spreadNext size free size t.2)) (table, pos)).1
      = scatter table (walk size free n pos) syms := by
  induction syms generalizing n pos table with
  | nil => simp [scatter]
  | cons s syms ih =>
    have hpos : pos < free := hpos.resolve_right (List.cons_ne_nil _ _)
    obtain _ | n := n
    · simp [walk] at hlen
    rw [walk_succ_of_lt hpos] at hlen ⊢
    simp only [List.length_cons, Nat.succ_le_succ_iff] at hlen
    rw [scatter_cons, List.foldl_cons]
    by_cases hnil : syms = []
    · simp [hnil, scatter]
    · have hne : walk size free n ((pos + walkStep size) % size) ≠ [] := by
        rintro h0
        rw [h0] at hlen
        exact hnil (List.length_eq_zero_iff.1 (Nat.le_zero.1 hlen))
      obtain ⟨hlt, m, hm, hwalk⟩ := spreadNext_walk (Nat.le_of_succ_le hn) hne
      rw [← hwalk] at hlen ⊢
      exact ih _ (hm.trans (Nat.le_of_succ_le hn)) (.inl hlt) hlen

/-- The walk's place after `i` steps is the `i`-th multiple of the step. -/
theorem walk_eq_filter (n i : Nat) : walk size free n (i * walkStep size % size) =
    ((List.range' i n).map fun j => j * walkStep size % size).filter (· < free) := by
  induction n generalizing i with
  | zero => rfl
  | succ n ih =>
    have hnext : (i * walkStep size % size + walkStep size) % size
        = (i + 1) * walkStep size % size := by rw [Nat.mod_add_mod, Nat.succ_mul]
    rw [walk, hnext, ih, List.range'_succ, List.map_cons, List.filter_cons]
    split <;> simp_all

/-- The step is odd, so its multiples are all places. -/
theorem multiples_perm_range {tl : Nat} (htl : 5 ≤ tl) :
    ((List.range (2 ^ tl)).map fun j => j * walkStep (2 ^ tl) % 2 ^ tl).Perm
      (List.range (2 ^ tl)) := by
  obtain ⟨k, rfl⟩ := Nat.exists_eq_add_of_le htl
  have hcoprime : Nat.Coprime (2 ^ (5 + k)) (walkStep (2 ^ (5 + k))) := by
    refine Nat.Coprime.pow_left _ (Nat.coprime_two_left.2 ?_)
    rw [walkStep, Nat.shiftRight_eq_div_pow, Nat.shiftRight_eq_div_pow, pow_add, Nat.odd_iff]
    omega
  have hnodup : ((List.range (2 ^ (5 + k))).map
      fun j => j * walkStep (2 ^ (5 + k)) % 2 ^ (5 + k)).Nodup := by
    refine List.Nodup.map_on (fun i hi j hj h => ?_) List.nodup_range
    have hmod := Nat.ModEq.cancel_right_of_coprime hcoprime h
    exact Nat.ModEq.eq_of_lt_of_lt hmod (List.mem_range.1 hi) (List.mem_range.1 hj)
  refine (hnodup.subperm fun p hp => ?_).perm_of_length_le (by simp)
  obtain ⟨j, -, rfl⟩ := List.mem_map.1 hp
  exact List.mem_range.2 (Nat.mod_lt _ (Nat.two_pow_pos _))

/-- The walk visits every place below `free` once. -/
theorem walk_perm_range {tl : Nat} (htl : 5 ≤ tl) {free : Nat} (hfree : free ≤ 2 ^ tl) :
    (walk (2 ^ tl) free (2 ^ tl) 0).Perm (List.range free) := by
  have hwalk := walk_eq_filter (size := 2 ^ tl) (free := free) (2 ^ tl) 0
  rw [Nat.zero_mul, Nat.zero_mod, ← List.range_eq_range'] at hwalk
  rw [hwalk]
  refine ((multiples_perm_range htl).filter _).trans ?_
  obtain ⟨k, hk⟩ := Nat.exists_eq_add_of_le hfree
  rw [hk, List.range_add, List.filter_append, List.filter_eq_self.2, List.filter_eq_nil_iff.2, List.append_nil]
  · simp
  · simp

/-! ### The symbols of a distribution -/

/-- Each symbol from `i` on, as often as `f` says of its share. -/
def expand (f : Int → Nat) (i : Nat) (norm : List Int) : List Nat :=
  (norm.zipIdx i).flatMap fun x => List.replicate (f x.1) x.2

@[simp] theorem expand_nil (f : Int → Nat) (i : Nat) : expand f i [] = [] := rfl

@[simp] theorem expand_cons (f : Int → Nat) (i : Nat) (c : Int) (norm : List Int) :
    expand f i (c :: norm) = List.replicate (f c) i ++ expand f (i + 1) norm := by
  simp [expand]

theorem expand_length (f : Int → Nat) (i : Nat) (norm : List Int) : (expand f i norm).length = (norm.map f).sum := by
  induction norm generalizing i with
  | nil => rfl
  | cons c norm ih => simp [ih]

theorem count_expand {f : Int → Nat} (hf : f 0 = 0) (norm : List Int) (i x : Nat) :
    (expand f i norm).count (i + x) = f (norm.getD x 0) := by
  induction norm generalizing i x with
  | nil => simp [hf]
  | cons c norm ih =>
    rw [expand_cons, List.count_append, List.count_replicate]
    cases x with
    | zero =>
      have hlater : i + 0 ∉ expand f (i + 1) norm := by
        simp only [expand, List.mem_flatMap, List.mem_replicate, not_exists, not_and]
        rintro ⟨c, j⟩ hj -
        have := List.le_snd_of_mem_zipIdx hj
        omega
      rw [List.count_eq_zero_of_not_mem hlater]
      simp
    | succ x =>
      have hne : (i == i + 1 + x) = false := by simp; omega
      rw [show i + (x + 1) = i + 1 + x by omega, ih, hne]
      simp

/-- The states R235 gives a symbol at the top: the one of a `-1` share. -/
def lowSlots (c : Int) : Nat := if c = -1 then 1 else 0

/-- A share is one state at the top or as many as it says on the walk. -/
theorem lowSlots_add_toNat {c : Int} (h : -1 ≤ c) : lowSlots c + c.toNat = countSlots c := by
  unfold lowSlots countSlots
  split <;> omega

theorem sum_lowSlots_add_toNat {norm : List Int} (h : ∀ c ∈ norm, -1 ≤ c) :
    (norm.map lowSlots).sum + (norm.map Int.toNat).sum = totalSlots norm := by
  rw [totalSlots, ← List.sum_map_add]
  exact congrArg List.sum (List.map_congr_left fun c hc => lowSlots_add_toNat (h c hc))

/-! ### The spread (R235) -/

/-- The `-1` symbols stand at the top, the first the highest. -/
theorem spreadLowLoop_eq_scatter (norm : List Int) {low : Nat} (hlow : low = (norm.map lowSlots).sum) (i : Nat)
    (table : List Nat) (free : Nat) :
    (norm.zipIdx i).foldl
        (fun (t : List Nat × Nat) x => if x.1 = -1 then (t.1.set (t.2 - 1) x.2, t.2 - 1) else t) (table, free + low)
      = (scatter table (List.range' free low).reverse (expand lowSlots i norm), free) := by
  induction norm generalizing i table low with
  | nil => simp [hlow]
  | cons c norm ih =>
    rw [List.map_cons, List.sum_cons] at hlow
    rw [List.zipIdx_cons, List.foldl_cons, expand_cons]
    by_cases hc : c = -1
    · have hone : lowSlots c = 1 := if_pos hc
      obtain ⟨low, rfl⟩ : ∃ n, low = n + 1 := ⟨_, hlow.trans (by rw [hone, Nat.add_comm])⟩
      rw [if_pos hc, ← Nat.add_assoc, Nat.add_sub_cancel, ih (by omega), hone, List.range'_concat,
        List.reverse_append, Nat.one_mul]
      rfl
    · have hzero : lowSlots c = 0 := if_neg hc
      rw [if_neg hc, ih (by omega), hzero]
      rfl

theorem spreadLow_eq_scatter {norm : List Int} {size free low : Nat} (hlow : low = (norm.map lowSlots).sum)
    (hsize : size = free + low) : spreadLow norm size =
      (scatter (List.replicate size 0) (List.range' free low).reverse (expand lowSlots 0 norm), free) := by
  subst hsize
  exact spreadLowLoop_eq_scatter norm hlow 0 _ free

theorem normConsistent_iff {norm : List Int} {tl : Nat} :
    normConsistent norm tl = true ↔ (∀ c ∈ norm, -1 ≤ c) ∧ totalSlots norm = 2 ^ tl := by
  simp [normConsistent]

/-- R235: the spread of a distribution that fills its table holds each symbol at as many states as its share. -/
theorem spread_perm {norm : List Int} {tl : Nat} {syms : List Nat} (htl : 5 ≤ tl)
    (hok : normConsistent norm tl = true) (h : spread norm tl = some syms) :
    syms.Perm (expand lowSlots 0 norm ++ expand Int.toNat 0 norm) := by
  obtain ⟨hmin, hfill⟩ := normConsistent_iff.1 hok
  obtain ⟨low, hlow⟩ : ∃ low, low = (norm.map lowSlots).sum := ⟨_, rfl⟩
  obtain ⟨free, hfree⟩ : ∃ free, free = (norm.map Int.toNat).sum := ⟨_, rfl⟩
  have hsize : 2 ^ tl = free + low := by
    rw [← hfill, ← sum_lowSlots_add_toNat hmin, hlow, hfree, Nat.add_comm]
  have hwalk := walk_perm_range htl (free := free) (hsize ▸ Nat.le_add_right free low)
  have hlowlen : (List.range' free low).reverse.length = (expand lowSlots 0 norm).length := by
    simp [expand_length, hlow]
  have hwalklen : (walk (2 ^ tl) free (2 ^ tl) 0).length = (expand Int.toNat 0 norm).length := by
    rw [hwalk.length_eq, expand_length, ← hfree, List.length_range]
  have hexpand : (norm.zipIdx.flatMap fun x => List.replicate x.1.toNat x.2) = expand Int.toNat 0 norm := rfl
  simp only [spread, spreadLow_eq_scatter hlow hsize, hexpand] at h
  split at h
  · obtain rfl := Option.some.inj h
    rw [spreadLoop_eq_scatter _ le_rfl ?_ hwalklen.ge, ← scatter_append _ hlowlen]
    · refine scatter_perm _ ?_ (by simp only [List.length_append, hlowlen, hwalklen])
      have hrange : List.range (2 ^ tl) = List.range free ++ List.range' free low := by
        rw [hsize, List.range_eq_range', List.range_eq_range', ← List.range'_append]
        simp
      rw [List.length_replicate, hrange]
      exact List.perm_append_comm.trans (hwalk.append (List.reverse_perm _))
    · rcases Nat.eq_zero_or_pos free with h0 | h0
      · exact .inr (List.length_eq_zero_iff.1 (by rw [expand_length, ← hfree, h0]))
      · exact .inl h0
  · cases h

theorem spread_count {norm : List Int} {tl : Nat} {syms : List Nat} (htl : 5 ≤ tl)
    (hok : normConsistent norm tl = true) (h : spread norm tl = some syms) (x : Nat) :
    syms.count x = countSlots (norm.getD x 0) := by
  have hmin : -1 ≤ norm.getD x 0 := by
    rw [List.getD_eq_getElem?_getD]
    cases hget : norm[x]? with
    | none => decide
    | some c => exact (normConsistent_iff.1 hok).1 c (List.mem_of_getElem? hget)
  have hlow := count_expand (f := lowSlots) rfl norm 0 x
  have hhigh := count_expand (f := Int.toNat) rfl norm 0 x
  rw [Nat.zero_add] at hlow hhigh
  rw [(spread_perm htl hok h).count_eq, List.count_append, hlow, hhigh, lowSlots_add_toNat hmin]

end Sys2Proof.Machine
end

section
/-! The two tables of one distribution (R237, R241): the decoding table numbers a symbol's `k` states from `k` to
`2k - 1`, and the compression table holds them in the same order. -/

namespace Sys2Proof.Machine

/-! ### The states of one symbol -/

/-- Every occurrence of a symbol is at some place, the `r`-th after `r` others. -/
theorem exists_occurrence {l : List Nat} {x r : Nat} (h : r < l.count x) :
    ∃ u, l[u]? = some x ∧ (l.take u).count x = r := by
  induction l generalizing r with
  | nil => simp at h
  | cons y l ih =>
    by_cases hy : y = x
    · subst hy
      obtain _ | r := r
      · exact ⟨0, rfl, rfl⟩
      · rw [List.count_cons_self, Nat.succ_lt_succ_iff] at h
        obtain ⟨u, hu, hr⟩ := ih h
        exact ⟨u + 1, hu, by simp [hr]⟩
    · rw [List.count_cons_of_ne hy] at h
      obtain ⟨u, hu, hr⟩ := ih h
      exact ⟨u + 1, hu, by simp [List.count_cons_of_ne hy, hr]⟩

/-- An occurrence comes after fewer others than a later one does. -/
theorem count_take_lt_count_take {l : List Nat} {x u v : Nat} (hu : l[u]? = some x) (huv : u < v) :
    (l.take u).count x < (l.take v).count x := by
  obtain ⟨hlt, hx⟩ := List.getElem?_eq_some_iff.1 hu
  have hsub := List.take_sublist_take_left (l := l) (Nat.succ_le_of_lt huv)
  rw [List.take_succ_eq_append_getElem hlt, hx] at hsub
  calc (l.take u).count x < (l.take u ++ [x]).count x := by simp
    _ ≤ (l.take v).count x := hsub.count_le x

theorem count_take_lt_count {l : List Nat} {x u : Nat} (h : l[u]? = some x) : (l.take u).count x < l.count x := by
  have := count_take_lt_count_take h (List.getElem?_eq_some_iff.1 h).1
  rwa [List.take_length] at this

/-- The number each symbol of a list gets from a counter of its own, `next` holding the first ones. -/
def numbering : List Nat → List Nat → List Nat
  | _, [] => []
  | next, s :: syms => next.getD s 0 :: numbering (next.set s (next.getD s 0 + 1)) syms

theorem numbering_length (next syms : List Nat) : (numbering next syms).length = syms.length := by
  induction syms generalizing next with
  | nil => rfl
  | cons s syms ih => simp [numbering, ih]

theorem numbering_getElem? {next syms : List Nat} (hin : ∀ s ∈ syms, s < next.length) {u x : Nat}
    (hu : syms[u]? = some x) : (numbering next syms)[u]? = some (next.getD x 0 + (syms.take u).count x) := by
  induction syms generalizing next u with
  | nil => simp at hu
  | cons s syms ih =>
    obtain _ | u := u
    · obtain rfl := Option.some.inj hu
      simp [numbering]
    · have hs : s < next.length := hin s (by simp)
      have htail := ih (next := next.set s (next.getD s 0 + 1)) (fun y hy => by simpa using hin y (by simp [hy])) hu
      rw [numbering, List.getElem?_cons_succ, htail, List.take_succ_cons, List.count_cons]
      by_cases hx : s = x
      · subst hx
        simp [List.getD_eq_getElem?_getD, hs]
        omega
      · simp [List.getD_eq_getElem?_getD, List.getElem?_set_ne hx, hx]

/-! ### The compression table (R237) -/

/-- `cum[x]` of R237: the states of the symbols below `x`. -/
def firstSlot (norm : List Int) (x : Nat) : Nat := totalSlots (norm.take x)

theorem cumulative_length (acc : Nat) (norm : List Int) : (cumulative acc norm).length = norm.length := by
  induction norm generalizing acc with
  | nil => rfl
  | cons c norm ih => simp [cumulative, ih]

theorem totalSlots_cons (c : Int) (norm : List Int) : totalSlots (c :: norm) = countSlots c + totalSlots norm := rfl

theorem cumulative_getD (acc : Nat) {norm : List Int} {x : Nat} (hx : x < norm.length) :
    (cumulative acc norm).getD x 0 = acc + firstSlot norm x := by
  induction norm generalizing acc x with
  | nil => simp at hx
  | cons c norm ih =>
    obtain _ | x := x
    · rfl
    · simp only [cumulative, List.getD_cons_succ]
      rw [ih _ (Nat.lt_of_succ_lt_succ hx), firstSlot, firstSlot, List.take_succ_cons, totalSlots_cons, Nat.add_assoc]

/-- The states of a symbol end where those of a later one begin, or with the table. -/
theorem firstSlot_add_le (norm : List Int) (x : Nat) :
    firstSlot norm x + countSlots (norm.getD x 0) ≤ totalSlots norm
    ∧ ∀ y, x < y → firstSlot norm x + countSlots (norm.getD x 0) ≤ firstSlot norm y := by
  induction norm generalizing x with
  | nil => simp [firstSlot, totalSlots, countSlots]
  | cons c norm ih =>
    obtain _ | x := x
    · refine ⟨?_, fun y hy => ?_⟩
      · simp [firstSlot, totalSlots]
      · obtain ⟨y, rfl⟩ := Nat.exists_eq_add_of_lt hy
        simp [firstSlot, totalSlots]
    · obtain ⟨hall, hlater⟩ := ih x
      refine ⟨?_, fun y hy => ?_⟩
      · simp only [firstSlot, List.take_succ_cons, totalSlots_cons, List.getD_cons_succ] at hall ⊢
        omega
      · obtain _ | y := y
        · omega
        · have := hlater y (by omega)
          simp only [firstSlot, List.take_succ_cons, totalSlots_cons, List.getD_cons_succ] at this ⊢
          omega

/-- A place among the states belongs to one symbol only. -/
theorem firstSlot_add_inj {norm : List Int} {x y r q : Nat} (hr : r < countSlots (norm.getD x 0))
    (hq : q < countSlots (norm.getD y 0)) (h : firstSlot norm x + r = firstSlot norm y + q) : x = y ∧ r = q := by
  have hx := (firstSlot_add_le norm x).2 y
  have hy := (firstSlot_add_le norm y).2 x
  have hxy : x = y := by omega
  subst hxy
  exact ⟨rfl, by omega⟩

/-- The place R237 gives a state: `cum[x]`, counted up at each occurrence of the symbol. -/
theorem places_getElem? {norm : List Int} {syms : List Nat} (hin : ∀ x ∈ syms, x < norm.length) {u x : Nat}
    (hu : syms[u]? = some x) :
    (numbering (cumulative 0 norm) syms)[u]? = some (firstSlot norm x + (syms.take u).count x) := by
  rw [numbering_getElem? (by simpa [cumulative_length] using hin) hu,
    cumulative_getD 0 (hin x (List.mem_of_getElem? hu)), Nat.zero_add]

/-- Every state has a place of its own. -/
theorem places_nodup {norm : List Int} {syms : List Nat} (hin : ∀ x ∈ syms, x < norm.length)
    (hcount : ∀ x, syms.count x ≤ countSlots (norm.getD x 0)) : (numbering (cumulative 0 norm) syms).Nodup := by
  refine List.nodup_iff_getElem?_ne_getElem?.2 fun u v huv hv heq => ?_
  rw [numbering_length] at hv
  have hx := List.getElem?_eq_getElem (huv.trans hv)
  have hy := List.getElem?_eq_getElem hv
  rw [places_getElem? hin hx, places_getElem? hin hy, Option.some.injEq] at heq
  obtain ⟨hxy, hr⟩ := firstSlot_add_inj ((count_take_lt_count hx).trans_le (hcount _))
    ((count_take_lt_count hy).trans_le (hcount _)) heq
  rw [← hxy] at hr
  exact absurd hr (count_take_lt_count_take hx huv).ne

theorem nextStates_eq_scatter (norm : List Int) (syms : List Nat) (size : Nat) :
    nextStates norm syms size = scatter (List.replicate size 0) (numbering (cumulative 0 norm) syms)
      ((List.range' size syms.length).map (BitVec.ofNat 16)) := by
  have fold (syms : List Nat) (i : Nat) (table : List Half) (next : List Nat) : ((syms.zipIdx i).foldl
        (fun (t : List Half × List Nat) x =>
          (t.1.set (t.2.getD x.1 0) (BitVec.ofNat 16 (size + x.2)), t.2.set x.1 (t.2.getD x.1 0 + 1)))
        (table, next)).1
      = scatter table (numbering next syms) ((List.range' (size + i) syms.length).map (BitVec.ofNat 16)) := by
    induction syms generalizing i table next with
    | nil => rfl
    | cons s syms ih =>
      rw [List.zipIdx_cons, List.foldl_cons, ih]
      rfl
  exact fold syms 0 _ _

/-- R237: `nextState` holds the states of each symbol in rising order, from the symbol's own start. -/
theorem nextStates_getElem? {norm : List Int} {syms : List Nat} {size : Nat} (hin : ∀ x ∈ syms, x < norm.length)
    (hcount : ∀ x, syms.count x ≤ countSlots (norm.getD x 0)) (hsize : totalSlots norm ≤ size) {u x : Nat}
    (hu : syms[u]? = some x) :
    (nextStates norm syms size)[firstSlot norm x + (syms.take u).count x]? = some (BitVec.ofNat 16 (size + u)) := by
  have hlt := (List.getElem?_eq_some_iff.1 hu).1
  have hread := map_getElem?_scatter (List.replicate size (0 : Half)) (places_nodup hin hcount)
    (vs := (List.range' size syms.length).map (BitVec.ofNat 16)) (by simp [numbering_length]) fun p hp => by
      obtain ⟨v, hv⟩ := List.mem_iff_getElem?.1 hp
      obtain ⟨hvlt, -⟩ := List.getElem?_eq_some_iff.1 hv
      rw [numbering_length] at hvlt
      have hy := List.getElem?_eq_getElem hvlt
      rw [places_getElem? hin hy] at hv
      obtain rfl := Option.some.inj hv
      rw [List.length_replicate]
      exact (Nat.add_lt_add_left ((count_take_lt_count hy).trans_le (hcount _)) _).trans_le
        ((firstSlot_add_le norm _).1.trans hsize)
  have hentry := congrArg (·[u]?) hread
  rw [nextStates_eq_scatter]
  simpa [places_getElem? hin hu, hlt] using hentry

/-! ### The decoding table (R241) -/

/-- The state of symbol `x` whose number is `y` (R241). -/
def stateEntry (tl x y : Nat) : FseEntry :=
  { sym := BitVec.ofNat 8 x, nb := BitVec.ofNat 4 (tl - highestBit y)
    ns := BitVec.ofNat 16 ((y <<< (tl - highestBit y)) - 2 ^ tl) }

theorem dtEntries_eq_zipWith (tl u : Nat) (next syms : List Nat) :
    dtEntries tl u next syms = List.zipWith (stateEntry tl) syms (numbering next syms) := by
  induction syms generalizing u next with
  | nil => rfl
  | cons s syms ih => simp [dtEntries, numbering, ih, stateEntry]

/-- R241: the states of a symbol are numbered in rising order, from the symbol's share. -/
theorem dtEntries_getElem? {norm : List Int} {syms : List Nat} (tl : Nat)
    (hin : ∀ x ∈ syms, x < norm.length) {u x : Nat} (hu : syms[u]? = some x) :
    (dtEntries tl 0 (norm.map countSlots) syms)[u]?
      = some (stateEntry tl x (countSlots (norm.getD x 0) + (syms.take u).count x)) := by
  have hx := hin x (List.mem_of_getElem? hu)
  rw [dtEntries_eq_zipWith, List.getElem?_zipWith, hu, numbering_getElem? (by simpa using hin) hu]
  simp [List.getD_eq_getElem?_getD, hx]

/-! ### The widths of a symbol with `k` states (R237) -/

/-- `mbo` of R237: the most bits an encoding step of a symbol with `k` states emits. -/
def mostBits (tl k : Nat) : Nat := if k = 1 then tl else tl - highestBit (k - 1)

theorem mostBits_bounds {tl k : Nat} (h1 : 1 ≤ k) (hk : k ≤ 2 ^ tl) :
    mostBits tl k ≤ tl ∧ 2 ^ tl ≤ k * 2 ^ mostBits tl k ∧ k * 2 ^ mostBits tl k ≤ 2 ^ (tl + 1) := by
  unfold mostBits
  split
  · next h => simp [h, pow_succ]
  · next h =>
    have hlow : 2 ^ highestBit (k - 1) ≤ k - 1 := Nat.log2_self_le (by omega)
    have hhigh : k - 1 < 2 ^ (highestBit (k - 1) + 1) := Nat.lt_log2_self
    obtain ⟨m, hm⟩ : ∃ m, tl = highestBit (k - 1) + m :=
      Nat.exists_eq_add_of_le ((Nat.pow_le_pow_iff_right (by decide : 1 < 2)).1 (by omega))
    generalize highestBit (k - 1) = b at *
    subst hm
    rw [Nat.add_sub_cancel_left]
    refine ⟨Nat.le_add_left m b, ?_, ?_⟩
    · rw [pow_add]
      exact Nat.mul_le_mul_right _ (by omega)
    · rw [show b + m + 1 = b + 1 + m by omega, pow_add _ (b + 1)]
      exact Nat.mul_le_mul_right _ (by omega)

/-- R237's step for one symbol, by how many states it has. -/
theorem deltas_cons (tl total : Nat) {c : Int} (hc : -1 ≤ c) (norm : List Int) :
    ∃ d, deltas tl total (c :: norm) = d :: deltas tl (total + countSlots c) norm
      ∧ (countSlots c ≠ 0 →
        d = ((mostBits tl (countSlots c) : Int) * 65536 - countSlots c * 2 ^ mostBits tl (countSlots c),
          (total : Int) - countSlots c)) := by
  by_cases h0 : c = 0
  · exact ⟨_, by rw [deltas, if_pos h0, h0]; rfl, fun h => absurd (by rw [h0]; rfl) h⟩
  by_cases h1 : c = -1 ∨ c = 1
  · have hone : countSlots c = 1 := by rcases h1 with rfl | rfl <;> rfl
    refine ⟨_, by rw [deltas, if_neg h0, if_pos h1, hone], fun _ => ?_⟩
    rw [hone, mostBits, if_pos rfl]
    norm_num
  · obtain ⟨k, rfl⟩ : ∃ k : Nat, c = k := Int.eq_ofNat_of_zero_le (by omega)
    refine ⟨_, by rw [deltas, if_neg h0, if_neg h1]; rfl, fun _ => ?_⟩
    have hk : countSlots (k : Int) = k := rfl
    rw [hk, mostBits, if_neg (by omega), show ((k : Int) - 1).toNat = k - 1 by omega]

/-- `dNB` and `dFS` of a symbol that has states, by how many it has and where they begin (R237). -/
theorem deltas_getD {norm : List Int} (hmin : ∀ c ∈ norm, -1 ≤ c) (tl total : Nat) {x k : Nat}
    (hk : countSlots (norm.getD x 0) = k) (h0 : k ≠ 0) : (deltas tl total norm).getD x (0, 0) =
      ((mostBits tl k : Int) * 65536 - k * 2 ^ mostBits tl k, (total : Int) + firstSlot norm x - k) := by
  induction norm generalizing total x with
  | nil => exact absurd hk.symm h0
  | cons c norm ih =>
    obtain ⟨d, hcons, hd⟩ := deltas_cons tl total (hmin c (by simp)) norm
    rw [hcons]
    obtain _ | x := x
    · subst hk
      simpa [firstSlot, totalSlots] using hd h0
    · rw [List.getD_cons_succ, ih (fun c hc => hmin c (by simp [hc])) _ hk]
      simp [firstSlot, totalSlots_cons, add_assoc]

/-! ### What the two tables say of one symbol -/

/-- The tables `c` and `d` of log `tl` give the symbol `x` `k` states: the encoder's numbers of R237, and for each
state its entry in the decoder, numbered from `k` on (R241). -/
structure Coded (c : FseCT) (d : FseDT) (tl x k : Nat) : Prop where
  sym : x < 256
  pos : 1 ≤ k
  le : k ≤ 2 ^ tl
  deltaNb : c.deltaNb x = (mostBits tl k : Int) * 65536 - k * 2 ^ mostBits tl k
  state : ∀ r < k, ∃ u < 2 ^ tl, c.next (r + k + c.deltaFs x) = 2 ^ tl + u ∧ d.entry u = stateEntry tl x (k + r)

section Built

variable {norm : List Int} {tl : Nat} {c : FseCT} {d : FseDT}

/-- What a compression table that is built holds (R236, R237). -/
theorem checkedCT_fields (h : checkedCT norm tl = .ok c) : normConsistent norm tl = true ∧ c.log = tl
    ∧ ∃ syms, spread norm tl = some syms ∧ c.nextState = nextStates norm syms (2 ^ tl)
      ∧ ∀ x < 256, c.has x = (norm.getD x 0 != 0)
        ∧ c.deltaNb x = (BitVec.ofInt 32 ((deltas tl 0 norm).getD x (0, 0)).1).toInt
        ∧ c.deltaFs x = (BitVec.ofInt 32 ((deltas tl 0 norm).getD x (0, 0)).2).toInt := by
  unfold checkedCT at h
  split at h
  · cases h
  next hok =>
  split at h
  · cases h
  next hbuild =>
  cases h
  unfold buildCT at hbuild
  split at hbuild
  · cases hbuild
  next syms hspread =>
  cases hbuild
  refine ⟨by simpa using hok, rfl, syms, hspread, rfl, fun x hx => ⟨?_, ?_, ?_⟩⟩
  · exact at256_tab256 _ hx _
  · exact congrArg BitVec.toInt (at256_tab256 _ hx _)
  · exact congrArg BitVec.toInt (at256_tab256 _ hx _)

/-- What a decoding table that is built holds (R240, R241). -/
theorem checkedDT_fields (h : checkedDT norm tl = .ok d) : d.log = tl
    ∧ ∃ syms, spread norm tl = some syms ∧ d.entries = dtEntries tl 0 (norm.map countSlots) syms := by
  unfold checkedDT at h
  split at h
  · cases h
  split at h
  · cases h
  next hbuild =>
  cases h
  unfold buildDT at hbuild
  split at hbuild
  · cases hbuild
  next syms hspread =>
  cases hbuild
  exact ⟨rfl, syms, hspread, rfl⟩

/-- A symbol that has states is one of the distribution. -/
theorem lt_length_of_countSlots {x : Nat} (h : countSlots (norm.getD x 0) ≠ 0) : x < norm.length := by
  by_contra hge
  exact h (by simp [List.getD_eq_getElem?_getD, List.getElem?_eq_none (not_lt.1 hge), countSlots])

/-- `dNB` and `dFS` of a symbol with `k` states fit their registers (R237, R42). -/
theorem checkedCT_deltas (h12 : tl ≤ 12) (hc : checkedCT norm tl = .ok c) {x k : Nat} (hx : x < 256)
    (hk : countSlots (norm.getD x 0) = k) (hpos : 1 ≤ k) :
    k ≤ 2 ^ tl ∧ c.deltaNb x = (mostBits tl k : Int) * 65536 - k * 2 ^ mostBits tl k
      ∧ c.deltaFs x = (firstSlot norm x : Int) - k := by
  obtain ⟨hok, -, -, -, -, hfields⟩ := checkedCT_fields hc
  obtain ⟨hmin, hfill⟩ := normConsistent_iff.1 hok
  obtain ⟨-, hdNB, hdFS⟩ := hfields x hx
  have hplaces : firstSlot norm x + k ≤ 2 ^ tl := hk ▸ hfill ▸ (firstSlot_add_le norm x).1
  have hle : k ≤ 2 ^ tl := (Nat.le_add_left k _).trans hplaces
  have hsize : 2 ^ tl ≤ 4096 := Nat.pow_le_pow_right (by decide) h12
  obtain ⟨hbits, -, hhigh⟩ := mostBits_bounds hpos hle
  have hprod : (k : Int) * 2 ^ mostBits tl k ≤ 8192 := by
    rw [pow_succ] at hhigh
    exact_mod_cast hhigh.trans (by omega)
  have hprod0 : (0 : Int) ≤ k * 2 ^ mostBits tl k := by positivity
  rw [deltas_getD hmin tl 0 hk (Nat.ne_of_gt hpos)] at hdNB hdFS
  dsimp only at hdNB hdFS
  rw [BitVec.toInt_ofInt_eq_self (by decide) (by omega) (by omega)] at hdNB hdFS
  exact ⟨hle, hdNB, by simpa using hdFS⟩

variable (h5 : 5 ≤ tl) (h12 : tl ≤ 12) (hc : checkedCT norm tl = .ok c) (hd : checkedDT norm tl = .ok d)

include h5 h12 hc hd

/-- Every symbol the compression table holds is coded, with as many states as its share. -/
theorem coded_of_has {x : Nat} (hx : c.has x = true) : Coded c d tl x (countSlots (norm.getD x 0)) := by
  obtain ⟨hok, -, syms, hspread, hnext, hfields⟩ := checkedCT_fields hc
  obtain ⟨-, syms', hspread', hentries⟩ := checkedDT_fields hd
  obtain rfl := Option.some.inj (hspread.symm.trans hspread')
  obtain ⟨-, hfill⟩ := normConsistent_iff.1 hok
  have hcount := spread_count h5 hok hspread
  have hin : ∀ y ∈ syms, y < norm.length := fun y hy =>
    lt_length_of_countSlots (hcount y ▸ (List.count_pos_iff.2 hy).ne')
  have hx256 : x < 256 := by
    by_contra hge
    simp [FseCT.has, at256, hge] at hx
  have hpos : 1 ≤ countSlots (norm.getD x 0) := by
    rw [(hfields x hx256).1, bne_iff_ne] at hx
    exact Nat.one_le_iff_ne_zero.2 (Int.natAbs_ne_zero.2 hx)
  obtain ⟨hle, hdNB, hdFS⟩ := checkedCT_deltas h12 hc hx256 rfl hpos
  refine ⟨hx256, hpos, hle, hdNB, fun r hr => ?_⟩
  obtain ⟨u, hu, rfl⟩ := exists_occurrence ((hcount x).symm ▸ hr)
  have hulen : u < 2 ^ tl := spread_length hspread ▸ (List.getElem?_eq_some_iff.1 hu).1
  refine ⟨u, hulen, ?_, ?_⟩
  · have hplace : (((syms.take u).count x : Nat) + (countSlots (norm.getD x 0) : Nat) + c.deltaFs x).toNat
        = firstSlot norm x + (syms.take u).count x := by rw [hdFS]; omega
    have hsize : 2 ^ tl ≤ 4096 := Nat.pow_le_pow_right (by decide) h12
    rw [FseCT.next, hplace, hnext, List.getD_eq_getElem?_getD,
      nextStates_getElem? hin (fun y => (hcount y).le) hfill.le hu, Option.getD_some, BitVec.toNat_ofNat,
      Nat.mod_eq_of_lt (by omega)]
  · rw [FseDT.entry, hentries, List.getD_eq_getElem?_getD, dtEntries_getElem? tl hin hu, Option.getD_some]

end Built

end Sys2Proof.Machine
end

section
/-! Encoding and decoding steps (R260 to R268): a decoder undoes an encoder's step, and so the whole string. -/

namespace Sys2Proof.Machine

/-! ### One step (R262, R264, R268) -/

/-- An encoding step shifts the state down to a number between `k` and `2k - 1`: by `mbo` bits where the state is at
least `k * 2 ^ mbo`, and else by one bit less. -/
theorem encWidth_bounds {tl k st : Nat} (h1 : 1 ≤ k) (hk : k ≤ 2 ^ tl) (h12 : tl ≤ 12) (hlow : 2 ^ tl ≤ st)
    (hhigh : st < 2 ^ (tl + 1)) {n : Nat}
    (hn : (((st : Int) + ((mostBits tl k : Int) * 65536 - k * 2 ^ mostBits tl k)) / 2 ^ 16).toNat = n) :
    k * 2 ^ n ≤ st ∧ st < 2 * (k * 2 ^ n) := by
  obtain ⟨-, hmost, hleast⟩ := mostBits_bounds h1 hk
  have hsize : 2 ^ tl ≤ 4096 := Nat.pow_le_pow_right (by decide) h12
  rw [pow_succ] at hhigh hleast
  generalize mostBits tl k = m at *
  obtain ⟨b, hb⟩ : ∃ b, k * 2 ^ m = b := ⟨_, rfl⟩
  have hbInt : (k : Int) * 2 ^ m = b := by exact_mod_cast hb
  rw [hbInt] at hn
  rcases le_or_gt b st with hle | hgt
  · obtain rfl : n = m := by omega
    omega
  · obtain _ | m := m
    · omega
    · obtain rfl : n = m := by omega
      rw [pow_succ] at hb
      exact ⟨by linarith, by linarith⟩

section Coded

variable {c : FseCT} {d : FseDT} {tl x k : Nat} (h : Coded c d tl x k) (h12 : tl ≤ 12)

include h h12

/-- R260: the begin state is the symbol's first. -/
theorem Coded.encBegin_state : ∃ u < 2 ^ tl, encBegin c x = 2 ^ tl + u ∧ d.entry u = stateEntry tl x k := by
  obtain ⟨u, hu, hnext, hentry⟩ := h.state 0 h.pos
  refine ⟨u, hu, ?_, by simpa using hentry⟩
  obtain ⟨-, hmost, hleast⟩ := mostBits_bounds h.pos h.le
  have hsize : 2 ^ (tl + 1) ≤ 8192 := Nat.pow_le_pow_right (by decide : 0 < 2) (Nat.succ_le_succ h12)
  obtain ⟨b, hb⟩ : ∃ b, k * 2 ^ mostBits tl k = b := ⟨_, rfl⟩
  have hbInt : (k : Int) * 2 ^ mostBits tl k = b := by exact_mod_cast hb
  have hout : (c.deltaNb x + 2 ^ 15) / 2 ^ 16 = mostBits tl k := by rw [h.deltaNb, hbInt]; omega
  have hshift : ((mostBits tl k : Int) * 2 ^ 16 - c.deltaNb x) / 2 ^ mostBits tl k = k := by
    rw [h.deltaNb, show ∀ a b : Int, a * 2 ^ 16 - (a * 65536 - b) = b by intros; ring]
    exact Int.mul_ediv_cancel _ (by positivity)
  rw [← hnext, encBegin, hout, Int.toNat_natCast, hshift]
  simp

variable {st : Nat} (hlow : 2 ^ tl ≤ st) (hhigh : st < 2 ^ (tl + 1))

include hlow hhigh

/-- R262: the next state's entry in the decoder leads back to the state, by the bits emitted. -/
theorem Coded.encNext_state : ∃ u < 2 ^ tl, encNext c st x = 2 ^ tl + u ∧ (d.entry u).sym.toNat = x
    ∧ (d.entry u).nb.toNat = (encField c st x).width
    ∧ (d.entry u).ns.toNat + (encField c st x).val + 2 ^ tl = st := by
  obtain ⟨n, hn⟩ : ∃ n, encWidth c st x = n := ⟨_, rfl⟩
  obtain ⟨hge, hlt⟩ := encWidth_bounds h.pos h.le h12 hlow hhigh (n := n) (by rw [← hn, encWidth, h.deltaNb])
  obtain ⟨y, hy⟩ : ∃ y, st >>> n = y := ⟨_, rfl⟩
  have hdiv : st / 2 ^ n = y := by rw [← hy, Nat.shiftRight_eq_div_pow]
  have hky : k ≤ y := by rw [← hdiv, Nat.le_div_iff_mul_le (Nat.two_pow_pos n)]; exact hge
  have hyk : y < 2 * k := by rw [← hdiv, Nat.div_lt_iff_lt_mul (Nat.two_pow_pos n), Nat.mul_assoc]; exact hlt
  have hntl : n ≤ tl := by
    have : 2 ^ n < 2 ^ (tl + 1) := (Nat.le_mul_of_pos_left _ h.pos).trans_lt (hge.trans_lt hhigh)
    exact Nat.lt_succ_iff.1 ((Nat.pow_lt_pow_iff_right (by decide : 1 < 2)).1 this)
  have hfloor : 2 ^ (tl - n) ≤ y := by
    rw [← hdiv, Nat.le_div_iff_mul_le (Nat.two_pow_pos n), ← pow_add, Nat.sub_add_cancel hntl]
    exact hlow
  have hbit : highestBit y = tl - n := by
    refine highestBit_eq hfloor ?_
    rw [← hdiv, Nat.div_lt_iff_lt_mul (Nat.two_pow_pos n), ← pow_add, Nat.add_right_comm, Nat.sub_add_cancel hntl]
    exact hhigh
  obtain ⟨u, hu, hnext, hentry⟩ := h.state (y - k) (by omega)
  rw [Nat.add_sub_cancel' hky] at hentry
  have hsplit : y * 2 ^ n + st % 2 ^ n = st := by rw [← hdiv]; exact Nat.div_add_mod' st _
  have hkept : 2 ^ tl ≤ y * 2 ^ n := by
    have := Nat.mul_le_mul_right (2 ^ n) hfloor
    rwa [← pow_add, Nat.sub_add_cancel hntl] at this
  have hsize : 2 ^ (tl + 1) ≤ 8192 := Nat.pow_le_pow_right (by decide : 0 < 2) (Nat.succ_le_succ h12)
  refine ⟨u, hu, ?_, ?_, ?_, ?_⟩
  · rw [← hnext, encNext, hn, hy]
    congr 2
    omega
  · rw [hentry]
    exact (BitVec.toNat_ofNat _ _).trans (Nat.mod_eq_of_lt h.sym)
  · rw [hentry, encField, hn, stateEntry, hbit, Nat.sub_sub_self hntl, BitVec.toNat_ofNat]
    exact Nat.mod_eq_of_lt (by omega)
  · rw [hentry, encField, hn, stateEntry, hbit, Nat.sub_sub_self hntl, Nat.shiftLeft_eq, BitVec.toNat_ofNat,
      Nat.mod_eq_of_lt (by omega)]
    dsimp only
    omega

end Coded

/-- Settles O35: the next state is the one whose number is the old state, shifted down by the bits emitted. -/
theorem fseStepsInvert : Obligations.FseStepsInvert := by
  unfold Obligations.FseStepsInvert
  intro norm tl c d h5 h12 _ hc hd x hx
  have hcoded := coded_of_has h5 h12 hc hd hx
  refine ⟨?_, fun st hlow hhigh => ?_⟩
  · obtain ⟨u, hu, hbegin, hentry⟩ := hcoded.encBegin_state h12
    rw [hbegin, Nat.add_sub_cancel_left, hentry, pow_succ]
    exact ⟨by omega, by omega, (BitVec.toNat_ofNat _ _).trans (Nat.mod_eq_of_lt hcoded.sym)⟩
  · obtain ⟨u, hu, hnext, hsym, hnb, hns⟩ := hcoded.encNext_state h12 hlow hhigh
    rw [hnext, Nat.add_sub_cancel_left, pow_succ]
    exact ⟨by omega, by omega, hsym, hnb, hns⟩

/-! ### The two-state stream (R270, R275, R277) -/

/-- The low bits of a stream's value are the fields `fs`, whatever lies above them. -/
def LowFields (v : Nat) (fs : List BitField) : Prop :=
  (∀ f ∈ fs, f.val < 2 ^ f.width) ∧ ∃ hi, v = fieldsValue fs + 2 ^ totalBits fs * hi

/-- The reader of a stream that stands above the fields `fs`. -/
def readerAbove (v : Nat) (fs : List BitField) : Stream := { v := v, pos := totalBits fs }

theorem LowFields.of_append {v : Nat} {fs gs : List BitField} (h : LowFields v (fs ++ gs)) : LowFields v fs := by
  obtain ⟨hfits, hi, rfl⟩ := h
  refine ⟨fun f hf => hfits f (List.mem_append_left _ hf), fieldsValue gs + 2 ^ totalBits gs * hi, ?_⟩
  rw [fieldsValue_append, totalBits_append, pow_add]
  ring

/-- A read of the last field gives its value and leaves the reader above the others (R151). -/
theorem LowFields.read_last {v : Nat} {fs : List BitField} {f : BitField} (h : LowFields v (fs ++ [f])) :
    (readerAbove v (fs ++ [f])).peek f.width = f.val
    ∧ (readerAbove v (fs ++ [f])).skip f.width = readerAbove v fs := by
  obtain ⟨hfits, hi, rfl⟩ := h
  refine ⟨peek_field hi (fun g hg => hfits g (List.mem_append_left _ hg)) (hfits f (by simp)), ?_⟩
  simp [readerAbove, Stream.skip]

theorem compress2Loop_fits (c : FseCT) (xs : List Byte) (a b : Nat) :
    ∀ f ∈ compress2Loop c xs a b, f.val < 2 ^ f.width := by
  have fits (v n : Nat) : v % 2 ^ n < 2 ^ n := Nat.mod_lt _ (Nat.two_pow_pos n)
  induction xs generalizing a b with
  | nil => simp [compress2Loop, encFinish, fits]
  | cons x xs ih => simpa [compress2Loop, encField, fits] using ih _ _

/-- A step of R275's loop that has bits left. -/
theorem decompress2Loop_step {d : FseDT} {cap len fuel : Nat} {r : Stream} {sa sb o : Nat} {l : List Byte}
    (hbits : 0 ≤ (r.skip (d.entry sa).nb.toNat).pos)
    (h : decompress2Loop d cap len fuel (r.skip (d.entry sa).nb.toNat) sb
      ((d.entry sa).ns.toNat + r.peek (d.entry sa).nb.toNat) (o + 1) = .ok l) :
    decompress2Loop d cap len (fuel + 1) r sa sb o = .ok ((d.entry sa).sym :: l) := by
  have hroom := decompress2Loop_length h
  rw [decompress2Loop, if_neg (by omega)]
  dsimp only
  rw [if_neg (not_lt.2 hbits), h]

/-- The last step of R275's loop. -/
theorem decompress2Loop_last {d : FseDT} {cap len fuel : Nat} {r : Stream} {sa sb o : Nat}
    (hroom : o + 2 ≤ cap) (hbits : (r.skip (d.entry sa).nb.toNat).pos < 0) :
    decompress2Loop d cap len (fuel + 1) r sa sb o = .ok [(d.entry sa).sym, (d.entry sb).sym] := by
  rw [decompress2Loop, if_neg (not_lt.2 hroom)]
  exact if_pos hbits

/-- `FSE_DECOMPRESS2` from an open stream (R275). -/
def decompress2From (d : FseDT) (cap len fuel : Nat) (r : Stream) : Except Err (List Byte) :=
  decompress2Loop d cap len fuel ((r.skip d.log).skip d.log) (r.peek d.log) ((r.skip d.log).peek d.log) 0

/-- A closed stream opens above its fields (R157, R160). -/
theorem openStream_closedStream {fs : List BitField} {cap : Nat} (hfits : ∀ f ∈ fs, f.val < 2 ^ f.width)
    (hne : closedStream fs cap ≠ []) :
    ∃ v, openStream (closedStream fs cap) = .ok (readerAbove v fs) ∧ LowFields v fs := by
  have hvalue := leValue_closedStream hfits hne
  have hlt := fieldsValue_lt hfits
  exact ⟨_, openStream_of_value (closedStream_length hne) (by omega) (by rw [pow_succ]; omega), hfits, 1, by omega⟩

/-- Without a share of the whole table every symbol has fewer states (log entry 25). -/
theorem countSlots_lt_of_forall_lt {norm : List Int} {tl : Nat} (htl : tl ≠ 0) (hmin : ∀ n ∈ norm, -1 ≤ n)
    (hmax : ∀ n ∈ norm, n < 2 ^ tl) (x : Nat) : countSlots (norm.getD x 0) < 2 ^ tl := by
  have htwo : 1 < 2 ^ tl := Nat.one_lt_two_pow htl
  rw [List.getD_eq_getElem?_getD]
  cases hget : norm[x]? with
  | none => exact Nat.two_pow_pos tl
  | some n =>
    have hlow := hmin n (List.mem_of_getElem? hget)
    have hhigh := hmax n (List.mem_of_getElem? hget)
    zify at htwo
    rw [Option.getD_some, countSlots]
    zify
    exact abs_lt.2 ⟨by omega, hhigh⟩

/-- A symbol that does not have the whole table begins in a state that reads bits. -/
theorem stateEntry_nb_pos {tl k : Nat} (x : Nat) (h12 : tl ≤ 12) (hpos : 1 ≤ k) (hk : k < 2 ^ tl) :
    0 < (stateEntry tl x k).nb.toNat := by
  have hbit : highestBit k < tl := (Nat.log2_lt (by omega)).2 hk
  rw [stateEntry, BitVec.toNat_ofNat]
  omega

theorem decompress2_of_open {d : FseDT} {bs : List Byte} {cap : Nat} {r : Stream} (h : openStream bs = .ok r) :
    decompress2 d bs cap = decompress2From d cap bs.length (cap + 1) r := by
  rw [decompress2, h]
  rfl

section TwoState

variable {c : FseCT} {d : FseDT} {tl cap len : Nat} (h12 : tl ≤ 12)

include h12

/-- At the begin states, above the last bits, the loop ends with the two symbols they show: the state it stands at reads
bits that are not there. -/
theorem decompress2Loop_begins {x y : Byte} {kx ky u w v fuel o : Nat} (hx : d.entry u = stateEntry tl x.toNat kx)
    (hy : d.entry w = stateEntry tl y.toNat ky) (hpos : 1 ≤ kx) (hlt : kx < 2 ^ tl) (hroom : o + 2 ≤ cap) :
    decompress2Loop d cap len (fuel + 1) (readerAbove v []) u w o = .ok [x, y] := by
  have hbits : 0 < (d.entry u).nb.toNat := hx ▸ stateEntry_nb_pos _ h12 hpos hlt
  rw [decompress2Loop_last hroom (by simpa [readerAbove, Stream.skip] using hbits), hx, hy]
  simp [stateEntry]

variable (hclog : c.log = tl) (hdlog : d.log = tl) (hcoded : ∀ x, c.has x = true → ∃ k, Coded c d tl x k)

include hclog hdlog hcoded

/-- Decoding the fields of R270's loop undoes its steps, the last symbol encoded first, down to the fields before them
and the states the loop began with. -/
theorem decompress2From_compress2Loop {xs : List Byte} (hxs : ∀ x ∈ xs, c.has x.toNat = true) {a b v fuel : Nat}
    (ha : 2 ^ tl ≤ a ∧ a < 2 ^ (tl + 1)) (hb : 2 ^ tl ≤ b ∧ b < 2 ^ (tl + 1)) {pre : List BitField}
    (hv : LowFields v (pre ++ compress2Loop c xs a b)) {l : List Byte}
    (h : decompress2Loop d cap len fuel (readerAbove v pre) (b - 2 ^ tl) (a - 2 ^ tl) xs.length = .ok l) :
    decompress2From d cap len (fuel + xs.length) (readerAbove v (pre ++ compress2Loop c xs a b))
      = .ok (xs.reverse ++ l) := by
  induction xs generalizing a b pre fuel l with
  | nil =>
    have hfinish {st : Nat} (hst : 2 ^ tl ≤ st ∧ st < 2 ^ (tl + 1)) :
        encFinish c st = { val := st - 2 ^ tl, width := tl } := by
      rw [encFinish, hclog, Nat.mod_eq_sub_mod hst.1, Nat.mod_eq_of_lt (by rw [pow_succ] at hst; omega)]
    rw [compress2Loop, hfinish ha, hfinish hb, List.append_cons] at hv ⊢
    obtain ⟨hpeekb, hskipb⟩ := hv.read_last
    obtain ⟨hpeeka, hskipa⟩ := hv.of_append.read_last
    dsimp only at hpeekb hskipb hpeeka hskipa
    rw [decompress2From, hdlog, hpeekb, hskipb, hpeeka, hskipa]
    exact h
  | cons x xs ih =>
    obtain ⟨k, hx⟩ := hcoded x.toNat (hxs x (by simp))
    obtain ⟨u, hu, hnext, hsym, hnb, hns⟩ := hx.encNext_state h12 ha.1 ha.2
    rw [compress2Loop, List.append_cons] at hv ⊢
    obtain ⟨hpeek, hskip⟩ := hv.of_append.read_last
    have hstep : decompress2Loop d cap len (fuel + 1) (readerAbove v (pre ++ [encField c a x.toNat]))
        (encNext c a x.toNat - 2 ^ tl) (b - 2 ^ tl) xs.length = .ok (x :: l) := by
      generalize encField c a x.toNat = f at *
      rw [hnext, Nat.add_sub_cancel_left, ← BitVec.eq_of_toNat_eq hsym]
      refine decompress2Loop_step ?_ ?_
      · rw [hnb, hskip]
        exact Int.natCast_nonneg _
      · rw [hnb, hskip, hpeek, Nat.eq_sub_of_add_eq hns]
        exact h
    have := ih (fun y hy => hxs y (by simp [hy])) hb (by rw [hnext, pow_succ]; omega) hv hstep
    rw [List.length_cons, ← Nat.add_assoc, Nat.add_right_comm, this]
    simp

end TwoState

/-- Settles O37: the decoder undoes the encoder's steps down to the two begin states, the second of which reads bits
that are no longer there. -/
theorem twoStateRoundTrip : Obligations.TwoStateRoundTrip := by
  unfold Obligations.TwoStateRoundTrip
  intro norm tl c d h5 h12 _ hmax hc hd xs cap cap' h2 hxs hne hcap
  have hcoded {x : Nat} (hx : c.has x = true) := coded_of_has h5 h12 hc hd hx
  obtain ⟨hok, hclog, -⟩ := checkedCT_fields hc
  obtain ⟨hdlog, -⟩ := checkedDT_fields hd
  obtain ⟨zs, rfl⟩ : ∃ zs : List Byte, xs = zs.reverse := ⟨xs.reverse, by simp⟩
  obtain _ | ⟨y1, _ | ⟨y2, rest⟩⟩ := zs
  · simp at h2
  · simp at h2
  simp only [List.mem_reverse, List.forall_mem_cons] at hxs
  obtain ⟨hy1, hy2, hrest⟩ := hxs
  obtain ⟨u1, hu1, hbegin1, hentry1⟩ := (hcoded hy1).encBegin_state h12
  obtain ⟨u2, hu2, hbegin2, hentry2⟩ := (hcoded hy2).encBegin_state h12
  have hfields : compress2Fields c (y1 :: y2 :: rest).reverse = compress2Loop c rest (2 ^ tl + u1) (2 ^ tl + u2) := by
    rw [compress2Fields, List.reverse_reverse, ← hbegin1, ← hbegin2]
  rw [compress2, hfields] at hne ⊢
  obtain ⟨v, hopen, hv⟩ := openStream_closedStream (compress2Loop_fits c rest _ _) hne
  obtain ⟨fuel, rfl⟩ : ∃ fuel, cap' = fuel + rest.length := ⟨cap' - rest.length, by simp at hcap; omega⟩
  have hlt := countSlots_lt_of_forall_lt (by omega) (normConsistent_iff.1 hok).1 hmax y2.toNat
  have hlast (len : Nat) : decompress2Loop d (fuel + rest.length) len (fuel + 1) (readerAbove v [])
      (2 ^ tl + u2 - 2 ^ tl) (2 ^ tl + u1 - 2 ^ tl) rest.length = .ok [y2, y1] := by
    rw [Nat.add_sub_cancel_left, Nat.add_sub_cancel_left]
    exact decompress2Loop_begins h12 hentry2 hentry1 (hcoded hy2).pos hlt (by simpa using hcap)
  have hrange {u : Nat} (hu : u < 2 ^ tl) : 2 ^ tl ≤ 2 ^ tl + u ∧ 2 ^ tl + u < 2 ^ (tl + 1) := by
    rw [pow_succ]
    omega
  have hloop (len : Nat) := decompress2From_compress2Loop (pre := []) h12 hclog hdlog (fun x hx => ⟨_, hcoded hx⟩)
    hrest (hrange hu1) (hrange hu2) hv (hlast len)
  rw [decompress2_of_open hopen, List.reverse_cons, List.reverse_cons, List.append_assoc, Nat.add_right_comm]
  exact hloop _

end Sys2Proof.Machine
end

section
/-! The FSE step commands on the architectural cursors (R260 to R267): their checks in order and what they leave. -/

namespace Sys2Proof.Machine

/-! ### The encoder's functions, on the table's registers (R42, R260, R262) -/

theorem FseCT.has_fin (t : FseCT) (x : Fin 256) : t.has x.val = t.present[x] := at256_fin _ _ _

theorem FseCT.has_eq_false_of_lt (t : FseCT) {a : Nat} (h : 255 < a) : t.has a = false := dif_neg (by omega)

/-- The states of R263. -/
theorem FseCT.stateOk_iff (t : FseCT) (st : Nat) : t.stateOk st = true ↔
    (t.log = 0 ∧ st = 0) ∨ (1 ≤ t.log ∧ 2 ^ t.log ≤ st ∧ st < 2 ^ (t.log + 1)) := by
  unfold FseCT.stateOk
  split
  · next h => simp [h]
  · next h => simp [h, Nat.one_le_iff_ne_zero]

/-- A state of the table in a state register. -/
theorem FseCT.ofNat_next (t : FseCT) (i : Int) : BitVec.ofNat 16 (t.next i) = t.nextState.getD i.toNat 0 := by
  rw [FseCT.next, BitVec.ofNat_toNat, BitVec.setWidth_eq]

theorem encBegin_fin (t : FseCT) (x : Fin 256) : encBegin t x.val =
    let ob : Int := (t.dNB[x].toInt + 2 ^ 15) >>> (16 : Nat)
    t.next (((ob * 2 ^ 16 - t.dNB[x].toInt) >>> ob.toNat) + t.dFS[x].toInt) := by
  simp only [encBegin, FseCT.deltaNb, FseCT.deltaFs, at256_fin, Int.shiftRight_eq_div_pow]
  rfl

theorem encWidth_fin (t : FseCT) (st : Nat) (x : Fin 256) :
    encWidth t st x.val = (((st : Int) + t.dNB[x].toInt) >>> (16 : Nat)).toNat := by
  simp only [encWidth, FseCT.deltaNb, at256_fin, Int.shiftRight_eq_div_pow]
  rfl

/-! ### The commands on a valid table -/

section Encoder

variable {s : State} {k e : Fin 4}

theorem fseEncoder_noTable (hk : s.ct[k] = none) :
    Raises (.fseEncBegin (nib k) (nib e)) s .stateInvalid 0
    ∧ Raises (.fseEnc (nib k) (nib e)) s .stateInvalid 0
    ∧ Raises (.fseEncFinish (nib k) (nib e)) s .stateInvalid 0 := by
  refine ⟨raises_of_raise ?_, raises_of_raise ?_, raises_of_raise ?_⟩
  · simp only [exec, execFseEncBegin, withFour_nib, hk]
  · simp only [exec, execFseEnc, withFour_nib, hk]
  · simp only [exec, execFseEncFinish, withFour_nib, hk]

variable {T : FseCT} (hk : s.ct[k] = some T)

include hk

theorem exec_fseEncBegin : exec (.fseEncBegin (nib k) (nib e)) s =
    if T.has s.a0 = false then raise .argRange s else .next (s.setES e (encBegin T s.a0)) := by
  simp only [exec, execFseEncBegin, withFour_nib, hk, Bool.not_eq_true']

theorem exec_fseEnc : exec (.fseEnc (nib k) (nib e)) s =
    if s.bw.valid = false ∨ T.stateOk (s.es[e]).toNat = false then raise .stateInvalid s
    else if T.has s.a0 = false then raise .argRange s
    else if Config.bwAcc < s.bw.cnt + (encField T (s.es[e]).toNat s.a0).width then raise .bwAccFull s
    else .next ((s.addField (encField T (s.es[e]).toNat s.a0)).setES e (encNext T (s.es[e]).toNat s.a0)) := by
  simp only [exec, execFseEnc, withFour_nib, hk, Bool.not_eq_true', ite_or]

theorem exec_fseEncFinish : exec (.fseEncFinish (nib k) (nib e)) s =
    if s.bw.valid = false ∨ T.stateOk (s.es[e]).toNat = false then raise .stateInvalid s
    else if Config.bwAcc < s.bw.cnt + T.log then raise .bwAccFull s
    else .next (s.addField (encFinish T (s.es[e]).toNat)).flushWriter := by
  simp only [exec, execFseEncFinish, withFour_nib, hk, Bool.not_eq_true', ite_or]
  rfl

end Encoder

section Decoder

variable {s : State} {k e : Fin 4}

theorem fseDecoder_noTable (hk : s.dt[k] = none) :
    Raises (.fseDecInit (nib k) (nib e)) s .stateInvalid 0
    ∧ ∀ u, Raises (.fseDec (nib k) (nib e) u) s .stateInvalid 0 := by
  refine ⟨raises_of_raise ?_, fun u => raises_of_raise ?_⟩
  · simp only [exec, execFseDecInit, withFour_nib, hk]
  · simp only [exec, execFseDec, withFour_nib, hk]

variable {T : FseDT} (hk : s.dt[k] = some T)

include hk

theorem exec_fseDecInit : exec (.fseDecInit (nib k) (nib e)) s =
    if s.br.valid = false then raise .stateInvalid s
    else if Config.brWindow < s.br.unl + T.log then raise .brNeedsLoad s
    else .next ((s.readerSkip T.log).setDS e (s.readerBits T.log)) := by
  simp only [exec, execFseDecInit, withFour_nib, hk, Bool.not_eq_true']

theorem exec_fseDec_past (h : 2 ^ T.log ≤ (s.ds[e]).toNat) (u : Bool) :
    exec (.fseDec (nib k) (nib e) u) s = raise .stateInvalid s := by
  simp only [exec, execFseDec, withFour_nib, hk, if_pos h]

variable (hst : (s.ds[e]).toNat < 2 ^ T.log)

include hst

theorem exec_fseDec_show : exec (.fseDec (nib k) (nib e) false) s =
    .next (s.setRes0 (res64 (T.entry (s.ds[e]).toNat).sym.toNat)) := by
  simp only [exec, execFseDec, withFour_nib, hk, if_neg (not_le.2 hst), Bool.not_false, if_true]

theorem exec_fseDec_update : exec (.fseDec (nib k) (nib e) true) s =
    if s.br.valid = false then raise .stateInvalid s
    else if Config.brWindow < s.br.unl + (T.entry (s.ds[e]).toNat).nb.toNat then raise .brNeedsLoad s
    else .next (((s.readerSkip (T.entry (s.ds[e]).toNat).nb.toNat).setDS e
      ((T.entry (s.ds[e]).toNat).ns.toNat + s.readerBits (T.entry (s.ds[e]).toNat).nb.toNat)).setRes0
      (res64 (T.entry (s.ds[e]).toNat).sym.toNat)) := by
  simp only [exec, execFseDec, withFour_nib, hk, if_neg (not_le.2 hst), Bool.not_true, Bool.false_eq_true, if_false,
    Bool.not_eq_true']

end Decoder

/-- Settles O34: each command's answer on a valid table, with its checks in order. -/
theorem fseStepCommands : Obligations.FseStepCommands := by
  unfold Obligations.FseStepCommands
  refine ⟨fun s k e => ⟨fseEncoder_noTable, fun T hk => ?_⟩, fun s k e => ⟨fseDecoder_noTable, fun T hk => ?_⟩⟩
  · intro st stateOk
    have hbegin := exec_fseEncBegin (e := e) hk
    have henc := exec_fseEnc (e := e) hk
    have hfinish := exec_fseEncFinish (e := e) hk
    have hok : stateOk ↔ T.stateOk st = true := (T.stateOk_iff st).symm
    have hready (hv : s.bw.valid = true) (hst : stateOk) : ¬(s.bw.valid = false ∨ T.stateOk st = false) := by
      simp [hv, hok.1 hst]
    refine ⟨fun ha => raises_of_raise (hbegin.trans (if_pos (T.has_eq_false_of_lt ha))), fun h => ?_,
      fun hv hst ha => ?_, fun x hx => ?_, fun hv hst => ?_⟩
    · rw [hok, Bool.not_eq_true] at h
      exact ⟨raises_of_raise (henc.trans (if_pos h)), raises_of_raise (hfinish.trans (if_pos h))⟩
    · rw [if_neg (hready hv hst), if_pos (T.has_eq_false_of_lt ha)] at henc
      exact raises_of_raise henc
    · rw [← T.has_fin]
      rw [hx] at hbegin henc
      refine ⟨fun h => raises_of_raise (hbegin.trans (if_pos h)), fun hv hst h => ?_, fun h => ?_,
        fun hv hst h => ?_⟩
      · rw [if_neg (hready hv hst), if_pos h] at henc
        exact raises_of_raise henc
      · rw [hbegin, if_neg (by simp [h]), encBegin_fin, State.setES, FseCT.ofNat_next]
      · rw [if_neg (hready hv hst), if_neg (by simp [h]), encField, encWidth_fin] at henc
        refine ⟨fun hfull => raises_of_raise (henc.trans (if_pos hfull)), fun hfits => ?_⟩
        rw [henc, if_neg (not_lt.2 hfits), State.setES, encNext, encWidth_fin, FseCT.ofNat_next, FseCT.deltaFs,
          at256_fin]
        rfl
    · rw [if_neg (hready hv hst)] at hfinish
      refine ⟨fun hfull => raises_of_raise (hfinish.trans (if_pos hfull)), fun hfits => ?_⟩
      rw [if_neg (not_lt.2 hfits)] at hfinish
      exact ⟨hfinish.trans (execBwFlush_flushes (s := s.addField (encFinish T st)) hv).symm, _, hfinish, rfl⟩
  · intro st x
    have hinit := exec_fseDecInit (e := e) hk
    have hvalid : s.br.valid = true → ¬ s.br.valid = false := by simp
    refine ⟨fun hv => raises_of_raise (hinit.trans (if_pos hv)), fun hv hfull => ?_, fun hv hfits => ?_,
      fun hst u => raises_of_raise (exec_fseDec_past hk hst u), fun hst => ?_⟩
    · rw [if_neg (hvalid hv), if_pos hfull] at hinit
      exact raises_of_raise hinit
    · rw [hinit, if_neg (hvalid hv), if_neg (not_lt.2 hfits)]
      rfl
    · have hshow := exec_fseDec_show hk hst
      have hupdate := exec_fseDec_update hk hst
      rw [res64_toNat_zeroExtend (by decide)] at hshow hupdate
      refine ⟨hshow, fun hv => raises_of_raise (hupdate.trans (if_pos hv)), fun hv hfull => ?_, fun hv hfits => ?_⟩
      · rw [if_neg (hvalid hv), if_pos hfull] at hupdate
        exact raises_of_raise hupdate
      · rw [hupdate, if_neg (hvalid hv), if_neg (not_lt.2 hfits)]
        rfl

end Sys2Proof.Machine
end

section
/-! Huffman streams decode back to the string they encode (R313, R350 to R357): a peek of the table's log begins with
the code of the next symbol, and the jump table leads to the four streams. -/

namespace Sys2Proof.Machine

/-! ### Reading a code (R165, R333) -/

/-- A longer peek begins with the bits of a shorter one that are all there. -/
theorem streamBits_shiftRight {v pos w n : Nat} (hpos : w ≤ pos) (hn : w ≤ n) :
    streamBits v pos n >>> (n - w) = streamBits v pos w := by
  obtain ⟨extra, rfl⟩ : ∃ extra, n = w + extra := ⟨n - w, by omega⟩
  rw [streamBits_of_le hpos, Nat.add_sub_cancel_left, Nat.shiftRight_eq_div_pow]
  by_cases hlong : w + extra ≤ pos
  · have hsplit : pos - w = pos - (w + extra) + extra := by omega
    rw [streamBits_of_le hlong, Nat.add_comm w extra, pow_add, Nat.mod_mul_right_div_self, Nat.div_div_eq_div_mul,
      ← pow_add, hsplit, Nat.add_comm extra w]
  · obtain ⟨below, rfl⟩ : ∃ below, pos = w + below := ⟨pos - w, by omega⟩
    have hpeek : streamBits v ((w + below : Nat) : Int) (w + extra) = v % 2 ^ (w + below) * 2 ^ (extra - below) := by
      rw [streamBits, if_neg (by omega), if_neg (by omega), if_pos (by omega), Int.toNat_natCast, Nat.shiftLeft_eq]
      congr 2
      omega
    have hsplit : 2 ^ extra = 2 ^ below * 2 ^ (extra - below) := by rw [← pow_add]; congr; omega
    rw [hpeek, hsplit, Nat.mul_div_mul_right _ _ (Nat.two_pow_pos _), Nat.add_sub_cancel_left, Nat.add_comm w, pow_add,
      Nat.mod_mul_right_div_self]

/-- A peek at least as long as the last field begins with its value. -/
theorem LowFields.peek_last {v : Nat} {fs : List BitField} {f : BitField} (h : LowFields v (fs ++ [f])) {n : Nat}
    (hn : f.width ≤ n) : (readerAbove v (fs ++ [f])).peek n >>> (n - f.width) = f.val := by
  have hpos : f.width ≤ totalBits (fs ++ [f]) := by simp
  rw [← h.read_last.1]
  exact streamBits_shiftRight hpos hn

section Matching

variable {T : HufTable} {d : HufDec} (hmatch : TableMatches T d)

include hmatch

/-- Above the field of a symbol with a code, the decoding table shows the symbol and its length. -/
theorem TableMatches.entry_peek {x : Byte} (hx : T.lenOf x.toNat ≠ 0) {v : Nat} {fs : List BitField}
    (hv : LowFields v (fs ++ [T.field x])) :
    (d.entry ((readerAbove v (fs ++ [T.field x])).peek d.log)).sym = x
      ∧ (d.entry ((readerAbove v (fs ++ [T.field x])).peek d.log)).nb.toNat = T.lenOf x.toNat := by
  obtain ⟨hlen, -, hentry⟩ := hmatch.2 x.toNat x.isLt hx
  obtain ⟨hsym, hnb⟩ := hentry _ (streamBits_lt _ _ _) (hv.peek_last hlen)
  exact ⟨BitVec.eq_of_toNat_eq hsym, hnb⟩

/-- Decoding above the symbols' fields gives the symbols and consumes the fields. -/
theorem TableMatches.decodeSymbols_fields {xs : List Byte} (hxs : ∀ x ∈ xs, T.lenOf x.toNat ≠ 0) {v : Nat}
    (hv : LowFields v (xs.reverse.map T.field)) :
    decodeSymbols d xs.length (readerAbove v (xs.reverse.map T.field)) = (xs, readerAbove v []) := by
  induction xs with
  | nil => rfl
  | cons x xs ih =>
    obtain ⟨hx, hxs⟩ := List.forall_mem_cons.1 hxs
    rw [List.reverse_cons, List.map_append, List.map_singleton] at hv ⊢
    obtain ⟨hsym, hnb⟩ := hmatch.entry_peek hx hv
    simp only [List.length_cons, decodeSymbols, hsym, hnb]
    rw [show T.lenOf x.toNat = (T.field x).width from rfl, hv.read_last.2, ih hxs hv.of_append]

/-- One stream decodes back to its symbols. -/
theorem TableMatches.dec1_enc1 {xs : List Byte} (hxs : ∀ x ∈ xs, T.lenOf x.toNat ≠ 0) {cap : Nat}
    (hne : enc1 T xs cap ≠ []) : dec1 d (enc1 T xs cap) xs.length = .ok xs := by
  have hfits : ∀ f ∈ xs.reverse.map T.field, f.val < 2 ^ f.width := by
    simp only [List.mem_map, List.mem_reverse, forall_exists_index, and_imp, forall_apply_eq_imp_iff₂]
    exact fun x hx => (hmatch.2 x.toNat x.isLt (hxs x hx)).2.1
  obtain ⟨v, hopen, hv⟩ := openStream_closedStream hfits hne
  simp only [dec1, enc1, hopen, hmatch.decodeSymbols_fields hxs hv]
  rfl

/-- The stream of at most 32768 symbols has a size that fits its place in the jump table (R123). -/
theorem TableMatches.enc1_length_lt {xs : List Byte} (hxs : ∀ x ∈ xs, T.lenOf x.toNat ≠ 0) (hlen : xs.length ≤ 32768)
    (cap : Nat) : (enc1 T xs cap).length < 256 ^ 2 := by
  have hbits : totalBits (xs.reverse.map T.field) ≤ xs.length * 11 := by
    have := List.sum_le_card_nsmul ((xs.reverse.map T.field).map BitField.width) 11 (by
      simp only [List.map_map, List.mem_map, List.mem_reverse, forall_exists_index, and_imp, forall_apply_eq_imp_iff₂]
      exact fun x hx => (hmatch.2 x.toNat x.isLt (hxs x hx)).1.trans hmatch.1)
    simpa [totalBits] using this
  by_cases hnil : enc1 T xs cap = []
  · simp [hnil]
  · have hsize := closedStream_length hnil
    rw [enc1, hsize]
    omega

end Matching

/-! ### Four streams (R123, R352, R357) -/

theorem segmentStreams_cons {T : HufTable} {cap p : Nat} {seg : List Byte} {segs l : List (List Byte)}
    (h : segmentStreams T cap p (seg :: segs) = some l) :
    ∃ outs, l = enc1 T seg (cap - p) :: outs ∧ enc1 T seg (cap - p) ≠ []
      ∧ segmentStreams T cap (p + (enc1 T seg (cap - p)).length) segs = some outs := by
  simp only [segmentStreams] at h
  split at h
  · cases h
  · next hne =>
    split at h
    · cases h
    · next outs houts =>
      cases h
      exact ⟨outs, rfl, fun h0 => hne (by simp [h0]), houts⟩

/-- Four segments have four streams, none empty. -/
theorem segmentStreams_four {T : HufTable} {cap p : Nat} {x1 x2 x3 x4 : List Byte} {l : List (List Byte)}
    (h : segmentStreams T cap p [x1, x2, x3, x4] = some l) : ∃ r1 r2 r3 r4,
      l = [enc1 T x1 r1, enc1 T x2 r2, enc1 T x3 r3, enc1 T x4 r4]
      ∧ enc1 T x1 r1 ≠ [] ∧ enc1 T x2 r2 ≠ [] ∧ enc1 T x3 r3 ≠ [] ∧ enc1 T x4 r4 ≠ [] := by
  obtain ⟨_, rfl, h1, h⟩ := segmentStreams_cons h
  obtain ⟨_, rfl, h2, h⟩ := segmentStreams_cons h
  obtain ⟨_, rfl, h3, h⟩ := segmentStreams_cons h
  obtain ⟨_, rfl, h4, h⟩ := segmentStreams_cons h
  cases h
  exact ⟨_, _, _, _, rfl, h1, h2, h3, h4⟩

theorem take_drop_middle {pre out post : List Byte} {p k : Nat} (hp : p = pre.length) (hk : k = out.length) :
    ((pre ++ (out ++ post)).drop p).take k = out := by simp [hp, hk]

/-- An entry of the jump table (R123). -/
theorem leValue_middle {pre post : List Byte} {p k : Nat} (hp : p = pre.length) (hk : k < 256 ^ 2) :
    leValue (((pre ++ (leBytes 2 k ++ post)).drop p).take 2) = k := by
  rw [take_drop_middle hp (leBytes_length 2 k).symm, leValue_leBytes, Nat.mod_eq_of_lt hk]

theorem length_pos_of_dec1 {d : HufDec} {bs l : List Byte} {n : Nat} (h : dec1 d bs n = .ok l) : 0 < bs.length := by
  cases bs with
  | nil => cases h
  | cons b bs => simp

/-- A stream that stands at offset `p` is decoded before those after it. -/
theorem decodeStreams_cons {d : HufDec} {bs pre out post l rest : List Byte} {p n : Nat}
    {streams : List (Nat × Nat × Nat)} (hbs : bs = pre ++ (out ++ post)) (hp : p = pre.length)
    (hout : dec1 d out n = .ok l) (hrest : decodeStreams d bs streams = .ok rest) :
    decodeStreams d bs ((p, out.length, n) :: streams) = .ok (l ++ rest) := by
  have hslice : (bs.drop p).take out.length = out := hbs ▸ take_drop_middle hp rfl
  simp only [decodeStreams, hslice, hout, hrest, shiftErr]

/-- Four streams after their jump table decode to the four segments, one after the other. -/
theorem dec4_joinStreams {d : HufDec} {o1 o2 o3 o4 x1 x2 x3 x4 : List Byte} {n : Nat}
    (h1 : dec1 d o1 ((n + 3) / 4) = .ok x1) (h2 : dec1 d o2 ((n + 3) / 4) = .ok x2)
    (h3 : dec1 d o3 ((n + 3) / 4) = .ok x3) (h4 : dec1 d o4 (n - 3 * ((n + 3) / 4)) = .ok x4)
    (hs1 : o1.length < 256 ^ 2) (hs2 : o2.length < 256 ^ 2) (hs3 : o3.length < 256 ^ 2) (hn : 9 ≤ n) :
    dec4 d (joinStreams [o1, o2, o3, o4]) n = .ok (x1 ++ (x2 ++ (x3 ++ x4))) := by
  have hjoin : joinStreams [o1, o2, o3, o4]
      = leBytes 2 o1.length ++ (leBytes 2 o2.length ++ (leBytes 2 o3.length ++ (o1 ++ (o2 ++ (o3 ++ o4))))) := by
    simp [joinStreams]
  generalize joinStreams [o1, o2, o3, o4] = bs at hjoin ⊢
  have hv1 : leValue (bs.take 2) = o1.length := hjoin ▸ leValue_middle (pre := []) rfl hs1
  have hv2 : leValue ((bs.drop 2).take 2) = o2.length := hjoin ▸ leValue_middle (by simp) hs2
  have hv3 : leValue ((bs.drop 4).take 2) = o3.length := by
    rw [hjoin, ← List.append_assoc]
    exact leValue_middle (by simp) hs3
  have hlen : bs.length = 6 + o1.length + o2.length + o3.length + o4.length := by
    simp [hjoin]
    omega
  have hpos1 := length_pos_of_dec1 h1
  have hpos2 := length_pos_of_dec1 h2
  have hpos3 := length_pos_of_dec1 h3
  have hpos4 := length_pos_of_dec1 h4
  have hlast : bs.length - 6 - o1.length - o2.length - o3.length = o4.length := by omega
  simp only [dec4, hv1, hv2, hv3, hlast]
  rw [if_neg (by omega), if_neg (by omega), if_neg (by omega)]
  obtain ⟨table, htable, hbs⟩ : ∃ table : List Byte, 6 = table.length ∧ bs = table ++ (o1 ++ (o2 ++ (o3 ++ o4))) :=
    ⟨leBytes 2 o1.length ++ leBytes 2 o2.length ++ leBytes 2 o3.length, by simp, by simp [hjoin]⟩
  refine decodeStreams_cons hbs htable h1 ?_
  refine decodeStreams_cons (pre := table ++ o1) (post := o3 ++ o4) (by simp [hbs]) (by simp [htable]) h2 ?_
  refine decodeStreams_cons (pre := table ++ o1 ++ o2) (post := o4) (by simp [hbs])
    (by simp [htable, Nat.add_assoc]) h3 ?_
  rw [← List.append_nil x4]
  exact decodeStreams_cons (pre := table ++ o1 ++ o2 ++ o3) (post := []) (by simp [hbs])
    (by simp [htable, Nat.add_assoc]) h4 rfl

theorem fourSegments_flatten (xs : List Byte) : (fourSegments xs).flatten = xs := by
  have hjoin (k n : Nat) : (xs.drop k).take n ++ xs.drop (k + n) = xs.drop k := by
    rw [← List.drop_drop, List.take_append_drop]
  have h3 := hjoin (2 * ((xs.length + 3) / 4)) ((xs.length + 3) / 4)
  have h2 := hjoin ((xs.length + 3) / 4) ((xs.length + 3) / 4)
  rw [← Nat.succ_mul] at h3
  rw [← Nat.two_mul] at h2
  simp only [fourSegments, List.flatten_cons, List.flatten_nil, List.append_nil, h3, h2, List.take_append_drop]

/-- Four streams decode back to their symbols. -/
theorem TableMatches.dec4_enc4 {T : HufTable} {d : HufDec} (hmatch : TableMatches T d) {xs : List Byte}
    (hxs : ∀ x ∈ xs, T.lenOf x.toNat ≠ 0) (hlen : xs.length ≤ 131072) {cap : Nat} (hne : enc4 T xs cap ≠ []) :
    dec4 d (enc4 T xs cap) xs.length = .ok xs := by
  unfold enc4 at hne ⊢
  split at hne
  · exact absurd rfl hne
  next hroom =>
  rw [if_neg hroom]
  cases hstreams : segmentStreams T cap 6 (fourSegments xs) with
  | none => simp [hstreams] at hne
  | some l =>
    obtain ⟨r1, r2, r3, r4, rfl, h1, h2, h3, h4⟩ := segmentStreams_four hstreams
    have hwhole := fourSegments_flatten xs
    simp only [fourSegments, List.flatten_cons, List.flatten_nil, List.append_nil] at hwhole
    have hcoded {l : List Byte} (hl : ∀ x ∈ l, x ∈ xs) : ∀ x ∈ l, T.lenOf x.toNat ≠ 0 := fun x hx => hxs x (hl x hx)
    have hfirst := hcoded fun x hx => List.mem_of_mem_take (i := (xs.length + 3) / 4) hx
    have hmiddle (k : Nat) := hcoded fun x hx =>
      List.mem_of_mem_drop (i := k) (List.mem_of_mem_take (i := (xs.length + 3) / 4) hx)
    have hlast (k : Nat) := hcoded fun x hx => List.mem_of_mem_drop (i := k) hx
    have hd1 := hmatch.dec1_enc1 hfirst h1
    have hd2 := hmatch.dec1_enc1 (hmiddle _) h2
    have hd3 := hmatch.dec1_enc1 (hmiddle _) h3
    have hd4 := hmatch.dec1_enc1 (hlast _) h4
    have hs1 := hmatch.enc1_length_lt hfirst (by simp; omega) r1
    have hs2 := hmatch.enc1_length_lt (hmiddle ((xs.length + 3) / 4)) (by simp; omega) r2
    have hs3 := hmatch.enc1_length_lt (hmiddle (2 * ((xs.length + 3) / 4))) (by simp; omega) r3
    simp only [List.length_take, List.length_drop] at hd1 hd2 hd3 hd4
    rw [Nat.min_eq_left (by omega)] at hd1 hd2 hd3
    rw [dec4_joinStreams hd1 hd2 hd3 hd4 hs1 hs2 hs3 (by omega), hwhole]

/-- Settles O44: the fields of the symbols are read back last first, each by the first bits of a peek; four streams
are found through their sizes. -/
theorem huffmanStreamRoundTrip : Obligations.HuffmanStreamRoundTrip := by
  unfold Obligations.HuffmanStreamRoundTrip
  intro T d xs cap hmatch hxs hlen
  exact ⟨hmatch.dec1_enc1 hxs, hmatch.dec4_enc4 hxs hlen⟩

end Sys2Proof.Machine
end

section
/-! The weights of a complete code rebuild its decoding table (R312, R320, R331 to R333): Kraft's equality makes the
halvings of R312 exact, so that a code's value is where its symbol's entries begin. -/

namespace Sys2Proof.Machine

/-! ### The longest length -/

theorem listMax_eq_foldr (l : List Nat) : listMax l = l.foldr max ⊥ := List.foldl_eq_foldr (f := max)

theorem le_listMax {l : List Nat} {x : Nat} (h : x ∈ l) : x ≤ listMax l :=
  listMax_eq_foldr l ▸ List.le_max_of_le h le_rfl

theorem listMax_le {l : List Nat} {n : Nat} (h : ∀ x ∈ l, x ≤ n) : listMax l ≤ n :=
  listMax_eq_foldr l ▸ List.max_le_of_forall_le l n h

theorem listMax_mem {l : List Nat} (h : listMax l ≠ 0) : listMax l ∈ l := by
  by_contra hnot
  have hlt : ∀ x ∈ l, x ≤ listMax l - 1 := fun x hx =>
    Nat.le_sub_one_of_lt (lt_of_le_of_ne (le_listMax hx) fun h => hnot (h ▸ hx))
  have := listMax_le hlt
  omega

/-! ### The places of each weight (R331, R332) -/

/-- The entries the weights `1 .. d` take (R332). -/
def weightPlaces (w : List Nat) (d : Nat) : Nat := ((List.range d).map fun x => w.count (x + 1) * 2 ^ x).sum

@[simp] theorem weightPlaces_zero (w : List Nat) : weightPlaces w 0 = 0 := rfl

theorem weightPlaces_succ (w : List Nat) (d : Nat) :
    weightPlaces w (d + 1) = weightPlaces w d + w.count (d + 1) * 2 ^ d := by
  simp [weightPlaces, List.range_succ]

/-- All weights together take the places R331's sum counts. -/
theorem weightPlaces_eq_weightTotal {w : List Nat} {log : Nat} (h : ∀ y ∈ w, y ≤ log) :
    weightPlaces w log = weightTotal w := by
  induction w with
  | nil => simp [weightPlaces, weightTotal]
  | cons y w ih =>
    obtain ⟨hy, hw⟩ := List.forall_mem_cons.1 h
    have hterm (x : Nat) : (y :: w).count (x + 1) * 2 ^ x
        = (if y = x + 1 then 2 ^ x else 0) + w.count (x + 1) * 2 ^ x := by
      rw [List.count_cons, Nat.add_mul, Nat.add_comm]
      simp
    simp only [weightPlaces, hterm, List.sum_map_add, sum_weight_places hy]
    rw [← weightPlaces, ih hw]
    rfl

/-- Where the weights fill the table, the entries of the first `d` are a whole number of entries of the next. -/
theorem two_pow_dvd_weightPlaces {w : List Nat} {log : Nat} (hle : ∀ y ∈ w, y ≤ log) (hfill : weightTotal w = 2 ^ log)
    {d : Nat} (hd : d ≤ log) : 2 ^ d ∣ weightPlaces w d := by
  have hdown (n : Nat) (h : 2 ^ d ∣ weightPlaces w (d + n)) : 2 ^ d ∣ weightPlaces w d := by
    induction n with
    | zero => exact h
    | succ n ih =>
      rw [← Nat.add_assoc, weightPlaces_succ] at h
      exact ih ((Nat.dvd_add_iff_left (Dvd.dvd.mul_left (pow_dvd_pow 2 (by omega)) _)).2 h)
  refine hdown (log - d) ?_
  rw [Nat.add_sub_cancel' hd, weightPlaces_eq_weightTotal hle, hfill]
  exact pow_dvd_pow 2 hd

/-- The number of weights 1 is even (R331). -/
theorem even_count_one {w : List Nat} {log : Nat} (hle : ∀ y ∈ w, y ≤ log) (hfill : weightTotal w = 2 ^ log)
    (hlog : 1 ≤ log) : w.count 1 % 2 = 0 := by
  have := two_pow_dvd_weightPlaces hle hfill hlog
  simp [weightPlaces] at this
  omega

/-- The entries of one weight (R332), for weights that begin at symbol `k`. -/
def rankEntries (log : Nat) (w : List Nat) (k x : Nat) : List HufEntry :=
  (w.zipIdx k).flatMap fun y =>
    if y.1 = x + 1 then List.replicate (2 ^ x) { sym := BitVec.ofNat 8 y.2, nb := BitVec.ofNat 4 (log - x) } else []

theorem hufEntries_eq (log : Nat) (w : List Nat) : hufEntries log w = (List.range log).flatMap (rankEntries log w 0) :=
  rfl

theorem rankEntries_length (log : Nat) (w : List Nat) (k x : Nat) :
    (rankEntries log w k x).length = w.count (x + 1) * 2 ^ x := by
  induction w generalizing k with
  | nil => simp [rankEntries]
  | cons y w ih =>
    have hcons : rankEntries log (y :: w) k x
        = (if y = x + 1 then List.replicate (2 ^ x) { sym := BitVec.ofNat 8 k, nb := BitVec.ofNat 4 (log - x) } else [])
          ++ rankEntries log w (k + 1) x := by
      simp [rankEntries]
    rw [hcons, List.length_append, ih, List.count_cons, Nat.add_mul]
    by_cases h : y = x + 1 <;> simp [h, Nat.add_comm]

/-- The part of a `flatMap` that one element makes. -/
theorem flatMap_getElem?_middle {α β : Type} (f : α → List β) (as bs : List α) (a : α) {j : Nat}
    (hj : j < (f a).length) : ((as ++ a :: bs).flatMap f)[(as.flatMap f).length + j]? = (f a)[j]? := by
  rw [List.flatMap_append, List.flatMap_cons, List.getElem?_append_right (by omega), Nat.add_sub_cancel_left,
    List.getElem?_append_left hj]

/-- Symbol `as.length` of weight `x + 1` has the entries after those of its weight's earlier symbols. -/
theorem rankEntries_getElem? (log x : Nat) (as bs : List Nat) {j : Nat} (hj : j < 2 ^ x) :
    (rankEntries log (as ++ (x + 1) :: bs) 0 x)[as.count (x + 1) * 2 ^ x + j]?
      = some { sym := BitVec.ofNat 8 as.length, nb := BitVec.ofNat 4 (log - x) } := by
  have hzip : (as ++ (x + 1) :: bs).zipIdx = as.zipIdx ++ (x + 1, as.length) :: bs.zipIdx (as.length + 1) := by
    simp [List.zipIdx_append]
  rw [← rankEntries_length log as 0 x, rankEntries, rankEntries, hzip, flatMap_getElem?_middle] <;> simp [hj]

/-- Where the entries of a symbol stand in the whole table. -/
theorem hufEntries_getElem? {log x : Nat} (hx : x < log) (as bs : List Nat) {j : Nat} (hj : j < 2 ^ x) :
    (hufEntries log (as ++ (x + 1) :: bs))[weightPlaces (as ++ (x + 1) :: bs) x + (as.count (x + 1) * 2 ^ x + j)]?
      = some { sym := BitVec.ofNat 8 as.length, nb := BitVec.ofNat 4 (log - x) } := by
  have hentry := rankEntries_getElem? log x as bs hj
  have hrange : List.range log = List.range x ++ x :: (List.range' (x + 1) (log - (x + 1))) := by
    rw [List.range_eq_range', List.range_eq_range', ← List.range'_succ]
    have := List.range'_append_1 (s := 0) (m := x) (n := log - (x + 1) + 1)
    rw [Nat.zero_add] at this
    rw [this]
    congr 1
    omega
  have hbefore : ((List.range x).flatMap (rankEntries log (as ++ (x + 1) :: bs) 0)).length
      = weightPlaces (as ++ (x + 1) :: bs) x := by
    simp only [List.length_flatMap, rankEntries_length, weightPlaces]
  rw [hufEntries_eq, hrange, ← hbefore, flatMap_getElem?_middle _ _ _ _ (List.getElem?_eq_some_iff.1 hentry).1, hentry]

/-! ### The weights of a code (R320) -/

/-- The weight of a code length in a code whose longest length is `M` (R320). -/
def weightOf (M l : Nat) : Nat := if l = 0 then 0 else M + 1 - l

theorem weightOf_le {M l : Nat} : weightOf M l ≤ M := by
  unfold weightOf
  split <;> omega

theorem map_weightOf_le (lens : List Nat) (M : Nat) : ∀ y ∈ lens.map (weightOf M), y ≤ M :=
  List.forall_mem_map.2 fun _ _ => weightOf_le

theorem weightOf_eq_iff {M l x : Nat} (hl : l ≤ M) (hx : x < M) : weightOf M l = x + 1 ↔ l = M - x := by
  unfold weightOf
  split <;> omega

theorem two_pow_weightOf {M l : Nat} (hl : l ≤ M) :
    2 ^ weightOf M l / 2 = if l = 0 then 0 else 2 ^ (M - l) := by
  unfold weightOf
  split
  · rfl
  · rw [show M + 1 - l = M - l + 1 by omega, pow_succ, Nat.mul_div_cancel _ (by omega)]

theorem count_map_weightOf {lens : List Nat} {M : Nat} (hle : ∀ l ∈ lens, l ≤ M) {x : Nat} (hx : x < M) :
    (lens.map (weightOf M)).count (x + 1) = lens.count (M - x) := by
  rw [List.count, List.countP_map]
  refine List.countP_congr fun l hl => ?_
  simp only [Function.comp_apply, beq_iff_eq]
  exact weightOf_eq_iff (hle l hl) hx

section Complete

variable {lens : List Nat} {M : Nat} (h : CodeComplete lens M)

include h

theorem CodeComplete.weightTotal_eq : weightTotal (lens.map (weightOf M)) = 2 ^ M := by
  obtain ⟨hle, hsum⟩ := h
  rw [← hsum, weightTotal, List.map_map]
  exact congrArg _ (List.map_congr_left fun l hl => two_pow_weightOf (hle l hl))

/-- R312's halvings are exact: the codes of a length begin where its weight's entries do. -/
theorem CodeComplete.canonicalStart_mul {d : Nat} (hd : d ≤ M) :
    canonicalStart lens M d * 2 ^ d = weightPlaces (lens.map (weightOf M)) d := by
  induction d with
  | zero => rfl
  | succ d ih =>
    have hdvd := two_pow_dvd_weightPlaces (map_weightOf_le lens M) h.weightTotal_eq hd
    rw [weightPlaces_succ, count_map_weightOf h.1 (by omega), ← ih (by omega), ← Nat.add_mul, pow_succ,
      Nat.mul_comm _ (2 ^ d)] at hdvd ⊢
    have heven := Nat.dvd_of_mul_dvd_mul_left (Nat.two_pow_pos d) hdvd
    rw [canonicalStart, Nat.mul_left_comm, Nat.div_mul_cancel heven]

/-- The entries of a symbol with a code begin at its canonical value, put above the bits its code leaves free. -/
theorem CodeComplete.entry_at_canonicalValue {as bs : List Nat} {r j : Nat} (hlens : lens = as ++ r :: bs)
    (hr : r ≠ 0) (hj : j < 2 ^ (M - r)) :
    (hufEntries M (lens.map (weightOf M)))[canonicalValue lens M r (as.count r) * 2 ^ (M - r) + j]?
      = some { sym := BitVec.ofNat 8 as.length, nb := BitVec.ofNat 4 r } := by
  have hrM : r ≤ M := h.1 r (by simp [hlens])
  have hback : M - (M - r) = r := by omega
  have hweight : weightOf M r = M - r + 1 := (weightOf_eq_iff hrM (by omega)).2 hback.symm
  have hsplit : lens.map (weightOf M) = as.map (weightOf M) ++ (M - r + 1) :: bs.map (weightOf M) := by
    rw [hlens, List.map_append, List.map_cons, hweight]
  have hcount := count_map_weightOf (fun l hl => h.1 l (by simp [hlens, hl])) (lens := as) (x := M - r) (by omega)
  have hentry := hufEntries_getElem? (log := M) (x := M - r) (by omega) (as.map (weightOf M)) (bs.map (weightOf M)) hj
  rw [← hsplit, hcount, hback, List.length_map] at hentry
  rw [canonicalValue, Nat.add_mul, h.canonicalStart_mul (by omega), Nat.add_assoc]
  exact hentry

theorem CodeComplete.hufEntries_length : (hufEntries M (lens.map (weightOf M))).length = 2 ^ M :=
  (Machine.hufEntries_length (map_weightOf_le lens M)).trans h.weightTotal_eq

/-- A canonical value fits its length. -/
theorem CodeComplete.canonicalValue_lt {as bs : List Nat} {r : Nat} (hlens : lens = as ++ r :: bs) (hr : r ≠ 0) :
    canonicalValue lens M r (as.count r) < 2 ^ r := by
  have hrM : r ≤ M := h.1 r (by simp [hlens])
  obtain ⟨hin, -⟩ := List.getElem?_eq_some_iff.1 (h.entry_at_canonicalValue hlens hr (Nat.two_pow_pos _))
  rw [h.hufEntries_length, Nat.add_zero, ← Nat.pow_sub_mul_pow 2 hrM, Nat.mul_comm] at hin
  exact Nat.lt_of_mul_lt_mul_left hin

end Complete

/-! ### The table of a code (R305) -/

theorem lt_length_of_getD_ne {lens : List Nat} {x : Nat} (hx : lens.getD x 0 ≠ 0) : x < lens.length := by
  by_contra h
  exact hx (List.getD_eq_default _ _ (not_lt.1 h))

/-- A symbol's length, with the lengths before and after it. -/
theorem eq_take_append_getD {lens : List Nat} {x : Nat} (hx : lens.getD x 0 ≠ 0) :
    lens = lens.take x ++ lens.getD x 0 :: lens.drop (x + 1) := by
  rw [List.getD_eq_getElem _ _ (lt_length_of_getD_ne hx), List.getElem_cons_drop, List.take_append_drop]

theorem canonical_getD {lens : List Nat} {x : Nat} (hx : lens.getD x 0 ≠ 0) : (canonical lens).getD x 0
    = canonicalValue lens (listMax lens) (lens.getD x 0) ((lens.take x).count (lens.getD x 0)) := by
  have hlt := lt_length_of_getD_ne hx
  rw [List.getD_eq_getElem _ _ hlt] at hx ⊢
  rw [List.getD_eq_getElem _ _ (by simpa [canonical] using hlt)]
  simp [canonical, hx]

section Table

variable {lens : List Nat} (hbits : ∀ l ∈ lens, l ≤ 11)

include hbits

theorem lenOf_hufTableOf {x : Nat} (hx : x < 256) : (hufTableOf lens).lenOf x = lens.getD x 0 := by
  have : lens.getD x 0 ≤ 11 := by
    rw [List.getD_eq_getElem?_getD]
    cases hget : lens[x]? with
    | none => simp
    | some l => exact hbits l (List.mem_of_getElem? hget)
  rw [HufTable.lenOf, hufTableOf, at256_tab256 _ hx, BitVec.toNat_ofNat, Nat.mod_eq_of_lt (by omega)]

theorem maxBits_hufTableOf : (hufTableOf lens).maxBits.toNat = listMax lens := by
  have := listMax_le hbits
  rw [hufTableOf, BitVec.toNat_ofNat, Nat.mod_eq_of_lt (by omega)]

/-- The weights of the table are those of the lengths, without the last (R320). -/
theorem weights_hufTableOf (hlen : lens.length ≤ 256) :
    (hufTableOf lens).weights = lens.dropLast.map (weightOf (listMax lens)) := by
  have hmax : (hufTableOf lens).maxSym.toNat = lens.length - 1 := by
    rw [hufTableOf, BitVec.toNat_ofNat, Nat.mod_eq_of_lt (by omega)]
  have hweight (x : Nat) (hx : x < lens.length) :
      (hufTableOf lens).weight x = weightOf (listMax lens) lens[x] := by
    rw [HufTable.weight, lenOf_hufTableOf hbits (by omega), maxBits_hufTableOf hbits, weightOf]
    simp [hx]
  rw [HufTable.weights, hmax]
  refine List.ext_getElem (by simp) fun x hx _ => ?_
  simp only [List.length_map, List.length_range] at hx
  simp [hweight x (by omega)]

end Table

section Rebuild

variable {lens : List Nat} {M : Nat} (h : CodeComplete lens M) (hM : M ≤ 11)

include h hM

/-- The table of the weights finds every canonical code by its first bits (R333). -/
theorem CodeComplete.tableMatches (hmax : listMax lens = M) :
    TableMatches (hufTableOf lens) { log := M, entries := hufEntries M (lens.map (weightOf M)) } := by
  have hbits : ∀ l ∈ lens, l ≤ 11 := fun l hl => (h.1 l hl).trans hM
  refine ⟨hM, fun x hx hcoded => ?_⟩
  rw [lenOf_hufTableOf hbits hx] at hcoded ⊢
  have hsplit := eq_take_append_getD hcoded
  have hrM : lens.getD x 0 ≤ M := h.1 _ (by
    rw [List.getD_eq_getElem _ _ (lt_length_of_getD_ne hcoded)]
    exact List.getElem_mem _)
  have hval := h.canonicalValue_lt hsplit hcoded
  have hword : (hufTableOf lens).valOf x
      = canonicalValue lens M (lens.getD x 0) ((lens.take x).count (lens.getD x 0)) := by
    rw [HufTable.valOf, hufTableOf, at256_tab256 _ hx, canonical_getD hcoded, hmax, BitVec.toNat_ofNat,
      Nat.mod_eq_of_lt (hval.trans_le (Nat.pow_le_pow_right (by decide) (by omega)))]
  rw [hword]
  refine ⟨hrM, hval, fun i hi hcode => ?_⟩
  rw [Nat.shiftRight_eq_div_pow] at hcode
  have hentry := h.entry_at_canonicalValue hsplit hcoded (Nat.mod_lt i (Nat.two_pow_pos (M - lens.getD x 0)))
  rw [← hcode, Nat.div_add_mod', List.length_take_of_le (lt_length_of_getD_ne hcoded).le] at hentry
  simp only [HufDec.entry, List.getD_eq_getElem?_getD (l := hufEntries _ _), hentry, Option.getD_some,
    BitVec.toNat_ofNat]
  exact ⟨Nat.mod_eq_of_lt hx, Nat.mod_eq_of_lt (by omega)⟩

/-- The checks of R331 pass for the weights of a complete code without the last, which they give back. -/
theorem CodeComplete.completeWeights_eq (hM1 : 1 ≤ M) (hlen : lens.length ≤ 256) (hmax : listMax lens = M)
    (hlast : lens.getLast? ≠ some 0) :
    completeWeights (lens.dropLast.map (weightOf M)) = .ok (M, lens.map (weightOf M)) := by
  have hlongest : M ∈ lens := hmax ▸ listMax_mem (by omega)
  obtain ⟨init, l, rfl⟩ : ∃ init l, lens = init ++ [l] :=
    ⟨_, _, (List.dropLast_append_getLast (List.ne_nil_of_mem hlongest)).symm⟩
  have hl : l ≠ 0 := by simpa using hlast
  have hlM : l ≤ M := h.1 l (by simp)
  have hall : (init ++ [l]).map (weightOf M) = init.map (weightOf M) ++ [M - l + 1] := by
    rw [List.map_append, List.map_singleton, (weightOf_eq_iff hlM (x := M - l) (by omega)).2 (by omega)]
  have hfill := h.weightTotal_eq
  have hsplit : weightTotal (init.map (weightOf M)) + 2 ^ (M - l) = 2 ^ M := by
    rw [← hfill, hall]
    simp [weightTotal, pow_succ]
  have hhalf : 2 ^ (M - l) ≤ 2 ^ (M - 1) := Nat.pow_le_pow_right (by decide) (by omega)
  have hdouble : 2 ^ M = 2 ^ (M - 1) * 2 := by rw [← pow_succ, Nat.sub_add_cancel hM1]
  have hpos := Nat.two_pow_pos (M - l)
  have hlog : highestBit (weightTotal (init.map (weightOf M))) + 1 = M := by
    rw [highestBit_eq (h := M - 1) (by omega) (by rw [Nat.sub_add_cancel hM1]; omega), Nat.sub_add_cancel hM1]
  have hrest : 2 ^ M - weightTotal (init.map (weightOf M)) = 2 ^ (M - l) := by omega
  have hbit : highestBit (2 ^ (M - l)) = M - l := Nat.log2_two_pow
  have hones := even_count_one (map_weightOf_le _ M) hfill hM1
  have hone : 0 < ((init ++ [l]).map (weightOf M)).count 1 :=
    List.count_pos_iff.2 (List.mem_map.2 ⟨M, hlongest, (weightOf_eq_iff le_rfl (x := 0) hM1).2 rfl⟩)
  have hbound : (init.map (weightOf M)).any (fun x => decide (12 ≤ x)) = false := by
    simpa using fun l _ => (weightOf_le (M := M)).trans_lt (by omega)
  simp only [List.dropLast_concat, completeWeights, hlog, hrest, hbit, hbound, ← hall]
  rw [if_neg (by simp), if_neg (by omega), if_neg (by simpa using hM), if_neg (by simp), if_neg (by simpa using hlen),
    if_neg (by omega)]

end Rebuild

/-- Settles O42: the weights fill a table of the code's own log, and its entries stand in the order of the canonical
values. -/
theorem weightsRebuildCode : Obligations.WeightsRebuildCode := by
  unfold Obligations.WeightsRebuildCode
  intro lens M hM1 hM hlen h hmax hlast
  refine ⟨{ log := M, entries := hufEntries M (lens.map (weightOf M)) }, ?_, rfl, h.hufEntries_length,
    h.tableMatches hM hmax⟩
  rw [weights_hufTableOf (fun l hl => (h.1 l hl).trans hM) hlen, hmax, decodeHufTable,
    h.completeWeights_eq hM hM1 hlen hmax hlast]

end Sys2Proof.Machine
end

section
/-! The Huffman tree (R306 to R308): both queues of R307 give up their oldest items first, so depths fall along each,
and the lengths rise with the rank whatever the tie rule. -/

namespace Sys2Proof.Machine

/-! ### Leaves (R306) -/

theorem insertLeaf_perm (x : HufLeaf) (l : List HufLeaf) : (insertLeaf x l).Perm (x :: l) := by
  induction l with
  | nil => exact .rfl
  | cons y l ih =>
    rw [insertLeaf]
    split
    · exact (ih.cons y).trans (.swap x y l)
    · exact .rfl

/-- The counted symbols with their counts. -/
def countedSymbols (counts : List Nat) : List (Nat × Nat) := counts.zipIdx.filter fun x => decide (0 < x.1)

theorem rankedLeaves_perm (counts : List Nat) :
    (rankedLeaves counts).Perm ((countedSymbols counts).map fun x => { sym := x.2, count := x.1 }) := by
  have hfold (xs : List (Nat × Nat)) (l : List HufLeaf) :
      (xs.foldl (fun l x => insertLeaf { sym := x.2, count := x.1 } l) l).Perm
        (xs.map (fun x => { sym := x.2, count := x.1 }) ++ l) := by
    induction xs generalizing l with
    | nil => exact .rfl
    | cons x xs ih => exact (ih _).trans (((insertLeaf_perm _ l).append_left _).trans List.perm_middle)
  simpa [rankedLeaves, countedSymbols] using hfold (countedSymbols counts) []

/-- Each counted symbol has one leaf. -/
theorem rankedLeaves_sym_perm (counts : List Nat) :
    ((rankedLeaves counts).map HufLeaf.sym).Perm ((countedSymbols counts).map Prod.snd) := by
  simpa [Function.comp_def] using (rankedLeaves_perm counts).map HufLeaf.sym

theorem rankedLeaves_sym_nodup (counts : List Nat) : ((rankedLeaves counts).map HufLeaf.sym).Nodup := by
  refine (rankedLeaves_sym_perm counts).nodup_iff.2 (.sublist (List.filter_sublist.map _) ?_)
  rw [List.zipIdx_map_snd]
  exact List.nodup_range'

theorem mem_rankedLeaves_sym (counts : List Nat) (s : Nat) :
    s ∈ (rankedLeaves counts).map HufLeaf.sym ↔ counts.getD s 0 ≠ 0 := by
  rw [(rankedLeaves_sym_perm counts).mem_iff, List.getD_eq_getElem?_getD]
  cases hget : counts[s]? with
  | none => simp [countedSymbols, List.mem_zipIdx_iff_getElem?, hget]
  | some c => simp [countedSymbols, List.mem_zipIdx_iff_getElem?, hget, Nat.pos_iff_ne_zero]

theorem rankedLeaves_length (counts : List Nat) :
    (rankedLeaves counts).length = counts.countP fun c => decide (0 < c) := by
  rw [(rankedLeaves_perm counts).length_eq, List.length_map, countedSymbols, ← List.countP_eq_length_filter]
  conv_rhs => rw [← List.zipIdx_map_fst 0 counts, List.countP_map]
  rfl

/-! ### Depths (R307, R308) -/

/-- The ranks and depths of trees whose roots stand at the depths `ds`. -/
def placedDepths (ns : List HufNode) (ds : List Nat) : List (Nat × Nat) :=
  (ns.zip ds).flatMap fun x => treeDepths x.2 x.1.tree

/-- Depths of the roots of both queues: falling along each, those of internal nodes `e` or `e + 1`, and those of leaves
at most `e + 1`. -/
structure QueueDepths (leaves nodes : List HufNode) (dl dn : List Nat) (e : Nat) : Prop where
  leavesLength : dl.length = leaves.length
  nodesLength : dn.length = nodes.length
  leavesFall : dl.Pairwise (· ≥ ·)
  nodesFall : dn.Pairwise (· ≥ ·)
  leavesLe : ∀ d ∈ dl, d ≤ e + 1
  nodesMem : ∀ d ∈ dn, e ≤ d ∧ d ≤ e + 1

/-- `pick` takes the first leaf or the first internal node. -/
theorem pickNode_eq_some {tie : Config.HufTie} {leaves nodes leaves' nodes' : List HufNode} {a : HufNode}
    (h : pickNode tie leaves nodes = some (a, leaves', nodes')) :
    (leaves = a :: leaves' ∧ nodes = nodes') ∨ (leaves = leaves' ∧ nodes = a :: nodes') := by
  cases leaves <;> cases nodes <;> simp only [pickNode] at h
  · cases h
  · cases h
    exact .inr ⟨rfl, rfl⟩
  · cases h
    exact .inl ⟨rfl, rfl⟩
  · split at h <;> cases h
    · exact .inl ⟨rfl, rfl⟩
    · exact .inr ⟨rfl, rfl⟩

theorem pickNode_eq_none {tie : Config.HufTie} {leaves nodes : List HufNode} (h : pickNode tie leaves nodes = none) :
    leaves = [] ∧ nodes = [] := by
  cases leaves <;> cases nodes <;> simp only [pickNode] at h
  · exact ⟨rfl, rfl⟩
  · cases h
  · cases h
  · split at h <;> cases h

theorem exists_pickNode {tie : Config.HufTie} {leaves nodes : List HufNode} {n : Nat}
    (h : leaves.length + nodes.length = n + 1) : ∃ a leaves' nodes',
      pickNode tie leaves nodes = some (a, leaves', nodes') ∧ leaves'.length + nodes'.length = n := by
  cases hpick : pickNode tie leaves nodes with
  | none =>
    obtain ⟨rfl, rfl⟩ := pickNode_eq_none hpick
    cases h
  | some p =>
    obtain ⟨a, leaves', nodes'⟩ := p
    refine ⟨a, leaves', nodes', rfl, ?_⟩
    obtain ⟨rfl, rfl⟩ | ⟨rfl, rfl⟩ := pickNode_eq_some hpick <;> simp only [List.length_cons] at h <;> omega

/-- The item picked stands one below the node it becomes a child of: no item left stands deeper. -/
theorem QueueDepths.unpick {tie : Config.HufTie} {leaves nodes leaves' nodes' : List HufNode} {a : HufNode}
    (hpick : pickNode tie leaves nodes = some (a, leaves', nodes')) {dl dn : List Nat} {e : Nat}
    (h : QueueDepths leaves' nodes' dl dn e) : ∃ dl' dn', QueueDepths leaves nodes dl' dn' e
      ∧ (placedDepths leaves dl' ++ placedDepths nodes dn').Perm
          (treeDepths (e + 1) a.tree ++ (placedDepths leaves' dl ++ placedDepths nodes' dn)) := by
  obtain ⟨rfl, rfl⟩ | ⟨rfl, rfl⟩ := pickNode_eq_some hpick
  · exact ⟨(e + 1) :: dl, dn,
      { h with
        leavesLength := by simp [h.leavesLength]
        leavesFall := List.pairwise_cons.2 ⟨h.leavesLe, h.leavesFall⟩
        leavesLe := List.forall_mem_cons.2 ⟨le_rfl, h.leavesLe⟩ },
      by simp [placedDepths]⟩
  · refine ⟨dl, (e + 1) :: dn,
      { h with
        nodesLength := by simp [h.nodesLength]
        nodesFall := List.pairwise_cons.2 ⟨fun d hd => (h.nodesMem d hd).2, h.nodesFall⟩
        nodesMem := List.forall_mem_cons.2 ⟨⟨Nat.le_succ e, le_rfl⟩, h.nodesMem⟩ }, ?_⟩
    simp only [placedDepths, List.zip_cons_cons, List.flatMap_cons]
    exact List.perm_append_comm_assoc _ _ _

/-- The queues with a new node behind, and the depth of that node. -/
theorem QueueDepths.dropNew {leaves nodes : List HufNode} {n : HufNode} {dl dn : List Nat} {e : Nat}
    (h : QueueDepths leaves (nodes ++ [n]) dl dn e) : ∃ dn' e', dn = dn' ++ [e'] ∧ QueueDepths leaves nodes dl dn' e'
      ∧ placedDepths (nodes ++ [n]) dn = placedDepths nodes dn' ++ treeDepths e' n.tree := by
  obtain ⟨dn', e', rfl⟩ : ∃ dn' e', dn = dn' ++ [e'] := by
    have hne : dn ≠ [] := by
      rintro rfl
      simpa using h.nodesLength
    exact ⟨_, _, (List.dropLast_append_getLast hne).symm⟩
  have hlen : dn'.length = nodes.length := by simpa using h.nodesLength
  obtain ⟨hfall, -, hlast⟩ := List.pairwise_append.1 h.nodesFall
  obtain ⟨hle, -⟩ := h.nodesMem e' (by simp)
  refine ⟨dn', e', rfl,
    { leavesLength := h.leavesLength
      nodesLength := hlen
      leavesFall := h.leavesFall
      nodesFall := hfall
      leavesLe := fun d hd => (h.leavesLe d hd).trans (by omega)
      nodesMem := fun d hd => ⟨hlast d hd e' (by simp), (h.nodesMem d (by simp [hd])).2.trans (by omega)⟩ }, ?_⟩
  simp [placedDepths, List.zip_append hlen.symm]

/-- The loop of R307 ends with one root, below which the items of both queues stand at falling depths. -/
theorem mergeNodes_depths (tie : Config.HufTie) {fuel : Nat} {leaves nodes : List HufNode}
    (hlen : leaves.length + nodes.length = fuel + 1) (hleaves : fuel = 0 → leaves = []) :
    ∃ root dl dn e, (mergeNodes tie fuel leaves nodes).2 = [root] ∧ QueueDepths leaves nodes dl dn e
      ∧ (treeDepths 0 root.tree).Perm (placedDepths leaves dl ++ placedDepths nodes dn) := by
  induction fuel generalizing leaves nodes with
  | zero =>
    obtain rfl := hleaves rfl
    obtain ⟨root, rfl⟩ := List.length_eq_one_iff.1 (by simpa using hlen)
    exact ⟨root, [], [0], 0, rfl, ⟨rfl, rfl, .nil, List.pairwise_singleton _ _, by simp, by simp⟩,
      by simp [placedDepths]⟩
  | succ fuel ih =>
    obtain ⟨a, leaves1, nodes1, hpick1, hlen1⟩ := exists_pickNode (tie := tie) hlen
    obtain ⟨b, leaves2, nodes2, hpick2, hlen2⟩ := exists_pickNode (tie := tie) hlen1
    obtain ⟨root, dl, dn, e, hroot, hqueue, hperm⟩ :=
      ih (leaves := leaves2) (nodes := nodes2 ++ [{ tree := .node a.tree b.tree, count := a.count + b.count }])
        (by rw [List.length_append, List.length_singleton]; omega)
        (fun h => List.length_eq_zero_iff.1 (by omega))
    obtain ⟨dn', e', rfl, hqueue2, hplaced⟩ := hqueue.dropNew
    obtain ⟨dl1, dn1, hqueue1, hperm1⟩ := hqueue2.unpick hpick2
    obtain ⟨dl0, dn0, hqueue0, hperm0⟩ := hqueue1.unpick hpick1
    refine ⟨root, dl0, dn0, e', by simp only [mergeNodes, hpick1, hpick2, hroot], hqueue0, ?_⟩
    rw [hplaced, ← List.append_assoc] at hperm
    refine hperm.trans (.trans ?_ (hperm0.trans (hperm1.append_left _)).symm)
    rw [← List.append_assoc (treeDepths (e' + 1) a.tree)]
    exact List.perm_append_comm

/-! ### Kraft's equality (R311) -/

/-- The places the codes of the lengths `nb` take in a table of `2 ^ D` entries. -/
def kraft (D : Nat) (nb : List Nat) : Nat := (nb.map fun b => 2 ^ (D - b)).sum

@[simp] theorem kraft_nil (D : Nat) : kraft D [] = 0 := rfl

@[simp] theorem kraft_cons (D b : Nat) (nb : List Nat) : kraft D (b :: nb) = 2 ^ (D - b) + kraft D nb := rfl

@[simp] theorem kraft_append (D : Nat) (nb nb' : List Nat) : kraft D (nb ++ nb') = kraft D nb + kraft D nb' := by
  simp [kraft]

/-- The leaves of a tree take exactly the places its root stands for. -/
theorem kraft_treeDepths {D d : Nat} {t : HufTree} (h : ∀ x ∈ treeDepths d t, x.2 ≤ D) :
    d ≤ D ∧ kraft D ((treeDepths d t).map Prod.snd) = 2 ^ (D - d) := by
  induction t generalizing d with
  | leaf r => simpa [treeDepths] using h
  | node a b iha ihb =>
    simp only [treeDepths, List.forall_mem_append] at h
    obtain ⟨hd, ha⟩ := iha h.1
    obtain ⟨-, hb⟩ := ihb h.2
    refine ⟨by omega, ?_⟩
    rw [treeDepths, List.map_append, kraft_append, ha, hb, ← Nat.two_mul, ← pow_succ']
    congr 1
    omega

/-- Lengths within `D` bits whose codes take every place of a table of `2 ^ D` entries. -/
structure FullCode (D : Nat) (nb : List Nat) : Prop where
  le : ∀ b ∈ nb, b ≤ D
  full : kraft D nb = 2 ^ D

/-! ### The lengths of the ranks (R308) -/

/-- A key that stands once in a list is looked up there. -/
theorem lookup_eq_some_of_mem {l : List (Nat × Nat)} (hnd : (l.map Prod.fst).Nodup) {k v : Nat} (h : (k, v) ∈ l) :
    l.lookup k = some v := by
  induction l with
  | nil => cases h
  | cons x l ih =>
    obtain ⟨hx, hnd⟩ := List.nodup_cons.1 hnd
    obtain rfl | h := List.mem_cons.1 h
    · simp
    · have hne : k ≠ x.1 := fun hk => hx (hk ▸ List.mem_map_of_mem (f := Prod.fst) h)
      rw [List.lookup_cons, beq_false_of_ne hne]
      exact ih hnd h

/-- The leaves of R307 before the first merge, by rank. -/
def rankNodes (h : List HufLeaf) (k : Nat) : List HufNode :=
  (h.zipIdx k).map fun x => { tree := .leaf x.2, count := x.1.count }

theorem rankNodes_length (h : List HufLeaf) (k : Nat) : (rankNodes h k).length = h.length := by simp [rankNodes]

theorem placedDepths_rankNodes {h : List HufLeaf} {nb : List Nat} (hlen : nb.length = h.length) (k : Nat) :
    placedDepths (rankNodes h k) nb = (List.range' k h.length).zip nb := by
  induction h generalizing nb k with
  | nil => rfl
  | cons x h ih =>
    obtain ⟨b, nb, rfl⟩ := List.exists_cons_of_length_eq_add_one hlen
    rw [List.length_cons, List.range'_succ, List.zip_cons_cons, ← ih (by simpa using hlen)]
    rfl

theorem placedDepths_reverse {ns : List HufNode} {ds : List Nat} (hlen : ns.length = ds.length) :
    (placedDepths ns.reverse ds.reverse).Perm (placedDepths ns ds) := by
  rw [placedDepths, List.zip_eq_zipWith, ← List.reverse_zipWith hlen, ← List.zip_eq_zipWith]
  exact (List.reverse_perm _).flatMap_right _

/-- The leaves of the finished tree, by rank, at depths that rise with the rank. -/
theorem exists_rankDepths (tie : Config.HufTie) {h : List HufLeaf} (h2 : 2 ≤ h.length) : ∃ root nb,
    (mergeNodes tie (h.length - 1) (rankNodes h 0).reverse []).2 = [root] ∧ nb.length = h.length
      ∧ nb.Pairwise (· ≤ ·) ∧ (treeDepths 0 root.tree).Perm ((List.range h.length).zip nb) := by
  obtain ⟨root, dl, dn, e, hroot, hqueue, hperm⟩ := mergeNodes_depths tie (fuel := h.length - 1)
    (leaves := (rankNodes h 0).reverse) (nodes := []) (by simp [rankNodes_length]; omega) (by omega)
  obtain rfl := List.length_eq_zero_iff.1 hqueue.nodesLength
  obtain ⟨nb, rfl⟩ : ∃ nb : List Nat, dl = nb.reverse := ⟨dl.reverse, by simp⟩
  have hlen : nb.length = h.length := by simpa [rankNodes_length] using hqueue.leavesLength
  have hplaced := placedDepths_reverse (ns := rankNodes h 0) (ds := nb) (by rw [rankNodes_length, hlen])
  rw [placedDepths_rankNodes hlen, ← List.range_eq_range'] at hplaced
  exact ⟨root, nb, hroot, hlen, by simpa [List.pairwise_reverse] using hqueue.leavesFall,
    hperm.trans (by simpa [placedDepths] using hplaced)⟩

/-- R308's look-up of each rank among the leaves of the root. -/
theorem rankLengths_of_root {tie : Config.HufTie} {h : List HufLeaf} {root : HufNode}
    (hroot : (mergeNodes tie (h.length - 1) (rankNodes h 0).reverse []).2 = [root]) :
    rankLengths tie h = (List.range h.length).map fun r => ((treeDepths 0 root.tree).lookup r).getD 0 := by
  have hdef : rankLengths tie h = (List.range h.length).map fun r =>
      (((mergeNodes tie (h.length - 1) (rankNodes h 0).reverse []).2.flatMap
        fun n => treeDepths 0 n.tree).lookup r).getD 0 := rfl
  rw [hdef, hroot, List.flatMap_singleton]

theorem rankLengths_eq {tie : Config.HufTie} {h : List HufLeaf} {root : HufNode} {nb : List Nat}
    (hroot : (mergeNodes tie (h.length - 1) (rankNodes h 0).reverse []).2 = [root]) (hlen : nb.length = h.length)
    (hranks : (treeDepths 0 root.tree).Perm ((List.range h.length).zip nb)) : rankLengths tie h = nb := by
  have hkeys : ((treeDepths 0 root.tree).map Prod.fst).Nodup := by
    rw [(hranks.map Prod.fst).nodup_iff, List.map_fst_zip (by simp [hlen])]
    exact List.nodup_range
  rw [rankLengths_of_root hroot]
  refine List.ext_getElem (by simp [hlen]) fun r hr hr' => ?_
  have hmem : (r, nb[r]) ∈ treeDepths 0 root.tree :=
    hranks.mem_iff.2 (List.mem_iff_getElem.2 ⟨r, by simpa [hlen] using hr, by simp⟩)
  simp [lookup_eq_some_of_mem hkeys hmem]

/-- The lengths of the ranks rise, and are a full code within any bound on them. -/
theorem rankLengths_spec (tie : Config.HufTie) {h : List HufLeaf} (h2 : 2 ≤ h.length) :
    (rankLengths tie h).length = h.length ∧ (rankLengths tie h).Pairwise (· ≤ ·)
      ∧ ∀ D, (∀ b ∈ rankLengths tie h, b ≤ D) → FullCode D (rankLengths tie h) := by
  obtain ⟨root, nb, hroot, hlen, hrise, hranks⟩ := exists_rankDepths tie h2
  rw [rankLengths_eq hroot hlen hranks]
  refine ⟨hlen, hrise, fun D hD => ⟨hD, ?_⟩⟩
  have hsnd : ((treeDepths 0 root.tree).map Prod.snd).Perm nb := by
    simpa [List.map_snd_zip, hlen] using hranks.map Prod.snd
  have hbound : ∀ x ∈ treeDepths 0 root.tree, x.2 ≤ D := fun x hx =>
    hD _ (hsnd.mem_iff.1 (List.mem_map_of_mem (f := Prod.snd) hx))
  exact (hsnd.symm.map _).sum_eq.trans (kraft_treeDepths hbound).2

end Sys2Proof.Machine
end

section
/-! From ranks to symbols (R305, R311): a full code of the ranked symbols is a Kraft-complete code in which exactly the
counted symbols have a code. -/

namespace Sys2Proof.Machine

/-! ### Full codes -/

theorem length_le_kraft (D : Nat) (nb : List Nat) : nb.length ≤ kraft D nb := by
  induction nb with
  | nil => simp
  | cons b nb ih =>
    have := Nat.two_pow_pos (D - b)
    rw [List.length_cons, kraft_cons]
    omega

/-- The same lengths in a table of `2 ^ n` times the size. -/
theorem kraft_add {D : Nat} {nb : List Nat} (h : ∀ b ∈ nb, b ≤ D) (n : Nat) : kraft (D + n) nb = kraft D nb * 2 ^ n := by
  induction nb with
  | nil => simp
  | cons b nb ih =>
    obtain ⟨hb, hnb⟩ := List.forall_mem_cons.1 h
    rw [kraft_cons, kraft_cons, ih hnb, Nat.add_mul, ← pow_add]
    congr 2
    omega

/-- A full code is full within every bound on its lengths. -/
theorem FullCode.rebase {D M : Nat} {nb : List Nat} (h : FullCode D nb) (hM : ∀ b ∈ nb, b ≤ M) : FullCode M nb := by
  refine ⟨hM, Nat.eq_of_mul_eq_mul_right (Nat.two_pow_pos D) ?_⟩
  rw [← kraft_add hM, Nat.add_comm, kraft_add h.le, h.full, Nat.mul_comm]

/-- A code of two symbols or more has no empty code word. -/
theorem FullCode.ne_zero {D : Nat} {nb : List Nat} (h : FullCode D nb) (h2 : 2 ≤ nb.length) : ∀ b ∈ nb, b ≠ 0 := by
  rintro b hb rfl
  obtain ⟨as, bs, rfl⟩ := List.append_of_mem hb
  have hfull := h.full
  have has := length_le_kraft D as
  have hbs := length_le_kraft D bs
  rw [kraft_append, kraft_cons, Nat.sub_zero] at hfull
  rw [List.length_append, List.length_cons] at h2
  omega

/-! ### The lengths of the symbols -/

/-- The length of each of `n` symbols, where the symbols `syms` have the lengths `nb`. -/
def symbolLengths (n : Nat) (syms nb : List Nat) : List Nat :=
  (List.range n).map fun s => ((syms.zip nb).lookup s).getD 0

section Symbols

variable {n : Nat} {syms nb : List Nat}

theorem lookup_zip_of_notMem {s : Nat} (hs : s ∉ syms) : (syms.zip nb).lookup s = none := by
  refine List.lookup_eq_none_iff.2 fun x hx => ?_
  have : s ≠ x.1 := fun h => hs (h ▸ (List.of_mem_zip hx).1)
  simpa using this

variable (hlen : syms.length = nb.length) (hnd : syms.Nodup)

include hlen hnd

theorem lookup_zip_getElem {i : Nat} (hi : i < syms.length) : (syms.zip nb).lookup syms[i] = some nb[i] := by
  refine lookup_eq_some_of_mem (by rwa [List.map_fst_zip hlen.le]) ?_
  exact List.mem_iff_getElem.2 ⟨i, by simp [hi, ← hlen], by simp⟩

/-- The lengths of the symbols are those given, and 0 for every other symbol. -/
theorem symbolLengths_perm (hlt : ∀ s ∈ syms, s < n) :
    ∃ k, (symbolLengths n syms nb).Perm (nb ++ List.replicate k 0) := by
  have hsplit : (List.range n).Perm (syms ++ (List.range n).filter fun s => !decide (s ∈ syms)) := by
    refine (List.filter_append_perm (fun s => decide (s ∈ syms)) _).symm.trans (.append_right _ ?_)
    refine (List.perm_ext_iff_of_nodup (List.nodup_range.filter _) hnd).2 fun s => ?_
    simpa using fun hs => hlt s hs
  have hcoded : syms.map (fun s => ((syms.zip nb).lookup s).getD 0) = nb := by
    refine List.ext_getElem (by simp [hlen]) fun i hi _ => ?_
    rw [List.length_map] at hi
    simp [lookup_zip_getElem hlen hnd hi]
  have hrest : ((List.range n).filter fun s => !decide (s ∈ syms)).map (fun s => ((syms.zip nb).lookup s).getD 0)
      = List.replicate ((List.range n).filter fun s => !decide (s ∈ syms)).length 0 := by
    rw [← List.map_const']
    refine List.map_congr_left fun s hs => ?_
    rw [lookup_zip_of_notMem (by simpa using (List.mem_filter.1 hs).2), Option.getD_none]
  have hperm := hsplit.map fun s => ((syms.zip nb).lookup s).getD 0
  rw [List.map_append, hcoded, hrest] at hperm
  exact ⟨_, hperm⟩

theorem symbolLengths_getD_eq_zero_iff (hpos : ∀ b ∈ nb, b ≠ 0) {s : Nat} (hs : s < n) :
    (symbolLengths n syms nb).getD s 0 = 0 ↔ s ∉ syms := by
  rw [List.getD_eq_getElem _ _ (by simpa [symbolLengths] using hs)]
  simp only [symbolLengths, List.getElem_map, List.getElem_range]
  refine ⟨fun h0 hmem => ?_, fun hmem => by rw [lookup_zip_of_notMem hmem, Option.getD_none]⟩
  obtain ⟨i, hi, rfl⟩ := List.mem_iff_getElem.1 hmem
  rw [lookup_zip_getElem hlen hnd hi, Option.getD_some] at h0
  exact hpos _ (List.getElem_mem _) h0

/-- A full code of some symbols is a complete code of all of them. -/
theorem FullCode.codeComplete (hlt : ∀ s ∈ syms, s < n) {D : Nat} (h : FullCode D nb) (hpos : ∀ b ∈ nb, b ≠ 0) :
    CodeComplete (symbolLengths n syms nb) (listMax (symbolLengths n syms nb))
      ∧ listMax (symbolLengths n syms nb) ≤ D := by
  obtain ⟨k, hperm⟩ := symbolLengths_perm hlen hnd hlt
  generalize symbolLengths n syms nb = lens at hperm
  have hfull := h.rebase fun b hb => le_listMax (hperm.mem_iff.2 (List.mem_append_left _ hb))
  refine ⟨⟨fun l hl => le_listMax hl, ?_⟩, listMax_le fun l hl => ?_⟩
  · rw [(hperm.map _).sum_eq, List.map_append, List.sum_append, ← hfull.full, kraft]
    have hcode : ∀ b ∈ nb, (if b = 0 then 0 else 2 ^ (listMax lens - b)) = 2 ^ (listMax lens - b) :=
      fun b hb => if_neg (hpos b hb)
    rw [List.map_congr_left hcode]
    simp
  · obtain hl | hl := List.mem_append.1 (hperm.mem_iff.1 hl)
    · exact h.le l hl
    · exact (List.eq_of_mem_replicate hl).trans_le (Nat.zero_le D)

end Symbols

/-! ### The lengths HUF_BUILD gives (R305) -/

/-- The lengths of the ranks after limiting (R310). -/
def limitedLengths (tie : Config.HufTie) (counts : List Nat) (maxBits : Nat) : List Nat :=
  setMaxHeight ((rankedLeaves counts).map HufLeaf.count) (rankLengths tie (rankedLeaves counts)) maxBits

theorem zipIdx_map_sym (h : List HufLeaf) (nb : List Nat) (hlen : nb.length = h.length) :
    (h.zipIdx.map fun x => (x.1.sym, nb.getD x.2 0)) = (h.map HufLeaf.sym).zip nb := by
  refine List.ext_getElem (by simp [hlen]) fun i hi _ => ?_
  simp only [List.length_map, List.length_zipIdx] at hi
  simp [hlen, hi]

section Built

variable {tie : Config.HufTie} {counts : List Nat} {maxBits : Nat}
  (hlen : (limitedLengths tie counts maxBits).length = (rankedLeaves counts).length)

include hlen

theorem buildLengths_eq : buildLengths tie counts maxBits = symbolLengths counts.length
    ((rankedLeaves counts).map HufLeaf.sym) (limitedLengths tie counts maxBits) := by
  rw [symbolLengths, ← zipIdx_map_sym _ _ hlen]
  rfl

/-- What R311 says of the lengths HUF_BUILD gives, from what the limiting leaves. -/
theorem buildLengths_complete (hm : 2 ≤ counts.countP fun c => decide (0 < c))
    (h : FullCode maxBits (limitedLengths tie counts maxBits)) :
    CodeComplete (buildLengths tie counts maxBits) (listMax (buildLengths tie counts maxBits))
      ∧ listMax (buildLengths tie counts maxBits) ≤ maxBits
      ∧ ∀ x, x < counts.length → ((buildLengths tie counts maxBits).getD x 0 = 0 ↔ counts.getD x 0 = 0) := by
  have hpos := h.ne_zero (by rwa [hlen, rankedLeaves_length])
  have hsyms : ((rankedLeaves counts).map HufLeaf.sym).length = (limitedLengths tie counts maxBits).length := by
    rw [List.length_map, hlen]
  have hnd := rankedLeaves_sym_nodup counts
  have hlt : ∀ s ∈ (rankedLeaves counts).map HufLeaf.sym, s < counts.length := fun s hs =>
    lt_length_of_getD_ne ((mem_rankedLeaves_sym counts s).1 hs)
  rw [buildLengths_eq hlen]
  obtain ⟨hcomplete, hle⟩ := h.codeComplete hsyms hnd hlt hpos
  refine ⟨hcomplete, hle, fun x hx => ?_⟩
  rw [symbolLengths_getD_eq_zero_iff hsyms hnd hpos hx, mem_rankedLeaves_sym, not_not]

end Built

/-- Settles O39: nothing is limited, and the depths of a tree satisfy Kraft's equality. -/
theorem unlimitedLengthsComplete : Obligations.UnlimitedLengthsComplete := by
  unfold Obligations.UnlimitedLengthsComplete
  intro tie counts maxBits hm hle
  obtain ⟨hlen, -, hfull⟩ := rankLengths_spec tie (h := rankedLeaves counts) (by rwa [rankedLeaves_length])
  have hkept : limitedLengths tie counts maxBits = rankLengths tie (rankedLeaves counts) := if_pos (listMax_le hle)
  exact buildLengths_complete (hkept ▸ hlen) hm (hkept ▸ hfull maxBits hle)

end Sys2Proof.Machine
end

section
/-! Length limiting (R310): every round of the repaying loop and of the overshoot correction moves one length by one
and keeps the lengths rising and Kraft's sum in step with the debt, until the code is full. -/

namespace Sys2Proof.Machine

/-! ### The last rank of a length -/

theorem lastRankOf_concat (nb : List Nat) (b v : Nat) :
    lastRankOf (nb ++ [b]) v = if b = v then some nb.length else lastRankOf nb v := by
  simp [lastRankOf, List.zipIdx_append]

theorem lastRankOf_eq_some_iff {nb : List Nat} {v r : Nat} :
    lastRankOf nb v = some r ↔ nb[r]? = some v ∧ ∀ j, r < j → nb[j]? ≠ some v := by
  induction nb using List.reverseRecOn generalizing r with
  | nil => simp [lastRankOf]
  | append_singleton nb b ih =>
    have hget (j : Nat) : (nb ++ [b])[j]? = some v ↔ nb[j]? = some v ∨ j = nb.length ∧ b = v := by
      rw [List.getElem?_append]
      split
      · have : j ≠ nb.length := by omega
        simp [this]
      · have : nb[j]? = none := List.getElem?_eq_none (by omega)
        simp [this, List.getElem?_singleton]
        omega
    have hlt {j : Nat} (h : nb[j]? = some v) : j < nb.length := (List.getElem?_eq_some_iff.1 h).1
    rw [lastRankOf_concat]
    simp only [ne_eq, hget]
    by_cases hb : b = v
    · simp only [hb, if_true, Option.some_inj, and_true]
      constructor
      · rintro rfl
        refine ⟨.inr rfl, fun j hj => ?_⟩
        rintro (h | rfl)
        · exact absurd (hlt h) (by omega)
        · omega
      · rintro ⟨h | rfl, hlast⟩
        · exact absurd (.inr rfl) (hlast nb.length (hlt h))
        · rfl
    · simp only [hb, if_false, and_false, or_false, ih, ne_eq]

theorem lastRankOf_eq_none_iff {nb : List Nat} {v : Nat} : lastRankOf nb v = none ↔ v ∉ nb := by
  induction nb using List.reverseRecOn with
  | nil => simp [lastRankOf]
  | append_singleton nb b ih =>
    rw [lastRankOf_concat]
    by_cases hb : b = v
    · simp [hb]
    · simp [hb, ih, Ne.symm hb]

/-- The last rank of a length depends on where that length stands only. -/
theorem lastRankOf_congr {nb nb' : List Nat} {v : Nat} (h : ∀ j : Nat, nb'[j]? = some v ↔ nb[j]? = some v) :
    lastRankOf nb' v = lastRankOf nb v := by
  refine Option.ext fun r => ?_
  simp only [lastRankOf_eq_some_iff, ne_eq, h]

/-- Lengths nondecreasing in rank (R310). -/
def Rising (nb : List Nat) : Prop := ∀ i j a b : Nat, i < j → nb[i]? = some a → nb[j]? = some b → a ≤ b

theorem rising_of_pairwise {nb : List Nat} (h : nb.Pairwise (· ≤ ·)) : Rising nb := by
  intro i j a b hij hi hj
  obtain ⟨hi', rfl⟩ := List.getElem?_eq_some_iff.1 hi
  obtain ⟨hj', rfl⟩ := List.getElem?_eq_some_iff.1 hj
  exact List.pairwise_iff_getElem.1 h i j hi' hj' hij

theorem getElem?_set_of_lt {nb : List Nat} {r : Nat} (hr : r < nb.length) (w j : Nat) :
    (nb.set r w)[j]? = if j = r then some w else nb[j]? := by
  rw [List.getElem?_set]
  by_cases h : r = j
  · subst h
    simp [hr]
  · simp [h, Ne.symm h]

section Lengthen

variable {nb : List Nat} {v r : Nat} (hlast : lastRankOf nb v = some r)

include hlast

theorem lt_length_of_lastRankOf : r < nb.length :=
  (List.getElem?_eq_some_iff.1 (lastRankOf_eq_some_iff.1 hlast).1).1

theorem lastRankOf_lengthen_other {u : Nat} (h : u ≠ v) (h1 : u ≠ v + 1) :
    lastRankOf (nb.set r (v + 1)) u = lastRankOf nb u := by
  obtain ⟨hr, -⟩ := lastRankOf_eq_some_iff.1 hlast
  refine lastRankOf_congr fun j => ?_
  rw [getElem?_set_of_lt (lt_length_of_lastRankOf hlast)]
  split
  · next hj =>
    subst hj
    simp [hr, Ne.symm h, Ne.symm h1]
  · rfl

variable (hrise : Rising nb)

include hrise

/-- Ranks above the last of a length are longer. -/
theorem lt_of_lastRankOf {j b : Nat} (hj : r < j) (hb : nb[j]? = some b) : v < b := by
  obtain ⟨hr, hlater⟩ := lastRankOf_eq_some_iff.1 hlast
  refine lt_of_le_of_ne (hrise r j v b hj hr hb) ?_
  rintro rfl
  exact hlater j hj hb

/-- The last rank of a length can take the next length. -/
theorem Rising.lengthen : Rising (nb.set r (v + 1)) := by
  obtain ⟨hr, -⟩ := lastRankOf_eq_some_iff.1 hlast
  intro i j a b hij hi hj
  rw [getElem?_set_of_lt (lt_length_of_lastRankOf hlast)] at hi hj
  split at hi
  · next hir =>
    subst hir
    cases hi
    rw [if_neg (by omega)] at hj
    exact lt_of_lastRankOf hlast hrise hij hj
  · split at hj
    · next hjr =>
      subst hjr
      cases hj
      exact (hrise i j a v hij hi hr).trans (Nat.le_succ v)
    · exact hrise i j a b hij hi hj

theorem lastRankOf_lengthen_next : lastRankOf (nb.set r (v + 1)) (v + 1)
    = if lastRankOf nb (v + 1) = none then some r else lastRankOf nb (v + 1) := by
  have hget := getElem?_set_of_lt (lt_length_of_lastRankOf hlast) (v + 1)
  obtain ⟨hr, -⟩ := lastRankOf_eq_some_iff.1 hlast
  cases hnext : lastRankOf nb (v + 1) with
  | none =>
    rw [if_pos rfl, lastRankOf_eq_some_iff, hget, if_pos rfl]
    refine ⟨rfl, fun j hj h => lastRankOf_eq_none_iff.1 hnext ?_⟩
    rw [hget, if_neg (by omega)] at h
    exact List.mem_of_getElem? h
  | some q =>
    obtain ⟨hq, hlater⟩ := lastRankOf_eq_some_iff.1 hnext
    have hrq : r < q := by
      obtain hlt | rfl | hlt := Nat.lt_trichotomy r q
      · exact hlt
      · simp [hq] at hr
      · have := hrise q r _ _ hlt hq hr
        omega
    rw [if_neg (by simp), lastRankOf_eq_some_iff, hget, if_neg (by omega)]
    refine ⟨hq, fun j hj => ?_⟩
    rw [hget, if_neg (by omega)]
    exact hlater j hj

theorem lastRankOf_lengthen_same : lastRankOf (nb.set r (v + 1)) v
    = if r = 0 then none else if (nb.set r (v + 1)).getD (r - 1) 0 ≠ v then none else some (r - 1) := by
  have hget := getElem?_set_of_lt (lt_length_of_lastRankOf hlast) (v + 1)
  obtain ⟨hr, hlater⟩ := lastRankOf_eq_some_iff.1 hlast
  have hbefore {j : Nat} (h : (nb.set r (v + 1))[j]? = some v) : j < r ∧ nb[j]? = some v := by
    rw [hget] at h
    split at h
    · simp at h
    · next hj => exact ⟨lt_of_le_of_ne (not_lt.1 fun hlt => hlater j hlt h) hj, h⟩
  split
  · next h0 =>
    refine lastRankOf_eq_none_iff.2 fun hmem => ?_
    obtain ⟨j, hj⟩ := List.mem_iff_getElem?.1 hmem
    have := (hbefore hj).1
    omega
  · next h0 =>
    obtain ⟨p, rfl⟩ := Nat.exists_eq_succ_of_ne_zero h0
    obtain ⟨b, hb⟩ : ∃ b, nb[p]? = some b :=
      ⟨_, List.getElem?_eq_getElem (Nat.lt_of_succ_lt (lt_length_of_lastRankOf hlast))⟩
    have hp : (nb.set (p + 1) (v + 1))[p]? = some b := by rw [hget, if_neg (by omega), hb]
    rw [List.getD_eq_getElem?_getD, Nat.succ_sub_one, hp, Option.getD_some]
    have hbv := hrise p (p + 1) b v (Nat.lt_succ_self p) hb hr
    split
    · next hne =>
      refine lastRankOf_eq_none_iff.2 fun hmem => ?_
      obtain ⟨j, hj⟩ := List.mem_iff_getElem?.1 hmem
      obtain ⟨hjp, hj⟩ := hbefore hj
      obtain rfl | hlt := Nat.eq_or_lt_of_le (Nat.le_of_lt_succ hjp)
      · exact hne (by simpa [hb] using hj)
      · exact hne (hbv.antisymm (hrise j p v b hlt hj hb))
    · next heq =>
      obtain rfl := not_not.1 heq
      refine lastRankOf_eq_some_iff.2 ⟨hp, fun j hj h => ?_⟩
      have := (hbefore h).1
      omega

end Lengthen

/-! ### Kraft's sum as a length changes -/

/-- A length that changes moves its own places only. -/
theorem kraft_set {D : Nat} {nb : List Nat} {r b : Nat} (hr : nb[r]? = some b) (w : Nat) :
    kraft D (nb.set r w) + 2 ^ (D - b) = kraft D nb + 2 ^ (D - w) := by
  induction nb generalizing r with
  | nil => simp at hr
  | cons x nb ih =>
    cases r with
    | zero =>
      obtain rfl : x = b := by simpa using hr
      simp only [List.set_cons_zero, kraft_cons]
      omega
    | succ r =>
      have := ih (r := r) (by simpa using hr)
      simp only [List.set_cons_succ, kraft_cons]
      omega

theorem count_le_count_set {D : Nat} {nb : List Nat} {r b : Nat} (hr : nb[r]? = some b) (hb : b ≠ D) (w : Nat) :
    nb.count D ≤ (nb.set r w).count D := by
  obtain ⟨hlt, rfl⟩ := List.getElem?_eq_some_iff.1 hr
  rw [List.count_set hlt, beq_false_of_ne hb]
  simp

/-- Without lengths in the last `k` before `D`, the shorter codes take multiples of `2 ^ k` places. -/
theorem kraft_eq_count_add {D k : Nat} {nb : List Nat} (h : ∀ b ∈ nb, b = D ∨ b + k ≤ D) :
    ∃ q, kraft D nb = nb.count D + q * 2 ^ k := by
  induction nb with
  | nil => exact ⟨0, by simp⟩
  | cons b nb ih =>
    obtain ⟨hb, hnb⟩ := List.forall_mem_cons.1 h
    obtain ⟨q, hq⟩ := ih hnb
    rw [kraft_cons, hq, List.count_cons]
    by_cases hfull : b = D
    · refine ⟨q, ?_⟩
      simp only [hfull, Nat.sub_self, pow_zero, beq_self_eq_true, if_true]
      omega
    · refine ⟨q + 2 ^ (D - b - k), ?_⟩
      rw [Nat.add_mul, ← pow_add, Nat.sub_add_cancel (by omega), beq_false_of_ne hfull]
      simp only [Bool.false_eq_true, if_false]
      omega

/-! ### The rank a repayment lengthens -/

/-- `rankLast` holds the last rank of every length below `D` (R310). -/
def Tracked (D : Nat) (nb : List Nat) (rankLast : List (Option Nat)) : Prop :=
  ∀ k, 1 ≤ k → rankLast.getD k none = lastRankOf nb (D - k)

theorem repayDown_spec (rankLast : List (Option Nat)) (count : Nat → Nat) {n : Nat} (hn : 1 ≤ n) :
    1 ≤ repayDown rankLast count n ∧ repayDown rankLast count n ≤ n
      ∧ (rankLast.getD (repayDown rankLast count n) none = none →
          ∀ j, 1 ≤ j → j ≤ n → rankLast.getD j none = none) := by
  induction n with
  | zero => omega
  | succ k ih =>
    rw [repayDown]
    split
    · next hk =>
      subst hk
      refine ⟨le_rfl, le_rfl, fun h j h1 hj => ?_⟩
      rwa [Nat.le_antisymm hj h1]
    · next hk =>
      obtain ⟨hlow, hhigh, hall⟩ := ih (by omega)
      split
      · next hi =>
        refine ⟨hlow, by omega, fun h j h1 hj => ?_⟩
        obtain rfl | hlt := Nat.eq_or_lt_of_le hj
        · exact hi
        · exact hall h j h1 (by omega)
      · next hi _ => exact ⟨by omega, le_rfl, fun h => nomatch h.symm.trans hi⟩
      · next hi hlo =>
        split
        · exact ⟨by omega, le_rfl, fun h => nomatch h.symm.trans hi⟩
        · exact ⟨hlow, by omega, fun h => nomatch (hall h k (by omega) le_rfl).symm.trans hlo⟩

theorem repayUp_spec (rankLast : List (Option Nat)) {fuel k : Nat} (hfuel : 13 ≤ fuel + k) :
    k ≤ repayUp rankLast fuel k ∧ (∀ j, k ≤ j → j < repayUp rankLast fuel k → rankLast.getD j none = none)
      ∧ (rankLast.getD (repayUp rankLast fuel k) none = none → 12 < repayUp rankLast fuel k) := by
  induction fuel generalizing k with
  | zero => exact ⟨le_rfl, fun j h1 h2 => absurd h1 (not_le.2 h2), fun _ => by rw [repayUp]; omega⟩
  | succ fuel ih =>
    rw [repayUp]
    split
    · next hk =>
      obtain ⟨hle, hnone, hend⟩ := ih (k := k + 1) (by omega)
      refine ⟨by omega, fun j h1 h2 => ?_, hend⟩
      obtain rfl | hlt := Nat.eq_or_lt_of_le h1
      · exact hk.2
      · exact hnone j hlt h2
    · next hk => exact ⟨le_rfl, fun j h1 h2 => absurd h1 (not_le.2 h2), fun h => not_le.1 fun hle => hk ⟨hle, h⟩⟩

/-- The `k` a round of the repaying loop settles on. -/
def repayRank (count : Nat → Nat) (t : LimitState) : Nat :=
  repayUp t.rankLast 13 (repayDown t.rankLast count (highestBit t.cost.toNat + 1))

/-- Where some length is left to grow the round finds one, and goes above the debt's highest bit only where no length
below stands between. -/
theorem repayRank_spec (count : Nat → Nat) (t : LimitState) (h : ∃ k, 1 ≤ k ∧ k ≤ 12 ∧ t.rankLast.getD k none ≠ none) :
    1 ≤ repayRank count t ∧ t.rankLast.getD (repayRank count t) none ≠ none
      ∧ (highestBit t.cost.toNat + 1 < repayRank count t →
          ∀ j, 1 ≤ j → j < repayRank count t → t.rankLast.getD j none = none) := by
  obtain ⟨k, hk1, hk12, hk⟩ := h
  obtain ⟨hlow, hhigh, hdown⟩ := repayDown_spec t.rankLast count (n := highestBit t.cost.toNat + 1) (by omega)
  obtain ⟨hle, hup, hend⟩ := repayUp_spec t.rankLast (fuel := 13)
    (k := repayDown t.rankLast count (highestBit t.cost.toNat + 1)) (by omega)
  rw [← repayRank] at hle hup hend
  generalize repayDown t.rankLast count (highestBit t.cost.toNat + 1) = k0 at *
  have hbelow (hnone : t.rankLast.getD k0 none = none) (j : Nat) (h1 : 1 ≤ j) (hj : j < repayRank count t) :
      t.rankLast.getD j none = none := by
    by_cases hjn : j ≤ highestBit t.cost.toNat + 1
    · exact hdown hnone j h1 hjn
    · exact hup j (by omega) hj
  refine ⟨by omega, fun hnone => ?_, fun hgt => hbelow (hup k0 le_rfl (by omega))⟩
  have hk0 : t.rankLast.getD k0 none = none := by
    obtain heq | hlt := Nat.eq_or_lt_of_le hle
    · exact heq ▸ hnone
    · exact hup k0 le_rfl hlt
  exact hk (hbelow hk0 k hk1 (by have := hend hnone; omega))

/-! ### A round of the repaying loop -/

theorem getD_set_of_lt {l : List (Option Nat)} {k : Nat} (hk : k < l.length) (x : Option Nat) (j : Nat) :
    (l.set k x).getD j none = if j = k then x else l.getD j none := by
  rw [List.getD_eq_getElem?_getD, List.getElem?_set, List.getD_eq_getElem?_getD]
  by_cases h : k = j
  · subst h
    simp [hk]
  · simp [h, Ne.symm h]

/-- The updates of `rankLast` in R310 follow the length that grew. -/
theorem Tracked.lengthen {D k r : Nat} {nb : List Nat} {rl : List (Option Nat)} (h : Tracked D nb rl)
    (hrise : Rising nb) (hk : 1 ≤ k) (hkD : k < D) (hr : rl.getD k none = some r) :
    Tracked D (nb.set r (D - k + 1))
      ((if rl.getD (k - 1) none = none then rl.set (k - 1) (some r) else rl).set k
        (if r = 0 then none else if (nb.set r (D - k + 1)).getD (r - 1) 0 + k ≠ D then none else some (r - 1))) := by
  have hlast : lastRankOf nb (D - k) = some r := h k hk ▸ hr
  have hlen : k < rl.length := by
    by_contra hge
    rw [List.getD_eq_default _ _ (not_lt.1 hge)] at hr
    cases hr
  intro j hj
  rw [getD_set_of_lt (by split <;> simpa)]
  split
  · next hjk =>
    subst hjk
    rw [lastRankOf_lengthen_same hlast hrise]
    have hkeep : (nb.set r (D - j + 1)).getD (r - 1) 0 + j ≠ D ↔ (nb.set r (D - j + 1)).getD (r - 1) 0 ≠ D - j := by
      omega
    simp only [hkeep]
  · next hjk =>
    by_cases hnext : j = k - 1
    · subst hnext
      have hv : D - (k - 1) = D - k + 1 := by omega
      rw [hv, lastRankOf_lengthen_next hlast hrise, ← hv, ← h _ hj]
      split
      · rw [getD_set_of_lt (by omega), if_pos rfl]
      · rfl
    · rw [lastRankOf_lengthen_other hlast (by omega) (by omega), ← h j hj]
      split
      · rw [getD_set_of_lt (by omega), if_neg hnext]
      · rfl

theorem repayStep_eq {count : Nat → Nat} {D : Nat} {t : LimitState} {r : Nat}
    (h : t.rankLast.getD (repayRank count t) none = some r) : repayStep count D t =
      { nb := t.nb.set r (t.nb.getD r 0 + 1)
        rankLast := (if t.rankLast.getD (repayRank count t - 1) none = none then
            t.rankLast.set (repayRank count t - 1) (some r) else t.rankLast).set (repayRank count t)
          (if r = 0 then none
            else if (t.nb.set r (t.nb.getD r 0 + 1)).getD (r - 1) 0 + repayRank count t ≠ D then none
            else some (r - 1))
        cost := t.cost - 2 ^ (repayRank count t - 1) } := by
  rw [repayRank] at h ⊢
  simp only [repayStep, h]

/-- What every round keeps (R310): rising lengths within the limit, Kraft's sum off by the debt, more full lengths than
debt or overshoot, `rankLast` up to date, and only full lengths from rank `n` on. -/
structure Limiting (D m n : Nat) (t : LimitState) : Prop where
  length : t.nb.length = m
  rising : Rising t.nb
  ne_zero : ∀ b ∈ t.nb, b ≠ 0
  le : ∀ b ∈ t.nb, b ≤ D
  debt : (kraft D t.nb : Int) = 2 ^ D + t.cost
  cost_lt : t.cost < t.nb.count D
  overshoot_le : -t.cost ≤ t.nb.count D
  tracked : Tracked D t.nb t.rankLast
  tail : ∀ j b, n ≤ j → t.nb[j]? = some b → b = D

section Round

variable {D m n : Nat} {t : LimitState} (h : Limiting D m n t)

include h

theorem Limiting.rankLast_ne_none {b : Nat} (hb : b ∈ t.nb) (hfull : b ≠ D) :
    1 ≤ D - b ∧ t.rankLast.getD (D - b) none ≠ none := by
  have hle := h.le b hb
  refine ⟨by omega, ?_⟩
  rw [h.tracked _ (by omega), Nat.sub_sub_self hle, ne_eq, lastRankOf_eq_none_iff, not_not]
  exact hb

/-- While there is debt, some length is below the limit (log entry 20). -/
theorem Limiting.exists_rank (hm : m ≤ 2 ^ D) (hD : D ≤ 11) (hcost : 0 < t.cost) :
    ∃ k, 1 ≤ k ∧ k ≤ 12 ∧ t.rankLast.getD k none ≠ none := by
  obtain ⟨b, hb, hfull⟩ : ∃ b ∈ t.nb, b ≠ D := by
    by_contra hall
    push Not at hall
    have hkraft : kraft D t.nb = t.nb.length := by
      rw [List.eq_replicate_of_mem hall]
      simp [kraft]
    have hdebt := h.debt
    rw [hkraft, h.length] at hdebt
    zify at hm
    omega
  obtain ⟨hpos, hrank⟩ := h.rankLast_ne_none hb hfull
  exact ⟨D - b, hpos, by omega, hrank⟩

/-- Where no length stands in the last `k - 1` below the limit, there are at least `2 ^ k` more full lengths than
debt. -/
theorem Limiting.count_ge {k : Nat} (hkD : k ≤ D)
    (hgap : ∀ j, 1 ≤ j → j < k → t.rankLast.getD j none = none) : t.cost + 2 ^ k ≤ t.nb.count D := by
  obtain ⟨q, hq⟩ := kraft_eq_count_add (D := D) (k := k) (nb := t.nb) fun b hb => by
    by_contra hcon
    push Not at hcon
    obtain ⟨hpos, hrank⟩ := h.rankLast_ne_none hb hcon.1
    exact hrank (hgap _ hpos (by omega))
  have hdebt := h.debt
  have hcost := h.cost_lt
  have hsplit : 2 ^ D = 2 ^ (D - k) * 2 ^ k := by rw [← pow_add, Nat.sub_add_cancel hkD]
  have hlt : q * 2 ^ k < 2 ^ (D - k) * 2 ^ k := by
    rw [← hsplit]
    zify [hq] at hdebt ⊢
    omega
  have hle := Nat.mul_le_mul_right (2 ^ k) (Nat.succ_le_of_lt (Nat.lt_of_mul_lt_mul_right hlt))
  rw [Nat.succ_mul, ← hsplit] at hle
  zify [hq] at hdebt hle ⊢
  omega

/-- A round repays part of the debt and keeps all else. -/
theorem Limiting.repayStep (hm : m ≤ 2 ^ D) (hD : D ≤ 11) (hcost : 0 < t.cost) (count : Nat → Nat) :
    Limiting D m n (repayStep count D t) ∧ (Machine.repayStep count D t).cost < t.cost := by
  obtain ⟨hk1, hrank, hgap⟩ := repayRank_spec count t (h.exists_rank hm hD hcost)
  obtain ⟨r, hr⟩ := Option.ne_none_iff_exists'.1 hrank
  rw [repayStep_eq hr]
  generalize repayRank count t = k at *
  have hlast : lastRankOf t.nb (D - k) = some r := h.tracked k hk1 ▸ hr
  obtain ⟨hget, -⟩ := lastRankOf_eq_some_iff.1 hlast
  have hkD : k < D := by
    have := h.ne_zero _ (List.mem_of_getElem? hget)
    omega
  have hgetD : t.nb.getD r 0 = D - k := by rw [List.getD_eq_getElem?_getD, hget, Option.getD_some]
  have hpow : (2 : Nat) ^ k = 2 * 2 ^ (k - 1) := by rw [← pow_succ', Nat.sub_add_cancel hk1]
  have hkraft := kraft_set (D := D) hget (D - k + 1)
  rw [show D - (D - k) = k by omega, show D - (D - k + 1) = k - 1 by omega] at hkraft
  have hpos := Nat.two_pow_pos (k - 1)
  have hcount := count_le_count_set hget (show D - k ≠ D by omega) (D - k + 1)
  have hdebt := h.debt
  have hlt := h.cost_lt
  have hshort : -(t.cost - 2 ^ (k - 1)) ≤ t.nb.count D := by
    by_cases hhigh : highestBit t.cost.toNat + 1 < k
    · have := h.count_ge hkD.le (hgap hhigh)
      zify at hpow
      omega
    · have hbit : 2 ^ (k - 1) ≤ t.cost.toNat :=
        (Nat.pow_le_pow_right (by decide) (show k - 1 ≤ highestBit t.cost.toNat by omega)).trans
          (Nat.log2_self_le (by omega))
      zify at hbit
      omega
  rw [hgetD]
  zify at hpow hkraft hpos hcount
  refine ⟨{
    length := by rw [List.length_set, h.length]
    rising := h.rising.lengthen hlast
    ne_zero := fun b hb => ?_
    le := fun b hb => ?_
    debt := by dsimp only; omega
    cost_lt := by dsimp only; omega
    overshoot_le := by dsimp only; omega
    tracked := h.tracked.lengthen h.rising hk1 hkD hr
    tail := fun j b hj hb => ?_ }, by dsimp only; omega⟩
  · obtain hb | rfl := List.mem_or_eq_of_mem_set hb
    · exact h.ne_zero b hb
    · omega
  · obtain hb | rfl := List.mem_or_eq_of_mem_set hb
    · exact h.le b hb
    · omega
  · dsimp only at hb
    rw [getElem?_set_of_lt (lt_length_of_lastRankOf hlast)] at hb
    split at hb
    · next hjr =>
      have := h.tail j _ hj (hjr ▸ hget)
      omega
    · exact h.tail j b hj hb

/-- The repaying loop ends with no debt left. -/
theorem Limiting.repayLoop (hm : m ≤ 2 ^ D) (hD : D ≤ 11) (count : Nat → Nat) {fuel : Nat} (hfuel : t.cost ≤ fuel) :
    Limiting D m n (repayLoop count D fuel t) ∧ (Machine.repayLoop count D fuel t).cost ≤ 0 := by
  induction fuel generalizing t with
  | zero => exact ⟨h, hfuel⟩
  | succ fuel ih =>
    rw [Machine.repayLoop]
    split
    · next hcost =>
      obtain ⟨hnext, hless⟩ := h.repayStep hm hD hcost count
      exact ih hnext (by omega)
    · next hcost => exact ⟨h, not_lt.1 hcost⟩

end Round

/-! ### The overshoot correction -/

/-- What every round of the correction keeps: `short` places are still free, there are as many full lengths, and
`rankLast[1]` is up to date; without one, all lengths from rank `n` on are full. -/
structure Correcting (D m short : Nat) (nb : List Nat) (n : Nat) (last : Option Nat) : Prop where
  length : nb.length = m
  rising : Rising nb
  le : ∀ b ∈ nb, b ≤ D
  kraft_add : kraft D nb + short = 2 ^ D
  enough : short ≤ nb.count D
  last_eq : last = lastRankOf nb (D - 1)
  n_le : n ≤ m
  tail : last = none → ∀ j b, n ≤ j → nb[j]? = some b → b = D

/-- Rank `q` is the first whose length is full. -/
def FirstFull (D : Nat) (nb : List Nat) (q : Nat) : Prop :=
  nb[q]? = some D ∧ ∀ j b, j < q → nb[j]? = some b → b < D

/-- In rising lengths a full one stands behind every other. -/
theorem Rising.getElem?_succ {D r b : Nat} {nb : List Nat} (h : Rising nb) (hfull : D ∈ nb) (hr : nb[r]? = some b)
    (hb : b < D) : ∃ c, nb[r + 1]? = some c := by
  obtain ⟨i, hi⟩ := List.mem_iff_getElem?.1 hfull
  have hri : r < i := by
    obtain hlt | rfl | hlt := Nat.lt_trichotomy r i
    · exact hlt
    · rw [hr, Option.some_inj] at hi
      omega
    · have := h i r D b hlt hi hr
      omega
  have := (List.getElem?_eq_some_iff.1 hi).1
  exact ⟨_, List.getElem?_eq_getElem (by omega)⟩

/-- The rank after the last of length `D - 1` is the first full one. -/
theorem firstFull_succ {D r : Nat} {nb : List Nat} (hrise : Rising nb) (hle : ∀ b ∈ nb, b ≤ D) (hD : 1 ≤ D)
    (hfull : D ∈ nb) (hlast : lastRankOf nb (D - 1) = some r) : FirstFull D nb (r + 1) := by
  obtain ⟨hr, -⟩ := lastRankOf_eq_some_iff.1 hlast
  obtain ⟨c, hc⟩ := hrise.getElem?_succ hfull hr (by omega)
  have hlow := lt_of_lastRankOf hlast hrise (Nat.lt_succ_self r) hc
  have hhigh := hle c (List.mem_of_getElem? hc)
  obtain rfl : c = D := by omega
  refine ⟨hc, fun j b hj hb => ?_⟩
  obtain rfl | hlt := Nat.eq_or_lt_of_le (Nat.le_of_lt_succ hj)
  · rw [hr, Option.some_inj] at hb
    omega
  · have := hrise j r b _ hlt hb hr
    omega

/-- R310's search down from `n` stops at the first full rank. -/
theorem firstFull_dropFull {D n : Nat} {nb : List Nat} (hrise : Rising nb) (hle : ∀ b ∈ nb, b ≤ D) (hfull : D ∈ nb)
    (hn : n ≤ nb.length) (htail : ∀ j b, n ≤ j → nb[j]? = some b → b = D) : FirstFull D nb (dropFull nb D n) := by
  induction n with
  | zero =>
    obtain ⟨b, hb⟩ : ∃ b, nb[0]? = some b := ⟨_, List.getElem?_eq_getElem (List.length_pos_of_mem hfull)⟩
    exact ⟨htail 0 b le_rfl hb ▸ hb, fun j b hj => absurd hj (Nat.not_lt_zero j)⟩
  | succ n ih =>
    obtain ⟨b, hb⟩ : ∃ b, nb[n]? = some b := ⟨_, List.getElem?_eq_getElem hn⟩
    have hgetD : nb.getD n 0 = b := by rw [List.getD_eq_getElem?_getD, hb, Option.getD_some]
    rw [dropFull, hgetD]
    split
    · next hbD =>
      refine ih (by omega) fun j c hj hc => ?_
      obtain rfl | hlt := Nat.eq_or_lt_of_le hj
      · rw [← hbD]
        exact Option.some_inj.1 (hc.symm.trans hb)
      · exact htail j c hlt hc
    · next hbD =>
      have hlt := lt_of_le_of_ne (hle b (List.mem_of_getElem? hb)) hbD
      obtain ⟨c, hc⟩ := hrise.getElem?_succ hfull hb hlt
      refine ⟨htail _ c le_rfl hc ▸ hc, fun j d hj hd => ?_⟩
      obtain rfl | hjn := Nat.eq_or_lt_of_le (Nat.le_of_lt_succ hj)
      · rwa [Option.some_inj.1 (hd.symm.trans hb)]
      · exact (hrise j n d b hjn hd hb).trans_lt hlt

/-- A round of the correction shortens the first full length by one. -/
theorem Correcting.shorten {D m short n n' q : Nat} {nb : List Nat} {last : Option Nat}
    (h : Correcting D m (short + 1) nb n last) (hD : 1 ≤ D) (hn' : n' ≤ m) (hq : FirstFull D nb q) :
    Correcting D m short (nb.set q (D - 1)) n' (some q) := by
  obtain ⟨hget, hbefore⟩ := hq
  obtain ⟨hlt, hgetElem⟩ := List.getElem?_eq_some_iff.1 hget
  have hset := getElem?_set_of_lt hlt (D - 1)
  have hafter {j b : Nat} (hj : q < j) (hb : nb[j]? = some b) : b = D :=
    (h.le b (List.mem_of_getElem? hb)).antisymm (h.rising q j D b hj hget hb)
  exact {
    length := by rw [List.length_set, h.length]
    rising := fun i j a b hij hi hj => by
      rw [hset] at hi hj
      split at hi
      · next hiq =>
        cases hi
        rw [if_neg (by omega)] at hj
        have := hafter (hiq ▸ hij) hj
        omega
      · split at hj
        · next hjq =>
          cases hj
          have := hbefore i a (hjq ▸ hij) hi
          omega
        · exact h.rising i j a b hij hi hj
    le := fun b hb => by
      obtain hb | rfl := List.mem_or_eq_of_mem_set hb
      · exact h.le b hb
      · omega
    kraft_add := by
      have hkraft := kraft_set (D := D) hget (D - 1)
      rw [Nat.sub_self, Nat.sub_sub_self hD] at hkraft
      have := h.kraft_add
      omega
    enough := by
      have hcount := List.count_set (a := D - 1) (b := D) hlt
      rw [hgetElem, beq_self_eq_true, beq_false_of_ne (show D - 1 ≠ D by omega)] at hcount
      have := h.enough
      simp only [if_true, Bool.false_eq_true, if_false] at hcount
      omega
    last_eq := by
      refine (lastRankOf_eq_some_iff.2 ⟨by rw [hset, if_pos rfl], fun j hj hb => ?_⟩).symm
      rw [hset, if_neg (by omega)] at hb
      have := hafter hj hb
      omega
    n_le := hn'
    tail := nofun }

/-- The correction ends with a full code. -/
theorem Correcting.overshootLoop {D m short n : Nat} {nb : List Nat} {last : Option Nat}
    (h : Correcting D m short nb n last) (hD : 1 ≤ D) :
    (overshootLoop D short nb n last).length = m ∧ FullCode D (overshootLoop D short nb n last) := by
  induction short generalizing nb n last with
  | zero => exact ⟨h.length, h.le, h.kraft_add⟩
  | succ short ih =>
    have hfull : D ∈ nb := List.count_pos_iff.1 (by have := h.enough; omega)
    cases last with
    | none =>
      have hfirst := firstFull_dropFull h.rising h.le hfull (h.length ▸ h.n_le) (h.tail rfl)
      have hlt := (List.getElem?_eq_some_iff.1 hfirst.1).1
      have hgetD : nb.getD (dropFull nb D n) 0 = D := by
        rw [List.getD_eq_getElem?_getD, hfirst.1, Option.getD_some]
      simp only [Machine.overshootLoop, hgetD]
      exact ih (h.shorten hD (h.length ▸ hlt.le) hfirst)
    | some r =>
      have hfirst := firstFull_succ h.rising h.le hD hfull h.last_eq.symm
      have hgetD : nb.getD (r + 1) 0 = D := by rw [List.getD_eq_getElem?_getD, hfirst.1, Option.getD_some]
      rw [Machine.overshootLoop, hgetD]
      exact ih (h.shorten hD h.n_le hfirst)

/-! ### The start of the loops -/

/-- Clamping to `D` bits adds the debt to Kraft's sum, and takes from no length as much as a full one adds. -/
theorem kraft_clamped {D n : Nat} {nb : List Nat} (hle : ∀ b ∈ nb, b ≤ D + n) :
    kraft (D + n) (nb.map fun b => min b D)
        = kraft (D + n) nb + (nb.map fun b => if D < b then 2 ^ n - 2 ^ (D + n - b) else 0).sum
      ∧ (nb.map fun b => if D < b then 2 ^ n - 2 ^ (D + n - b) else 0).sum + nb.countP (fun b => decide (D < b))
        ≤ (nb.map fun b => min b D).count D * 2 ^ n := by
  induction nb with
  | nil => simp
  | cons b nb ih =>
    obtain ⟨hb, hnb⟩ := List.forall_mem_cons.1 hle
    obtain ⟨ih1, ih2⟩ := ih hnb
    simp only [List.map_cons, kraft_cons, List.sum_cons, List.countP_cons, List.count_cons, ih1]
    by_cases hlong : D < b
    · have hpow : 2 ^ (D + n - b) ≤ 2 ^ n := Nat.pow_le_pow_right (by decide) (by omega)
      have hpos := Nat.two_pow_pos (D + n - b)
      simp only [hlong, Nat.min_eq_right hlong.le, Nat.add_sub_cancel_left, if_true, decide_true, beq_self_eq_true,
        Nat.add_mul]
      omega
    · simp only [hlong, Nat.min_eq_left (not_lt.1 hlong), if_false, decide_false, Nat.add_mul]
      exact ⟨by omega, by simp; omega⟩

theorem tracked_rankLastInit {D : Nat} {nb : List Nat} (hD : D ≤ 11) (hpos : ∀ b ∈ nb, b ≠ 0) :
    Tracked D nb (rankLastInit nb D) := by
  intro k hk
  have hzero : lastRankOf nb 0 = none := lastRankOf_eq_none_iff.2 fun h => hpos 0 h rfl
  by_cases hin : k < 14
  · rw [rankLastInit, List.getD_eq_getElem _ _ (by simpa using hin)]
    simp only [List.getElem_map, List.getElem_range]
    split
    · rfl
    · rw [show D - k = 0 by omega, hzero]
  · rw [List.getD_eq_default _ _ (by simpa [rankLastInit] using hin), show D - k = 0 by omega, hzero]

/-- In rising lengths within the limit all are full from the number of shorter ones on. -/
theorem full_of_countP_le {D : Nat} {nb : List Nat} (hrise : nb.Pairwise (· ≤ ·)) (hle : ∀ b ∈ nb, b ≤ D) {j b : Nat}
    (hj : nb.countP (fun b => decide (b < D)) ≤ j) (hb : nb[j]? = some b) : b = D := by
  induction nb generalizing j with
  | nil => simp at hb
  | cons x nb ih =>
    obtain ⟨hx, hrise⟩ := List.pairwise_cons.1 hrise
    obtain ⟨hxD, hle⟩ := List.forall_mem_cons.1 hle
    rw [List.countP_cons] at hj
    by_cases hlt : x < D
    · simp only [hlt, decide_true, if_true] at hj
      obtain ⟨i, rfl⟩ : ∃ i, j = i + 1 := ⟨j - 1, by omega⟩
      exact ih hrise hle (by omega) hb
    · have hb := List.mem_of_getElem? hb
      obtain rfl | hb := List.mem_cons.1 hb
      · omega
      · have := hx b hb
        have := hle b hb
        omega

/-- The state R310's loops begin in. -/
def limitStart (nb : List Nat) (D : Nat) : LimitState :=
  { nb := nb.map fun b => min b D
    rankLast := rankLastInit (nb.map fun b => min b D) D
    cost := (((nb.map fun b => if D < b then 2 ^ (listMax nb - D) - 2 ^ (listMax nb - b) else 0).sum
      >>> (listMax nb - D) : Nat) : Int) }

theorem setMaxHeight_eq {counts nb : List Nat} {D : Nat} (hlong : D < listMax nb) : setMaxHeight counts nb D =
    let t := repayLoop (fun r => counts.getD r 0) D (limitStart nb D).cost.toNat (limitStart nb D)
    overshootLoop D (-t.cost).toNat t.nb ((nb.map fun b => min b D).countP fun b => decide (b < D))
      (t.rankLast.getD 1 none) :=
  if_neg (not_le.2 hlong)

section Limited

variable {D : Nat} {nb : List Nat} (hrise : nb.Pairwise (· ≤ ·)) (hfull : FullCode (listMax nb) nb)
  (hpos : ∀ b ∈ nb, b ≠ 0) (hlong : D < listMax nb)

include hfull hlong

/-- The debt is a whole number of places, and there are more full lengths than it. -/
theorem limitStart_debt : (kraft D (limitStart nb D).nb : Int) = 2 ^ D + (limitStart nb D).cost
    ∧ 0 ≤ (limitStart nb D).cost ∧ (limitStart nb D).cost < (limitStart nb D).nb.count D := by
  have hsum : D + (listMax nb - D) = listMax nb := by omega
  have hlonger : 0 < nb.countP fun b => decide (D < b) :=
    List.countP_pos_iff.2 ⟨listMax nb, listMax_mem (by omega), by simpa using hlong⟩
  have hclamped : ∀ b ∈ nb.map (fun b => min b D), b ≤ D := List.forall_mem_map.2 fun b _ => Nat.min_le_right b D
  obtain ⟨hkraft, hcount⟩ := kraft_clamped (D := D) (n := listMax nb - D) (nb := nb) (hsum.symm ▸ hfull.le)
  rw [kraft_add hclamped, hsum, hfull.full, ← hsum, pow_add, hsum] at hkraft
  simp only [limitStart, hsum] at hkraft hcount ⊢
  generalize (nb.map fun b => min b D) = clamped at *
  generalize (nb.map fun b => if D < b then 2 ^ (listMax nb - D) - 2 ^ (listMax nb - b) else 0).sum = debt at *
  obtain ⟨cost, hcost⟩ : ∃ cost, kraft D clamped = 2 ^ D + cost :=
    Nat.exists_eq_add_of_le (Nat.le_of_mul_le_mul_right (hkraft ▸ Nat.le_add_right _ _) (Nat.two_pow_pos _))
  obtain rfl : debt = cost * 2 ^ (listMax nb - D) := by
    rw [hcost, Nat.add_mul] at hkraft
    omega
  rw [Nat.shiftRight_eq_div_pow, Nat.mul_div_cancel _ (Nat.two_pow_pos _), hcost]
  have hless : cost < clamped.count D := Nat.lt_of_mul_lt_mul_right (a := 2 ^ (listMax nb - D)) (by omega)
  exact ⟨by push_cast; rfl, by omega, by omega⟩

variable (hD1 : 1 ≤ D) (hD : D ≤ 11)

include hrise hpos hD1 hD

theorem limiting_limitStart :
    Limiting D nb.length ((nb.map fun b => min b D).countP fun b => decide (b < D)) (limitStart nb D) := by
  obtain ⟨hdebt, hcost, hless⟩ := limitStart_debt hfull hlong
  have hmin : (nb.map fun b => min b D).Pairwise (· ≤ ·) :=
    List.pairwise_map.2 (hrise.imp fun h => min_le_min_right D h)
  have hle : ∀ b ∈ nb.map (fun b => min b D), b ≤ D := List.forall_mem_map.2 fun b _ => Nat.min_le_right b D
  have hne : ∀ b ∈ nb.map (fun b => min b D), b ≠ 0 := List.forall_mem_map.2 fun b hb => by
    have := hpos b hb
    omega
  exact {
    length := by simp [limitStart]
    rising := rising_of_pairwise hmin
    ne_zero := hne
    le := hle
    debt := hdebt
    cost_lt := hless
    overshoot_le := by omega
    tracked := tracked_rankLastInit hD hne
    tail := fun j b hj hb => full_of_countP_le hmin hle hj hb }

/-- Limiting a full code of at most `2 ^ D` lengths leaves a full code within `D` bits. -/
theorem setMaxHeight_full (hm : nb.length ≤ 2 ^ D) (counts : List Nat) :
    (setMaxHeight counts nb D).length = nb.length ∧ FullCode D (setMaxHeight counts nb D) := by
  have hstart := limiting_limitStart hrise hfull hpos hlong hD1 hD
  obtain ⟨hend, hcost⟩ := hstart.repayLoop hm hD (fun r => counts.getD r 0) (Int.self_le_toNat _)
  rw [setMaxHeight_eq hlong]
  dsimp only
  generalize repayLoop _ _ _ _ = t at *
  have hdebt := hend.debt
  have hcorrect : Correcting D nb.length (-t.cost).toNat t.nb _ (t.rankLast.getD 1 none) := {
    length := hend.length
    rising := hend.rising
    le := hend.le
    kraft_add := by zify; omega
    enough := by have := hend.overshoot_le; omega
    last_eq := hend.tracked 1 le_rfl
    n_le := List.countP_le_length.trans_eq (List.length_map _)
    tail := fun _ => hend.tail }
  exact hcorrect.overshootLoop hD1

end Limited

/-- Settles O40: within the limit as O39; beyond it the loops of R310 keep Kraft's sum in step with the debt, and end
with a full code. -/
theorem limitedLengthsComplete : Obligations.LimitedLengthsComplete := by
  unfold Obligations.LimitedLengthsComplete
  intro tie counts maxBits h11 hm hfits
  have hbits : 1 ≤ maxBits := by
    by_contra h0
    rw [Nat.lt_one_iff.1 (not_le.1 h0)] at hfits
    omega
  rw [← rankedLeaves_length] at hm hfits
  obtain ⟨hlen, hrise, hfull⟩ := rankLengths_spec tie hm
  have hlimited : (limitedLengths tie counts maxBits).length = (rankedLeaves counts).length
      ∧ FullCode maxBits (limitedLengths tie counts maxBits) := by
    by_cases hlong : maxBits < listMax (rankLengths tie (rankedLeaves counts))
    · have hcode := hfull _ fun b hb => le_listMax hb
      obtain ⟨hkept, hlimit⟩ := setMaxHeight_full hrise hcode (hcode.ne_zero (hlen ▸ hm)) hlong hbits h11 (hlen ▸ hfits)
        ((rankedLeaves counts).map HufLeaf.count)
      exact ⟨hkept.trans hlen, hlimit⟩
    · have hkept : limitedLengths tie counts maxBits = rankLengths tie (rankedLeaves counts) := if_pos (not_lt.1 hlong)
      rw [hkept]
      exact ⟨hlen, hfull maxBits fun b hb => (le_listMax hb).trans (not_lt.1 hlong)⟩
  rw [rankedLeaves_length] at hm
  exact buildLengths_complete hlimited.1 hm hlimited.2

end Sys2Proof.Machine
end

section
/-! HUF_BUILD, HUF_WRITE and HUF_READ (R305, R322, R330): their checks in order and what they leave. -/

namespace Sys2Proof.Machine

/-! ### HUF_BUILD -/

section Build

variable {s : State}

theorem exec_hufBuild_raise {c : ErrCode} (h : hufBuildCheck (s.countList s.a1) s.a0 s.a1 = some c) :
    exec .hufBuild s = raise c s := by
  simp only [exec, execHufBuild, h]

theorem exec_hufBuild_ok (h : hufBuildCheck (s.countList s.a1) s.a0 s.a1 = none) :
    exec .hufBuild s = .next { s with
      ht := s.ht.set 1 (some (buildHuf s.params.hufTie (s.countList s.a1) s.a0)), hpend := true
      res := s.res.set 0 ((buildHuf s.params.hufTie (s.countList s.a1) s.a0).maxBits.zeroExtend 64) } := by
  rw [← res64_toNat_zeroExtend (by decide)]
  simp only [exec, execHufBuild, h]
  rfl

end Build

/-- The checks of R305, in their order. -/
theorem hufBuildCheck_eq (counts : List Nat) (maxBits maxSym : Nat) : hufBuildCheck counts maxBits maxSym =
    if ¬ (1 ≤ maxBits ∧ maxBits ≤ 11 ∧ maxSym ≤ 255) then some .argRange
    else if counts.countP (fun c => decide (0 < c)) < 2 then some .needsRle
    else if counts.getD maxSym 0 = 0 ∨ 2 ^ maxBits < counts.countP (fun c => decide (0 < c)) then some .argRange
    else none := by
  have hrange : (decide (maxBits < 1) || decide (Config.hufMaxBits < maxBits) || !symbolOk maxSym) = true
      ↔ ¬ (1 ≤ maxBits ∧ maxBits ≤ 11 ∧ maxSym ≤ 255) := by
    simp only [Bool.or_eq_true, decide_eq_true_eq, Bool.not_eq_true', symbolOk_eq_false, Config.hufMaxBits]
    omega
  simp only [hufBuildCheck, hrange, Bool.or_eq_true, decide_eq_true_eq]

theorem countList_length (s : State) {maxSym : Nat} (h : maxSym ≤ 255) : (s.countList maxSym).length = maxSym + 1 := by
  simp [State.countList]
  omega

theorem countList_getD (s : State) (maxSym : Nat) (x : Fin 256) :
    (s.countList maxSym).getD x.val 0 = if x.val ≤ maxSym then (s.counts[x]).toNat else 0 := by
  rw [State.countList, List.getD_eq_getElem?_getD, List.getElem?_take]
  split
  · rw [if_pos (by omega)]
    simp
  · rw [if_neg (by omega), Option.getD_none]

theorem buildLengths_length (tie : Config.HufTie) (counts : List Nat) (maxBits : Nat) :
    (buildLengths tie counts maxBits).length = counts.length := by
  simp [buildLengths]

/-- A symbol that is not counted gets no length. -/
theorem buildLengths_getD_eq_zero (tie : Config.HufTie) {counts : List Nat} (maxBits : Nat) {x : Nat}
    (h : counts.getD x 0 = 0) : (buildLengths tie counts maxBits).getD x 0 = 0 := by
  by_cases hx : x < counts.length
  · have hnone (nb : List Nat) :
        ((rankedLeaves counts).zipIdx.map fun y => (y.1.sym, nb.getD y.2 0)).lookup x = none := by
      refine List.lookup_eq_none_iff.2 (List.forall_mem_map.2 fun y hy => ?_)
      have hleaf : y.1.sym ∈ (rankedLeaves counts).map HufLeaf.sym :=
        List.mem_map_of_mem (List.fst_mem_of_mem_zipIdx hy)
      have : x ≠ y.1.sym := fun heq => (mem_rankedLeaves_sym counts x).1 (heq ▸ hleaf) h
      simpa using this
    rw [List.getD_eq_getElem _ _ (by rwa [buildLengths_length])]
    simp only [buildLengths, List.getElem_map, List.getElem_range, hnone, Option.getD_none]
  · exact List.getD_eq_default _ _ (by rw [buildLengths_length]; omega)

/-- Settles O38: one outcome for each case of the checks, in their order. -/
theorem huffmanBuild : Obligations.HuffmanBuild := by
  unfold Obligations.HuffmanBuild
  intro s counts m inRange lens
  have hcheck := hufBuildCheck_eq (s.countList s.a1) s.a0 s.a1
  refine ⟨fun hr => ?_, fun hr hm => ?_, fun hr hm hbad => ?_, fun hr hm hlast hfits => ?_⟩
  · rw [if_pos hr] at hcheck
    exact raises_of_raise (exec_hufBuild_raise hcheck)
  all_goals rw [if_neg (not_not.2 hr)] at hcheck
  · rw [if_pos hm] at hcheck
    exact raises_of_raise (exec_hufBuild_raise hcheck)
  all_goals rw [if_neg (not_lt.2 hm)] at hcheck
  · rw [if_pos hbad] at hcheck
    exact raises_of_raise (exec_hufBuild_raise hcheck)
  · rw [if_neg (not_or.2 ⟨hlast, not_lt.2 hfits⟩)] at hcheck
    have hlen : lens.length = s.a1 + 1 := (buildLengths_length _ _ _).trans (countList_length s hr.2.2)
    refine ⟨_, exec_hufBuild_ok hcheck, ?_, rfl, fun x => tab256_get _ x, fun x => tab256_get _ x, fun x hx => ?_⟩
    · have : (BitVec.ofNat 8 (lens.length - 1)).toNat = s.a1 := by
        rw [hlen, Nat.add_sub_cancel, BitVec.toNat_ofNat, Nat.mod_eq_of_lt (by omega)]
      exact this
    · have huncounted : counts.getD x.val 0 = 0 := by
        rw [countList_getD]
        split
        · rw [hx.resolve_left (by omega)]
          rfl
        · rfl
      refine (tab256_get _ x).trans ?_
      rw [buildLengths_getD_eq_zero _ _ huncounted]
      rfl

/-! ### HUF_WRITE and HUF_READ -/

section Description

variable {s : State} {e : Fin 2}

theorem exec_hufWrite_bad (hw : windowOk s.a0 s.a1 = false) : exec (.hufWrite (nib e)) s = raise .argRange s := by
  simp [exec, execHufWrite, hw]

theorem exec_hufRead_bad (hw : windowOk s.a0 s.a1 = false) : exec .hufRead s = raise .argRange s := by
  simp [exec, execHufRead, hw]

variable (hw : windowOk s.a0 s.a1 = true)

include hw

theorem exec_hufWrite_none (ht : s.ht[e] = none) :
    exec (.hufWrite (nib e)) s = raiseDst { code := .stateInvalid, off := 0 } s.a0 s.a1 s := by
  simp only [exec, execHufWrite, withTwo_nib, hw, ht, Bool.not_true, Bool.false_eq_true, if_false]

theorem exec_hufWrite_error {T : HufTable} {x : Err} (ht : s.ht[e] = some T) (h : hufDescription T s.a1 = .error x) :
    exec (.hufWrite (nib e)) s = raiseDst x s.a0 s.a1 s := by
  simp only [exec, execHufWrite, withTwo_nib, hw, ht, h, Bool.not_true, Bool.false_eq_true, if_false]

theorem exec_hufWrite_ok {T : HufTable} {out : List Byte} (ht : s.ht[e] = some T)
    (h : hufDescription T s.a1 = .ok out) :
    exec (.hufWrite (nib e)) s = .next ((s.writeOut s.a0 s.a1 out).setRes0 (res64 out.length)) := by
  simp only [exec, execHufWrite, withTwo_nib, hw, ht, h, Bool.not_true, Bool.false_eq_true, if_false]

theorem exec_hufRead_error {x : Err} (h : readHuf (s.window s.a0 s.a1) = .error x) :
    exec .hufRead s = raiseErr x { s with hd := none } := by
  simp only [exec, execHufRead, hw, h, Bool.not_true, Bool.false_eq_true, if_false]

theorem exec_hufRead_ok {d : HufDescription} (h : readHuf (s.window s.a0 s.a1) = .ok d) :
    exec .hufRead s = .next { s with
      hd := some d.table
      res := ((s.res.set 0 (res64 d.used)).set 1 (res64 d.table.log)).set 2 (res64 d.symbols) } := by
  simp only [exec, execHufRead, hw, h, Bool.not_true, Bool.false_eq_true, if_false]
  rfl

end Description

/-- Settles O41: the window check, then each result of the bodies R322 and R330 describe. -/
theorem huffmanDescriptionCommands : Obligations.HuffmanDescriptionCommands := by
  unfold Obligations.HuffmanDescriptionCommands
  intro s e bad
  refine ⟨fun hbad => ?_, fun hgood ht => ?_, fun hgood T ht => ?_, fun hgood => ?_⟩
  · have hw := windowOk_false_of hbad
    exact ⟨raises_of_raise (exec_hufWrite_bad hw), raises_of_raise (exec_hufRead_bad hw)⟩
  all_goals have hw := windowOk_of_not hgood
  · exact raisesDst_of_raiseDst (exec_hufWrite_none hw ht)
  · refine ⟨fun x h => raisesDst_of_raiseDst (exec_hufWrite_error hw ht h), fun out h => ?_⟩
    have hfits := hufDescription_length_le h
    exact ⟨hfits, delivers_size (exec_hufWrite_ok hw ht h) hfits⟩
  · refine ⟨fun x h => raisesFrom_of_raiseErr (exec_hufRead_error hw h), fun d h => ⟨?_, exec_hufRead_ok hw h⟩⟩
    exact (readHuf_used_le h).trans_eq (by simp [State.window])

end Sys2Proof.Machine
end

section
/-! Normalization (R211 to R214): where it succeeds, the shares fill the table, and a symbol has a share exactly where
it is counted. -/

namespace Sys2Proof.Machine

/-! ### The largest of a list (R212) -/

/-- Where an entry is above 0, R212's scan stops at a largest one. -/
theorem firstMax_spec {l : List Int} (hpos : ∃ x ∈ l, 0 < x) :
    ∃ top, l[firstMax l]? = some top ∧ 0 < top ∧ ∀ x ∈ l, x ≤ top := by
  obtain ⟨b, hb⟩ : ∃ b, b = l.zipIdx.foldl (fun (b : Int × Nat) x => if b.1 < x.1 then x else b) (0, 0) := ⟨_, rfl⟩
  have hscan : (∀ x ∈ l, x ≤ b.1) ∧ (b.1 = 0 ∨ 0 < b.1 ∧ l[b.2]? = some b.1) := by
    clear hpos
    induction l using List.reverseRecOn generalizing b with
    | nil => simp_all
    | append_singleton l y ih =>
      obtain ⟨hle, hat⟩ := ih _ rfl
      rw [List.zipIdx_append, List.foldl_append] at hb
      generalize l.zipIdx.foldl _ _ = c at *
      simp only [List.zipIdx_singleton, List.foldl_cons, List.foldl_nil, Nat.zero_add] at hb
      have hother : ∀ x ∈ l ++ [y], x ≤ c.1 ∨ x = y := by
        simpa [or_imp, forall_and] using fun x hx => .inl (hle x hx)
      subst hb
      split
      · next hlt =>
        refine ⟨fun x hx => (hother x hx).elim (fun h => h.trans hlt.le) le_of_eq, .inr ⟨?_, by simp⟩⟩
        have : 0 ≤ c.1 := hat.elim ge_of_eq fun h => h.1.le
        exact this.trans_lt hlt
      · next hge =>
        refine ⟨fun x hx => (hother x hx).elim id fun h => h ▸ not_lt.1 hge, hat.imp_right fun h => ⟨h.1, ?_⟩⟩
        rw [List.getElem?_append_left (List.getElem?_eq_some_iff.1 h.2).1]
        exact h.2
  obtain ⟨x, hx, h0⟩ := hpos
  obtain ⟨hle, hat⟩ := hscan
  have hbpos : 0 < b.1 := h0.trans_le (hle x hx)
  obtain ⟨-, hat⟩ := hat.resolve_left hbpos.ne'
  exact ⟨b.1, by rw [firstMax, ← hb, hat], hbpos, hle⟩

/-! ### Shares (R215) -/

/-- A share for a count: 0 exactly where the count is, and not below -1 (R215). -/
def ShareFor (c : Nat) (n : Int) : Prop := (n = 0 ↔ c = 0) ∧ -1 ≤ n

theorem ShareFor.of_pos {c : Nat} {n : Int} (hc : c ≠ 0) (hn : 0 < n) : ShareFor c n := ⟨by omega, by omega⟩

theorem totalSlots_set {l : List Int} {m : Nat} {y : Int} (hm : l[m]? = some y) (x : Int) :
    totalSlots (l.set m x) + countSlots y = totalSlots l + countSlots x := by
  induction l generalizing m with
  | nil => cases hm
  | cons a l ih =>
    cases m with
    | zero =>
      obtain rfl : a = y := by simpa using hm
      rw [List.set_cons_zero, totalSlots_cons, totalSlots_cons]
      omega
    | succ m =>
      have := ih (m := m) (by simpa using hm)
      rw [List.set_cons_succ, totalSlots_cons, totalSlots_cons]
      omega

theorem forall₂_set {α β : Type} {R : α → β → Prop} {as : List α} {bs : List β} (h : List.Forall₂ R as bs) {m : Nat}
    {x : β} (hx : ∀ a, as[m]? = some a → R a x) : List.Forall₂ R as (bs.set m x) := by
  induction h generalizing m with
  | nil => exact .nil
  | @cons a b as bs hab h ih =>
    cases m with
    | zero => exact .cons (hx a rfl) h
    | succ m => exact .cons hab (ih fun a ha => hx a (by simpa using ha))

theorem forall₂_getElem? {α β : Type} {R : α → β → Prop} {as : List α} {bs : List β} (h : List.Forall₂ R as bs)
    {m : Nat} {a : α} {b : β} (ha : as[m]? = some a) (hb : bs[m]? = some b) : R a b := by
  obtain ⟨i, rfl⟩ := List.getElem?_eq_some_iff.1 ha
  obtain ⟨j, rfl⟩ := List.getElem?_eq_some_iff.1 hb
  exact h.get i j

/-! ### A count above its share of one state (R211) -/

section Counts

variable {count : List Nat} {tl total : Nat} (hsum : count.sum = total) (hpos : 0 < total)
  (hlen : count.length < 2 ^ tl)

include hsum hpos hlen

/-- Fewer symbols than states cannot all be counted less than one state's worth. -/
theorem exists_count_above : ∃ c ∈ count, total >>> tl < c := by
  by_contra hall
  simp only [not_exists, not_and, not_lt] at hall
  have hle : total ≤ count.length * (total >>> tl) := by
    simpa [hsum] using List.sum_le_card_nsmul count _ hall
  rw [Nat.shiftRight_eq_div_pow] at hle
  have hmul := Nat.mul_div_le total (2 ^ tl)
  rcases Nat.eq_zero_or_pos (total / 2 ^ tl) with h0 | h0
  · rw [h0] at hle
    omega
  · have := Nat.mul_lt_mul_of_pos_right hlen h0
    omega

end Counts

/-- A count above one state's worth has a share of at least 1 (R211). -/
theorem normShare_pos {tl total c : Nat} (htl : tl ≤ 12) (hsmall : total < 2 ^ 24) (hc : c ≤ total)
    (h : total >>> tl < c) : 1 ≤ normShare tl total c := by
  obtain ⟨scale, hscale⟩ : ∃ scale, scale = 62 - tl := ⟨_, rfl⟩
  have h0 : 0 < total := (Nat.zero_lt_of_lt h).trans_le hc
  have hstates : total + 1 ≤ c * 2 ^ tl := by
    rw [Nat.shiftRight_eq_div_pow] at h
    exact (Nat.div_lt_iff_lt_mul (Nat.two_pow_pos tl)).1 h
  have hsplit : 2 ^ tl * 2 ^ scale = 2 ^ 62 := by
    rw [← pow_add, hscale]
    congr 1
    omega
  have hlow : 2 ^ 50 ≤ 2 ^ scale := Nat.pow_le_pow_right (by decide) (by omega)
  have hquot : 2 ^ 62 < (2 ^ 62 / total + 1) * total := Nat.lt_mul_of_div_lt (Nat.lt_succ_self _) h0
  have hprod : 2 ^ scale ≤ c * (2 ^ 62 / total) := by
    generalize 2 ^ 62 / total = q at *
    by_contra hlt
    have hbig : c * (2 ^ 62 + 1) ≤ c * ((q + 1) * total) := Nat.mul_le_mul_left c hquot
    have hcc : c * total < 2 ^ 48 := by nlinarith
    have hstep : (total + 1) * 2 ^ scale ≤ c * 2 ^ 62 := by
      rw [← hsplit, ← Nat.mul_assoc]
      exact Nat.mul_le_mul_right _ hstates
    have hlt' : (c * q + 1) * total ≤ 2 ^ scale * total := Nat.mul_le_mul_right _ (by omega)
    nlinarith
  have hp : 1 ≤ (c * (2 ^ 62 / total)) >>> (62 - tl) := by
    rw [Nat.shiftRight_eq_div_pow, ← hscale]
    exact Nat.div_pos hprod (Nat.two_pow_pos _)
  rw [normShare, if_neg (Nat.zero_lt_of_lt h).ne', if_neg (not_le.2 h)]
  dsimp only
  generalize (c * (2 ^ 62 / total)) >>> (62 - tl) = p at *
  split <;> omega

theorem normShare_shareFor {tl total c : Nat} (htl : tl ≤ 12) (hsmall : total < 2 ^ 24) (hc : c ≤ total) :
    ShareFor c (normShare tl total c) := by
  rcases Nat.eq_zero_or_pos c with rfl | h0
  · simp [normShare, ShareFor]
  rcases Nat.lt_or_ge (total >>> tl) c with h | h
  · exact .of_pos h0.ne' (normShare_pos htl hsmall hc h)
  · rw [normShare, if_neg h0.ne', if_pos h]
    exact ⟨by omega, le_rfl⟩

/-! ### The second method (R214) -/

/-- What R214's first two passes give a count: nothing where it is 0, and else one state, marked -1 only up to `low`, or
the mark that it is not yet assigned. -/
def MarkedFor (low c : Nat) (n : Int) : Prop :=
  (n = 0 ↔ c = 0) ∧ (n = 0 ∨ n = 1 ∨ n = notYet ∨ n = -1 ∧ c ≤ low)

theorem norm2First_marked (tl total : Nat) (count : List Nat) :
    List.Forall₂ (MarkedFor (total >>> tl)) count (norm2First tl total count) := by
  refine List.forall₂_map_right_iff.2 (List.forall₂_same.2 fun c _ => ?_)
  dsimp only [MarkedFor, notYet]
  split
  · omega
  · split
    · omega
    · split <;> omega

theorem norm2Second_marked {low lowOne : Nat} {count : List Nat} {norm : List Int}
    (h : List.Forall₂ (MarkedFor low) count norm) :
    List.Forall₂ (MarkedFor low) count (norm2Second lowOne count norm) := by
  induction h with
  | nil => exact .nil
  | @cons c n count norm hcn _ ih =>
    refine .cons ?_ ih
    dsimp only
    split
    · next hn =>
      obtain ⟨h0, -⟩ := hcn
      have : n ≠ 0 := hn.1 ▸ by decide
      exact ⟨by omega, .inr (.inl rfl)⟩
    · exact hcn

theorem unassignedTotal_cons (c : Nat) (n : Int) (count : List Nat) (norm : List Int) :
    unassignedTotal (c :: count) (n :: norm) = (if n = notYet then c else 0) + unassignedTotal count norm := by
  simp [unassignedTotal]

section Marked

variable {low : Nat} {count : List Nat} {norm : List Int} (h : List.Forall₂ (MarkedFor low) count norm)

include h

/-- Where no symbol is left unassigned, the marks are shares, one state each. -/
theorem shares_of_assigned (hall : ∀ n ∈ norm, n ≠ notYet) :
    List.Forall₂ ShareFor count norm ∧ totalSlots norm = assignedSlots norm := by
  induction h with
  | nil => exact ⟨.nil, rfl⟩
  | @cons c n count norm hcn _ ih =>
    obtain ⟨hn, hall⟩ := List.forall_mem_cons.1 hall
    obtain ⟨hshares, hslots⟩ := ih hall
    obtain ⟨h0, hcases⟩ := hcn
    refine ⟨.cons ⟨h0, by dsimp only [notYet] at *; omega⟩ hshares, ?_⟩
    rw [totalSlots_cons, hslots, assignedSlots, assignedSlots, List.countP_cons, Nat.add_comm]
    congr 1
    rcases hcases with rfl | rfl | rfl | ⟨rfl, -⟩
    · rfl
    · rfl
    · exact absurd rfl hn
    · rfl

/-- A count above `low` is assigned 1, where it is assigned. -/
theorem eq_one_of_above (hall : ∀ n ∈ norm, n ≠ notYet) {m c : Nat} {n : Int} (hc : count[m]? = some c)
    (hn : norm[m]? = some n) (hlow : low < c) : n = 1 := by
  have := hall n (List.mem_of_getElem? hn)
  obtain ⟨h0, hcases⟩ := forall₂_getElem? h hc hn
  omega

theorem ne_notYet_of_unassignedTotal (hzero : unassignedTotal count norm = 0) : ∀ n ∈ norm, n ≠ notYet := by
  induction h with
  | nil => simp
  | @cons c n count norm hcn _ ih =>
    obtain ⟨h0, -⟩ := hcn
    rw [unassignedTotal_cons] at hzero
    refine List.forall_mem_cons.2 ⟨fun hn => ?_, ih (by omega)⟩
    subst hn
    have : c = 0 := by simpa using (Nat.eq_zero_of_add_eq_zero hzero).1
    exact absurd (h0.2 this) (by decide)

theorem unassignedTotal_le : unassignedTotal count norm ≤ count.sum := by
  induction h with
  | nil => exact le_rfl
  | @cons c n count norm _ _ ih =>
    rw [unassignedTotal_cons, List.sum_cons]
    split <;> omega

theorem assignedSlots_le : assignedSlots norm ≤ count.length := h.length_eq ▸ List.countP_le_length

/-- The last loop of R214 gives every unassigned symbol at least one state, and in all as many as its accumulator moves
on in units of `2 ^ vlog`. -/
theorem norm2Share_spec {vlog rstep acc : Nat} {out : List Int}
    (hout : norm2Share vlog rstep acc (count.zip norm) = .ok out) :
    List.Forall₂ ShareFor count out ∧ totalSlots out + acc >>> vlog
      = assignedSlots norm + (acc + unassignedTotal count norm * rstep) >>> vlog := by
  induction h generalizing acc out with
  | nil =>
    cases hout
    exact ⟨.nil, by simp [totalSlots, assignedSlots, unassignedTotal]⟩
  | @cons c n count norm hcn _ ih =>
    rw [List.zip_cons_cons, norm2Share] at hout
    have hassigned : assignedSlots (n :: norm) = assignedSlots norm + if n ≠ 0 ∧ n ≠ notYet then 1 else 0 := by
      simp [assignedSlots, List.countP_cons]
    obtain ⟨h0, hcases⟩ := hcn
    split at hout
    · next hn =>
      dsimp only at hout
      split at hout
      · cases hout
      next hw =>
      split at hout
      case h_2 => cases hout
      next rest hrest =>
      cases hout
      obtain ⟨hshares, hslots⟩ := ih hrest
      refine ⟨.cons (.of_pos (fun hc => absurd (h0.2 hc) (by rw [hn]; decide)) (by omega)) hshares, ?_⟩
      rw [totalSlots_cons, unassignedTotal_cons, hassigned, if_pos hn, if_neg (by simp [hn]), Nat.add_mul,
        ← Nat.add_assoc acc]
      simp only [countSlots, Int.natAbs_natCast]
      omega
    · next hn =>
      split at hout
      case h_2 => cases hout
      next rest hrest =>
      cases hout
      obtain ⟨hshares, hslots⟩ := ih hrest
      refine ⟨.cons ⟨h0, by dsimp only [notYet] at *; omega⟩ hshares, ?_⟩
      rw [totalSlots_cons, unassignedTotal_cons, hassigned, if_neg hn, Nat.zero_add]
      have : countSlots n = if n ≠ 0 ∧ n ≠ notYet then 1 else 0 := by
        rcases hcases with rfl | rfl | rfl | ⟨rfl, -⟩
        · rfl
        · rfl
        · exact absurd rfl hn
        · rfl
      omega

end Marked

/-- The turns of R214's round robin from the place `s` to the place `p` of `len`. -/
def turnsTo (len p s : Nat) : Nat := if s ≤ p then p - s else p + len - s

theorem turnsTo_next {len p s : Nat} (hp : p < len) (hs : s < len) :
    (s + 1) % len < len ∧ (if s = p then turnsTo len p ((s + 1) % len) + 1 = len
      else turnsTo len p ((s + 1) % len) + 1 = turnsTo len p s) := by
  have hnext : (s + 1) % len = if s + 1 = len then 0 else s + 1 := by
    split
    · next h => rw [h, Nat.mod_self]
    · exact Nat.mod_eq_of_lt (by omega)
  rw [hnext]
  dsimp only [turnsTo]
  split
  · split
    · split <;> omega
    · split <;> split <;> omega
  · split
    · split <;> omega
    · split <;> split <;> omega

/-- The round robin of R214 hands out every state left: it comes back to a symbol with a share often enough. -/
theorem norm2RoundRobin_spec {count : List Nat} {fuel toDist s p : Nat} {norm : List Int}
    (hshares : List.Forall₂ ShareFor count norm) (hp : p < norm.length) (hs : s < norm.length) {top : Int}
    (htop : norm[p]? = some top) (htop0 : 0 < top)
    (hfuel : toDist = 0 ∨ (toDist - 1) * norm.length + turnsTo norm.length p s < fuel) :
    List.Forall₂ ShareFor count (norm2RoundRobin fuel toDist s norm)
      ∧ totalSlots (norm2RoundRobin fuel toDist s norm) = totalSlots norm + toDist := by
  induction fuel generalizing toDist s norm top with
  | zero =>
    obtain rfl : toDist = 0 := hfuel.resolve_right (Nat.not_lt_zero _)
    exact ⟨hshares, rfl⟩
  | succ fuel ih =>
    rw [norm2RoundRobin]
    split
    · next h0 =>
      subst h0
      exact ⟨hshares, rfl⟩
    next h0 =>
    have hfuel := hfuel.resolve_left h0
    obtain ⟨hnext, hturns⟩ := turnsTo_next hp hs
    obtain ⟨n, hn⟩ : ∃ n, norm[s]? = some n := ⟨_, List.getElem?_eq_getElem hs⟩
    have hget : norm.getD s 0 = n := by simp [hn]
    dsimp only
    rw [hget]
    obtain ⟨k, rfl⟩ : ∃ k, toDist = k + 1 := ⟨toDist - 1, by omega⟩
    split
    · next hpos =>
      have hset := totalSlots_set hn (n + 1)
      obtain ⟨top', htop', htop0'⟩ : ∃ top', (norm.set s (n + 1))[p]? = some top' ∧ 0 < top' := by
        rw [List.getElem?_set]
        split
        · exact ⟨n + 1, rfl, by omega⟩
        · exact ⟨top, htop, htop0⟩
      obtain ⟨h1, h2⟩ := ih (norm := norm.set s (n + 1)) (toDist := k) (s := (s + 1) % norm.length)
        (forall₂_set hshares fun c hc => by
          obtain ⟨hz, -⟩ := forall₂_getElem? hshares hc hn
          exact .of_pos (by omega) (by omega))
        (by rwa [List.length_set]) (by rwa [List.length_set]) htop' htop0' (by
          rw [List.length_set]
          obtain _ | k := k
          · exact .inl rfl
          · refine .inr ?_
            rw [Nat.add_sub_cancel] at hfuel ⊢
            rw [Nat.succ_mul] at hfuel
            split at hturns <;> omega)
      refine ⟨h1, ?_⟩
      rw [Nat.add_sub_cancel, h2]
      have hn1 : countSlots (n + 1) = countSlots n + 1 := by
        dsimp only [countSlots]
        omega
      omega
    · next hpos =>
      refine ih hshares hp hnext htop htop0 (.inr ?_)
      have hsp : s ≠ p := by
        rintro rfl
        exact hpos (Option.some.inj (hn.symm.trans htop) ▸ htop0)
      rw [if_neg hsp] at hturns
      omega

/-- R214's step divides the states left among the counts left, to the unit. -/
theorem shareStep_shiftRight {vlog toDist total : Nat} (h0 : 0 < total) (hv : 1 ≤ vlog) (hle : total < 2 ^ vlog) :
    (2 ^ (vlog - 1) - 1 + total * ((2 ^ vlog * toDist + (2 ^ (vlog - 1) - 1)) / total)) >>> vlog = toDist := by
  have hhalf : 2 ^ vlog = 2 ^ (vlog - 1) * 2 := by rw [← pow_succ, Nat.sub_add_cancel hv]
  have hpos := Nat.two_pow_pos (vlog - 1)
  generalize 2 ^ (vlog - 1) = half at *
  rw [Nat.shiftRight_eq_div_pow]
  generalize 2 ^ vlog = unit at *
  have hdiv := Nat.div_add_mod (unit * toDist + (half - 1)) total
  have hmod := Nat.mod_lt (unit * toDist + (half - 1)) h0
  refine Nat.div_eq_of_lt_le ?_ ?_
  · rw [Nat.mul_comm toDist]
    omega
  · rw [Nat.succ_mul, Nat.mul_comm toDist]
    omega

section Normalized

variable {count : List Nat} {tl total : Nat} (hsum : count.sum = total) (hpos : 0 < total)
  (hlen : count.length < 2 ^ tl)

include hsum hpos hlen

/-- R214 where every symbol is assigned: the states left go to a symbol counted most, which is not marked -1. -/
theorem shares_of_full {norm : List Int} (hmarked : List.Forall₂ (MarkedFor (total >>> tl)) count norm)
    (hfull : assignedSlots norm = count.length) {m c rest : Nat} (hc : count[m]? = some c)
    (hmax : ∀ x ∈ count, x ≤ c) :
    List.Forall₂ ShareFor count (norm.set m (norm.getD m 0 + rest))
      ∧ totalSlots (norm.set m (norm.getD m 0 + rest)) = assignedSlots norm + rest := by
  obtain ⟨big, hbig, habove⟩ := exists_count_above hsum hpos hlen
  have hall : ∀ x ∈ norm, x ≠ notYet := fun x hx => by
    have := List.countP_eq_length.1 (hfull.trans hmarked.length_eq) x hx
    simp_all
  obtain ⟨hshares, hslots⟩ := shares_of_assigned hmarked hall
  obtain ⟨n, hn⟩ : ∃ n, norm[m]? = some n :=
    ⟨_, List.getElem?_eq_getElem (hmarked.length_eq ▸ (List.getElem?_eq_some_iff.1 hc).1)⟩
  have hlow : total >>> tl < c := habove.trans_le (hmax big hbig)
  obtain rfl := eq_one_of_above hmarked hall hc hn hlow
  rw [show norm.getD m 0 = 1 by simp [hn]]
  have hset := totalSlots_set hn (1 + rest)
  refine ⟨forall₂_set hshares fun a ha => ?_, ?_⟩
  · obtain rfl := Option.some.inj (ha.symm.trans hc)
    exact .of_pos (Nat.zero_lt_of_lt hlow).ne' (by omega)
  · have h1 : countSlots (1 + rest) = 1 + rest := by
      dsimp only [countSlots]
      omega
    have h2 : countSlots 1 = 1 := rfl
    omega

/-- R214 where no count is left: the round robin hands out the states left. -/
theorem shares_of_roundRobin {norm : List Int} (hmarked : List.Forall₂ (MarkedFor (total >>> tl)) count norm)
    (hzero : unassignedTotal count norm = 0) (rest : Nat) :
    List.Forall₂ ShareFor count (norm2RoundRobin (rest * norm.length) rest 0 norm)
      ∧ totalSlots (norm2RoundRobin (rest * norm.length) rest 0 norm) = assignedSlots norm + rest := by
  obtain ⟨big, hbig, habove⟩ := exists_count_above hsum hpos hlen
  obtain ⟨p, hp⟩ := List.mem_iff_getElem?.1 hbig
  have hall := ne_notYet_of_unassignedTotal hmarked hzero
  obtain ⟨hshares, hslots⟩ := shares_of_assigned hmarked hall
  have hplen : p < norm.length := hmarked.length_eq ▸ (List.getElem?_eq_some_iff.1 hp).1
  have hn := List.getElem?_eq_getElem hplen
  have hone : 0 < norm[p] := by
    rw [eq_one_of_above hmarked hall hp hn habove]
    decide
  rw [← hslots]
  refine norm2RoundRobin_spec hshares hplen (by omega) hn hone ?_
  obtain _ | k := rest
  · exact .inl rfl
  · rw [Nat.succ_mul, Nat.add_sub_cancel, turnsTo, if_pos (Nat.zero_le _)]
    exact .inr (by omega)

variable (htl : tl ≤ 12) (hsmall : total < 2 ^ 24)

include htl hsmall

/-- The second method's shares fill the table (R214). -/
theorem normalize2_spec {out : List Int} (h : normalize2 count tl total = .ok out) :
    List.Forall₂ ShareFor count out ∧ totalSlots out = 2 ^ tl := by
  unfold normalize2 at h
  extract_lets first total1 toDist1 norm total2 toDist m vlog mid at h
  have hmarked : List.Forall₂ (MarkedFor (total >>> tl)) count norm := by
    dsimp only [norm]
    split
    · exact norm2Second_marked (norm2First_marked tl total count)
    · exact norm2First_marked tl total count
  have htoDist : assignedSlots norm + toDist = 2 ^ tl := by
    have := assignedSlots_le hmarked
    omega
  split at h
  · next hfull =>
    cases h
    obtain ⟨big, hbig, habove⟩ := exists_count_above hsum hpos hlen
    obtain ⟨top, htop, -, hmax⟩ := firstMax_spec (l := count.map Nat.cast)
      ⟨big, List.mem_map_of_mem hbig, by exact_mod_cast Nat.zero_lt_of_lt habove⟩
    have hm : m = firstMax (count.map Nat.cast) := by simp [m, List.map_eq_flatMap]
    obtain ⟨c, hc, rfl⟩ : ∃ c, count[m]? = some c ∧ (c : Int) = top := by simpa [hm] using htop
    rw [← htoDist]
    exact shares_of_full hsum hpos hlen hmarked hfull hc
      fun x hx => by exact_mod_cast hmax x (List.mem_map_of_mem hx)
  split at h
  · next hzero =>
    cases h
    rw [← htoDist]
    exact shares_of_roundRobin hsum hpos hlen hmarked hzero toDist
  · next hzero =>
    obtain ⟨hshares, hslots⟩ := norm2Share_spec hmarked h
    have hrest : total2 ≤ total := hsum ▸ unassignedTotal_le hmarked
    have hunit : 2 ^ 50 ≤ 2 ^ vlog := Nat.pow_le_pow_right (by decide) (by omega)
    have hstart : mid >>> vlog = 0 := by
      have : 2 ^ (vlog - 1) ≤ 2 ^ vlog := Nat.pow_le_pow_right (by decide) (by omega)
      rw [Nat.shiftRight_eq_div_pow, Nat.div_eq_of_lt (by omega)]
    have hend := shareStep_shiftRight (vlog := vlog) (toDist := toDist) (Nat.pos_of_ne_zero hzero) (by omega) (by omega)
    rw [hstart, hend] at hslots
    exact ⟨hshares, by omega⟩

/-- R215: the shares fill the table, and stand where the counts do. -/
theorem normalize_spec {out : List Int} (h : normalize count tl total = .ok out) :
    List.Forall₂ ShareFor count out ∧ totalSlots out = 2 ^ tl := by
  obtain ⟨big, hbig, habove⟩ := exists_count_above hsum hpos hlen
  have hle : ∀ c ∈ count, c ≤ total := fun c hc => hsum ▸ List.le_sum_of_mem hc
  have hshares : List.Forall₂ ShareFor count (count.map (normShare tl total)) :=
    List.forall₂_map_right_iff.2 (List.forall₂_same.2 fun c hc => normShare_shareFor htl hsmall (hle c hc))
  obtain ⟨top, htop, htop0, -⟩ := firstMax_spec (l := count.map (normShare tl total))
    ⟨_, List.mem_map_of_mem hbig, normShare_pos htl hsmall (hle big hbig) habove⟩
  simp only [normalize] at h
  split at h
  · exact normalize2_spec hsum hpos hlen htl hsmall h
  next hfits =>
  cases h
  generalize count.map (normShare tl total) = norm at *
  generalize firstMax norm = m at *
  rw [show norm.getD m 0 = top by simp [htop]] at hfits ⊢
  have hstill : 0 < top + (2 ^ tl - (totalSlots norm : Int)) := by omega
  have hset := totalSlots_set htop (top + (2 ^ tl - (totalSlots norm : Int)))
  refine ⟨forall₂_set hshares fun a ha => ?_, ?_⟩
  · obtain ⟨h0, -⟩ := forall₂_getElem? hshares ha htop
    exact .of_pos (by omega) hstill
  · have h1 : (countSlots (top + (2 ^ tl - (totalSlots norm : Int))) : Int) = top + (2 ^ tl - totalSlots norm) :=
      Int.natAbs_of_nonneg hstill.le
    have h2 : (countSlots top : Int) = top := Int.natAbs_of_nonneg htop0.le
    zify at hset ⊢
    omega

end Normalized

/-! ### Distributions of shares (R215) -/

section Shares

variable {count : List Nat} {norm : List Int} (h : List.Forall₂ ShareFor count norm)

include h

theorem countP_le_totalSlots : count.countP (fun c => decide (0 < c)) ≤ totalSlots norm := by
  induction h with
  | nil => exact Nat.zero_le _
  | @cons c n count norm hcn _ ih =>
    obtain ⟨h0, -⟩ := hcn
    rw [List.countP_cons, totalSlots_cons, countSlots]
    split
    · next hc =>
      have : c ≠ 0 := by simpa [Nat.pos_iff_ne_zero] using hc
      omega
    · omega

/-- Beside a share there is a state for every other counted symbol. -/
theorem countSlots_add_countP_le {n : Int} (hn : n ∈ norm) :
    countSlots n + count.countP (fun c => decide (0 < c)) ≤ totalSlots norm + 1 := by
  induction h with
  | nil => cases hn
  | @cons c m count norm hcm hrest ih =>
    have hothers := countP_le_totalSlots hrest
    obtain ⟨h0, -⟩ := hcm
    rw [List.countP_cons, totalSlots_cons]
    obtain rfl | hn := List.mem_cons.1 hn
    · split <;> omega
    · have := ih hn
      split
      · next hc =>
        have : c ≠ 0 := by simpa [Nat.pos_iff_ne_zero] using hc
        rw [countSlots, countSlots] at *
        omega
      · omega

theorem share_eq_zero_iff (x : Nat) : norm.getD x 0 = 0 ↔ count.getD x 0 = 0 := by
  induction h generalizing x with
  | nil => simp
  | cons hcn _ ih =>
    cases x with
    | zero => exact hcn.1
    | succ x => exact ih x

theorem share_getLast? (hlast : count.getLast? ≠ some 0) : norm.getLast? ≠ some 0 := by
  rw [List.getLast?_eq_getElem?] at *
  intro h0
  obtain ⟨hlt, -⟩ := List.getElem?_eq_some_iff.1 h0
  rw [← h.length_eq] at h0 hlt
  have hcount := List.getElem?_eq_getElem hlt
  obtain ⟨hzero, -⟩ := forall₂_getElem? h hcount h0
  exact hlast (hcount.trans (congrArg some (hzero.1 rfl)))

theorem share_ge : ∀ n ∈ norm, -1 ≤ n := by
  induction h with
  | nil => simp
  | cons hcn _ ih => exact List.forall_mem_cons.2 ⟨hcn.2, ih⟩

end Shares

end Sys2Proof.Machine
end

section
/-! Table descriptions read back (R220, R223, R224): the reader takes the fields of R220's loop one after another, and
its threshold and width stay those of the writer. -/

namespace Sys2Proof.Machine

/-! ### The next fields of a forward stream (R150, R223) -/

theorem LowFields.head {v : Nat} {f : BitField} {fs : List BitField} (h : LowFields v (f :: fs)) :
    v % 2 ^ f.width = f.val ∧ LowFields (v >>> f.width) fs := by
  obtain ⟨hfits, hi, rfl⟩ := h
  obtain ⟨hf, hfs⟩ := List.forall_mem_cons.1 hfits
  have hsplit : fieldsValue (f :: fs) + 2 ^ totalBits (f :: fs) * hi
      = f.val + 2 ^ f.width * (fieldsValue fs + 2 ^ totalBits fs * hi) := by
    rw [fieldsValue, totalBits_cons, pow_add]
    ring
  rw [hsplit, Nat.add_mul_mod_self_left, Nat.mod_eq_of_lt hf, Nat.shiftRight_eq_div_pow,
    Nat.add_mul_div_left _ _ (Nat.two_pow_pos _), Nat.div_eq_of_lt hf, Nat.zero_add]
  exact ⟨rfl, hfs, hi, rfl⟩

/-- The fields `fs` stand in `v` from a bit position on. -/
def FieldsAt (v bits : Nat) (fs : List BitField) : Prop := LowFields (v >>> bits) fs

section Reads

variable {v bits len : Nat} {f : BitField} {fs gs : List BitField}

theorem FieldsAt.ncField (h : FieldsAt v bits (f :: fs)) {k : Nat} (hk : k ≤ f.width) :
    ncField v bits k = f.val % 2 ^ k := by
  rw [Machine.ncField, ← h.head.1, Nat.mod_mod_of_dvd _ (pow_dvd_pow 2 hk)]

theorem FieldsAt.ncField_eq (h : FieldsAt v bits (f :: fs)) : Machine.ncField v bits f.width = f.val := h.head.1

theorem FieldsAt.tail (h : FieldsAt v bits (f :: fs)) : FieldsAt v (bits + f.width) fs := by
  rw [FieldsAt, Nat.shiftRight_add]
  exact h.head.2

theorem FieldsAt.drop (h : FieldsAt v bits (fs ++ gs)) : FieldsAt v (bits + totalBits fs) gs := by
  induction fs generalizing bits with
  | nil => exact h
  | cons f fs ih =>
    rw [totalBits_cons, ← Nat.add_assoc]
    exact ih h.tail

theorem FieldsAt.take (h : FieldsAt v bits (fs ++ gs)) : FieldsAt v bits fs := h.of_append

theorem ncConsume_ok {k : Nat} (h : bits + k ≤ 8 * len) : ncConsume len bits k = .ok (bits + k) := if_neg (not_lt.2 h)

/-! ### Zero runs -/

/-- The value 3 in two bits: three more zeros, and the reader goes on. -/
abbrev threeZeros : BitField := { val := 3, width := 2 }

/-- Sixteen bits of ones are eight times the value 3. -/
theorem replicate_ones (a : Nat) (fs : List BitField) :
    totalBits (List.replicate a { val := 0xFFFF, width := 16 } ++ fs)
      = totalBits (List.replicate (8 * a) threeZeros ++ fs)
    ∧ fieldsValue (List.replicate a { val := 0xFFFF, width := 16 } ++ fs)
      = fieldsValue (List.replicate (8 * a) threeZeros ++ fs) := by
  induction a with
  | zero => exact ⟨rfl, rfl⟩
  | succ a ih =>
    obtain ⟨htotal, hvalue⟩ := ih
    simp only [Nat.mul_succ, List.replicate_succ, List.cons_append, totalBits_cons, fieldsValue, htotal, hvalue]
    omega

/-- R220's repeat codes for `z` zeros are the value 3 `z / 3` times, and what is left over. -/
theorem FieldsAt.threes {z : Nat} (h : FieldsAt v bits (zeroRun z)) : totalBits (zeroRun z) = 2 * (z / 3) + 2
    ∧ FieldsAt v bits (List.replicate (z / 3) threeZeros ++ [{ val := z % 3, width := 2 }]) := by
  have hsplit : List.replicate (z / 3) threeZeros ++ [({ val := z % 3, width := 2 } : BitField)]
      = List.replicate (8 * (z / 24)) threeZeros
        ++ (List.replicate (z % 24 / 3) threeZeros ++ [{ val := z % 3, width := 2 }]) := by
    rw [← List.append_assoc, List.replicate_append_replicate]
    congr 2
    omega
  have hsame := replicate_ones (z / 24) (List.replicate (z % 24 / 3) threeZeros ++ [{ val := z % 3, width := 2 }])
  rw [← hsplit, ← List.append_assoc] at hsame
  obtain ⟨htotal, hvalue⟩ := hsame
  have hbits : totalBits (List.replicate (z / 3) threeZeros ++ [({ val := z % 3, width := 2 } : BitField)])
      = 2 * (z / 3) + 2 := by
    simp [totalBits, Nat.mul_comm]
  obtain ⟨-, hi, hv⟩ := h
  refine ⟨htotal.trans hbits, fun f hf => ?_, hi, by rw [hv, zeroRun, htotal, hvalue]⟩
  obtain hf | hf := List.mem_append.1 hf
  · rw [List.eq_of_mem_replicate hf]
    decide
  · rw [List.mem_singleton.1 hf]
    dsimp only
    omega

/-- The reader's loop over the value 3 (R223). -/
theorem ncRepeat_threes {fuel n n0 c : Nat} (hc : c < 3) (hfuel : n < fuel) (hlen : bits + 2 * n ≤ 8 * len)
    (h : FieldsAt v bits (List.replicate n threeZeros ++ [{ val := c, width := 2 }])) :
    ncRepeat v len fuel bits n0 = .ok (bits + 2 * n, n0 + 3 * n) := by
  induction n generalizing fuel bits n0 with
  | zero =>
    obtain ⟨fuel, rfl⟩ : ∃ k, fuel = k + 1 := ⟨fuel - 1, by omega⟩
    have hread : Machine.ncField v bits 2 = c := h.ncField_eq
    rw [ncRepeat, if_neg (by omega)]
    rfl
  | succ n ih =>
    obtain ⟨fuel, rfl⟩ : ∃ k, fuel = k + 1 := ⟨fuel - 1, by omega⟩
    rw [List.replicate_succ, List.cons_append] at h
    have hread : Machine.ncField v bits 2 = 3 := h.ncField_eq
    have htail : FieldsAt v (bits + 2) _ := h.tail
    rw [ncRepeat, if_pos hread, ncConsume_ok (by omega)]
    dsimp only
    rw [ih (by omega) (by omega) htail, Nat.mul_succ, Nat.mul_succ]
    congr 2 <;> omega

theorem zeroRun_fits (z : Nat) : ∀ f ∈ zeroRun z, f.val < 2 ^ f.width := by
  have hrest : z % 3 < 4 := by omega
  simp [zeroRun, or_imp, forall_and, List.mem_replicate, hrest]

/-- A run of zeros is read back (R220, R223). -/
theorem ncZeros_zeroRun {maxSym s z : Nat} (h : FieldsAt v bits (zeroRun z))
    (hlen : bits + totalBits (zeroRun z) ≤ 8 * len) (hmax : s + z ≤ maxSym) :
    ncZeros v len maxSym bits s = .ok (bits + totalBits (zeroRun z), s + z) := by
  obtain ⟨htotal, hthrees⟩ := h.threes
  have hbits : totalBits (List.replicate (z / 3) threeZeros) = 2 * (z / 3) := by
    simp [totalBits, Nat.mul_comm]
  have hrest : Machine.ncField v (bits + 2 * (z / 3)) 2 = z % 3 := hbits ▸ hthrees.drop.ncField_eq
  rw [htotal] at hlen ⊢
  rw [ncZeros, ncRepeat_threes (by omega) (by omega) (by omega) hthrees]
  dsimp only
  rw [hrest, ncConsume_ok (by omega)]
  dsimp only
  rw [if_neg (by omega), Nat.add_assoc s, Nat.div_add_mod, Nat.add_assoc]

end Reads

/-! ### The threshold (R220, R223) -/

/-- The threshold and the width that go with what remains: `2 ^ k` and `k + 1`, where what remains is in
`[2 ^ k, 2 ^ (k + 1))`. -/
structure Bracketed (remaining : Int) (threshold nb : Nat) : Prop where
  pow : threshold = 2 ^ (nb - 1)
  nb_pos : 1 ≤ nb
  low : (threshold : Int) ≤ remaining
  high : remaining < 2 * threshold

theorem shrink_bracketed {remaining : Int} {fuel nb : Nat} (hfuel : nb ≤ fuel + 1) (hnb : 1 ≤ nb) (h1 : 1 ≤ remaining)
    (h : remaining < 2 * (2 ^ (nb - 1) : Nat)) :
    Bracketed remaining (shrink remaining fuel (2 ^ (nb - 1)) nb).1 (shrink remaining fuel (2 ^ (nb - 1)) nb).2
      ∧ (shrink remaining fuel (2 ^ (nb - 1)) nb).2 ≤ nb := by
  induction fuel generalizing nb with
  | zero =>
    obtain rfl : nb = 1 := by omega
    exact ⟨⟨rfl, le_rfl, by simpa [shrink] using h1, by simpa [shrink] using h⟩, le_rfl⟩
  | succ fuel ih =>
    rw [shrink]
    split
    · next hlt =>
      obtain _ | _ | k := nb
      · omega
      · simp only [Nat.zero_add, Nat.sub_self, pow_zero, Nat.cast_one] at hlt
        omega
      · have hhalf : 2 ^ (k + 1 + 1 - 1) / 2 = 2 ^ (k + 1 - 1) := by
          rw [Nat.add_sub_cancel, Nat.add_sub_cancel, pow_succ, Nat.mul_div_cancel _ (by decide)]
        rw [hhalf, Nat.add_sub_cancel (n := k + 1)]
        obtain ⟨h1, h2⟩ := ih (nb := k + 1) (by omega) (by omega) (by
          rw [Nat.add_sub_cancel, pow_succ] at hlt
          rw [Nat.add_sub_cancel]
          push_cast at hlt ⊢
          omega)
        exact ⟨h1, by omega⟩
    · next hge => exact ⟨⟨rfl, hnb, not_lt.1 hge, h⟩, le_rfl⟩

/-! ### One count -/

/-- R220's value for the count `c`. -/
def countValue (remaining : Int) (threshold : Nat) (c : Int) : Int :=
  if (threshold : Int) ≤ c + 1 then c + 1 + (2 * threshold - 1 - remaining) else c + 1

/-- R220's field for the count `c`. -/
def countField (remaining : Int) (threshold nb : Nat) (c : Int) : BitField :=
  { val := (countValue remaining threshold c).toNat
    width := if countValue remaining threshold c < 2 * threshold - 1 - remaining then nb - 1 else nb }

section Count

variable {remaining c : Int} {threshold nb : Nat} (hb : Bracketed remaining threshold nb)

include hb

/-- The threshold is half the values of the wider form. -/
theorem Bracketed.two_mul_threshold (h1 : 1 < remaining) : 2 ≤ threshold ∧ 2 * threshold = 2 ^ nb := by
  obtain ⟨rfl, hnb, _, _⟩ := hb
  rw [← pow_succ', Nat.sub_add_cancel hnb]
  omega

theorem countValue_eq_one_iff (h1 : 1 < remaining) : countValue remaining threshold c = 1 ↔ c = 0 := by
  obtain ⟨_, -⟩ := hb.two_mul_threshold h1
  obtain ⟨-, -, _, _⟩ := hb
  unfold countValue
  split <;> omega

variable (hlow : -1 ≤ c) (hhigh : c < remaining)

include hlow hhigh

/-- The value lies in R220's range: below the threshold as it is, and above it moved up by `maxv`. -/
theorem countValue_range : 0 ≤ countValue remaining threshold c ∧ countValue remaining threshold c < 2 * threshold
    ∧ (countValue remaining threshold c < threshold → countValue remaining threshold c = c + 1)
    ∧ ((threshold : Int) ≤ countValue remaining threshold c →
      countValue remaining threshold c = c + 1 + (2 * threshold - 1 - remaining)
        ∧ (threshold : Int) ≤ c + 1) := by
  obtain ⟨-, -, _, _⟩ := hb
  unfold countValue
  split <;> omega

variable (h1 : 1 < remaining)

include h1

theorem countField_fits :
    (countField remaining threshold nb c).val < 2 ^ (countField remaining threshold nb c).width := by
  obtain ⟨_, hdouble⟩ := hb.two_mul_threshold h1
  obtain ⟨h0, htop, -, -⟩ := countValue_range hb hlow hhigh
  obtain ⟨hpow, -, _, _⟩ := hb
  dsimp only [countField]
  split
  · rw [← hpow]
    omega
  · rw [← hdouble]
    omega

/-- A count is read back (R220, R223). -/
theorem ncCount_countField {v bits len : Nat} {fs : List BitField}
    (h : FieldsAt v bits (countField remaining threshold nb c :: fs))
    (hlen : bits + (countField remaining threshold nb c).width ≤ 8 * len) :
    ncCount v len bits threshold nb remaining = .ok (bits + (countField remaining threshold nb c).width, c) := by
  obtain ⟨_, hdouble⟩ := hb.two_mul_threshold h1
  obtain ⟨h0, htop, hbelow, habove⟩ := countValue_range hb hlow hhigh
  obtain ⟨val, hval⟩ := Int.eq_ofNat_of_zero_le h0
  have hmod : val % threshold = if val < threshold then val else val - threshold := by
    split
    · next hlt => exact Nat.mod_eq_of_lt hlt
    · next hge => rw [Nat.mod_eq_sub_mod (not_lt.1 hge), Nat.mod_eq_of_lt (by omega)]
  have hsmall : ncField v bits (nb - 1) % threshold = val % threshold := by
    rw [h.ncField (by dsimp only [countField]; split <;> omega), ← hb.pow, Nat.mod_mod, countField, hval]
    rfl
  obtain ⟨-, -, _, _⟩ := hb
  rw [ncCount]
  dsimp only
  rw [hsmall]
  rw [countField, hval] at h hlen ⊢
  dsimp only at h hlen ⊢
  split at hlen
  · next hlt =>
    have hkeep : val % threshold = val := by rw [hmod, if_pos (by omega)]
    rw [hkeep, if_pos hlt, if_pos hlt, ncConsume_ok hlen]
    dsimp only
    congr 2
    omega
  · next hge =>
    rw [if_neg hge] at h
    have hbig : ncField v bits nb = val := h.ncField_eq
    rw [if_neg (by rw [hmod]; split <;> omega), if_neg hge, hbig, Nat.mod_eq_of_lt (by omega), ncConsume_ok hlen]
    dsimp only
    congr 2
    split <;> omega

end Count

/-! ### The writer's loop (R220) -/

/-- The counts `norm` still to be described take `remaining - 1` states. -/
structure Describes (remaining : Int) (threshold nb : Nat) (norm : List Int) : Prop
    extends Bracketed remaining threshold nb where
  nb_le : nb ≤ 15
  min : ∀ c ∈ norm, -1 ≤ c
  fill : (totalSlots norm : Int) + 1 = remaining

theorem eq_leadingZeros_append (norm : List Int) :
    norm = List.replicate (leadingZeros norm) 0 ++ norm.drop (leadingZeros norm) := by
  induction norm with
  | nil => rfl
  | cons c norm ih =>
    rw [leadingZeros]
    split
    · next h0 =>
      rw [List.replicate_succ, List.cons_append, List.drop_succ_cons, ← ih, h0]
    · rfl

theorem totalSlots_append (as bs : List Int) : totalSlots (as ++ bs) = totalSlots as + totalSlots bs := by
  simp [totalSlots]

theorem totalSlots_replicate_zero (z : Nat) : totalSlots (List.replicate z 0) = 0 := by simp [totalSlots, countSlots]

theorem eq_replicate_of_totalSlots {norm : List Int} (h : totalSlots norm = 0) :
    norm = List.replicate norm.length 0 := by
  refine List.eq_replicate_of_mem fun c hc => ?_
  have : countSlots c = 0 := List.sum_eq_zero_iff.1 h _ (List.mem_map_of_mem hc)
  exact Int.natAbs_eq_zero.1 this

section Loop

variable {remaining : Int} {threshold nb fuel : Nat} {prev0 : Bool} {norm : List Int} {fs : List BitField}
  (hd : Describes remaining threshold nb norm)

include hd

/-- A round of R220's loop: it ends, or it writes a run of zeros and one count, and goes on with what is left. -/
theorem ncountLoop_cases (h : ncountLoop (fuel + 1) remaining threshold nb prev0 norm = some fs) :
    (remaining = 1 ∧ fs = []) ∨ 1 < remaining ∧ ∃ z c rest gs, norm = List.replicate z 0 ++ c :: rest
      ∧ (prev0 = false → z = 0) ∧ -1 ≤ c ∧ c < remaining
      ∧ Describes (remaining - c.natAbs) (shrink (remaining - c.natAbs) 14 threshold nb).1
          (shrink (remaining - c.natAbs) 14 threshold nb).2 rest
      ∧ ncountLoop fuel (remaining - c.natAbs) (shrink (remaining - c.natAbs) 14 threshold nb).1
          (shrink (remaining - c.natAbs) 14 threshold nb).2 (c == 0) rest = some gs
      ∧ fs = (if prev0 then zeroRun z else []) ++ countField remaining threshold nb c :: gs := by
  rw [ncountLoop] at h
  split at h
  · split at h
    · next h1 => exact .inl ⟨h1, (Option.some.inj h).symm⟩
    · cases h
  next hmore =>
  refine .inr ⟨not_le.1 hmore, ?_⟩
  extract_lets z maxv at h
  split at h
  · cases h
  next c rest hdrop =>
  extract_lets left v0 value width at h
  split at h
  next th' nb' hshrink =>
  split at h
  · cases h
  next gs hgs =>
  have hz : norm = List.replicate z 0 ++ c :: rest := by
    rw [← hdrop]
    dsimp only [z]
    split
    · exact eq_leadingZeros_append norm
    · rfl
  have hslots : totalSlots norm = countSlots c + totalSlots rest := by
    rw [hz, totalSlots_append, totalSlots_replicate_zero, totalSlots_cons, Nat.zero_add]
  have hmin := hd.min
  have hfill := hd.fill
  rw [hz] at hmin
  rw [countSlots] at hslots
  have hlow : -1 ≤ c := hmin c (by simp)
  have hhigh : c < remaining := by omega
  have hflag : (value == 1) = (c == 0) :=
    Bool.eq_iff_iff.2 (by rw [beq_iff_eq, beq_iff_eq]; exact countValue_eq_one_iff hd.toBracketed (not_le.1 hmore))
  obtain ⟨hnext, hnb⟩ := shrink_bracketed (remaining := left) (fuel := 14) hd.nb_le hd.nb_pos (by omega)
    (by have := hd.high; rw [hd.pow] at this; omega)
  rw [← hd.pow] at hnext hnb
  rw [hflag] at hgs
  refine ⟨z, c, rest, gs, hz, fun h0 => by simp [z, h0], hlow, hhigh, ?_, ?_, (Option.some.inj h).symm⟩
  · exact { hnext with
      nb_le := hnb.trans hd.nb_le
      min := fun x hx => hmin x (by simp [hx])
      fill := by omega }
  · rw [hshrink]
    exact hgs

end Loop

/-- Every field of R220 fits its width. -/
theorem ncountLoop_fits {remaining : Int} {threshold nb fuel : Nat} {prev0 : Bool} {norm : List Int}
    {fs : List BitField} (hd : Describes remaining threshold nb norm) (h : ncountLoop fuel remaining threshold nb prev0 norm = some fs) :
    ∀ f ∈ fs, f.val < 2 ^ f.width := by
  induction fuel generalizing remaining threshold nb prev0 norm fs with
  | zero => cases h
  | succ fuel ih =>
    obtain ⟨-, rfl⟩ | ⟨h1, z, c, rest, gs, -, -, hlow, hhigh, hnext, hgs, rfl⟩ := ncountLoop_cases hd h
    · simp
    have hrun : ∀ f ∈ (if prev0 then zeroRun z else []), f.val < 2 ^ f.width := by
      split
      · exact zeroRun_fits z
      · simp
    intro f hf
    obtain hf | hf := List.mem_append.1 hf
    · exact hrun f hf
    obtain rfl | hf := List.mem_cons.1 hf
    · exact countField_fits hd.toBracketed hlow hhigh h1
    · exact ih hnext hgs f hf

/-- The reader's loop takes back what R220's loop wrote, but for zeros after the last share (R223, R224). -/
theorem ncLoop_ncountLoop {remaining : Int} {threshold nb fuel : Nat} {prev0 : Bool} {norm : List Int}
    {fs : List BitField} (hd : Describes remaining threshold nb norm)
    (h : ncountLoop fuel remaining threshold nb prev0 norm = some fs) {v bits len maxSym steps : Nat} {done : List Int}
    (hv : FieldsAt v bits fs) (hlen : bits + totalBits fs ≤ 8 * len) (hmax : done.length + norm.length ≤ maxSym + 1)
    (hsteps : norm.length < steps) :
    ∃ shown zeros, norm = shown ++ List.replicate zeros 0
      ∧ ncLoop v len maxSym steps bits remaining threshold nb prev0 done
        = .ok (bits + totalBits fs, 1, done ++ shown) := by
  induction fuel generalizing remaining threshold nb prev0 norm fs bits steps done with
  | zero => cases h
  | succ fuel ih =>
    obtain ⟨steps, rfl⟩ : ∃ k, steps = k + 1 := ⟨steps - 1, by omega⟩
    rw [ncLoop]
    obtain ⟨rfl, rfl⟩ | ⟨h1, z, c, rest, gs, rfl, hz, hlow, hhigh, hnext, hgs, rfl⟩ := ncountLoop_cases hd h
    · have hzero : totalSlots norm = 0 := by
        have := hd.fill
        omega
      exact ⟨[], norm.length, eq_replicate_of_totalSlots hzero, by simp⟩
    rw [List.length_append, List.length_replicate, List.length_cons] at hmax hsteps
    rw [if_neg (by omega)]
    generalize hrun : (if prev0 then zeroRun z else []) = run at *
    rw [totalBits_append, totalBits_cons] at hlen
    have hzeros : (if prev0 then ncZeros v len maxSym bits done.length else .ok (bits, done.length))
        = .ok (bits + totalBits run, done.length + z) := by
      subst hrun
      cases prev0 with
      | true => exact ncZeros_zeroRun hv.take (by rw [if_pos rfl] at hlen; omega) (by omega)
      | false => simp [hz rfl]
    have hcount := ncCount_countField hd.toBracketed hlow hhigh h1 (len := len) hv.drop (by omega)
    obtain ⟨shown, zeros, rfl, hloop⟩ := ih hnext hgs (done := done ++ List.replicate z 0 ++ [c]) (steps := steps)
      hv.drop.tail (by omega) (by simp; omega) (by omega)
    refine ⟨List.replicate z 0 ++ c :: shown, zeros, by simp, ?_⟩
    rw [hzeros]
    dsimp only
    rw [hcount]
    dsimp only
    rw [Nat.add_sub_cancel_left, hloop]
    simp [Nat.add_assoc]

/-! ### The description (R220, R223) -/

/-- R224: a description is read back, whatever follows it: every count up to the last share, the log and the size. -/
theorem readNCount_ncountBytes {norm : List Int} {tl maxSym maxLog : Nat} {hdr : List Byte} (h5 : 5 ≤ tl)
    (h12 : tl ≤ 12) (hmin : ∀ c ∈ norm, -1 ≤ c) (hfill : totalSlots norm = 2 ^ tl) (h : ncountBytes norm tl = some hdr)
    (hmax : norm.length ≤ maxSym + 1) (hlog : tl ≤ maxLog) (rest : List Byte) :
    ∃ shown zeros, norm = shown ++ List.replicate zeros 0 ∧ readNCount (hdr ++ rest) maxSym maxLog
      = .ok { norm := shown, maxSym := shown.length - 1, log := tl, used := hdr.length } := by
  have hd : Describes (2 ^ tl + 1) (2 ^ tl) (tl + 1) norm := {
    pow := rfl
    nb_pos := by omega
    low := by push_cast; omega
    high := by
      have : (1 : Int) < 2 ^ tl := by exact_mod_cast Nat.one_lt_two_pow (n := tl) (by omega)
      push_cast
      omega
    nb_le := by omega
    min := hmin
    fill := by rw [hfill]; push_cast; rfl }
  unfold ncountBytes at h
  split at h
  · cases h
  next fs hfs =>
  cases h
  unfold ncountFields at hfs
  split at hfs
  · cases hfs
  next gs hgs =>
  cases hfs
  have hfits : ∀ f ∈ ({ val := tl - 5, width := 4 } : BitField) :: gs, f.val < 2 ^ f.width :=
    List.forall_mem_cons.2 ⟨by dsimp only; omega, ncountLoop_fits hd hgs⟩
  have hlength := packBits_length 0 0 ({ val := tl - 5, width := 4 } :: gs) (by decide)
  have hvalue := leValue_packBits 0 0 _ (by decide) (by decide) hfits
  generalize packBits 0 0 _ = hdr at *
  rw [totalBits_cons] at hlength
  dsimp only at hlength
  have hv : FieldsAt (leValue (hdr ++ rest)) 0 ({ val := tl - 5, width := 4 } :: gs) := by
    refine ⟨hfits, 2 ^ (8 * hdr.length - (4 + totalBits gs)) * leValue rest, ?_⟩
    have hpow : 256 ^ hdr.length
        = 2 ^ (4 + totalBits gs) * 2 ^ (8 * hdr.length - (4 + totalBits gs)) := by
      rw [← pow_add, Nat.add_sub_cancel' (by omega), two_pow_eight_mul]
    rw [Nat.shiftRight_zero, leValue_append, hvalue, hpow, totalBits_cons, ← Nat.mul_assoc]
    simp
  have hread : ncField (leValue (hdr ++ rest)) 0 4 = tl - 5 := hv.ncField_eq
  have htail : FieldsAt (leValue (hdr ++ rest)) 4 gs := hv.tail
  have hroom : 4 + totalBits gs ≤ 8 * (hdr ++ rest).length := by
    rw [List.length_append]
    omega
  obtain ⟨shown, zeros, hshown, hloop⟩ := ncLoop_ncountLoop hd hgs (done := []) (steps := maxSym + 2) htail hroom
    (by simpa using hmax) (by omega)
  refine ⟨shown, zeros, hshown, ?_⟩
  rw [readNCount]
  dsimp only
  rw [ncConsume_ok (by omega), Nat.zero_add]
  dsimp only
  rw [hread, Nat.sub_add_cancel h5, if_neg (not_lt.2 hlog), hloop]
  dsimp only
  rw [if_neg (by decide), hlength, List.nil_append]
  congr 2
  omega

end Sys2Proof.Machine
end

section
/-! Huffman table descriptions read back (R320 to R322, R330): the weights' counts, their compressed form and the raw
one. -/

namespace Sys2Proof.Machine

/-! ### Counts of values (R200, R321) -/

/-- How often each value below `n` occurs. -/
def tally (n : Nat) (xs : List Nat) : List Nat := (List.range n).map fun x => xs.count x

/-- The counts up to the highest value that occurs. -/
def countsUpTo (l : List Nat) : List Nat := l.take (lastNonzero l + 1)

/-- Above the place R200's scan finds there are only zeros, and it holds none where there is another value. -/
theorem lastNonzero_spec (l : List Nat) : (∀ i, lastNonzero l < i → l.getD i 0 = 0)
    ∧ ((∃ x ∈ l, x ≠ 0) → l.getD (lastNonzero l) 0 ≠ 0) := by
  induction l using List.reverseRecOn with
  | nil => simp
  | append_singleton l y ih =>
    obtain ⟨habove, hat⟩ := ih
    have hlast : lastNonzero (l ++ [y]) = if 0 < y then l.length else lastNonzero l := by
      simp [lastNonzero, List.zipIdx_append]
    have hend : (l ++ [y]).getD l.length 0 = y := by simp
    have hinit {i : Nat} (hi : i < l.length) : (l ++ [y]).getD i 0 = l.getD i 0 := by
      simp [List.getElem?_append_left hi]
    rw [hlast]
    split
    · next hy =>
      exact ⟨fun i hi => List.getD_eq_default _ _ (by simp; omega), fun _ => by rw [hend]; omega⟩
    · next hy =>
      refine ⟨fun i hi => ?_, fun ⟨x, hx, h0⟩ => ?_⟩
      · rcases Nat.lt_trichotomy i l.length with hlt | rfl | hgt
        · rw [hinit hlt]
          exact habove i hi
        · rw [hend]
          omega
        · exact List.getD_eq_default _ _ (by simp; omega)
      · have hx : x ∈ l := (List.mem_append.1 hx).resolve_right fun h => by simp at h; omega
        have := hat ⟨x, hx, h0⟩
        rwa [hinit (lt_length_of_getD_ne this)]

theorem countsUpTo_append (l : List Nat) : ∃ z, l = countsUpTo l ++ List.replicate z 0 := by
  refine ⟨(l.drop (lastNonzero l + 1)).length, ?_⟩
  rw [← List.eq_replicate_of_mem (a := 0) (l := l.drop (lastNonzero l + 1)), countsUpTo, List.take_append_drop]
  intro x hx
  obtain ⟨i, hi⟩ := List.mem_iff_getElem?.1 hx
  rw [List.getElem?_drop] at hi
  have := (lastNonzero_spec l).1 (lastNonzero l + 1 + i) (by omega)
  simpa [hi] using this

theorem countsUpTo_getD (l : List Nat) (x : Nat) : (countsUpTo l).getD x 0 = l.getD x 0 := by
  obtain ⟨z, hz⟩ := countsUpTo_append l
  conv_rhs => rw [hz]
  rcases Nat.lt_or_ge x (countsUpTo l).length with hx | hx
  · rw [List.getD_append _ _ _ _ hx]
  · rw [List.getD_append_right _ _ _ _ hx, List.getD_eq_default _ _ hx, List.getD_eq_getElem?_getD,
      List.getElem?_getD_replicate_default_eq]

theorem countsUpTo_sum (l : List Nat) : (countsUpTo l).sum = l.sum := by
  obtain ⟨z, hz⟩ := countsUpTo_append l
  conv_rhs => rw [hz]
  simp

theorem listMax_countsUpTo (l : List Nat) : listMax (countsUpTo l) = listMax l := by
  obtain ⟨z, hz⟩ := countsUpTo_append l
  refine le_antisymm (listMax_le fun x hx => le_listMax (List.mem_of_mem_take hx)) (listMax_le fun x hx => ?_)
  rw [hz] at hx
  obtain hx | hx := List.mem_append.1 hx
  · exact le_listMax hx
  · rw [List.eq_of_mem_replicate hx]
    exact Nat.zero_le _

theorem countsUpTo_getLast? {l : List Nat} (h : ∃ x ∈ l, x ≠ 0) : (countsUpTo l).getLast? ≠ some 0 := by
  have hlast := (lastNonzero_spec l).2 h
  have hlt := lt_length_of_getD_ne hlast
  have hlen : (countsUpTo l).length = lastNonzero l + 1 := by
    rw [countsUpTo, List.length_take]
    omega
  rw [← countsUpTo_getD, List.getD_eq_getElem?_getD] at hlast
  rw [List.getLast?_eq_getElem?, hlen, Nat.add_sub_cancel]
  intro h0
  simp [h0] at hlast

theorem lastNonzero_lt {l : List Nat} (h : ∃ x ∈ l, x ≠ 0) : lastNonzero l < l.length :=
  lt_length_of_getD_ne ((lastNonzero_spec l).2 h)

theorem exists_ne_zero_of_sum {l : List Nat} (h : l.sum ≠ 0) : ∃ x ∈ l, x ≠ 0 := by
  by_contra hall
  exact h (List.sum_eq_zero fun x hx => by_contra fun h0 => hall ⟨x, hx, h0⟩)

@[simp] theorem tally_length (n : Nat) (xs : List Nat) : (tally n xs).length = n := by simp [tally]

theorem tally_sum {n : Nat} {xs : List Nat} (h : ∀ x ∈ xs, x < n) : (tally n xs).sum = xs.length := by
  have hcard := Multiset.sum_count_eq_card (s := Finset.range n) (m := (xs : Multiset Nat)) (by simpa using h)
  simpa [tally, Finset.sum, ← Multiset.coe_range] using hcard

theorem tally_getD {n x : Nat} (hx : x < n) (xs : List Nat) : (tally n xs).getD x 0 = xs.count x := by
  simp [tally, hx]

theorem sum_le_countP_mul {l : List Nat} {m : Nat} (h : ∀ x ∈ l, x ≤ m) :
    l.sum ≤ l.countP (fun c => decide (0 < c)) * m := by
  induction l with
  | nil => simp
  | cons c l ih =>
    obtain ⟨hc, hl⟩ := List.forall_mem_cons.1 h
    have := ih hl
    rw [List.sum_cons, List.countP_cons, Nat.add_mul]
    split
    · omega
    · next hc0 =>
      have : c = 0 := by simpa using hc0
      omega

/-- Where the largest count is not all of them, two values at least are counted. -/
theorem two_le_countP {l : List Nat} (hmax : listMax l ≠ l.sum) :
    2 ≤ l.countP fun c => decide (0 < c) := by
  have hle := sum_le_countP_mul (l := l) fun x => le_listMax
  have hlt : listMax l < l.sum := lt_of_le_of_ne (listMax_le fun x hx => List.le_sum_of_mem hx) hmax
  by_contra hfew
  have : l.countP (fun c => decide (0 < c)) * listMax l ≤ 1 * listMax l := Nat.mul_le_mul_right _ (by omega)
  omega

/-! ### Weights in the compressed form (R321, R330) -/

/-- The log R321 takes for weights is 5 or 6. -/
theorem weightsLog_bounds (c : Nat) {ms : Nat} (h : ms < 13) :
    5 ≤ optimalTableLog 6 c ms 2 ∧ optimalTableLog 6 c ms 2 ≤ 6 := by
  have hbit : ms ≠ 0 → highestBit ms < 4 := fun h0 => (Nat.log2_lt h0).2 (by omega)
  have hmin : minTableLog c ms ≤ 5 := by
    rw [minTableLog]
    split <;> omega
  rw [optimalTableLog, Config.fseMinLog, Config.fseMaxLog]
  omega

/-- A distribution that fills its table has both tables where it has one. -/
theorem checked_of_buildCT {norm : List Int} {tl : Nat} {c : FseCT} (hok : normConsistent norm tl = true)
    (h : buildCT norm tl = some c) :
    checkedCT norm tl = .ok c ∧ ∃ d, buildDT norm tl = some d ∧ checkedDT norm tl = .ok d := by
  refine ⟨by rw [checkedCT, hok, h]; rfl, ?_⟩
  unfold buildCT at h
  split at h
  · cases h
  next syms hspread =>
  refine ⟨_, by rw [buildDT, hspread], ?_⟩
  rw [checkedDT, hok, buildDT, hspread]
  rfl

/-- What R321 writes where it has a compressed form: the description of a distribution of the weights, and the two-state
stream of the weights. -/
theorem compressWeights_eq_some {w : List Nat} {room : Nat} {comp : List Byte}
    (h : compressWeights w room = .ok (some comp)) : ∃ tl norm hdr t,
      tl = optimalTableLog 6 w.length (lastNonzero (tally 13 w)) 2 ∧ 1 < w.length ∧ listMax (tally 13 w) ≠ w.length
      ∧ normalize (countsUpTo (tally 13 w)) tl w.length = .ok norm ∧ ncountBytes norm tl = some hdr
      ∧ buildCT norm tl = some t ∧ compress2 t (w.map (BitVec.ofNat 8)) (room - hdr.length) ≠ []
      ∧ comp = hdr ++ compress2 t (w.map (BitVec.ofNat 8)) (room - hdr.length) := by
  unfold compressWeights at h
  extract_lets c cnt ms largest tl at h
  split at h
  · cases h
  next hform =>
  split at h
  · cases h
  next norm hnorm =>
  split at h
  · next hdr t hhdr ht =>
    extract_lets body at h
    split at h
    · cases h
    next hbody =>
    cases h
    exact ⟨tl, norm, hdr, t, rfl, by omega, fun h0 => hform (.inr (.inl h0)), hnorm, hhdr, ht,
      fun h0 => hbody (by simp [body, h0]), rfl⟩
  · cases h

/-- The distribution R321 makes of weights that are not all one: it fills its table, no weight takes the whole of it,
every weight that occurs has a share, and so has the last. -/
theorem normalize_weights {w : List Nat} {tl : Nat} {norm : List Int} (hw : ∀ x ∈ w, x < 13) (h2 : 1 < w.length)
    (hlen : w.length ≤ 255) (hlargest : listMax (tally 13 w) ≠ w.length) (h5 : 5 ≤ tl) (h12 : tl ≤ 12)
    (h : normalize (countsUpTo (tally 13 w)) tl w.length = .ok norm) :
    normConsistent norm tl = true ∧ norm.length ≤ 13 ∧ (∀ n ∈ norm, n < 2 ^ tl) ∧ (∀ x ∈ w, norm.getD x 0 ≠ 0)
      ∧ norm.getLast? ≠ some 0 := by
  have htotal := tally_sum hw
  have hlength := tally_length 13 w
  have hat {x : Nat} (hx : x < 13) := tally_getD hx w
  generalize tally 13 w = cnt at *
  have hsum : (countsUpTo cnt).sum = w.length := (countsUpTo_sum cnt).trans htotal
  have hcounted : ∃ x ∈ cnt, x ≠ 0 := exists_ne_zero_of_sum (by omega)
  have hcount : (countsUpTo cnt).length ≤ 13 := hlength ▸ List.length_take_le' _ _
  have hsize : 2 ^ 5 ≤ 2 ^ tl := Nat.pow_le_pow_right (by decide) h5
  obtain ⟨hshares, hslots⟩ := normalize_spec hsum (by omega) (by omega) h12 (by omega) h
  refine ⟨normConsistent_iff.2 ⟨share_ge hshares, hslots⟩, hshares.length_eq ▸ hcount, fun n hn => ?_, fun x hx => ?_,
    share_getLast? hshares (countsUpTo_getLast? hcounted)⟩
  · have hmany := two_le_countP (l := countsUpTo cnt) (by rwa [listMax_countsUpTo, hsum])
    have hothers := countSlots_add_countP_le hshares hn
    have : n ≤ countSlots n := Int.le_natAbs
    zify at hothers hslots hmany
    omega
  · rw [Ne, share_eq_zero_iff hshares, countsUpTo_getD, hat (hw x hx)]
    exact (List.count_pos_iff.2 hx).ne'

theorem map_toNat_map_ofNat {w : List Nat} (hw : ∀ x ∈ w, x < 256) : (w.map (BitVec.ofNat 8)).map BitVec.toNat = w := by
  rw [List.map_map]
  refine (List.map_congr_left fun x hx => ?_).trans (List.map_id w)
  exact Nat.mod_eq_of_lt (hw x hx)

/-- Weights in the compressed form are read back, whatever follows them (R330). -/
theorem readWeights_compressWeights {w : List Nat} {room : Nat} {comp : List Byte} (hw : ∀ x ∈ w, x < 13)
    (hlen : w.length ≤ 255) (h : compressWeights w room = .ok (some comp)) (hshort : comp.length < 128)
    (rest : List Byte) :
    readWeights (BitVec.ofNat 8 comp.length :: comp ++ rest) = .ok (w, 1 + comp.length) := by
  obtain ⟨tl, norm, hdr, t, rfl, h2, hlargest, hnorm, hhdr, ht, hbody, hcomp⟩ := compressWeights_eq_some h
  have hms : lastNonzero (tally 13 w) < 13 := by
    have hcounted := exists_ne_zero_of_sum (l := tally 13 w) (by rw [tally_sum hw]; omega)
    simpa using lastNonzero_lt hcounted
  obtain ⟨h5, h6⟩ := weightsLog_bounds w.length hms
  generalize optimalTableLog 6 w.length (lastNonzero (tally 13 w)) 2 = tl at *
  generalize hstream : compress2 t (w.map (BitVec.ofNat 8)) (room - hdr.length) = body at *
  obtain ⟨hok, hcount, hmax, hshare, hlast⟩ := normalize_weights hw h2 hlen hlargest h5 (by omega) hnorm
  obtain ⟨hmin, hslots⟩ := normConsistent_iff.1 hok
  obtain ⟨hct, d, hd, hdt⟩ := checked_of_buildCT hok ht
  have hhas : ∀ x ∈ w.map (BitVec.ofNat 8), t.has x.toNat = true := List.forall_mem_map.2 fun x hx => by
    have hx13 := hw x hx
    obtain ⟨-, -, -, -, -, hfields⟩ := checkedCT_fields hct
    rw [BitVec.toNat_ofNat, Nat.mod_eq_of_lt (by omega), (hfields x (by omega)).1, bne_iff_ne]
    exact hshare x hx
  have hback := twoStateRoundTrip norm tl t d h5 (by omega) (by omega) hmax hct hdt (w.map (BitVec.ofNat 8))
    (room - hdr.length) 255 (by rwa [List.length_map]) hhas (hstream ▸ hbody) (by rwa [List.length_map])
  rw [hstream] at hback
  obtain ⟨shown, zeros, hshown, hread⟩ := readNCount_ncountBytes h5 (by omega) hmin hslots hhdr (maxSym := 255)
    (by omega) h6 body
  obtain rfl : zeros = 0 := by
    by_contra h0
    exact hlast (by rw [hshown, List.getLast?_append, List.getLast?_replicate, if_neg h0, Option.some_or])
  rw [List.replicate_zero, List.append_nil] at hshown
  rw [← hshown, ← hcomp] at hread
  have hsize : (BitVec.ofNat 8 comp.length).toNat = comp.length := by
    rw [BitVec.toNat_ofNat, Nat.mod_eq_of_lt (by omega)]
  have hsrc : (comp ++ rest).take comp.length = comp := List.take_left
  have hbodyAt : comp.drop hdr.length = body := by rw [hcomp, List.drop_left]
  have hvalues := map_toNat_map_ofNat (w := w) fun x hx => (hw x hx).trans (by decide)
  simp only [readWeights, List.cons_append, hsize, hsrc, hread, shiftErr, hd, hbodyAt, hback, hvalues,
    List.length_cons, List.length_append]
  rw [if_neg (by omega), if_neg (by omega)]

/-! ### A table description (R322, R330) -/

/-- A description of at least one weight is read back, whatever follows it. -/
theorem readWeights_hufDescription {T : HufTable} {cap : Nat} {desc : List Byte} (h1 : 1 ≤ T.maxSym.toNat)
    (hw : ∀ x ∈ T.weights, x < 13) (h : hufDescription T cap = .ok desc) (rest : List Byte) :
    readWeights (desc ++ rest) = .ok (T.weights, desc.length) := by
  have hlen : T.weights.length = T.maxSym.toNat := by simp [HufTable.weights]
  have hmax := T.maxSym.isLt
  have hraw (h : writeRawWeights T.maxSym.toNat T.weights cap = .ok desc) :
      readWeights (desc ++ rest) = .ok (T.weights, desc.length) :=
    readWeights_writeRawWeights (by omega) (fun x hx => (hw x hx).trans (by decide)) (hlen ▸ h) rest
  simp only [hufDescription] at h
  split at h
  · cases h
  · next comp hcomp =>
    split at h
    · next hshort =>
      cases h
      split at hcomp
      · rw [List.length_cons, Nat.add_comm]
        exact readWeights_compressWeights hw (by omega) hcomp (by omega) rest
      · cases hcomp
    · exact hraw h
  · exact hraw h

/-- The description of the table of a complete code is read as a decoding table that finds its codes (R311, R333). -/
theorem readHuf_hufDescription {lens : List Nat} {M cap : Nat} {desc : List Byte} (hM1 : 1 ≤ M) (hM : M ≤ 11)
    (h2 : 2 ≤ lens.length) (hlen : lens.length ≤ 256) (hcode : CodeComplete lens M) (hmax : listMax lens = M)
    (hlast : lens.getLast? ≠ some 0) (h : hufDescription (hufTableOf lens) cap = .ok desc) :
    ∃ d, TableMatches (hufTableOf lens) d ∧ ∀ rest, ∃ symbols,
      readHuf (desc ++ rest) = .ok { table := d, used := desc.length, symbols := symbols } := by
  obtain ⟨d, hd, -, -, hmatch⟩ := weightsRebuildCode lens M hM1 hM hlen hcode hmax hlast
  have hweights := weights_hufTableOf (fun l hl => (hcode.1 l hl).trans hM) hlen
  have hsym : (hufTableOf lens).maxSym.toNat = lens.length - 1 := by
    rw [hufTableOf, BitVec.toNat_ofNat, Nat.mod_eq_of_lt (by omega)]
  refine ⟨d, hmatch, fun rest => ⟨(hufTableOf lens).weights.length + 1, ?_⟩⟩
  have hread := readWeights_hufDescription (by omega) (fun x hx => ?_) h rest
  · simp only [readHuf, hread, hd]
  · rw [hweights, hmax] at hx
    obtain ⟨l, -, rfl⟩ := List.mem_map.1 hx
    exact weightOf_le.trans_lt (by omega)

end Sys2Proof.Machine
end

section
/-! Literals sections read back (R370, R375, R380, R382): the table LIT_ENCODE builds, the header of a coded section,
and each type of section. -/

namespace Sys2Proof.Machine

/-! ### The table of the literals (R375) -/

theorem histogram_eq_tally (bs : List Byte) : histogram bs = tally 256 (bs.map BitVec.toNat) := by
  refine List.map_congr_left fun x hx => ?_
  have hx : (BitVec.ofNat 8 x).toNat = x := Nat.mod_eq_of_lt (List.mem_range.1 hx)
  conv_rhs => rw [← hx]
  exact (List.count_map_of_injective bs BitVec.toNat (fun _ _ => BitVec.eq_of_toNat_eq) _).symm

theorem histogram_sum (bs : List Byte) : (histogram bs).sum = bs.length := by
  rw [histogram_eq_tally, tally_sum (List.forall_mem_map.2 fun x _ => x.isLt), List.length_map]

theorem histogram_length (bs : List Byte) : (histogram bs).length = 256 := by simp [histogram]

theorem countP_le_sum (l : List Nat) : l.countP (fun c => decide (0 < c)) ≤ l.sum := by
  induction l with
  | nil => exact le_rfl
  | cons c l ih =>
    rw [List.countP_cons, List.sum_cons]
    split
    · next hc =>
      have : 0 < c := by simpa using hc
      omega
    · omega

theorem getLast?_ne_zero_iff {l : List Nat} (h : l ≠ []) : l.getLast? ≠ some 0 ↔ l.getD (l.length - 1) 0 ≠ 0 := by
  have hlt : l.length - 1 < l.length := Nat.sub_lt (List.length_pos_iff.2 h) one_pos
  rw [List.getLast?_eq_getElem?, List.getElem?_eq_getElem hlt, List.getD_eq_getElem _ _ hlt, Ne, Option.some_inj]

/-- Every byte that occurs is counted. -/
theorem histogram_getD_ne_zero {bs : List Byte} {x : Byte} (hx : x ∈ bs) : (histogram bs).getD x.toNat 0 ≠ 0 := by
  rw [histogram_eq_tally, tally_getD x.isLt]
  exact (List.count_pos_iff.2 (List.mem_map_of_mem hx)).ne'

theorem countsUpTo_histogram_ne_zero {bs : List Byte} {x : Byte} (hx : x ∈ bs) :
    (countsUpTo (histogram bs)).getD x.toNat 0 ≠ 0 := by
  rw [countsUpTo_getD]
  exact histogram_getD_ne_zero hx

/-- Literals that are all the same byte. -/
theorem eq_replicate_of_listMax_histogram {bs : List Byte} (h : listMax (histogram bs) = bs.length)
    (h0 : bs.length ≠ 0) :
    ∃ b, bs = List.replicate bs.length b := by
  have hmem := listMax_mem (l := histogram bs) (by omega)
  rw [h, histogram, List.mem_map] at hmem
  obtain ⟨x, -, hx⟩ := hmem
  exact ⟨_, List.eq_replicate_of_mem fun y hy => (List.count_eq_length.1 hx y hy).symm⟩

/-- The limit R375 takes for the code lengths leaves a code to every symbol. -/
theorem literalsLog_bounds {n ms m : Nat} (h0 : 0 < ms) (hms : ms ≤ 255) (hn : m ≤ n) (hm : m ≤ ms + 1) :
    optimalTableLog 11 n ms 1 ≤ 11 ∧ m ≤ 2 ^ optimalTableLog 11 n ms 1 := by
  have hbit : highestBit ms < 8 := (Nat.log2_lt h0.ne').2 (by omega)
  have hmin : minTableLog n ms ≤ optimalTableLog 11 n ms 1 ∧ optimalTableLog 11 n ms 1 ≤ 11 := by
    have : minTableLog n ms ≤ highestBit ms + 2 := by
      rw [minTableLog, if_neg h0.ne']
      exact Nat.min_le_right _ _
    rw [optimalTableLog, Config.fseMinLog, Config.fseMaxLog]
    omega
  refine ⟨hmin.2, le_trans ?_ (Nat.pow_le_pow_right (by decide) hmin.1)⟩
  have h1 : n - 1 < 2 ^ (highestBit (n - 1) + 1) := Nat.lt_log2_self
  have h2 : ms < 2 ^ (highestBit ms + 1) := Nat.lt_log2_self
  have h3 : 2 ^ (highestBit ms + 2) = 2 * 2 ^ (highestBit ms + 1) := pow_succ' 2 _
  rw [minTableLog, if_neg h0.ne']
  rcases Nat.le_total (highestBit (n - 1) + 1) (highestBit ms + 2) with hle | hle
  · rw [Nat.min_eq_left hle]
    omega
  · rw [Nat.min_eq_right hle]
    omega

section Built

variable {lits : List Byte} (tie : Config.HufTie) (hlargest : listMax (histogram lits) ≠ lits.length)

/-- The code lengths LIT_ENCODE gives its literals. -/
def literalsLengths (tie : Config.HufTie) (lits : List Byte) : List Nat :=
  buildLengths tie (countsUpTo (histogram lits))
    (optimalTableLog 11 lits.length ((countsUpTo (histogram lits)).length - 1) 1)

include hlargest

theorem literalsLengths_spec : 2 ≤ (literalsLengths tie lits).length ∧ (literalsLengths tie lits).length ≤ 256
    ∧ CodeComplete (literalsLengths tie lits) (listMax (literalsLengths tie lits))
    ∧ listMax (literalsLengths tie lits) ≤ 11 ∧ (literalsLengths tie lits).getLast? ≠ some 0
    ∧ ∀ x ∈ lits, (literalsLengths tie lits).getD x.toNat 0 ≠ 0 := by
  have hsum := (countsUpTo_sum (histogram lits)).trans (histogram_sum lits)
  have hmax := listMax_countsUpTo (histogram lits)
  have hlen : (countsUpTo (histogram lits)).length ≤ 256 := histogram_length lits ▸ List.length_take_le' _ _
  have hcounted {x : Byte} (hx : x ∈ lits) := countsUpTo_histogram_ne_zero hx
  have h0 : lits.length ≠ 0 := by
    intro h0
    obtain rfl := List.length_eq_zero_iff.1 h0
    exact hlargest (by decide +kernel)
  have hlast := countsUpTo_getLast? (exists_ne_zero_of_sum (histogram_sum lits ▸ h0))
  unfold literalsLengths
  generalize countsUpTo (histogram lits) = counts at *
  generalize histogram lits = hist at *
  have hmany := two_le_countP (l := counts) (by rwa [hmax, hsum])
  have hcount : counts.countP (fun c => decide (0 < c)) ≤ counts.length := List.countP_le_length
  have hcountSum : counts.countP (fun c => decide (0 < c)) ≤ counts.sum := countP_le_sum counts
  obtain ⟨h11, hfits⟩ := literalsLog_bounds (n := lits.length) (ms := counts.length - 1) (by omega) (by omega)
    (hsum ▸ hcountSum) (by omega)
  obtain ⟨hcode, hle, hzero⟩ := limitedLengthsComplete tie counts _ h11 hmany hfits
  have hlength := buildLengths_length tie counts (optimalTableLog 11 lits.length (counts.length - 1) 1)
  refine ⟨by omega, by omega, hcode, hle.trans h11, ?_, fun x hx => ?_⟩
  · have hne : counts ≠ [] := List.ne_nil_of_length_pos (by omega)
    rw [getLast?_ne_zero_iff hne] at hlast
    rwa [getLast?_ne_zero_iff (List.ne_nil_of_length_pos (by omega)), hlength, Ne, hzero _ (by omega)]
  · rw [Ne, hzero _ (lt_length_of_getD_ne (hcounted hx))]
    exact hcounted hx

end Built

/-- What R360 takes as encodable has a code for every literal. -/
theorem lenOf_ne_zero_of_canEncode {T : HufTable} {lits : List Byte}
    (h : T.canEncode (countsUpTo (histogram lits)) = true) : ∀ x ∈ lits, T.lenOf x.toNat ≠ 0 := by
  intro x hx
  have hcounted := countsUpTo_histogram_ne_zero hx
  have hlt := lt_length_of_getD_ne hcounted
  rw [HufTable.canEncode, Bool.and_eq_true, List.all_eq_true] at h
  have := h.2 (_, x.toNat) (List.mem_zipIdx_iff_getElem?.2 (List.getElem?_eq_getElem hlt))
  rw [List.getD_eq_getElem _ _ hlt] at hcounted
  have hpos : 0 < T.lenOf x.toNat := by simpa [hcounted] using this
  exact hpos.ne'

/-- The description of the table LIT_ENCODE builds is read as a table that finds its codes, and every literal has a
code. -/
theorem buildHuf_literals {tie : Config.HufTie} {lits desc : List Byte} {cap : Nat} {T : HufTable}
    (hT : T = hufTableOf (literalsLengths tie lits)) (hlargest : listMax (histogram lits) ≠ lits.length)
    (h : hufDescription T cap = .ok desc) :
    (∀ x ∈ lits, T.lenOf x.toNat ≠ 0) ∧ ∃ d, TableMatches T d ∧ ∀ rest, ∃ symbols,
      readHuf (desc ++ rest) = .ok { table := d, used := desc.length, symbols := symbols } := by
  obtain ⟨h2, hlen, hcode, hM, hlast, hcoded⟩ := literalsLengths_spec tie hlargest
  subst hT
  have hbits : ∀ l ∈ literalsLengths tie lits, l ≤ 11 := fun l hl => (le_listMax hl).trans hM
  have hM1 : 1 ≤ listMax (literalsLengths tie lits) := by
    have hne : literalsLengths tie lits ≠ [] := List.ne_nil_of_length_pos (by omega)
    have hlast : (literalsLengths tie lits).getLast hne ≠ 0 := fun h0 =>
      hlast ((List.getLast?_eq_some_getLast hne).trans (congrArg some h0))
    exact (Nat.one_le_iff_ne_zero.2 hlast).trans (le_listMax (List.getLast_mem hne))
  refine ⟨fun x hx => ?_, readHuf_hufDescription hM1 hM h2 hlen hcode rfl hlast h⟩
  rw [lenOf_hufTableOf hbits x.isLt]
  exact hcoded x hx

/-! ### Coded sections (R122, R370, R380) -/

/-- What R380 reads from the header of a coded section, as the number `v` of its `hs` bytes: the type `t`, the size
format `sf`, which gives `hs` and the width `k` of the two sizes, and the sizes. -/
structure CodedHeaderFields (t n total hs k sf v : Nat) : Prop where
  fits : v < 256 ^ hs
  kind : v % 4 = t
  format : v / 4 % 4 = sf
  hs_eq : (if sf = 2 then 4 else if sf = 3 then 5 else 3) = hs
  k_eq : (if sf = 2 then 14 else if sf = 3 then 18 else 10) = k
  size : (v >>> 4) % 2 ^ k = n
  comp : (v >>> (4 + k)) % 2 ^ k = total
  streams : sf = 0 ↔ n < 256

/-- A header with its fields one above the other: the type and the format in 4 bits, then both sizes. -/
theorem codedHeaderFields_of_lt {t n total hs k sf : Nat} (ht : t < 4) (hsf : sf < 4) (hn : n < 2 ^ k)
    (htotal : total < 2 ^ k) (hbits : 8 * hs = 4 + k + k) (hhs : (if sf = 2 then 4 else if sf = 3 then 5 else 3) = hs)
    (hk : (if sf = 2 then 14 else if sf = 3 then 18 else 10) = k) (hstreams : sf = 0 ↔ n < 256) :
    CodedHeaderFields t n total hs k sf (t + sf * 2 ^ 2 + n * 2 ^ 4 + total * 2 ^ (4 + k)) := by
  have hv : t + sf * 2 ^ 2 + n * 2 ^ 4 + total * 2 ^ (4 + k) = t + sf * 4 + 16 * (n + total * 2 ^ k) := by
    rw [pow_add]
    ring
  have hsizes : (t + sf * 4 + 16 * (n + total * 2 ^ k)) >>> 4 = n + total * 2 ^ k := by
    rw [Nat.shiftRight_eq_div_pow]
    omega
  have hroom : n + total * 2 ^ k < 2 ^ k * 2 ^ k := by
    have := Nat.mul_le_mul_right (2 ^ k) (Nat.succ_le_of_lt htotal)
    rw [Nat.succ_mul] at this
    omega
  rw [hv]
  exact {
    fits := by
      rw [← two_pow_eight_mul, hbits, pow_add, pow_add, Nat.mul_assoc]
      omega
    kind := by omega
    format := by omega
    hs_eq := hhs
    k_eq := hk
    size := by rw [hsizes, Nat.add_mul_mod_self_right, Nat.mod_eq_of_lt hn]
    comp := by
      rw [Nat.shiftRight_add, hsizes, Nat.shiftRight_eq_div_pow, Nat.add_mul_div_right _ _ (Nat.two_pow_pos k),
        Nat.div_eq_of_lt hn, Nat.zero_add, Nat.mod_eq_of_lt htotal]
    streams := hstreams }

/-- Each form of the header R370 chooses tells its fields. -/
theorem codedHeader_fields {t n total : Nat} (ht : t < 4) (hn : n ≤ 131072) (htotal : total ≤ n) :
    ∃ k sf v, codedHeader t n total = leBytes (codedHeaderSize n) v
      ∧ CodedHeaderFields t n total (codedHeaderSize n) k sf v := by
  unfold codedHeader codedHeaderSize
  split
  · obtain ⟨hsf, h0⟩ : (if n < 256 then 0 else 1) < 2 ∧ ((if n < 256 then 0 else 1) = 0 ↔ n < 256) := by
      split <;> simp_all
    exact ⟨10, _, _, rfl, codedHeaderFields_of_lt ht (by omega) (by omega) (by omega) rfl
      (by rw [if_neg (by omega), if_neg (by omega)]) (by rw [if_neg (by omega), if_neg (by omega)]) h0⟩
  · split
    · exact ⟨14, 2, _, rfl,
        codedHeaderFields_of_lt ht (by decide) (by omega) (by omega) rfl rfl rfl (by omega)⟩
    · exact ⟨18, 3, _, rfl,
        codedHeaderFields_of_lt ht (by decide) (by omega) (by omega) rfl rfl rfl (by omega)⟩

/-- The first byte of a header of at least one byte gives its type and size format. -/
theorem leBytes_eq_cons {hs : Nat} (hpos : 0 < hs) (v : Nat) : ∃ b bs, leBytes hs v = b :: bs
    ∧ b.toNat % 4 = v % 4 ∧ b.toNat / 4 % 4 = v / 4 % 4 := by
  obtain ⟨k, rfl⟩ := Nat.exists_eq_succ_of_ne_zero hpos.ne'
  refine ⟨_, _, rfl, ?_, ?_⟩ <;> rw [BitVec.toNat_ofNat] <;> omega

section Coded

variable {t n total hs k sf v : Nat} (h : CodedHeaderFields t n total hs k sf v)

include h

theorem codedSizes_header (hn : n ≤ 131072) {body : List Byte} (hbody : total ≤ body.length) :
    codedSizes (leBytes hs v ++ body) sf = .ok (hs, n, total) := by
  have hv : leValue ((leBytes hs v ++ body).take hs) = v := by
    rw [List.take_left' (leBytes_length hs v), leValue_leBytes, Nat.mod_eq_of_lt h.fits]
  simp only [codedSizes, h.hs_eq, h.k_eq, hv, h.size, h.comp, List.length_append, leBytes_length]
  rw [if_neg (by omega), if_neg (by simp only [Config.blockMax]; omega), if_neg (by omega)]

/-- A coded section is decoded by the table of its description, or by the one that stands in `HD` (R380). -/
theorem decodeLiterals_coded (hn : n ≤ 131072) {hd : Option HufDec} {body : List Byte} (hbody : total ≤ body.length)
    {d : HufDec} {used : Nat} {r : LitDecoded}
    (htable : (t = 2 ∧ ∃ symbols, readHuf (body.take total) = .ok { table := d, used := used, symbols := symbols })
      ∨ (t = 3 ∧ hd = some d ∧ used = 0))
    (hr : decodeCodedStreams d (leBytes hs v ++ body) t sf hs n total used = .ok r) :
    decodeLiterals hd (leBytes hs v ++ body) = (some d, .ok r) := by
  have hpos : 0 < hs := by
    rw [← h.hs_eq]
    split
    · omega
    · split <;> omega
  have hsizes := codedSizes_header h hn hbody
  have hdrop : (leBytes hs v ++ body).drop hs = body := List.drop_left' (leBytes_length hs v)
  obtain ⟨b, bs, hb, hkind, hformat⟩ := leBytes_eq_cons hpos v
  rw [h.kind] at hkind
  rw [h.format] at hformat
  rw [hb, List.cons_append] at hsizes hdrop hr ⊢
  simp only [decodeLiterals, hkind, hformat, hsizes, hdrop]
  obtain ⟨rfl, symbols, hread⟩ | ⟨rfl, rfl, rfl⟩ := htable
  · simp [hread, shiftErr, hr]
  · simp [hr]

end Coded

/-- The streams of a coded section (R375). -/
def literalsStreams (T : HufTable) (lits : List Byte) (room : Nat) : List Byte :=
  if lits.length < 256 then enc1 T lits room else enc4 T lits room

/-- The streams decode back to the literals, by a table that finds their codes (R350 to R357, R380). -/
theorem decodeCodedStreams_literalsStreams {T : HufTable} {d : HufDec} (hmatch : TableMatches T d) {lits : List Byte}
    (hcoded : ∀ x ∈ lits, T.lenOf x.toNat ≠ 0) (hn : lits.length ≤ 131072) {room : Nat}
    (hne : literalsStreams T lits room ≠ []) {sf : Nat} (hsf : sf = 0 ↔ lits.length < 256)
    (header desc rest : List Byte) (t : Nat) :
    decodeCodedStreams d (header ++ (desc ++ (literalsStreams T lits room ++ rest))) t sf header.length lits.length
        (desc.length + (literalsStreams T lits room).length) desc.length
      = .ok { lits := lits, used := header.length + (desc.length + (literalsStreams T lits room).length)
              kind := t } := by
  have hsrc : ((header ++ (desc ++ (literalsStreams T lits room ++ rest))).drop (header.length + desc.length)).take
      (desc.length + (literalsStreams T lits room).length - desc.length) = literalsStreams T lits room := by
    rw [← List.append_assoc]
    exact take_drop_middle (by simp) (by simp)
  obtain ⟨hone, hfour⟩ := huffmanStreamRoundTrip T d lits room hmatch hcoded hn
  have hback : (if sf = 0 then dec1 d (literalsStreams T lits room) lits.length
      else dec4 d (literalsStreams T lits room) lits.length) = .ok lits := by
    unfold literalsStreams at hne ⊢
    simp only [hsf]
    split at hne
    · next hlt => simpa [hlt] using hone hne
    · next hge => simpa [hge] using hfour hne
  simp only [decodeCodedStreams, hsrc, hback, shiftErr]

/-- A coded section, or the raw one where the streams do not fit or gain too little (R375). -/
theorem codedSection_eq (lits : List Byte) (cap kind : Nat) (T : HufTable) (desc : List Byte) (ht1 : Option HufTable)
    (pending : Bool) : ∃ room, codedSection lits cap kind T desc ht1 pending =
      if (literalsStreams T lits room).length = 0
          ∨ lits.length - minGain lits.length ≤ desc.length + (literalsStreams T lits room).length then
        rawSection lits cap ht1
      else
        { out := .ok (codedHeader kind lits.length (desc.length + (literalsStreams T lits room).length) ++ desc
            ++ literalsStreams T lits room)
          kind := kind, ht1 := ht1, pending := pending } := ⟨_, rfl⟩

/-! ### Sections that read back (R382) -/

/-- With `hd` in `HD`, LIT_DECODE regenerates the literals from the section `r`, whatever follows it, and returns its
size and type. R382's proviso: for a Treeless section `hd` finds the codes of the encoder's `HT[0]`. -/
def LitEncoded.ReadsBack (r : LitEncoded) (ht0 : Option HufTable) (hd : Option HufDec) (lits : List Byte) : Prop :=
  (r.kind = 3 → ∃ T d, ht0 = some T ∧ hd = some d ∧ TableMatches T d) →
    ∀ out, r.out = .ok out → ∀ rest, ∃ hd',
      decodeLiterals hd (out ++ rest) = (hd', .ok { lits := lits, used := out.length, kind := r.kind })

section Sections

variable {lits : List Byte} (hn : lits.length ≤ 131072) (ht0 : Option HufTable) (hd : Option HufDec) (cap : Nat)
  (ht1 : Option HufTable)

include hn

theorem rawSection_readsBack : (rawSection lits cap ht1).ReadsBack ht0 hd lits := by
  intro _ out hout rest
  simp only [rawSection, plainSection] at hout ⊢
  split at hout
  · cases hout
  cases hout
  obtain ⟨hs, v, heq, h⟩ := plainHeader_fields (t := 0) (by omega) hn
  rw [heq, List.append_assoc, decodeLiterals_plain h (by omega), decodePlain_raw h rfl hn, List.length_append,
    leBytes_length]
  exact ⟨hd, rfl⟩

theorem rleSection_readsBack (hlargest : listMax (histogram lits) = lits.length) (h0 : lits.length ≠ 0) :
    (rleSection lits cap ht1).ReadsBack ht0 hd lits := by
  intro _ out hout rest
  obtain ⟨b, hb⟩ := eq_replicate_of_listMax_histogram hlargest h0
  have hfirst : lits.take 1 = [b] := by
    obtain ⟨k, hk⟩ := Nat.exists_eq_succ_of_ne_zero h0
    rw [hb, hk, List.replicate_succ]
    rfl
  simp only [rleSection, plainSection, hfirst] at hout ⊢
  split at hout
  · cases hout
  cases hout
  obtain ⟨hs, v, heq, h⟩ := plainHeader_fields (t := 1) (by omega) hn
  rw [heq, List.append_assoc, List.singleton_append, decodeLiterals_plain h (by omega), decodePlain_rle h hn, ← hb,
    List.length_append, leBytes_length]
  exact ⟨hd, rfl⟩

section Coded

variable {T : HufTable} (hcoded : ∀ x ∈ lits, T.lenOf x.toNat ≠ 0)

include hcoded

/-- A coded section, or the raw one that stands for it, reads back by a table that is read from its description, or by
one that stands in `HD`. -/
theorem codedSection_readsBack {kind : Nat} {desc : List Byte} (pending : Bool)
    (htable : (kind = 3 → ∃ T d, ht0 = some T ∧ hd = some d ∧ TableMatches T d) → ∃ d, TableMatches T d
      ∧ ((kind = 2 ∧ ∀ rest, ∃ symbols,
          readHuf (desc ++ rest) = .ok { table := d, used := desc.length, symbols := symbols })
        ∨ (kind = 3 ∧ hd = some d ∧ desc = []))) :
    (codedSection lits cap kind T desc ht1 pending).ReadsBack ht0 hd lits := by
  obtain ⟨room, hsection⟩ := codedSection_eq lits cap kind T desc ht1 pending
  rw [hsection]
  split
  · exact rawSection_readsBack hn ht0 hd cap ht1
  next hfits =>
  obtain ⟨hbody, hgain⟩ := not_or.1 hfits
  have hne : literalsStreams T lits room ≠ [] := fun h0 => hbody (congrArg List.length h0)
  intro hproviso out hout rest
  cases hout
  obtain ⟨d, hmatch, hfound⟩ := htable hproviso
  have hkind : kind < 4 := by
    rcases hfound with ⟨rfl, -⟩ | ⟨rfl, -⟩ <;> decide
  obtain ⟨k, sf, v, heq, h⟩ := codedHeader_fields hkind hn
    (total := desc.length + (literalsStreams T lits room).length) (by omega)
  have hr := decodeCodedStreams_literalsStreams hmatch hcoded hn hne h.streams (leBytes (codedHeaderSize lits.length) v)
    desc rest kind
  rw [leBytes_length] at hr
  have hdesc : (desc ++ (literalsStreams T lits room ++ rest)).take (desc.length + (literalsStreams T lits room).length)
      = desc ++ literalsStreams T lits room := by
    rw [← List.append_assoc, ← List.length_append, List.take_left]
  refine ⟨some d, ?_⟩
  rw [heq, List.append_assoc, List.append_assoc, decodeLiterals_coded h hn (by simp) ?_ hr]
  · simp
  · rw [hdesc]
    exact hfound.imp (.imp_right fun hread => hread _) (.imp_right fun ⟨h1, h2⟩ => ⟨h1, congrArg List.length h2⟩)

theorem treelessSection_readsBack :
    (codedSection lits cap 3 T [] ht1 false).ReadsBack (some T) hd lits := by
  refine codedSection_readsBack hn _ hd cap ht1 hcoded false fun hproviso => ?_
  obtain ⟨T, d, hT, hd, hmatch⟩ := hproviso rfl
  cases hT
  exact ⟨d, hmatch, .inr ⟨rfl, hd, rfl⟩⟩

theorem compressedSection_readsBack {d : HufDec} {desc : List Byte} (hmatch : TableMatches T d)
    (hread : ∀ rest, ∃ symbols,
      readHuf (desc ++ rest) = .ok { table := d, used := desc.length, symbols := symbols }) :
    (codedSection lits cap 2 T desc ht1 true).ReadsBack ht0 hd lits :=
  codedSection_readsBack hn ht0 hd cap ht1 hcoded true fun _ => ⟨d, hmatch, .inl ⟨rfl, hread⟩⟩

end Coded

/-- The path that builds a new table (R375). -/
theorem newTableSection_readsBack (tie : Config.HufTie) (hlargest : listMax (histogram lits) ≠ lits.length)
    {reuse : Bool} (hreuse : reuse = true → ∃ T, ht0 = some T ∧ T.canEncode (countsUpTo (histogram lits)) = true) :
    (newTableSection tie ht0 lits (countsUpTo (histogram lits)) reuse cap).ReadsBack ht0 hd lits := by
  unfold newTableSection
  extract_lets n T
  split
  · exact rawSection_readsBack hn ht0 hd cap _
  next desc hdesc =>
  obtain ⟨hcoded, d, hmatch, hread⟩ := buildHuf_literals (T := T) rfl hlargest hdesc
  split
  · next T0 =>
    split
    · next hchoice =>
      obtain ⟨_, hT0, hcan⟩ := hreuse (Bool.and_eq_true_iff.1 hchoice).1
      cases hT0
      exact treelessSection_readsBack hn hd cap _ (lenOf_ne_zero_of_canEncode hcan)
    · exact compressedSection_readsBack hn _ hd cap _ hcoded hmatch hread
  · exact compressedSection_readsBack hn _ hd cap _ hcoded hmatch hread

/-- Every section LIT_ENCODE gives reads back. -/
theorem encodeLiterals_readsBack (tie : Config.HufTie) :
    (encodeLiterals tie ht0 ht1 lits cap).ReadsBack ht0 hd lits := by
  unfold encodeLiterals
  extract_lets n h counts largest
  split
  · exact rawSection_readsBack hn ht0 hd cap ht1
  next hlong =>
  split
  · exact fun _ out hout => nomatch hout
  split
  · next hlargest => exact rleSection_readsBack hn ht0 hd cap ht1 hlargest (by omega)
  next hlargest =>
  split
  · exact rawSection_readsBack hn ht0 hd cap ht1
  split
  · next T0 =>
    split
    · next hcan => exact treelessSection_readsBack hn hd cap ht1 (lenOf_ne_zero_of_canEncode hcan.2)
    · exact newTableSection_readsBack hn _ hd cap tie hlargest fun hcan => ⟨T0, rfl, hcan⟩
  · exact newTableSection_readsBack hn _ hd cap tie hlargest (nomatch ·)

end Sections

end Sys2Proof.Machine
end

section
/-! LIT_ENCODE, LIT_DECODE and LIT_GET (R375, R380, R385): their checks in order and what they leave. -/

namespace Sys2Proof.Machine

section Literals

variable {s : State}

/-! ### LIT_ENCODE and LIT_DECODE -/

/-- What LIT_ENCODE's body returns in the state `s` (R375). -/
abbrev State.encodedLiterals (s : State) : LitEncoded :=
  encodeLiterals s.params.hufTie s.ht[0] s.ht[1] s.ss.lit s.a1

/-- `s` with the table and the flag LIT_ENCODE leaves (log entry 8). -/
abbrev State.litEncoded (s : State) : State :=
  { s with ht := s.ht.set 1 s.encodedLiterals.ht1, hpend := s.encodedLiterals.pending }

theorem exec_litEncode_bad (hw : windowOk s.a0 s.a1 = false) : exec .litEncode s = raise .argRange s := by
  simp only [exec, execLitEncode, hw, Bool.not_false, if_true]

theorem exec_litDecode_bad (hw : windowOk s.a0 s.a1 = false) :
    exec .litDecode s = raise .argRange { s with dlit := [] } := by
  simp only [exec, execLitDecode, hw, Bool.not_false, if_true]

variable (hw : windowOk s.a0 s.a1 = true)

include hw

theorem exec_litEncode_error {e : Err} (h : s.encodedLiterals.out = .error e) :
    exec .litEncode s = raiseDst e s.a0 s.a1 s.litEncoded := by
  simp only [exec, execLitEncode, hw, h, Bool.not_true, Bool.false_eq_true, if_false]

theorem exec_litEncode_ok {out : List Byte} (h : s.encodedLiterals.out = .ok out) :
    exec .litEncode s = .next ({ s.litEncoded with
      res := (s.res.set 0 (res64 out.length)).set 1 (res64 s.encodedLiterals.kind) }.writeOut s.a0 s.a1 out) := by
  simp only [exec, execLitEncode, hw, h, Bool.not_true, Bool.false_eq_true, if_false]
  rfl

theorem exec_litDecode_error {e : Err} (h : (decodeLiterals s.hd (s.window s.a0 s.a1)).2 = .error e) :
    exec .litDecode s
      = raiseErr e { s with dlit := [], hd := (decodeLiterals s.hd (s.window s.a0 s.a1)).1 } := by
  simp only [exec, execLitDecode, hw, h, Bool.not_true, Bool.false_eq_true, if_false]

end Literals

/-! ### LIT_GET -/

theorem exec_litGet_raise {s : State} (h : s.dlit.length ≤ s.a0) : exec .litGet s = raise .argRange s := by
  simp only [exec, execLitGet, if_pos h]

theorem exec_litGet_ok {s : State} {b : Byte} (h : s.dlit[s.a0]? = some b) : exec .litGet s = .next { s with
    res := (s.res.set 0 (b.zeroExtend 64)).set 1 (res64 s.dlit.length) } := by
  obtain ⟨hlt, -⟩ := List.getElem?_eq_some_iff.1 h
  rw [← res64_toNat_zeroExtend (by decide)]
  simp only [exec, execLitGet, if_neg (not_le.2 hlt), List.getD_eq_getElem?_getD, h]
  rfl

/-- Settles O45: the window check, then each result of the bodies R375 and R380 describe. -/
theorem literalsCommands : Obligations.LiteralsCommands := by
  unfold Obligations.LiteralsCommands
  intro s bad r u d
  refine ⟨fun hbad => ?_, fun hgood => ?_, fun h => raises_of_raise (exec_litGet_raise h), fun b => exec_litGet_ok⟩
  · have hw := windowOk_false_of hbad
    exact ⟨raises_of_raise (exec_litEncode_bad hw), raisesFrom_of_raise (exec_litDecode_bad hw)⟩
  have hw := windowOk_of_not hgood
  obtain ⟨hfits, herror, hkind⟩ := encodeLiterals_fits s.params.hufTie s.ht[0] s.ht[1] s.ss.lit s.a1
  refine ⟨fun e h => ?_, fun out h => ?_, fun e h => raisesFrom_of_raiseErr (exec_litDecode_error hw h), fun x h => ?_⟩
  · obtain rfl := herror e h
    exact ⟨rfl, raisesDst_of_raiseDst (exec_litEncode_error hw h)⟩
  · exact ⟨hfits out h, hkind, delivers_of_writeOut (exec_litEncode_ok hw h) (hfits out h)⟩
  · obtain ⟨hused, hlits⟩ := decodeLiterals_bounds h
    exact ⟨hused.trans_eq (by simp [State.window]), hlits, exec_litDecode_ok hw (Prod.ext rfl h)⟩

end Sys2Proof.Machine
end

section
/-! LIT_DECODE of the bytes LIT_ENCODE left in memory (R375, R380, R382). -/

namespace Sys2Proof.Machine

/-- A LIT_ENCODE without error gave a section, which stands in its window, and returned its size and type. -/
theorem litEncode_ok {s t : State} (h : exec .litEncode s = .next t) (ht : t.errKind = 0) :
    ∃ out, s.encodedLiterals.out = .ok out ∧ (t.res[0]).toNat = out.length ∧ t.res[0] = res64 out.length
      ∧ t.res[1] = res64 s.encodedLiterals.kind ∧ t.mem.Holds s.a0 out := by
  cases hw : windowOk s.a0 s.a1 with
  | false =>
    cases (exec_litEncode_bad hw).symm.trans h
    exact absurd ht (ErrCode.kind_ne_zero .argRange)
  | true =>
    cases hout : s.encodedLiterals.out with
    | error e =>
      cases (exec_litEncode_error hw hout).symm.trans h
      exact absurd ht (ErrCode.kind_ne_zero e.code)
    | ok out =>
      obtain ⟨hfits, -⟩ := encodeLiterals_fits s.params.hufTie s.ht[0] s.ht[1] s.ss.lit s.a1
      have hsize : out.length < 2 ^ 64 := (hfits out hout).trans_lt s.a1_lt
      cases (exec_litEncode_ok hw hout).symm.trans h
      refine ⟨out, rfl, ?_, ?_, ?_, State.writeOut_holds _ _ _ _⟩ <;> rw [State.writeOut_res, res_set2]
      · exact res64_toNat hsize
      · rfl
      · rfl

/-- A window whose memory holds a byte string at its start begins with it. -/
theorem State.window_eq_append {u : State} {a n : Nat} {bs : List Byte} (h : u.mem.Holds a bs) (hn : bs.length ≤ n) :
    ∃ rest, u.window a n = bs ++ rest := by
  refine ⟨u.mem.readBytes (a + bs.length) (n - bs.length), ?_⟩
  have hbytes : u.mem.readBytes a bs.length = bs :=
    List.ext_getElem (by simp) fun j hj hj' => by rw [Memory.readBytes_getElem, h j hj']
  rw [State.window, ← Nat.add_sub_cancel' hn, Memory.readBytes_add, hbytes, Nat.add_sub_cancel_left]

/-- Settles O47: memory holds the section LIT_ENCODE gave, and every type of section reads back. -/
theorem literalsRoundTrip : Obligations.LiteralsRoundTrip := by
  unfold Obligations.LiteralsRoundTrip
  intro s t u _ hlimits hexec ht hfit hu1 hu0 hmem hproviso
  obtain ⟨hlen, -⟩ := hlimits
  obtain ⟨out, hout, hsize, hres0, hres1, hholds⟩ := litEncode_ok hexec ht
  rw [hsize] at hfit hmem
  obtain ⟨rest, hwin⟩ := State.window_eq_append (u := u) (fun j hj => (hmem j hj).trans (hholds j hj)) hfit
  obtain ⟨hd, hback⟩ := encodeLiterals_readsBack hlen s.ht[0] u.hd s.a1 s.ht[1] s.params.hufTie
    (fun h3 => hproviso (by rw [hres1, h3]; rfl)) out hout rest
  have hw : windowOk u.a0 u.a1 = true := (windowOk_iff _ _).2 ⟨hu1, hu0⟩
  refine ⟨_, exec_litDecode_ok hw (hwin ▸ hback), rfl, rfl, ?_, ?_, ?_⟩ <;> simp only [res_set3]
  · exact hres0.symm
  · rfl
  · exact hres1.symm

end Sys2Proof.Machine
end

section
/-! What MF_BLOCK stores (R410, R411, R414, R421): the sequences the search emitted, with their true lengths, and the
literals of the block in order. -/

namespace Sys2Proof.Machine

/-! ### Spans -/

/-- The bytes of the block a sequence stands for: its literals, then its match. -/
abbrev TrueSeq.span (q : TrueSeq) : Nat := q.ll + (q.mlBase + 3)

abbrev Emitted.ll (e : Emitted) : Nat := e.litTo - e.litFrom

abbrev Emitted.span (e : Emitted) : Nat := e.ll + (e.mlBase + 3)

/-- Sequences that cover a stretch are as long as it (R414). -/
theorem Covers.spans {es : List Emitted} {a b : Nat} (h : Covers a es b) : a + (es.map Emitted.span).sum = b := by
  induction es generalizing a with
  | nil => exact h
  | cons e es ih =>
    obtain ⟨rfl, hto, -, hrest⟩ := h
    have := ih hrest
    simp only [List.map_cons, List.sum_cons, Emitted.span, Emitted.ll]
    omega

/-- Where a sequence of a stretch stands: its literals begin where the sequences before it end. -/
theorem Covers.of_getElem? {es : List Emitted} {a b i : Nat} {e : Emitted} (h : Covers a es b) (hi : es[i]? = some e) :
    e.litFrom = a + ((es.take i).map Emitted.span).sum ∧ e.litFrom ≤ e.litTo ∧ 1 ≤ e.mlBase
      ∧ e.litTo + (e.mlBase + 3) ≤ b := by
  induction es generalizing a i with
  | nil => simp at hi
  | cons e' es ih =>
    obtain ⟨rfl, hto, hml, hrest⟩ := h
    cases i with
    | zero =>
      cases hi
      exact ⟨rfl, hto, hml, (Nat.le_add_right _ _).trans_eq hrest.spans⟩
    | succ i =>
      obtain ⟨hfrom, hrest⟩ := ih hrest hi
      refine ⟨?_, hrest⟩
      simp only [List.take_succ_cons, List.map_cons, List.sum_cons, Emitted.span, Emitted.ll]
      omega

/-! ### The long field (R421, R431) -/

theorem SeqStore.trueSeqs_length (ss : SeqStore) : ss.trueSeqs.length = ss.seqs.length := by simp [trueSeqs]

/-- A stored sequence with its true values (R431). -/
theorem SeqStore.trueSeqs_getElem? {ss : SeqStore} {i : Nat} {q : StoredSeq} (h : ss.seqs[i]? = some q) :
    ss.trueSeqs[i]? = some { ll := ss.trueLL i q, mlBase := ss.trueMlBase i q, ov := q.ofa.toNat } := by
  rw [trueSeqs, List.getElem?_map, List.getElem?_zipIdx, h]
  simp

/-- A store with a long field holds a sequence that stands for at least 65536 bytes. -/
theorem SeqStore.Fits.spans_ge {ss : SeqStore} (h : ss.Fits) (hl : ss.longF ≠ .none) :
    65536 ≤ (ss.trueSeqs.map TrueSeq.span).sum := by
  have hq := SeqStore.trueSeqs_getElem? (List.getElem?_eq_getElem (h.long hl))
  refine le_trans ?_ (List.single_le_sum (by simp) _ (List.mem_map_of_mem (List.mem_of_getElem? hq)))
  cases hf : ss.longF with
  | none => exact absurd hf hl
  | literalLength => simp only [TrueSeq.span, trueLL, hf, true_and, if_true]; omega
  | matchLength => simp only [TrueSeq.span, trueMlBase, hf, true_and, if_true]; omega

section Push

variable {ss : SeqStore} {lits : List Byte} {mlBase ofa : Nat}

/-- A push leaves the true values of the sequences before it, where at most one field of the store is long. -/
theorem SeqStore.push_before (honce : 65536 ≤ lits.length ∨ 65536 ≤ mlBase → ss.longF = .none)
    (hidx : ss.seqs.length < 2 ^ 32) {i : Nat} (hi : i < ss.seqs.length) (q : StoredSeq) :
    (ss.push lits mlBase ofa).trueLL i q = ss.trueLL i q
      ∧ (ss.push lits mlBase ofa).trueMlBase i q = ss.trueMlBase i q := by
  by_cases hlong : 65536 ≤ mlBase ∨ 65536 ≤ lits.length
  · simp only [trueLL, trueMlBase, honce hlong.symm, push, if_pos hlong, BitVec.toNat_ofNat, Nat.mod_eq_of_lt hidx,
      Nat.ne_of_gt hi, and_false, if_false, reduceCtorEq, false_and, and_self]
  · obtain ⟨hm, hl⟩ := not_or.1 hlong
    simp only [trueLL, trueMlBase, push, if_neg hlong, if_neg hm, if_neg hl, and_self]

/-- The sequence pushed has the true values it was pushed with. -/
theorem SeqStore.Fits.push_last (h : ss.Fits) (hidx : ss.seqs.length < 2 ^ 32)
    (hfit : lits.length + mlBase < 131072) (w : Word) :
    let q : StoredSeq := { lla := BitVec.ofNat 16 lits.length, mla := BitVec.ofNat 16 mlBase, ofa := w }
    (ss.push lits mlBase ofa).trueLL ss.seqs.length q = lits.length
      ∧ (ss.push lits mlBase ofa).trueMlBase ss.seqs.length q = mlBase := by
  simp only [trueLL, trueMlBase, SeqStore.push, BitVec.toNat_ofNat]
  by_cases hm : 65536 ≤ mlBase
  · simp only [hm, if_true, true_or, BitVec.toNat_ofNat, Nat.mod_eq_of_lt hidx, reduceCtorEq, false_and, if_false,
      and_self]
    omega
  · by_cases hl : 65536 ≤ lits.length
    · simp only [hm, hl, if_true, or_true, BitVec.toNat_ofNat, Nat.mod_eq_of_lt hidx, reduceCtorEq, false_and,
        if_false, and_self]
      omega
    · have hp : ss.longF ≠ .none → ss.longP.toNat ≠ ss.seqs.length := fun hf => Nat.ne_of_lt (h.long hf)
      simp only [hm, hl, if_false, or_self]
      rw [if_neg fun hc => hp (by simp [hc.1]) hc.2, if_neg fun hc => hp (by simp [hc.1]) hc.2]
      omega

/-- A sequence pushed on the store reads back with its true values, and those before it as they were. -/
theorem SeqStore.Fits.trueSeqs_push (h : ss.Fits) (hidx : ss.seqs.length < 2 ^ 32)
    (hfit : lits.length + mlBase < 131072) (hofa : ofa < 2 ^ 32)
    (honce : 65536 ≤ lits.length ∨ 65536 ≤ mlBase → ss.longF = .none) :
    (ss.push lits mlBase ofa).trueSeqs = ss.trueSeqs ++ [{ ll := lits.length, mlBase := mlBase, ov := ofa }] := by
  have hseqs : (ss.push lits mlBase ofa).seqs = ss.seqs
      ++ [{ lla := BitVec.ofNat 16 lits.length, mla := BitVec.ofNat 16 mlBase, ofa := BitVec.ofNat 32 ofa }] := rfl
  rw [trueSeqs, hseqs, List.zipIdx_append, List.map_append, trueSeqs]
  congr 1
  · refine List.map_congr_left fun x hx => ?_
    obtain ⟨hll, hml⟩ := push_before (ofa := ofa) honce hidx (by simpa using List.snd_lt_of_mem_zipIdx hx) x.1
    rw [hll, hml]
  · obtain ⟨hll, hml⟩ := h.push_last (ofa := ofa) hidx hfit (BitVec.ofNat 32 ofa)
    simp only [List.zipIdx_singleton, Nat.zero_add, List.map_cons, List.map_nil, hll, hml, BitVec.toNat_ofNat,
      Nat.mod_eq_of_lt hofa]

end Push

/-! ### The sequences of a search in the store -/

/-- A stored sequence is the emitted one: its Offset_Value is the offset code plus 1 where that fits its register. -/
structure Emitted.StoredAs (e : Emitted) (q : TrueSeq) : Prop where
  ll : q.ll = e.ll
  mlBase : q.mlBase = e.mlBase
  pos : 1 ≤ q.ov
  code : 0 ≤ e.code → e.code + 1 < 2 ^ 32 → q.ov = (e.code + 1).toNat

theorem storedOffset_bounds (tag idx : Nat) (code : Int) :
    1 ≤ storedOffset tag idx code ∧ storedOffset tag idx code < 2 ^ 32 := by
  unfold storedOffset
  split <;> omega

theorem Emitted.StoredAs.spans {es : List Emitted} {qs : List TrueSeq} (h : List.Forall₂ StoredAs es qs) :
    es.map Emitted.ll = qs.map TrueSeq.ll ∧ es.map Emitted.span = qs.map TrueSeq.span := by
  induction h with
  | nil => exact ⟨rfl, rfl⟩
  | cons hq _ ih =>
    obtain ⟨hll, hspan⟩ := ih
    constructor
    · simp only [List.map_cons, hll, hq.ll]
    · simp only [List.map_cons, hspan, span, TrueSeq.span, hq.ll, hq.mlBase]

/-- The emitted sequence a stored one comes from. -/
theorem Emitted.StoredAs.exists_getElem? {es : List Emitted} {qs : List TrueSeq} (h : List.Forall₂ StoredAs es qs)
    {i : Nat} {q : TrueSeq} (hq : qs[i]? = some q) : ∃ e, es[i]? = some e ∧ e.StoredAs q := by
  obtain ⟨hi, -⟩ := List.getElem?_eq_some_iff.1 hq
  have he := List.getElem?_eq_getElem (h.length_eq ▸ hi)
  exact ⟨_, he, forall₂_getElem? h he hq⟩

namespace SearchEnv

variable (v : SearchEnv)

/-- The literals an emitted sequence takes from the block. -/
def literals (e : Emitted) : List Byte := (List.range e.ll).map fun i => v.byte (e.litFrom + i)

@[simp] theorem literals_length (e : Emitted) : (v.literals e).length = e.ll := by simp [literals]

theorem store_cons (e : Emitted) (es : List Emitted) (ss : SeqStore) : v.store (e :: es) ss
    = v.store es (ss.push (v.literals e) e.mlBase (storedOffset v.tag ss.seqs.length e.code)) := rfl

theorem store_lit (es : List Emitted) (ss : SeqStore) : (v.store es ss).lit = ss.lit ++ es.flatMap v.literals := by
  induction es generalizing ss with
  | nil => simp [store]
  | cons e es ih => rw [store_cons, ih, List.flatMap_cons, ← List.append_assoc]; rfl

/-- A block of at most 131072 bytes has at most one long field, so the sequences of its search are stored with their
true values. -/
theorem store_trueSeqs {es : List Emitted} {ss : SeqStore} (h : ss.Fits)
    (hlit : ss.lit.length + (es.map Emitted.ll).sum ≤ Config.blockMax)
    (hseq : ss.seqs.length + es.length ≤ Config.seqMax)
    (hsum : (ss.trueSeqs.map TrueSeq.span).sum + (es.map Emitted.span).sum ≤ 131072) :
    ∃ qs, (v.store es ss).trueSeqs = ss.trueSeqs ++ qs ∧ List.Forall₂ Emitted.StoredAs es qs := by
  induction es generalizing ss with
  | nil => exact ⟨[], (List.append_nil _).symm, .nil⟩
  | cons e es ih =>
    simp only [List.map_cons, List.sum_cons, List.length_cons, Emitted.span, Config.seqMax] at hlit hseq hsum
    obtain ⟨hpos, hlt⟩ := storedOffset_bounds v.tag ss.seqs.length e.code
    have hlen := v.literals_length e
    have honce : 65536 ≤ (v.literals e).length ∨ 65536 ≤ e.mlBase → ss.longF = .none := by
      intro hlong
      by_contra hl
      have := h.spans_ge hl
      omega
    have hpush := h.trueSeqs_push (by omega) (by omega) hlt honce
    have hfits := h.push (lits := v.literals e) e.mlBase (storedOffset v.tag ss.seqs.length e.code) (by omega)
      (by simp only [Config.seqMax]; omega)
    obtain ⟨qs, hqs, hall⟩ := ih hfits (by simp only [SeqStore.push, List.length_append]; omega)
      (by simp only [SeqStore.push, List.length_append, List.length_singleton, Config.seqMax]; omega) (by
        simp only [hpush, hlen, List.map_append, List.map_cons, List.map_nil, List.sum_append, List.sum_cons,
          List.sum_nil, TrueSeq.span]
        omega)
    rw [hpush, hlen, List.append_assoc] at hqs
    exact ⟨_, hqs, .cons ⟨rfl, rfl, hpos, fun h0 h1 => if_pos ⟨h0, h1⟩⟩ hall⟩

end SearchEnv

/-! ### MF_BLOCK (R410) -/

/-- The operands MF_BLOCK accepts (R410). -/
abbrev State.BlockOk (s : State) : Prop :=
  s.a1 ≤ 131072 ∧ s.wbo.toNat ≤ s.a0 ∧ s.a0 + s.a1 ≤ 2 ^ 32 ∧ s.a0 + s.a1 - s.wbo.toNat < 2 ^ 31
    ∧ s.ctxBase.toNat + s.a0 + s.a1 ≤ 2 ^ 64

/-- The checks of R410, in their order. -/
theorem exec_mfBlock (s : State) : exec .mfBlock s =
    if s.mfValid = false ∨ ¬ (s.ss.lit = [] ∧ s.ss.seqs = []) then raise .stateInvalid s
    else if ¬ s.BlockOk then raise .argRange s
    else .next (s.searched s.a0 s.a1) := by
  change execMfBlock s = _
  have hempty : (decide (s.ss.lit.length ≠ 0) || decide (s.ss.seqs.length ≠ 0)) = true
      ↔ ¬ (s.ss.lit = [] ∧ s.ss.seqs = []) := by
    simp [imp_iff_not_or]
  have hrange : ¬ s.BlockOk ↔
      (decide (Config.blockMax < s.a1) || decide (s.a0 < s.wbo.toNat) || decide (2 ^ 32 < s.a0 + s.a1)) = true
      ∨ windowOk (s.ctxBase.toNat + s.wbo.toNat) (s.a0 + s.a1 - s.wbo.toNat) = false := by
    simp only [Bool.or_eq_true, decide_eq_true_eq, windowOk_eq_false, Config.blockMax, Config.lenLimit,
      Config.addrLimit]
    omega
  simp only [execMfBlock, Bool.not_eq_true', hempty, hrange, ite_or]

/-- A successful MF_BLOCK searched its block into an empty store (R410). -/
theorem mfBlock_ok {s t : State} (h : exec .mfBlock s = .next t) (ht : t.errKind = 0) :
    s.ss.lit = [] ∧ s.ss.seqs = [] ∧ s.BlockOk ∧ t = s.searched s.a0 s.a1 := by
  rw [exec_mfBlock] at h
  obtain ⟨hstate, h⟩ := passed_of_ok h ht
  obtain ⟨hrange, h⟩ := passed_of_ok h ht
  obtain ⟨-, hempty⟩ := not_or.1 hstate
  obtain ⟨hlit, hseqs⟩ := not_not.1 hempty
  cases h
  exact ⟨hlit, hseqs, not_not.1 hrange, rfl⟩

/-- The search of MF_BLOCK. -/
abbrev State.blockSearch (s : State) : SearchResult :=
  (s.searchEnv (s.a0 + s.a1)).search s.a0 s.a1 s.repLive.r0.toNat s.repLive.r1.toNat s.lh s.sh

/-- The search covers the block up to its last anchor, and the store holds its sequences and their literals. -/
theorem searched_covers {s : State} (hlim : s.LimitsOk) (hlit : s.ss.lit = []) (hseqs : s.ss.seqs = [])
    (hsize : s.a1 ≤ 131072) : Covers s.a0 s.blockSearch.seqs s.blockSearch.cursor.anchor
      ∧ s.blockSearch.cursor.anchor ≤ s.a0 + s.a1
      ∧ List.Forall₂ Emitted.StoredAs s.blockSearch.seqs (s.searched s.a0 s.a1).ss.trueSeqs
      ∧ (s.searched s.a0 s.a1).ss.lit = s.blockSearch.seqs.flatMap (s.searchEnv (s.a0 + s.a1)).literals := by
  obtain ⟨hcovers, hend, -⟩ := SearchEnv.search_moves (v := s.searchEnv (s.a0 + s.a1)) (start := s.a0) (size := s.a1)
    (r0 := s.repLive.r0.toNat) (r1 := s.repLive.r1.toNat) (lh := s.lh) (sh := s.sh) rfl
  have hspans : s.a0 + (s.blockSearch.seqs.map Emitted.span).sum = s.blockSearch.cursor.anchor := hcovers.spans
  have hend : s.blockSearch.cursor.anchor ≤ s.a0 + s.a1 := hend
  have hbound : s.a0 + ((s.blockSearch.seqs.map Emitted.ll).sum + 4 * s.blockSearch.seqs.length)
      ≤ s.blockSearch.cursor.anchor := hcovers.bound
  have hempty : s.ss.trueSeqs = [] := by rw [SeqStore.trueSeqs, hseqs]; rfl
  obtain ⟨qs, hqs, hall⟩ := (s.searchEnv (s.a0 + s.a1)).store_trueSeqs (es := s.blockSearch.seqs)
    (State.limitsOk_iff.1 hlim).store (by simp only [hlit, List.length_nil, Config.blockMax]; omega)
    (by simp only [hseqs, List.length_nil, Config.seqMax]; omega)
    (by simp only [hempty, List.map_nil, List.sum_nil]; omega)
  have hstore := (s.searchEnv (s.a0 + s.a1)).store_lit s.blockSearch.seqs s.ss
  rw [hempty, List.nil_append] at hqs
  rw [hlit, List.nil_append] at hstore
  exact ⟨hcovers, hend, hqs ▸ hall, hstore⟩

/-- Settles O49: the search covers the block up to its last anchor, and the store keeps the lengths it emitted. -/
theorem blockSearchCovers : Obligations.BlockSearchCovers := by
  unfold Obligations.BlockSearchCovers
  intro s empty inRange
  have hexec := exec_mfBlock s
  refine ⟨fun h => raises_of_raise (hexec.trans (if_pos h)), fun hv he hr => raises_of_raise ?_,
    fun hv he hr hlim => ?_⟩
  · rw [hexec, if_neg (by simp [hv, he.1, he.2]), if_pos hr]
  rw [if_neg (by simp [hv, he.1, he.2]), if_neg (not_not.2 hr)] at hexec
  obtain ⟨hcovers, hend, hall, hlit⟩ := searched_covers hlim he.1 he.2 hr.1
  obtain ⟨hll, hspan⟩ := Emitted.StoredAs.spans hall
  have hspans := hcovers.spans
  refine ⟨_, hexec, rfl, rfl, rfl, rfl, ?_, ?_, fun q hq => ?_⟩
  · have hres : ((s.searched s.a0 s.a1).res[0]).toNat = s.a0 + s.a1 - s.blockSearch.cursor.anchor := by
      refine Eq.trans ?_ (res64_toNat (by omega))
      exact congrArg BitVec.toNat (Vector.getElem_set_self ..)
    rw [hres, ← hspan]
    omega
  · rw [hlit, ← hll, List.length_flatMap]
    simp only [SearchEnv.literals_length]
  · obtain ⟨i, hi⟩ := List.getElem?_of_mem hq
    obtain ⟨e, he, hq⟩ := Emitted.StoredAs.exists_getElem? hall hi
    obtain ⟨-, -, hml, -⟩ := hcovers.of_getElem? he
    exact ⟨hq.mlBase ▸ hml, hq.pos⟩

/-! ### The literals in order (R411, R421) -/

/-- A byte of the window is the one in memory. -/
theorem State.searchEnv_byte (s : State) {fin p : Nat} (h1 : s.wbo.toNat ≤ p) (h2 : p < fin) :
    (s.searchEnv fin).byte p = s.mem.read (s.ctxBase.toNat + p) := by
  have hrd := s.searchEnv_rd h1 (n := 1) (p := p) (fin := fin) h2
  rw [SearchEnv.rd, State.window, Memory.readBytes_eq_map] at hrd
  have := congrArg (leBytes 1) hrd
  simpa [leBytes, leValue] using this

theorem getElem?_flatMap {α β : Type} {f : α → List β} {l : List α} {i j : Nat} {a : α} (hi : l[i]? = some a)
    (hj : j < (f a).length) : (l.flatMap f)[((l.take i).map fun x => (f x).length).sum + j]? = (f a)[j]? := by
  induction l generalizing i with
  | nil => simp at hi
  | cons b l ih =>
    rw [List.flatMap_cons]
    cases i with
    | zero =>
      cases hi
      simp only [List.take_zero, List.map_nil, List.sum_nil, Nat.zero_add]
      exact List.getElem?_append_left hj
    | succ i =>
      simp only [List.take_succ_cons, List.map_cons, List.sum_cons, Nat.add_assoc]
      rw [List.getElem?_append_right (Nat.le_add_right _ _), Nat.add_sub_cancel_left]
      exact ih hi

/-- Settles O50: the literals of a sequence are the block's bytes from where the sequences before it end. -/
theorem blockLiteralsInOrder : Obligations.BlockLiteralsInOrder := by
  unfold Obligations.BlockLiteralsInOrder
  intro s t _ hlim hexec ht i q hi before from_ at_ j hj
  obtain ⟨hlit, hseqs, ⟨hsize, hbase, -⟩, rfl⟩ := mfBlock_ok hexec ht
  obtain ⟨hcovers, hend, hall, hlits⟩ := searched_covers hlim hlit hseqs hsize
  obtain ⟨hll, hspan⟩ := Emitted.StoredAs.spans hall
  obtain ⟨e, he, hq⟩ := Emitted.StoredAs.exists_getElem? hall hi
  obtain ⟨hfrom, hto, -, hfin⟩ := hcovers.of_getElem? he
  have hbefore : from_ = ((s.blockSearch.seqs.take i).map Emitted.ll).sum
      ∧ at_ = ((s.blockSearch.seqs.take i).map Emitted.span).sum := by
    rw [List.map_take, List.map_take, hll, hspan, ← List.map_take, ← List.map_take]
    exact ⟨rfl, rfl⟩
  rw [hq.ll, Emitted.ll] at hj
  have hread := getElem?_flatMap (f := (s.searchEnv (s.a0 + s.a1)).literals) he (by simpa using hj)
  simp only [SearchEnv.literals_length] at hread
  rw [hlits, hbefore.1, hread, SearchEnv.literals, List.getElem?_map, List.getElem?_range hj, Option.map_some,
    s.searchEnv_byte (by omega) (by omega), hfrom, hbefore.2]
  congr 2
  omega

end Sys2Proof.Machine
end

section
/-! What the block search emits copies equal bytes (R411 to R413): hash entries lie before the position probed, and the
repeated offsets reach no further than the window base. -/

namespace Sys2Proof.Machine

namespace SearchEnv

variable {v : SearchEnv}

/-! ### Equal stretches -/

variable (v) in
/-- The `n` bytes from `m` on are those from `p` on. -/
def Same (m p n : Nat) : Prop := ∀ j, j < n → v.byte (m + j) = v.byte (p + j)

theorem Same.append {m p n k : Nat} (h : v.Same m p n) (h' : v.Same (m + n) (p + n) k) : v.Same m p (n + k) := by
  intro j hj
  by_cases hn : j < n
  · exact h j hn
  · have := h' (j - n) (by omega)
    rwa [show m + n + (j - n) = m + j by omega, show p + n + (j - n) = p + j by omega] at this

theorem same_of_rd {m p n : Nat} (h : v.rd m n = v.rd p n) : v.Same m p n := by
  have hbytes : (List.range n).map (fun i => v.byte (m + i)) = (List.range n).map (fun i => v.byte (p + i)) := by
    have hback (q : Nat) : leBytes n (v.rd q n) = (List.range n).map (fun i => v.byte (q + i)) := by
      have := leBytes_leValue ((List.range n).map fun i => v.byte (q + i))
      rwa [List.length_map, List.length_range] at this
    rw [← hback, ← hback, h]
  intro j hj
  exact List.map_inj_left.1 hbytes j (List.mem_range.2 hj)

theorem same_count (fuel a m : Nat) : v.Same m a (v.count fuel a m) := by
  induction fuel generalizing a m with
  | zero => exact nofun
  | succ fuel ih =>
    simp only [count]
    split
    · next heq =>
      rw [Nat.add_comm]
      refine Same.append (n := 1) (fun j hj => ?_) (ih (a + 1) (m + 1))
      obtain rfl : j = 0 := by omega
      exact heq.symm
    · exact nofun

theorem Same.matchLength {m ip n : Nat} (h : v.Same m ip n) : v.Same m ip (v.matchLength ip m n) := by
  rw [SearchEnv.matchLength, Nat.add_comm]
  exact h.append (same_count _ _ _)

/-- The backward extension stays in the window, over equal bytes. -/
theorem back_spec {fuel ip m : Nat} (hip : fuel ≤ ip) (hm : v.wb ≤ m) :
    v.wb + v.back fuel ip m ≤ m ∧ v.Same (m - v.back fuel ip m) (ip - v.back fuel ip m) (v.back fuel ip m) := by
  induction fuel generalizing ip m with
  | zero => exact ⟨hm, nofun⟩
  | succ fuel ih =>
    simp only [back]
    split
    · next h =>
      obtain ⟨hwb, heq⟩ := h
      obtain ⟨hle, hsame⟩ := ih (ip := ip - 1) (m := m - 1) (by omega) (by omega)
      have hk := v.back_le fuel (ip - 1) (m - 1)
      generalize v.back fuel (ip - 1) (m - 1) = k at hle hsame hk
      refine ⟨by omega, ?_⟩
      rw [Nat.sub_add_eq, Nat.sub_add_eq, Nat.sub_right_comm m k, Nat.sub_right_comm ip k]
      refine hsame.append (k := 1) fun j hj => ?_
      obtain rfl : j = 0 := by omega
      rw [show m - 1 - k + k + 0 = m - 1 by omega, show ip - 1 - k + k + 0 = ip - 1 by omega]
      exact heq.symm
    · exact ⟨hm, nofun⟩

/-! ### Copies (R413) -/

variable (v) in
/-- The `n` bytes at `p` are those `off` before them, which the window holds. -/
structure Copies (off p n : Nat) : Prop where
  pos : 1 ≤ off
  base : v.wb + off ≤ p
  same : v.Same (p - off) p n

/-- A candidate before `q` of which some bytes match copies its extension both ways. -/
theorem copies_extend {anchor q cand n : Nat} (hwb : v.wb < cand) (hlt : cand < q) (h : v.Same cand q n) :
    v.Copies (q - cand) (v.extend anchor q cand n).ip (v.extend anchor q cand n).ml := by
  have hk := v.back_le (q - anchor) q cand
  obtain ⟨hle, hsame⟩ := back_spec (v := v) (fuel := q - anchor) (ip := q) (m := cand) (by omega) hwb.le
  simp only [extend]
  generalize v.back (q - anchor) q cand = k at hk hle hsame
  refine ⟨by omega, by omega, ?_⟩
  rw [show q - k - (q - cand) = cand - k by omega, Nat.add_comm]
  refine hsame.append ?_
  rw [show cand - k + k = cand by omega, show q - k + k = q by omega]
  exact h.matchLength

variable (v) in
/-- A repeated offset that reaches no further back from `ip` than the window base; 0 is none. -/
structure Reach (ip : Nat) (o : Int) : Prop where
  nonneg : 0 ≤ o
  word : o < 2 ^ 32
  base : v.wb + o ≤ ip

/-- A repeated offset that passes its probe. -/
theorem copies_repeat {p : Nat} {o : Int} (ho : v.Reach p o) (h : v.repeats o p = true) :
    v.Copies o.toNat p (v.matchLength p (p - o.toNat) 4) := by
  simp only [repeats, Bool.and_eq_true, decide_eq_true_eq, beq_iff_eq] at h
  have := ho.base
  exact ⟨by omega, by omega, (same_of_rd h.2).matchLength⟩

/-! ### Entries and offsets of a cursor (R412) -/

variable (v) in
/-- Every entry of a hash table is absent or lies before `ip`. -/
def Below (ip : Nat) (t : List (Nat × Word)) : Prop := ∀ h, getPosition h t ≤ v.wb ∨ getPosition h t < ip

theorem Below.setPosition {ip p : Nat} {t : List (Nat × Word)} (ht : v.Below ip t) (hp : p < ip) (h : Nat) :
    v.Below ip (setPosition h p t) := by
  intro x
  by_cases hx : x = h
  · refine .inr (lt_of_le_of_lt ?_ hp)
    have hread : sparseRead x (Machine.setPosition h p t) = BitVec.ofNat 32 p :=
      hx ▸ sparseRead_write_inside (j := 0) h [BitVec.ofNat 32 p] t (by simp)
    rw [getPosition, hread, BitVec.toNat_ofNat]
    exact Nat.mod_le _ _
  · have hread : sparseRead x (Machine.setPosition h p t) = sparseRead x t :=
      sparseRead_write_outside _ _ _ (by simp; omega)
    rw [getPosition, hread]
    exact ht x

variable (v) in
/-- The cursor's tables and repeated offsets can be used at `ip`. -/
structure UsableAt (ip : Nat) (c : SearchCursor) : Prop where
  long : v.Below ip c.lh
  short : v.Below ip c.sh
  o1 : v.Reach ip c.o1
  o2 : v.Reach ip c.o2

variable {c c' c'' : SearchCursor} {first ip ip' p : Nat}

theorem UsableAt.mono (h : v.UsableAt ip c) (hip : ip ≤ ip') : v.UsableAt ip' c := by
  have hbelow {t : List (Nat × Word)} (ht : v.Below ip t) : v.Below ip' t :=
    fun x => (ht x).imp_right fun hlt => hlt.trans_le hip
  have hreach {o : Int} (ho : v.Reach ip o) : v.Reach ip' o := ⟨ho.nonneg, ho.word, by have := ho.base; omega⟩
  exact ⟨hbelow h.long, hbelow h.short, hreach h.o1, hreach h.o2⟩

theorem UsableAt.insert (h : v.UsableAt ip c) (hp : p < ip) : v.UsableAt ip (v.insert p c) :=
  ⟨h.long.setPosition hp _, h.short.setPosition hp _, h.o1, h.o2⟩

theorem matches_spec {m q n : Nat} (h : v.matches m q n = true) : v.wb < m ∧ v.Same m q n := by
  simp only [SearchEnv.matches, Bool.and_eq_true, decide_eq_true_eq, beq_iff_eq] at h
  exact ⟨h.1, same_of_rd h.2⟩

variable (v) in
/-- What a match found by a probe of cursor `c` copies: past the probed position the first repeated offset, or a new
one. -/
structure FoundCopy (c : SearchCursor) (m : MatchFound) (off : Nat) : Prop where
  copies : v.Copies off m.ip m.ml
  source : m.off = some (off : Int) ∨ m.off = none ∧ off = c.o1.toNat ∧ c.ip < m.ip

/-- What a probe can do: it leaves its position in the tables and finds nothing, or it finds a copy. -/
theorem probe_cases (h : v.UsableAt c.ip c) : v.probe c = (none, v.insert c.ip c)
    ∨ ∃ m off c', v.probe c = (some m, c') ∧ v.FoundCopy c m off ∧ v.UsableAt (c.ip + 2) c' ∧ c'.o1 = c.o1
      ∧ c'.o2 = c.o2 := by
  have h1 : v.UsableAt (c.ip + 1) (v.insert c.ip c) := (h.mono (Nat.le_succ _)).insert (Nat.lt_succ_self _)
  have found {q cand n : Nat} (hm : v.matches cand q n = true) (hb : cand ≤ v.wb ∨ cand < q) :
      v.FoundCopy c (v.extend c.anchor q cand n) (q - cand) := by
    obtain ⟨hwb, hsame⟩ := matches_spec hm
    have hlt := hb.resolve_left (not_le.2 hwb)
    refine ⟨copies_extend hwb hlt hsame, .inl ?_⟩
    simp only [extend, Nat.cast_sub hlt.le]
  simp only [probe]
  split
  · next hrep =>
    have hreach : v.Reach (c.ip + 1) c.o1 := h1.o1
    exact .inr ⟨_, _, _, rfl, ⟨copies_repeat hreach hrep, .inr ⟨rfl, rfl, Nat.lt_succ_self _⟩⟩, h1.mono (Nat.le_succ _),
      rfl, rfl⟩
  · split
    · next hm => exact .inr ⟨_, _, _, rfl, found hm (h.long _), h1.mono (Nat.le_succ _), rfl, rfl⟩
    · split
      · next hs =>
        have h2 := h1.mono (Nat.le_succ _)
        have h3 : v.UsableAt (c.ip + 2) { v.insert c.ip c with
            lh := setPosition (v.longHash (c.ip + 1)) (c.ip + 1) (v.insert c.ip c).lh } :=
          ⟨h2.long.setPosition (Nat.lt_succ_self _) _, h2.short, h2.o1, h2.o2⟩
        split
        · next hm => exact .inr ⟨_, _, _, rfl, found hm (h1.long _), h3, rfl, rfl⟩
        · exact .inr ⟨_, _, _, rfl, found hs (h.short _), h3, rfl, rfl⟩
      · exact .inl rfl

end SearchEnv

/-! ### The emitted sequences -/

/-- An emitted sequence with an offset code that fits its register, as it is stored. -/
def Emitted.seq (e : Emitted) : TrueSeq := { ll := e.ll, mlBase := e.mlBase, ov := (e.code + 1).toNat }

/-- The code of the first repeated offset, or of a new offset (R411). -/
def Emitted.CodeOk (e : Emitted) : Prop := e.code = 0 ∨ 3 ≤ e.code ∧ e.code + 1 < 2 ^ 32

/-- The repeated offsets of a cursor. -/
def SearchCursor.offsets (c : SearchCursor) : Nat × Nat := (c.o1.toNat, c.o2.toNat)

namespace SearchEnv

/-- Every sequence copies equal bytes with its offset, which the repeated offsets before it give; they go from `o` to
`o'`. -/
def AllCopy (v : SearchEnv) : Nat × Nat → List Emitted → Nat × Nat → Prop
  | o, [], o' => o = o'
  | o, e :: es, o' => e.CodeOk ∧ v.Copies (e.seq.searchOffset o) e.litTo (e.mlBase + 3)
      ∧ AllCopy v (e.seq.searchRepeats o) es o'

variable {v : SearchEnv} {c c' c'' : SearchCursor} {es es' : List Emitted} {first : Nat}

theorem AllCopy.append {o o' o'' : Nat × Nat} (h : v.AllCopy o es o') (h' : v.AllCopy o' es' o'') :
    v.AllCopy o (es ++ es') o'' := by
  induction es generalizing o with
  | nil => exact (h : o = o') ▸ h'
  | cons e es ih =>
    obtain ⟨hcode, hcopy, hrest⟩ := h
    exact ⟨hcode, hcopy, ih hrest⟩

variable (v) in
/-- The search goes from one cursor to the other with the copies `es`. -/
structure Leads (c : SearchCursor) (es : List Emitted) (c' : SearchCursor) : Prop where
  usable : v.UsableAt c'.ip c'
  copies : v.AllCopy c.offsets es c'.offsets

theorem Leads.trans (h : v.Leads c es c') (h' : v.Leads c' es' c'') : v.Leads c (es ++ es') c'' :=
  ⟨h'.usable, h.copies.append h'.copies⟩

theorem leads_refl (h : v.UsableAt c.ip c) : v.Leads c [] c := ⟨h, rfl⟩

section Emit

variable {o : Nat × Nat} {e : Emitted}

/-- A new offset is pushed. -/
theorem allCopy_new {off : Nat} (hcode : e.code = (off : Int) + 2) (hfit : off + 3 < 2 ^ 32)
    (h : v.Copies off e.litTo (e.mlBase + 3)) : v.AllCopy o [e] (off, o.1) := by
  have hpos := h.pos
  have hov : e.seq.ov = off + 3 := by simp only [Emitted.seq, hcode]; omega
  simp only [AllCopy, TrueSeq.searchOffset, TrueSeq.searchRepeats, hov, if_pos (show 3 < off + 3 by omega),
    Nat.add_sub_cancel, and_true]
  exact ⟨.inr (by omega), h⟩

variable (hcode : e.code = 0)

include hcode

/-- After literals the first repeated offset stays. -/
theorem allCopy_repeat (hll : e.ll ≠ 0) (h : v.Copies o.1 e.litTo (e.mlBase + 3)) : v.AllCopy o [e] o := by
  have hov : e.seq.ov = 1 := by simp only [Emitted.seq, hcode]; rfl
  have hll : e.seq.ll ≠ 0 := hll
  simp only [AllCopy, TrueSeq.searchOffset, TrueSeq.searchRepeats, hov, hll, Nat.reduceLT, if_false, and_true]
  exact ⟨.inl hcode, h⟩

/-- Without literals the second repeated offset is used, and the two change places. -/
theorem allCopy_swap (hll : e.ll = 0) (h : v.Copies o.2 e.litTo (e.mlBase + 3)) : v.AllCopy o [e] (o.2, o.1) := by
  have hov : e.seq.ov = 1 := by simp only [Emitted.seq, hcode]; rfl
  have hll : e.seq.ll = 0 := hll
  simp only [AllCopy, TrueSeq.searchOffset, TrueSeq.searchRepeats, hov, hll, Nat.reduceLT, if_false, if_true, and_true]
  exact ⟨.inl hcode, h⟩

end Emit

/-- A match that copies is passed; a new offset becomes the first repeated one. -/
theorem leads_pass {c0 : SearchCursor} {m : MatchFound} {off : Nat} (hwin : v.fin < v.wb + 2 ^ 31)
    (hc : v.UsableAt (c0.ip + 2) c) (ho : c.o1 = c0.o1) (ha : c.anchor ≤ c0.ip) (hm : v.Found c.anchor c0.ip m)
    (hf : v.FoundCopy c0 m off) : v.Leads c [m.emitted c.anchor] (c.pass m) := by
  obtain ⟨hstart, hlen, hpast, hfin⟩ := hm
  obtain ⟨hcopies, hsource⟩ := hf
  have hc' := hc.mono (ip' := m.ip + m.ml) (by omega)
  have hbase := hcopies.base
  have hcopies' : v.Copies off (m.emitted c.anchor).litTo ((m.emitted c.anchor).mlBase + 3) := by
    simpa only [MatchFound.emitted, show m.ml - 3 + 3 = m.ml by omega] using hcopies
  obtain hoff | ⟨hoff, rfl, hlt⟩ := hsource
  · have hpass : c.pass m
        = { c with ip := m.ip + m.ml, anchor := m.ip + m.ml, o1 := (off : Int), o2 := c.o1 } := by
      simp only [SearchCursor.pass, hoff]
    have hcode : (m.emitted c.anchor).code = (off : Int) + 2 := by simp only [MatchFound.emitted, hoff]
    have hall : v.AllCopy c.offsets [m.emitted c.anchor] (off, c.o1.toNat) := allCopy_new hcode (by omega) hcopies'
    rw [hpass]
    exact ⟨⟨hc'.long, hc'.short, ⟨by simp only; omega, by simp only; omega, by simp only; omega⟩, hc'.o1⟩, hall⟩
  · have hpass : c.pass m = { c with ip := m.ip + m.ml, anchor := m.ip + m.ml } := by
      simp only [SearchCursor.pass, hoff]
    have hcode : (m.emitted c.anchor).code = 0 := by simp only [MatchFound.emitted, hoff]
    have hll : (m.emitted c.anchor).ll ≠ 0 := by simp only [Emitted.ll, MatchFound.emitted]; omega
    rw [← ho] at hcopies'
    rw [hpass]
    exact ⟨⟨hc'.long, hc'.short, hc'.o1, hc'.o2⟩, allCopy_repeat hcode hll hcopies'⟩

/-- The immediate repeats use the second repeated offset and change the two. -/
theorem repeatLoop_leads (fuel : Nat) (hc : v.UsableAt c.ip c) :
    v.Leads c (v.repeatLoop fuel c).1 (v.repeatLoop fuel c).2 := by
  induction fuel generalizing c with
  | zero => exact leads_refl hc
  | succ fuel ih =>
    simp only [repeatLoop]
    split
    · next h =>
      obtain ⟨hfin, hrep⟩ := h
      obtain ⟨hlen, -⟩ := matchLength_bounds (m := c.ip - c.o2.toNat) (show c.ip + 4 ≤ v.fin by omega)
      have hcopies := copies_repeat hc.o2 hrep
      generalize v.matchLength c.ip (c.ip - c.o2.toNat) 4 = rl at hlen hcopies
      have hins := (hc.mono (ip' := c.ip + rl) (by omega)).insert (p := c.ip) (by omega)
      have h1 : v.Leads c [{ litFrom := c.ip, litTo := c.ip, code := 0, mlBase := rl - 3 }]
          { v.insert c.ip c with ip := c.ip + rl, anchor := c.ip + rl, o1 := c.o2, o2 := c.o1 } :=
        ⟨⟨hins.long, hins.short, hins.o2, hins.o1⟩,
          allCopy_swap rfl (Nat.sub_self _) (by rwa [show rl - 3 + 3 = rl by omega])⟩
      exact h1.trans (ih h1.usable)
    · exact leads_refl hc

theorem afterMatch_leads {cur : Nat} (hc : v.UsableAt c.ip c) (hcur : cur + 4 ≤ c.ip) :
    v.Leads c (v.afterMatch cur c).1 (v.afterMatch cur c).2 := by
  simp only [afterMatch]
  split
  · have hins : v.UsableAt c.ip (v.insert (c.ip - 2) (v.insert (cur + 2) c)) :=
      (hc.insert (by omega)).insert (by omega)
    obtain ⟨husable, hcopies⟩ := repeatLoop_leads v.fin (c := v.insert (c.ip - 2) (v.insert (cur + 2) c)) hins
    exact ⟨husable, hcopies⟩
  · exact leads_refl hc

/-- Everything the main loop emits copies equal bytes. -/
theorem loop_leads (hwin : v.fin < v.wb + 2 ^ 31) (fuel : Nat) (hready : v.Ready first c) (hc : v.UsableAt c.ip c) :
    v.Leads c (v.loop fuel c).1 (v.loop fuel c).2 := by
  induction fuel generalizing c with
  | zero => exact leads_refl hc
  | succ fuel ih =>
    by_cases hf : c.ip + 8 < v.fin
    · obtain ⟨-, -, hanchor, hfound⟩ := probe_moves hready hf
      have hfirst := hready.first
      have hle := hready.anchor
      rw [loop, if_pos hf]
      obtain hp | ⟨m, off, c1, hp, hcopy, h1, ho1, ho2⟩ := probe_cases hc
      · simp only [hp]
        have hins : v.UsableAt (c.ip + ((c.ip - c.anchor) >>> 8) + 1) (v.insert c.ip c) :=
          (hc.mono (by omega)).insert (by omega)
        have hnext : v.Ready first { v.insert c.ip c with ip := c.ip + ((c.ip - c.anchor) >>> 8) + 1 } :=
          ⟨by simp only; omega, by simp only [insert]; omega, hready.fin⟩
        obtain ⟨husable, hcopies⟩ := ih hnext ⟨hins.long, hins.short, hins.o1, hins.o2⟩
        exact ⟨husable, hcopies⟩
      · simp only [hp]
        rw [hp] at hanchor hfound
        have hanchor : c1.anchor = c.anchor := hanchor
        have hm : v.Found c1.anchor c.ip m := hanchor ▸ hfound m rfl
        have hpass := leads_pass hwin h1 ho1 (hanchor.trans_le hle) hm hcopy
        have hpast : c.ip + 4 ≤ (c1.pass m).ip := by simpa using hm.past
        have hafter := afterMatch_leads hpass.usable hpast
        have hready' := (afterMatch_moves (moves_pass hfirst hm).ready (by simp) hfirst hpast).ready
        have hall := (hpass.trans hafter).trans (ih hready' hafter.usable)
        have hoffsets : c1.offsets = c.offsets := by simp only [SearchCursor.offsets, ho1, ho2]
        obtain ⟨husable, hcopies⟩ := hall
        rw [hoffsets, hanchor] at hcopies
        exact ⟨husable, hcopies⟩
    · rw [loop, if_neg hf]
      exact leads_refl hc

/-- A repeated offset at the start of a search: one that reaches below the window base is put aside (R411). -/
def kept (maxRep r : Nat) : Nat := if maxRep < r then 0 else r

theorem reach_kept {ip r : Nat} (hip : v.wb ≤ ip) (hr : r < 2 ^ 32) :
    v.Reach ip (if ip - v.wb < r then 0 else (r : Int))
      ∧ (if ip - v.wb < r then 0 else (r : Int)).toNat = kept (ip - v.wb) r := by
  unfold kept
  split
  · exact ⟨⟨by omega, by omega, by omega⟩, rfl⟩
  · exact ⟨⟨by omega, by omega, by omega⟩, rfl⟩

/-- Everything a search emits copies equal bytes, from the repeated offsets it keeps to those it ends with. -/
theorem search_copies {start size : Nat} {r0 r1 : Word} {lh sh : List (Nat × Word)} (hfin : v.fin = start + size)
    (hwin : v.fin < v.wb + 2 ^ 31) (hbase : v.wb ≤ start) (hlh : v.Below start lh) (hsh : v.Below start sh) :
    let r := v.search start size r0.toNat r1.toNat lh sh
    let maxRep := firstProbed v.wb start - v.wb
    v.UsableAt r.cursor.ip r.cursor
      ∧ v.AllCopy (kept maxRep r0.toNat, kept maxRep r1.toNat) r.seqs r.cursor.offsets := by
  simp only [search]
  rw [show (if start = v.wb then start + 1 else start) = firstProbed v.wb start from rfl]
  have hfirst := le_firstProbed v.wb start
  obtain ⟨h0, hk0⟩ := reach_kept (v := v) (hbase.trans hfirst) r0.isLt
  obtain ⟨h1, hk1⟩ := reach_kept (v := v) (hbase.trans hfirst) r1.isLt
  rw [← hk0, ← hk1]
  have below {t : List (Nat × Word)} (ht : v.Below start t) : v.Below (firstProbed v.wb start) t :=
    fun x => (ht x).imp_right fun hlt => hlt.trans_le hfirst
  obtain ⟨husable, hcopies⟩ := loop_leads (first := firstProbed v.wb start) hwin (size + 1)
    (c := { ip := firstProbed v.wb start, anchor := start, o1 := _, o2 := _, lh := lh, sh := sh })
    ⟨Nat.le_refl _, hfirst, by simp only; omega⟩ ⟨below hlh, below hsh, h0, h1⟩
  exact ⟨husable, hcopies⟩

end SearchEnv

/-! ### The stored sequences -/

/-- An entry of a sparse table is listed, or absent and 0. -/
theorem sparseRead_eq_zero_or_mem {w : Nat} (i : Nat) (l : List (Nat × BitVec w)) :
    sparseRead i l = 0 ∨ ∃ c ∈ l, c.2 = sparseRead i l := by
  induction l with
  | nil => exact .inl rfl
  | cons c l ih =>
    simp only [sparseRead]
    split
    · exact .inr ⟨c, List.mem_cons_self, rfl⟩
    · exact ih.imp_right fun ⟨d, hd, he⟩ => ⟨d, List.mem_cons_of_mem _ hd, he⟩

/-- The host's side of R412: entries before the block, or absent. -/
theorem State.below_of_entries (s : State) {fin : Nat} {l : List (Nat × Word)}
    (hl : ∀ c ∈ l, c.2.toNat < s.a0 ∨ c.2 ≤ s.wbo) : (s.searchEnv fin).Below s.a0 l := by
  intro h
  unfold getPosition
  obtain h0 | ⟨c, hc, he⟩ := sparseRead_eq_zero_or_mem h l
  · rw [h0]
    exact .inl (Nat.zero_le _)
  · rw [← he]
    exact (hl c hc).symm

/-- Sequences whose codes fit are stored as they are emitted. -/
theorem Emitted.StoredAs.eq_seq {e : Emitted} {q : TrueSeq} (h : e.StoredAs q) (hc : e.CodeOk) : q = e.seq := by
  have hov := h.code (by obtain hc | hc := hc <;> omega) (by obtain hc | hc := hc <;> omega)
  cases q
  simp only [Emitted.seq, TrueSeq.mk.injEq]
  exact ⟨h.ll, h.mlBase, hov⟩

theorem Emitted.StoredAs.eq_map {es : List Emitted} {qs : List TrueSeq} (h : List.Forall₂ StoredAs es qs)
    (hc : ∀ e ∈ es, e.CodeOk) : qs = es.map Emitted.seq := by
  induction h with
  | nil => rfl
  | cons hq _ ih =>
    obtain ⟨hhead, hrest⟩ := List.forall_mem_cons.1 hc
    rw [List.map_cons, hq.eq_seq hhead, ih hrest]

theorem SearchEnv.AllCopy.codeOk {v : SearchEnv} {o o' : Nat × Nat} {es : List Emitted} (h : v.AllCopy o es o') :
    ∀ e ∈ es, e.CodeOk := by
  induction es generalizing o with
  | nil => exact nofun
  | cons e es ih => exact List.forall_mem_cons.2 ⟨h.1, ih h.2.2⟩

/-- The repeated offsets after sequences that copy, and the copy of each. -/
theorem SearchEnv.AllCopy.of_getElem? {v : SearchEnv} {o o' : Nat × Nat} {es : List Emitted} (h : v.AllCopy o es o') :
    (es.map Emitted.seq).foldl TrueSeq.searchRepeats o = o'
      ∧ ∀ (i : Nat) (e : Emitted), es[i]? = some e →
          v.Copies (e.seq.searchOffset (((es.map Emitted.seq).take i).foldl TrueSeq.searchRepeats o)) e.litTo
            (e.mlBase + 3) := by
  induction es generalizing o with
  | nil => exact ⟨h, fun _ _ he => by simp at he⟩
  | cons e es ih =>
    obtain ⟨-, hcopy, hrest⟩ := h
    obtain ⟨hlast, hall⟩ := ih hrest
    refine ⟨hlast, fun i e' he => ?_⟩
    cases i with
    | zero =>
      cases he
      exact hcopy
    | succ i => exact hall i e' he

/-- A staged offset that fits its register (R415). -/
theorem stagedOffset_eq {v : SearchEnv} {ip : Nat} {o : Int} (h : v.Reach ip o) (tag i saved : Nat) :
    stagedOffset tag i o saved = if o.toNat = 0 then BitVec.ofNat 32 saved else BitVec.ofNat 32 o.toNat := by
  obtain ⟨h0, hword, -⟩ := h
  unfold stagedOffset
  by_cases ho : o = 0
  · rw [if_pos ho, if_pos (show o.toNat = 0 by omega)]
  · rw [if_neg ho, if_pos (show 0 < o ∧ o < 2 ^ 32 by omega), if_neg (show ¬ o.toNat = 0 by omega)]

/-- Settles O51: the store holds what the search emitted, every emitted match copies equal bytes, and memory holds
them. -/
theorem blockMatchesVerified : Obligations.BlockMatchesVerified := by
  unfold Obligations.BlockMatchesVerified
  intro s t _ hlim htables hexec ht maxRep kept saved repeats stage
  obtain ⟨hlit, hseqs, ⟨hsize, hbase, hlast, hlen, -⟩, rfl⟩ := mfBlock_ok hexec ht
  obtain ⟨hcovers, hend, hall, -⟩ := searched_covers hlim hlit hseqs hsize
  obtain ⟨hlh, hsh⟩ := List.forall_mem_append.1 htables
  have hwin : s.a0 + s.a1 < s.wbo.toNat + 2 ^ 31 := by omega
  obtain ⟨husable, hcopies⟩ := SearchEnv.search_copies (v := s.searchEnv (s.a0 + s.a1)) (start := s.a0) (size := s.a1)
    (r0 := s.repLive.r0) (r1 := s.repLive.r1) rfl hwin hbase (s.below_of_entries hlh) (s.below_of_entries hsh)
  obtain ⟨hfinal, hcopy⟩ := hcopies.of_getElem?
  have hseq : (s.searched s.a0 s.a1).ss.trueSeqs = s.blockSearch.seqs.map Emitted.seq :=
    Emitted.StoredAs.eq_map hall hcopies.codeOk
  have hspan : s.blockSearch.seqs.map Emitted.span = (s.searched s.a0 s.a1).ss.trueSeqs.map TrueSeq.span :=
    (Emitted.StoredAs.spans hall).2
  refine ⟨fun i q hi => ?_, ?_⟩
  · intro at_ off
    obtain ⟨e, he, rfl⟩ : ∃ e, s.blockSearch.seqs[i]? = some e ∧ e.seq = q := by
      simpa only [hseq, List.getElem?_map, Option.map_eq_some_iff] using hi
    obtain ⟨hfrom, hto, -, hfin⟩ := hcovers.of_getElem? he
    have hat : at_ = e.litTo := by
      rw [List.map_take, hspan, ← List.map_take] at hfrom
      change s.a0 + (((s.searched s.a0 s.a1).ss.trueSeqs.take i).map TrueSeq.span).sum + (e.litTo - e.litFrom) = _
      omega
    have hoff : off = e.seq.searchOffset (((s.blockSearch.seqs.map Emitted.seq).take i).foldl TrueSeq.searchRepeats
        (kept s.repLive.r0, kept s.repLive.r1)) := by
      rw [← hseq]
    have hcode := hcopies.codeOk e (List.mem_of_getElem? he)
    obtain ⟨hpos, hwb, hsame⟩ : (s.searchEnv (s.a0 + s.a1)).Copies off at_ (e.seq.mlBase + 3) :=
      hat ▸ hoff ▸ hcopy i e he
    have hwb : s.wbo.toNat + off ≤ at_ := hwb
    have hfin : at_ + (e.seq.mlBase + 3) ≤ s.a0 + s.a1 := hat ▸ hfin.trans hend
    refine ⟨?_, hpos, hwb, fun j hj => ?_⟩
    · simp only [Emitted.seq]
      obtain hcode | hcode := hcode <;> omega
    · have hbytes := hsame j hj
      rw [s.searchEnv_byte (by omega) (by omega), s.searchEnv_byte (by omega) (by omega)] at hbytes
      rwa [show at_ + j - off = at_ - off + j by omega]
  · have hrepeats : repeats (s.searched s.a0 s.a1).ss.trueSeqs.length = s.blockSearch.cursor.offsets := by
      simp only [repeats, List.take_length, hseq]
      exact hfinal
    have hsaved : BitVec.ofNat 32 s.blockSearch.saved = saved := by
      simp only [SearchEnv.search, apply_ite (BitVec.ofNat 32), BitVec.ofNat_toNat, BitVec.setWidth_eq]
      rfl
    rw [hrepeats]
    change RepPair.mk (stagedOffset _ _ _ _) (stagedOffset _ _ _ _) = _
    rw [stagedOffset_eq husable.o1, stagedOffset_eq husable.o2, hsaved]
    rfl

end Sys2Proof.Machine
end

section
/-! The match finder's setup, the store's commands and the commands that show buffers (R400, R401, R421 to R431, R440 to
R444, R491, R492): their checks in order and what they leave. -/

namespace Sys2Proof.Machine

/-! ### MF_RESET and MF_WINDOW (R400, R401) -/

/-- The legal values of R37 and R400, field by field. -/
theorem cfgLegal_iff (c : Nat) : cfgLegal c = true ↔
    6 ≤ c % 32 ∧ c % 32 ≤ 24 ∧ 6 ≤ c / 2 ^ 5 % 32 ∧ c / 2 ^ 5 % 32 ≤ 24 ∧ 3 ≤ c / 2 ^ 10 % 16 ∧ c / 2 ^ 10 % 16 ≤ 7
      ∧ 10 ≤ c / 2 ^ 14 % 32 ∧ c / 2 ^ 14 % 32 ≤ 31 := by
  simp only [cfgLegal, Bool.and_eq_true, inRange_iff, cfgHashLog, cfgChainLog, cfgSearchLength, cfgWindowLog,
    Nat.shiftRight_eq_div_pow, Nat.reducePow, and_assoc]

theorem cfgStrategy_eq (c : Nat) : cfgStrategy c = c / 2 ^ 19 % 8 := by
  rw [cfgStrategy, Nat.shiftRight_eq_div_pow]
  rfl

theorem cfgWindowLog_eq (c : Nat) : cfgWindowLog c = c / 2 ^ 14 % 32 := by
  rw [cfgWindowLog, Nat.shiftRight_eq_div_pow]
  rfl

theorem exec_mfReset (s : State) : exec .mfReset s =
    if 2 ^ 22 ≤ s.a1 ∨ ¬ cfgLegal s.a1 = true then raise .argRange s
    else if s.a1 / 2 ^ 19 % 8 ≠ 1 then raise .strategyUnsupported s
    else .next { s with
      mfcfg := BitVec.ofNat 32 s.a1, ctxBase := s.args[0], wbo := 0, lh := [], sh := [], mfValid := true } := by
  change execMfReset s = _
  simp only [execMfReset, cfgStrategy_eq, Bool.not_eq_true', Bool.not_eq_true, ite_or]

theorem exec_mfWindow (s : State) : exec .mfWindow s =
    if s.mfValid = false then raise .stateInvalid s
    else if 2 ^ 32 ≤ s.a0 then raise .argRange s
    else .next { s with wbo := BitVec.ofNat 32 (windowBase (s.mfcfg.toNat / 2 ^ 14 % 32) s.wbo.toNat s.a0) } := by
  change execMfWindow s = _
  simp only [execMfWindow, cfgWindowLog_eq, Bool.not_eq_true']

/-- Settles O48: one outcome for each case of the checks, in their order; the window base only rises. -/
theorem matchFinderSetup : Obligations.MatchFinderSetup := by
  unfold Obligations.MatchFinderSetup
  intro s legal size
  have hlegal : cfgLegal s.a1 = true ↔ legal := cfgLegal_iff s.a1
  have hreset := exec_mfReset s
  have hwindow := exec_mfWindow s
  simp only [hlegal] at hreset
  refine ⟨fun h => raises_of_raise (hreset.trans (if_pos h)), fun h1 h2 h3 => raises_of_raise ?_, fun h1 h2 h3 => ?_,
    fun hv => raises_of_raise (hwindow.trans (if_pos hv)), fun hv h0 => raises_of_raise ?_, fun hv h0 => ?_⟩
  · rw [hreset, if_neg (not_or.2 ⟨not_le.2 h1, not_not.2 h2⟩), if_pos h3]
  · rw [hreset, if_neg (not_or.2 ⟨not_le.2 h1, not_not.2 h2⟩), if_neg (not_not.2 h3)]
  all_goals rw [if_neg (by simp [hv])] at hwindow
  · rw [hwindow, if_pos h0]
  · rw [if_neg (not_le.2 h0)] at hwindow
    refine ⟨fun h1 h2 => ?_, fun h => ?_⟩
    · rw [hwindow, windowBase, if_pos ⟨h1, h2⟩]
    · rw [hwindow, windowBase, if_neg (by omega), BitVec.ofNat_toNat, BitVec.setWidth_eq]

/-! ### SS_STORE, SS_APPEND and SS_CODES (R421, R425, R430) -/

/-- The checks of R421, in their order. -/
theorem exec_ssStore (s : State) : exec .ssStore s =
    if windowOk s.a0 s.a1 = false ∨ ¬ (s.a1 < 2 ^ 17 ∧ s.a3 < 2 ^ 17 ∧ s.a2 ≤ 2 ^ 32 - 2
        ∧ s.ss.lit.length + s.a1 ≤ 131072 ∧ s.ss.seqs.length < 43690) then raise .argRange s
    else if (65536 ≤ s.a1 ∧ 65536 ≤ s.a3) ∨ ((65536 ≤ s.a1 ∨ 65536 ≤ s.a3) ∧ s.ss.longF ≠ .none) then
      raise .longFieldTwice s
    else .next { s with ss := s.ss.push (s.window s.a0 s.a1) s.a3 (s.a2 + 1) } := by
  have hrange : ¬ (s.a1 < 2 ^ 17 ∧ s.a3 < 2 ^ 17 ∧ s.a2 ≤ 2 ^ 32 - 2 ∧ s.ss.lit.length + s.a1 ≤ 131072
        ∧ s.ss.seqs.length < 43690)
      ↔ (decide (2 ^ 17 ≤ s.a1) || decide (2 ^ 17 ≤ s.a3) || decide (2 ^ 32 - 2 < s.a2)) = true
        ∨ (decide (Config.blockMax < s.ss.lit.length + s.a1) || decide (Config.seqMax ≤ s.ss.seqs.length)) = true := by
    simp only [Bool.or_eq_true, decide_eq_true_eq, Config.blockMax, Config.seqMax]
    omega
  have htwice : ((65536 ≤ s.a1 ∧ 65536 ≤ s.a3) ∨ ((65536 ≤ s.a1 ∨ 65536 ≤ s.a3) ∧ s.ss.longF ≠ .none))
      ↔ (decide (65536 ≤ s.a1) && decide (65536 ≤ s.a3)) = true
        ∨ ((decide (65536 ≤ s.a1) || decide (65536 ≤ s.a3)) && s.ss.longF != .none) = true := by
    simp only [Bool.and_eq_true, Bool.or_eq_true, decide_eq_true_eq, bne_iff_ne]
  change execSsStore s = _
  simp only [execSsStore, ssStoreCheck, hrange, htwice, ite_or, Bool.not_eq_true']
  split_ifs <;> rfl

theorem exec_ssAppend (s : State) : exec .ssAppend s =
    if windowOk s.a0 s.a1 = false ∨ 131072 < s.ss.lit.length + s.a1 then raise .argRange s
    else .next { s with ss := { s.ss with lit := s.ss.lit ++ s.window s.a0 s.a1 } } := by
  change execSsAppend s = _
  simp only [execSsAppend, Bool.not_eq_true', ite_or, Config.blockMax]

theorem SeqStore.trueLL_eq (ss : SeqStore) (i : Nat) (q : StoredSeq) : ss.trueLL i q =
    if ss.longF = .literalLength ∧ ss.longP.toNat = i then q.lla.toNat + 65536 else q.lla.toNat := by
  rw [trueLL, add_ite]
  rfl

theorem SeqStore.trueMlBase_eq (ss : SeqStore) (i : Nat) (q : StoredSeq) : ss.trueMlBase i q =
    if ss.longF = .matchLength ∧ ss.longP.toNat = i then q.mla.toNat + 65536 else q.mla.toNat := by
  rw [trueMlBase, add_ite]
  rfl

/-- Settles O53: one outcome for each case of the checks, in their order; the codes are those of the true values. -/
theorem storeCommands : Obligations.StoreCommands := by
  unfold Obligations.StoreCommands
  intro s bad inRange twice stored
  have hstore := exec_ssStore s
  have happend := exec_ssAppend s
  have hlen : (s.window s.a0 s.a1).length = s.a1 := s.window_length _ _
  refine ⟨fun hbad => ?_, fun hgood hr => ?_, fun hgood hr ht => ?_, fun hgood hr ht => ?_, fun hgood hl => ?_,
    fun hgood hl => ?_, ?_⟩
  · have hw := windowOk_false_of hbad
    exact ⟨raises_of_raise (hstore.trans (if_pos (.inl hw))), raises_of_raise (happend.trans (if_pos (.inl hw)))⟩
  · exact raises_of_raise (hstore.trans (if_pos (.inr hr)))
  · rw [if_neg (not_or.2 ⟨by simp [windowOk_of_not hgood], not_not.2 hr⟩), if_pos ht] at hstore
    exact raises_of_raise hstore
  · rw [if_neg (not_or.2 ⟨by simp [windowOk_of_not hgood], not_not.2 hr⟩), if_neg ht] at hstore
    have hboth : ¬ (65536 ≤ s.a1 ∧ 65536 ≤ s.a3) := fun h => ht (.inl h)
    refine ⟨fun h1 => ?_, fun h3 => ?_, fun h1 h3 => ?_⟩
    · have h3 : ¬ 65536 ≤ s.a3 := fun h3 => hboth ⟨h1, h3⟩
      simp only [hstore, SeqStore.push, hlen, h1, h3, if_true, if_false, or_true, stored]
    · simp only [hstore, SeqStore.push, hlen, h3, if_true, true_or, stored]
    · simp only [hstore, SeqStore.push, hlen, not_le.2 h1, not_le.2 h3, if_false, or_self, stored]
  · exact raises_of_raise (happend.trans (if_pos (.inr hl)))
  · rw [happend, if_neg (not_or.2 ⟨by simp [windowOk_of_not hgood], not_lt.2 hl⟩)]
  · refine ⟨_, rfl, by rw [List.length_map, SeqStore.trueSeqs_length], fun i q hq => ?_⟩
    rw [List.getElem?_map, SeqStore.trueSeqs_getElem? hq, SeqStore.trueLL_eq, SeqStore.trueMlBase_eq]
    rfl

/-! ### The commands that show buffers (R440 to R444, R491, R492) -/

section Show

variable {s : State}

/-- The code bytes fit below `CODESV`'s bit (R440). -/
theorem SeqStore.codeBytes_lt (ss : SeqStore) (tag i : Nat) : ss.codeBytes tag i < 2 ^ 24 := by
  unfold codeBytes
  split
  · exact (Config.freeCodes tag).isLt
  · next l _ =>
    generalize l.getD i { llc := 0, mlc := 0, ofc := 0 } = c
    have hll := c.llc.isLt
    have hml := c.mlc.isLt
    have hof := c.ofc.isLt
    refine Nat.or_lt_two_pow (Nat.or_lt_two_pow ?_ ?_) ?_
    · omega
    · rw [Nat.shiftLeft_eq]; omega
    · rw [Nat.shiftLeft_eq]; omega

theorem SeqStore.codeBytes_of_codes {ss : SeqStore} {l : List SeqCodes} {i : Nat} {x : SeqCodes}
    (hl : ss.codes = some l) (hx : l[i]? = some x) (tag : Nat) :
    ss.codeBytes tag i = x.llc.toNat ||| (x.mlc.toNat <<< 8) ||| (x.ofc.toNat <<< 16) := by
  simp only [codeBytes, hl, List.getD_eq_getElem?_getD, hx, Option.getD_some]

theorem exec_ssGet_some {q : StoredSeq} (h : s.ss.seqs[s.a0]? = some q) : exec .ssGet s = .next { s with
    res := #v[res64 (s.ss.trueLL s.a0 q), res64 (s.ss.trueMlBase s.a0 q), q.ofa.zeroExtend 64,
      res64 (s.ss.codeBytes s.free s.a0 ||| ((if s.ss.codes = none then 0 else 1) <<< 24))]
    free := s.free + 1 } := by
  have hcodes : s.ss.codes.isSome.toNat = if s.ss.codes = none then 0 else 1 := by cases s.ss.codes <;> rfl
  rw [← res_set4 s.res, ← hcodes, ← res64_toNat_zeroExtend (by decide)]
  simp only [exec, execSsGet, h]
  rfl

theorem exec_ssInfo (s : State) : exec .ssInfo s = .next { s with
    res := #v[res64 s.ss.lit.length, res64 s.ss.seqs.length, res64 s.ss.longF.code, s.ss.longP.zeroExtend 64] } := by
  rw [← res64_toNat_zeroExtend (by decide), ← res_set4 s.res]
  rfl

theorem exec_mfGet (s : State) (e : Fin 2) : exec (.mfGet (nib e)) s =
    if s.mfValid = false then raise .stateInvalid s
    else if 2 ^ (if e = 0 then s.mfcfg.toNat % 32 else s.mfcfg.toNat / 2 ^ 5 % 32) ≤ s.a0 then raise .argRange s
    else .next { s with res := #v[(sparseRead s.a0 (if e = 0 then s.lh else s.sh)).zeroExtend 64, s.wbo.zeroExtend 64,
      s.ctxBase, s.res[3]] } := by
  rw [← res_set3 s.res, ← res64_toNat_zeroExtend (by decide), ← res64_toNat_zeroExtend (by decide)]
  simp only [exec, execMfGet, withTwo_nib, Bool.not_eq_true', cfgHashLog, cfgChainLog, Nat.shiftRight_eq_div_pow]
  rfl

end Show

/-- Settles O54: each command's index in its range and not, and the registers it shows. -/
theorem bufferInspection : Obligations.BufferInspection := by
  unfold Obligations.BufferInspection
  intro s
  refine ⟨fun h => raises_of_raise ?_, fun q hq => ?_, ?_, ?_, fun hv e => raises_of_raise ?_, fun hv => ?_,
    fun h => raises_of_raise ?_, fun b hb => ?_, fun h => raises_of_raise ?_, fun q hq => ?_, ?_⟩
  · simp only [exec, execSsGet, List.getElem?_eq_none h]
  · refine ⟨_, s.free + 1, s.ss.codeBytes_lt s.free s.a0, ?_, fun l x hl hx => SeqStore.codeBytes_of_codes hl hx _⟩
    rw [← SeqStore.trueLL_eq, ← SeqStore.trueMlBase_eq]
    exact exec_ssGet_some hq
  · simp only [← res64_toNat_zeroExtend (show 32 ≤ 64 by decide)]
    rw [← res_set4 s.res]
    rfl
  · rw [exec_ssInfo]
    cases s.ss.longF <;> rfl
  · rw [exec_mfGet, if_pos hv]
  · have hlong := exec_mfGet s 0
    have hshort := exec_mfGet s 1
    rw [if_neg (by simp [hv])] at hlong hshort
    exact ⟨fun h => raises_of_raise (hlong.trans (if_pos h)), fun h => raises_of_raise (hshort.trans (if_pos h)),
      fun h => hlong.trans (if_neg (not_le.2 h)), fun h => hshort.trans (if_neg (not_le.2 h))⟩
  · simp only [exec, execSsGetlit, List.getElem?_eq_none h]
  · rw [← res64_toNat_zeroExtend (by decide)]
    simp only [exec, execSsGetlit, hb]
    rfl
  · simp only [exec, execSqGet, List.getElem?_eq_none h]
  · simp only [← res64_toNat_zeroExtend (show 32 ≤ 64 by decide)]
    rw [← res_set3]
    simp only [exec, execSqGet, hq]
    rfl
  · simp only [← res64_toNat_zeroExtend (show 32 ≤ 64 by decide)]
    rw [← res_set3]
    rfl

end Sys2Proof.Machine
end

section
/-! The codes of the three fields (R452 to R457): the ranges of each field's codes follow one another, so every value is
in the range of exactly one code. -/

namespace Sys2Proof.Machine

/-! ### Consecutive ranges -/

/-- The first value of a code's range; `top` past the last code. -/
def rangeStart (row : Nat → Option (Nat × Nat)) (top c : Nat) : Nat := ((row c).getD (top, 0)).1

/-- The codes below `n` have ranges, each of which ends where the next one begins, the last at `top`. -/
structure Consecutive (row : Nat → Option (Nat × Nat)) (n top : Nat) : Prop where
  ends : ∀ c < n, (row c).map (fun r => r.1 + 2 ^ r.2) = some (rangeStart row top (c + 1))
  past : ∀ c, n ≤ c → row c = none

section Ranges

variable {row : Nat → Option (Nat × Nat)} {n top c base bits v : Nat} (h : Consecutive row n top)

include h

theorem Consecutive.lt (hrow : row c = some (base, bits)) : c < n := by
  by_contra hge
  simp [h.past c (not_lt.1 hge)] at hrow

theorem Consecutive.start_next (hrow : row c = some (base, bits)) : rangeStart row top (c + 1) = base + 2 ^ bits := by
  have hends := h.ends c (h.lt hrow)
  rw [hrow] at hends
  exact (Option.some.inj hends).symm

theorem Consecutive.start_mono : Monotone (rangeStart row top) := by
  refine monotone_nat_of_le_succ fun c => ?_
  cases hrow : row c with
  | none =>
    have hpast : n ≤ c := by
      by_contra hlt
      simpa [hrow] using h.ends c (not_le.1 hlt)
    simp [rangeStart, hrow, h.past (c + 1) (by omega)]
  | some r =>
    rw [h.start_next hrow, rangeStart, hrow]
    exact Nat.le_add_right _ _

theorem Consecutive.lt_top (hrow : row c = some (base, bits)) (hhigh : v < base + 2 ^ bits) : v < top := by
  have htop : rangeStart row top n = top := by rw [rangeStart, h.past n le_rfl]; rfl
  rw [← h.start_next hrow] at hhigh
  exact htop ▸ hhigh.trans_le (h.start_mono (h.lt hrow))

/-- A value past the start of one code's range and before the end of another's. -/
theorem Consecutive.code_le {c' base' bits' : Nat} (hrow : row c = some (base, bits)) (hlow : base ≤ v)
    (hrow' : row c' = some (base', bits')) (hhigh : v < base' + 2 ^ bits') : c ≤ c' := by
  have hstart : rangeStart row top c = base := by rw [rangeStart, hrow]; rfl
  rw [← h.start_next hrow'] at hhigh
  by_contra hlt
  exact absurd (h.start_mono (not_le.1 hlt)) (not_le.2 (hhigh.trans_le' (hstart.trans_le hlow)))

/-- The row of a code between whose start and the next one's a value lies. -/
theorem Consecutive.exists_row (hc : c < n) (hlow : rangeStart row top c ≤ v)
    (hhigh : v < rangeStart row top (c + 1)) :
    ∃ base bits, row c = some (base, bits) ∧ base ≤ v ∧ v < base + 2 ^ bits := by
  obtain ⟨⟨base, bits⟩, hrow, hend⟩ := Option.map_eq_some_iff.1 (h.ends c hc)
  rw [← hend] at hhigh
  rw [rangeStart, hrow] at hlow
  exact ⟨base, bits, hrow, hlow, hhigh⟩

/-- The code of every value of 17 bits has a row, whose range the value is in, `k` above: where that is so below
`2 ^ lo`, and from there on the codes are those of the highest bit. -/
theorem Consecutive.row_code {code : Nat → Nat} {lo shift k : Nat}
    (hsmall : ∀ v < 2 ^ lo, code v < n ∧ rangeStart row top (code v) ≤ v + k ∧ v + k < rangeStart row top (code v + 1))
    (hlarge : ∀ v, 2 ^ lo ≤ v → code v = highestBit v + shift)
    (hpow : ∀ b < 18, lo ≤ b → rangeStart row top (b + shift) = 2 ^ b + k) (hn : shift + 17 = n) (hv : v < 2 ^ 17) :
    ∃ base bits, row (code v) = some (base, bits) ∧ code v < n ∧ base ≤ v + k ∧ v + k < base + 2 ^ bits := by
  have hspec : code v < n ∧ rangeStart row top (code v) ≤ v + k ∧ v + k < rangeStart row top (code v + 1) := by
    rcases Nat.lt_or_ge v (2 ^ lo) with hlow | hhigh
    · exact hsmall v hlow
    · have h0 : v ≠ 0 := (Nat.two_pow_pos lo |>.trans_le hhigh).ne'
      have hbit : highestBit v < 17 := (Nat.log2_lt h0).2 hv
      have hlo : lo ≤ highestBit v := (Nat.le_log2 h0).2 hhigh
      have hle : 2 ^ highestBit v ≤ v := Nat.log2_self_le h0
      have hlt : v < 2 ^ (highestBit v + 1) := Nat.lt_log2_self
      rw [hlarge v hhigh, Nat.add_right_comm, hpow _ (by omega) hlo, hpow _ (by omega) (by omega)]
      omega
  obtain ⟨hc, hlow, hhigh⟩ := hspec
  obtain ⟨base, bits, hrow, hin⟩ := h.exists_row hc hlow hhigh
  exact ⟨base, bits, hrow, hc, hin⟩

end Ranges

/-! ### Literal lengths (R452, R455) and match lengths (R453, R456) -/

theorem llRow_consecutive : Consecutive llRow 36 (2 ^ 17) where
  ends := by decide
  past c hc := by rw [llRow, if_neg (by omega)]; exact List.getElem?_eq_none (by simp [llHigh]; omega)

theorem mlRow_consecutive : Consecutive mlRow 53 (2 ^ 17 + 3) where
  ends := by decide
  past c hc := by rw [mlRow, if_neg (by omega)]; exact List.getElem?_eq_none (by simp [mlHigh]; omega)

/-- From 64 on a literal length's code is that of its highest bit. -/
theorem llCode_of_ge {v : Nat} (h : 64 ≤ v) : llCode v = highestBit v + 19 := by
  unfold llCode
  rw [if_neg, if_neg, if_neg, if_neg, if_neg] <;> omega

/-- From 128 on a match-length base's code is that of its highest bit. -/
theorem mlCode_of_ge {v : Nat} (h : 128 ≤ v) : mlCode v = highestBit v + 36 := by
  unfold mlCode
  rw [if_neg, if_neg, if_neg, if_neg, if_neg, if_neg] <;> omega

theorem llRow_llCode {v : Nat} (h : v < 2 ^ 17) :
    ∃ base bits, llRow (llCode v) = some (base, bits) ∧ llCode v < 36 ∧ base ≤ v ∧ v < base + 2 ^ bits :=
  llRow_consecutive.row_code (lo := 6) (shift := 19) (k := 0) (by decide) (fun _ => llCode_of_ge) (by decide) rfl h

theorem mlRow_mlCode {v : Nat} (h : v < 2 ^ 17) :
    ∃ base bits, mlRow (mlCode v) = some (base, bits) ∧ mlCode v < 53 ∧ base ≤ v + 3 ∧ v + 3 < base + 2 ^ bits :=
  mlRow_consecutive.row_code (lo := 7) (shift := 36) (by decide) (fun _ => mlCode_of_ge) (by decide) rfl h

/-! ### Offset values (R454) -/

theorem ofCode_spec {v : Nat} (h1 : 1 ≤ v) (h32 : v < 2 ^ 32) :
    ofCode v ≤ 31 ∧ 2 ^ ofCode v ≤ v ∧ v < 2 ^ ofCode v + 2 ^ ofCode v := by
  have h0 : v ≠ 0 := by omega
  have hbits : ofCode v < 32 := (Nat.log2_lt h0).2 h32
  refine ⟨by omega, Nat.log2_self_le h0, ?_⟩
  rw [← Nat.two_mul, ← pow_succ']
  exact Nat.lt_log2_self

theorem ofCode_eq_iff {v : Nat} (h1 : 1 ≤ v) (h32 : v < 2 ^ 32) (c : Nat) :
    ofCode v = c ↔ 2 ^ c ≤ v ∧ v < 2 ^ c + 2 ^ c := by
  refine ⟨?_, fun ⟨hlow, hhigh⟩ => highestBit_eq hlow (by rw [pow_succ]; omega)⟩
  rintro rfl
  exact (ofCode_spec h1 h32).2

/-- Settles O55: the code has the range that contains the value, and no other code has. -/
theorem sequenceCodesAgree : Obligations.SequenceCodesAgree := by
  unfold Obligations.SequenceCodesAgree
  refine ⟨fun v hv => ?_, fun c base bits v hrow hlow hhigh => ?_, fun v hv => ?_,
    fun c base bits v hrow hlow hhigh => ?_, fun v h1 h32 => ⟨(ofCode_spec h1 h32).1, ofCode_eq_iff h1 h32⟩⟩
  · obtain ⟨base, bits, hrow, hlt, hin⟩ := llRow_llCode hv
    exact ⟨base, bits, hrow, Nat.le_of_lt_succ hlt, hin⟩
  · obtain ⟨_, _, hcode, -, hin, hin'⟩ := llRow_llCode (llRow_consecutive.lt_top hrow hhigh)
    exact le_antisymm (llRow_consecutive.code_le hcode hin hrow hhigh) (llRow_consecutive.code_le hrow hlow hcode hin')
  · obtain ⟨base, bits, hrow, hlt, hin⟩ := mlRow_mlCode hv
    exact ⟨base, bits, hrow, Nat.le_of_lt_succ hlt, hin⟩
  · have hlt := mlRow_consecutive.lt_top hrow hhigh
    obtain ⟨_, _, hcode, -, hin, hin'⟩ := mlRow_mlCode (v := v) (by omega)
    exact le_antisymm (mlRow_consecutive.code_le hcode hin hrow hhigh) (mlRow_consecutive.code_le hrow hlow hcode hin')

/-! ### Repeated offsets (R480) -/

/-- An Offset_Value of 32 bits gives an offset that fits its register. -/
theorem resolveOffset_new (tag i ll : Nat) (rep : DecRep) {ov : Nat} (h3 : 3 < ov) (h32 : ov < 2 ^ 32) :
    resolveOffset tag i ov ll rep
      = (BitVec.ofNat 32 (ov - 3), { r0 := BitVec.ofNat 32 (ov - 3), r1 := rep.r0, r2 := rep.r1 }) := by
  simp only [resolveOffset, offsetWord, if_pos h3, if_pos (show ov - 3 < 2 ^ 32 by omega)]

/-- Settles O59: a new offset, and the index of a repeated one. -/
theorem offsetResolution : Obligations.OffsetResolution := by
  unfold Obligations.OffsetResolution
  intro tag i ov ll rep h1 h32 repeated k t0 t
  have hk : ov - 1 + (if ll = 0 then 1 else 0) = k := by
    dsimp only [k]
    split <;> omega
  have hrepeat (hov : ov ≤ 3) (h0 : k ≠ 0) : resolveOffset tag i ov ll rep
      = (t, { r0 := t, r1 := rep.r0, r2 := if k = 1 then rep.r2 else rep.r1 }) := by
    simp only [resolveOffset, if_neg (not_lt.2 hov), hk, if_neg h0, t, t0, repeated]
  refine ⟨fun h3 => resolveOffset_new tag i ll rep h3 h32, fun hov hll => ?_, fun hov hk1 => ?_, fun hov hk2 => ?_⟩
  · simp [resolveOffset, hov, hll]
  · rw [hrepeat hov (by omega), if_pos hk1]
  · rw [hrepeat hov (by omega), if_neg (by omega)]

end Sys2Proof.Machine
end

section
/-! Normalization where a table has a state for every counted symbol, though not for every symbol up to the highest
(R211 to R214): a field's few sequences can have codes far apart (R461). -/

namespace Sys2Proof.Machine

/-- The symbols a count is above 0 for. -/
abbrev counted (count : List Nat) : Nat := count.countP fun c => decide (0 < c)

/-- Every counted symbol is assigned a share of one state, or is not yet assigned. -/
theorem assignedSlots_add_count {low : Nat} {count : List Nat} {norm : List Int}
    (h : List.Forall₂ (MarkedFor low) count norm) : assignedSlots norm + norm.count notYet = counted count := by
  induction h with
  | nil => rfl
  | @cons c n count norm hcn _ ih =>
    obtain ⟨h0, -⟩ := hcn
    rw [assignedSlots, counted, List.countP_cons, List.countP_cons, List.count_cons, ← counted, ← ih, assignedSlots]
    by_cases hc : c = 0
    · simp [h0.2 hc, hc, notYet]
    · by_cases hn : n = notYet
      · simp [hn, notYet, Nat.pos_of_ne_zero hc]
        omega
      · simp [hn, mt h0.1 hc, Nat.pos_of_ne_zero hc]
        omega

/-- A positive share raised or lowered to another positive one. -/
theorem shares_set {count : List Nat} {norm : List Int} (h : List.Forall₂ ShareFor count norm) {m : Nat}
    {top rest : Int} (htop : norm[m]? = some top) (h0 : 0 < top) (hrest : 0 < top + rest) :
    List.Forall₂ ShareFor count (norm.set m (top + rest))
      ∧ (totalSlots (norm.set m (top + rest)) : Int) = totalSlots norm + rest := by
  refine ⟨forall₂_set h fun a ha => ?_, ?_⟩
  · obtain ⟨hzero, -⟩ := forall₂_getElem? h ha htop
    exact .of_pos (by omega) hrest
  · have hset := totalSlots_set htop (top + rest)
    rw [countSlots, countSlots] at hset
    omega

/-- R214's last loop hands out all the states that are left. -/
theorem shares_of_norm2Share {count : List Nat} {tl total : Nat} (hsum : count.sum = total) (htl : tl ≤ 12)
    (hsmall : total < 2 ^ 24) {norm out : List Int} (hmarked : List.Forall₂ (MarkedFor (total >>> tl)) count norm)
    (h0 : unassignedTotal count norm ≠ 0) {rest : Nat} (hrest : assignedSlots norm + rest = 2 ^ tl)
    (h : norm2Share (62 - tl) ((2 ^ (62 - tl) * rest + (2 ^ (62 - tl - 1) - 1)) / unassignedTotal count norm)
      (2 ^ (62 - tl - 1) - 1) (count.zip norm) = .ok out) :
    List.Forall₂ ShareFor count out ∧ totalSlots out = 2 ^ tl := by
  obtain ⟨hshares, hslots⟩ := norm2Share_spec hmarked h
  have hleft : unassignedTotal count norm ≤ total := hsum ▸ unassignedTotal_le hmarked
  have hunit : 2 ^ 50 ≤ 2 ^ (62 - tl) := Nat.pow_le_pow_right (by decide) (by omega)
  have hhalf : 2 ^ (62 - tl - 1) ≤ 2 ^ (62 - tl) := Nat.pow_le_pow_right (by decide) (by omega)
  rw [shareStep_shiftRight (Nat.pos_of_ne_zero h0) (by omega) (by omega), Nat.shiftRight_eq_div_pow,
    Nat.div_eq_of_lt (by omega)] at hslots
  exact ⟨hshares, by omega⟩

theorem set_getD_self (l : List Int) (m : Nat) : l.set m (l.getD m 0) = l := by
  rcases Nat.lt_or_ge m l.length with hm | hm
  · rw [List.getD_eq_getElem _ _ hm, List.set_getElem_self]
  · exact List.set_eq_of_length_le hm

section Few

variable {count : List Nat} {tl total : Nat} (hsum : count.sum = total) (hpos : 0 < total)
  (hfew : counted count ≤ 2 ^ tl)

include hsum hpos hfew

/-- Where no count is above one state's worth, there is a counted symbol for every state. -/
theorem counted_eq_of_le (hlow : ∀ c ∈ count, c ≤ total >>> tl) : counted count = 2 ^ tl := by
  refine le_antisymm hfew (not_lt.1 fun hlt => ?_)
  have hle : total ≤ counted count * (total / 2 ^ tl) := by
    rw [← Nat.shiftRight_eq_div_pow]
    exact hsum.symm.trans_le (sum_le_countP_mul hlow)
  have hmul := Nat.mul_div_le total (2 ^ tl)
  rcases Nat.eq_zero_or_pos (total / 2 ^ tl) with h0 | h0
  · rw [h0] at hle
    omega
  · have := Nat.mul_lt_mul_of_pos_right hlt h0
    omega

/-- R214's round robin, where it has states to hand out, hands out all of them. -/
theorem shares_of_roundRobin_few {norm : List Int} (hmarked : List.Forall₂ (MarkedFor (total >>> tl)) count norm)
    (hzero : unassignedTotal count norm = 0) {rest : Nat} (hrest : assignedSlots norm + rest = 2 ^ tl) :
    List.Forall₂ ShareFor count (norm2RoundRobin (rest * norm.length) rest 0 norm)
      ∧ totalSlots (norm2RoundRobin (rest * norm.length) rest 0 norm) = 2 ^ tl := by
  have hall := ne_notYet_of_unassignedTotal hmarked hzero
  obtain ⟨hshares, hslots⟩ := shares_of_assigned hmarked hall
  obtain _ | k := rest
  · rw [Nat.zero_mul]
    exact ⟨hshares, hslots.trans hrest⟩
  · obtain ⟨big, hbig, habove⟩ : ∃ c ∈ count, total >>> tl < c := by
      by_contra hlow
      have hfull := counted_eq_of_le hsum hpos hfew (by simpa using hlow)
      have hassigned := assignedSlots_add_count hmarked
      rw [List.count_eq_zero_of_not_mem fun hmem => hall _ hmem rfl] at hassigned
      omega
    obtain ⟨p, hp⟩ := List.mem_iff_getElem?.1 hbig
    have hplen : p < norm.length := hmarked.length_eq ▸ (List.getElem?_eq_some_iff.1 hp).1
    have hn := List.getElem?_eq_getElem hplen
    have hone := eq_one_of_above hmarked hall hp hn habove
    rw [← hrest, ← hslots]
    refine norm2RoundRobin_spec hshares hplen (by omega) hn (hone ▸ Int.one_pos) (.inr ?_)
    rw [Nat.succ_mul, Nat.add_sub_cancel, turnsTo, if_pos (Nat.zero_le _)]
    omega

variable (htl : tl ≤ 12) (hsmall : total < 2 ^ 24)

include htl hsmall

/-- The second method's shares fill the table (R214). -/
theorem normalize2_few {out : List Int} (h : normalize2 count tl total = .ok out) :
    List.Forall₂ ShareFor count out ∧ totalSlots out = 2 ^ tl := by
  rcases Nat.lt_or_ge count.length (2 ^ tl) with hlen | hlong
  · exact normalize2_spec hsum hpos hlen htl hsmall h
  unfold normalize2 at h
  extract_lets first total1 toDist1 norm total2 toDist m vlog mid at h
  have hmarked : List.Forall₂ (MarkedFor (total >>> tl)) count norm := by
    dsimp only [norm]
    split
    · exact norm2Second_marked (norm2First_marked tl total count)
    · exact norm2First_marked tl total count
  have hassigned := assignedSlots_add_count hmarked
  have htoDist : assignedSlots norm + toDist = 2 ^ tl := by omega
  split at h
  · next hfull =>
    have hnone : toDist = 0 := by omega
    cases h
    have hall : ∀ x ∈ norm, x ≠ notYet := fun x hx => by
      have := List.countP_eq_length.1 (hfull.trans hmarked.length_eq) x hx
      simp_all
    obtain ⟨hshares, hslots⟩ := shares_of_assigned hmarked hall
    rw [hnone, Nat.cast_zero, add_zero, set_getD_self]
    exact ⟨hshares, by omega⟩
  split at h
  · next hzero =>
    cases h
    exact shares_of_roundRobin_few hsum hpos hfew hmarked hzero htoDist
  · next hzero => exact shares_of_norm2Share hsum htl hsmall hmarked hzero htoDist h

/-- R215: the shares fill the table, and stand where the counts do. -/
theorem normalize_few {out : List Int} (h : normalize count tl total = .ok out) :
    List.Forall₂ ShareFor count out ∧ totalSlots out = 2 ^ tl := by
  have hle : ∀ c ∈ count, c ≤ total := fun c hc => hsum ▸ List.le_sum_of_mem hc
  have hshares : List.Forall₂ ShareFor count (count.map (normShare tl total)) :=
    List.forall₂_map_right_iff.2 (List.forall₂_same.2 fun c hc => normShare_shareFor htl hsmall (hle c hc))
  have hpositive : (∃ x ∈ count.map (normShare tl total), 0 < x)
      ∨ 2 ^ tl ≤ totalSlots (count.map (normShare tl total)) := by
    by_cases hlow : ∀ c ∈ count, c ≤ total >>> tl
    · exact .inr (counted_eq_of_le hsum hpos hfew hlow ▸ countP_le_totalSlots hshares)
    · push Not at hlow
      obtain ⟨c, hc, habove⟩ := hlow
      exact .inl ⟨_, List.mem_map_of_mem hc, normShare_pos htl hsmall (hle c hc) habove⟩
  simp only [normalize] at h
  generalize count.map (normShare tl total) = norm at *
  split at h
  · exact normalize2_few hsum hpos hfew htl hsmall h
  next hfits =>
  cases h
  have hbig : ∃ x ∈ norm, 0 < x := by
    by_contra hnone
    have hfull := hpositive.resolve_left hnone
    have hlargest : norm.getD (firstMax norm) 0 ≤ 0 := by
      by_contra hgt
      rw [List.getD_eq_getElem?_getD] at hgt
      cases hget : norm[firstMax norm]? with
      | none => simp [hget] at hgt
      | some x => exact hnone ⟨x, List.mem_of_getElem? hget, by simpa [hget] using hgt⟩
    zify at hfull
    omega
  obtain ⟨top, htop, htop0, -⟩ := firstMax_spec hbig
  rw [show norm.getD (firstMax norm) 0 = top by simp [htop]] at hfits ⊢
  obtain ⟨hset, hslots⟩ := shares_set hshares htop htop0 (rest := 2 ^ tl - (totalSlots norm : Int)) (by omega)
  exact ⟨hset, by zify; omega⟩

end Few

end Sys2Proof.Machine
end

section
/-! The bit stream of a sequences section (R465, R475, R476): read backward, it gives the sequences in order, with the
offsets the decoder's history resolves. -/

namespace Sys2Proof.Machine

/-! ### A decoding table undoes an encoding table -/

/-- The decoding table `d` undoes the steps the compression table `c` takes for the symbol `x` (R260, R262, R264, R268).
An encoder's state stands for the decoder's state that R264 writes of it. -/
structure Undone (c : FseCT) (d : FseDT) (x : Nat) : Prop where
  begin_ok : c.stateOk (encBegin c x) = true
  begin_sym : (d.entry (encFinish c (encBegin c x)).val).sym.toNat = x
  next_ok : ∀ st, c.stateOk st = true → c.stateOk (encNext c st x) = true
  next_sym : ∀ st, c.stateOk st = true → (d.entry (encFinish c (encNext c st x)).val).sym.toNat = x
  next_nb : ∀ st, c.stateOk st = true →
    (d.entry (encFinish c (encNext c st x)).val).nb.toNat = (encField c st x).width
  next_ns : ∀ st, c.stateOk st = true →
    (d.entry (encFinish c (encNext c st x)).val).ns.toNat + (encField c st x).val = (encFinish c st).val

theorem encFinish_state {c : FseCT} {u : Nat} (hu : u < 2 ^ c.log) : (encFinish c (2 ^ c.log + u)).val = u := by
  rw [encFinish, Nat.add_mod_left, Nat.mod_eq_of_lt hu]

/-- The tables of one distribution (R268). -/
theorem undone_of_has {norm : List Int} {tl x : Nat} {c : FseCT} {d : FseDT} (h5 : 5 ≤ tl) (h12 : tl ≤ 12)
    (hc : checkedCT norm tl = .ok c) (hd : checkedDT norm tl = .ok d) (hx : c.has x = true) : Undone c d x := by
  have hcoded := coded_of_has h5 h12 hc hd hx
  obtain ⟨-, rfl, -⟩ := checkedCT_fields hc
  have hok {st : Nat} : c.stateOk st = true ↔ 2 ^ c.log ≤ st ∧ st < 2 ^ (c.log + 1) := by
    rw [FseCT.stateOk_iff]
    omega
  have hrange {u : Nat} (hu : u < 2 ^ c.log) : c.stateOk (2 ^ c.log + u) = true := by
    rw [hok, pow_succ]
    omega
  obtain ⟨u, hu, hbegin, hentry⟩ := hcoded.encBegin_state h12
  have hnext {st : Nat} (hst : c.stateOk st = true) := hcoded.encNext_state h12 (hok.1 hst).1 (hok.1 hst).2
  refine ⟨hbegin ▸ hrange hu, ?_, fun st hst => ?_, fun st hst => ?_, fun st hst => ?_, fun st hst => ?_⟩
  · rw [hbegin, encFinish_state hu, hentry]
    exact (BitVec.toNat_ofNat _ _).trans (Nat.mod_eq_of_lt hcoded.sym)
  all_goals obtain ⟨w, hw, hto, hsym, hnb, hns⟩ := hnext hst
  · exact hto ▸ hrange hw
  · rwa [hto, encFinish_state hw]
  · rwa [hto, encFinish_state hw]
  · obtain ⟨y, rfl⟩ := Nat.exists_eq_add_of_le (hok.1 hst).1
    rw [hok, pow_succ] at hst
    rw [hto, encFinish_state hw, encFinish_state (by omega)]
    omega

/-- The one-symbol tables (R238, R242): one state, and no bits. -/
theorem undone_rle {x : Nat} (hx : x < 256) : Undone (rleCT x) (rleDT x) x := by
  have hstate (i : Int) : (rleCT x).next i = 0 := by
    rw [FseCT.next, rleCT]
    rcases i.toNat with _ | _ | n <;> rfl
  have hwidth : encWidth (rleCT x) 0 x = 0 := by
    simp [encWidth, FseCT.deltaNb, rleCT, at256_tab256 _ hx]
  have hfield : encField (rleCT x) 0 x = { val := 0, width := 0 } := by rw [encField, hwidth]; rfl
  have hok {st : Nat} (h : (rleCT x).stateOk st = true) : st = 0 := by simpa [FseCT.stateOk, rleCT] using h
  have hsym : ((rleDT x).entry 0).sym.toNat = x := (BitVec.toNat_ofNat _ _).trans (Nat.mod_eq_of_lt hx)
  have hnext (st : Nat) : encNext (rleCT x) st x = 0 := hstate _
  have hbegin : encBegin (rleCT x) x = 0 := hstate _
  have hfinish : (encFinish (rleCT x) 0).val = 0 := rfl
  refine ⟨by rw [hbegin]; rfl, by rw [hbegin, hfinish, hsym], fun st hst => by rw [hnext]; rfl,
    fun st hst => by rw [hnext, hfinish, hsym], fun st hst => ?_, fun st hst => ?_⟩
  all_goals rw [hok hst, hnext, hfinish, hfield]; rfl

/-- A state update of the decoder reads the field of the encoder's step, and goes back to the state before it (R476). -/
theorem Undone.stepState {c : FseCT} {d : FseDT} {x st v : Nat} (h : Undone c d x) (hst : c.stateOk st = true)
    {fs : List BitField} (hv : LowFields v (fs ++ [encField c st x])) :
    Machine.stepState d (encFinish c (encNext c st x)).val (readerAbove v (fs ++ [encField c st x]))
      = ((encFinish c st).val, readerAbove v fs) := by
  obtain ⟨hpeek, hskip⟩ := hv.read_last
  rw [Machine.stepState, h.next_nb st hst, hpeek, hskip, h.next_ns st hst]

/-! ### The extra bits of one sequence (R455 to R458, R476) -/

/-- The values of a sequence are in the ranges of their codes (R451). -/
structure TrueSeq.InRange (q : TrueSeq) : Prop where
  ll : q.ll < 2 ^ 17
  mlBase : q.mlBase < 2 ^ 17
  ov_pos : 1 ≤ q.ov
  ov : q.ov < 2 ^ 32

/-- The extra bits a sequence writes are what its values are above the bases of their codes. -/
theorem TrueSeq.InRange.extras_eq {q : TrueSeq} (h : q.InRange) : ∃ lb ln mb mn,
    llRow (llCode q.ll) = some (lb, ln) ∧ lb ≤ q.ll ∧ mlRow (mlCode q.mlBase) = some (mb, mn) ∧ mb ≤ q.mlBase + 3
      ∧ q.extras = [{ val := q.ll - lb, width := ln }, { val := q.mlBase + 3 - mb, width := mn },
        { val := q.ov - 2 ^ ofCode q.ov, width := ofCode q.ov }]
      ∧ ∀ f ∈ q.extras, f.val < 2 ^ f.width := by
  obtain ⟨lb, ln, hll, -, hlow, hhigh⟩ := llRow_llCode h.ll
  obtain ⟨mb, mn, hml, -, hlow', hhigh'⟩ := mlRow_mlCode h.mlBase
  obtain ⟨-, hov, hov'⟩ := ofCode_spec h.ov_pos h.ov
  have hextras : q.extras = [{ val := q.ll - lb, width := ln }, { val := q.mlBase + 3 - mb, width := mn },
      { val := q.ov - 2 ^ ofCode q.ov, width := ofCode q.ov }] := by rw [TrueSeq.extras, hll, hml]; rfl
  refine ⟨lb, ln, mb, mn, hll, hlow, hml, hlow', hextras, ?_⟩
  rw [hextras]
  simp only [List.forall_mem_cons, List.not_mem_nil, false_implies, implies_true, and_true]
  omega

/-- For an Offset_Value of 32 bits the index a free offset would be drawn by decides nothing. -/
theorem resolveOffset_tag {ov : Nat} (h32 : ov < 2 ^ 32) (tag i ll : Nat) (rep : DecRep) :
    resolveOffset tag i ov ll rep = resolveOffset 0 0 ov ll rep := by
  rcases Nat.lt_or_ge 3 ov with h3 | h3
  · rw [resolveOffset_new _ _ _ _ h3 h32, resolveOffset_new _ _ _ _ h3 h32]
  · simp only [resolveOffset, if_neg (not_lt.2 h3)]

/-- What one sequence decodes to from a history, and the history after it (R480). -/
def resolveSeq (rep : DecRep) (q : TrueSeq) : DecodedSeq × DecRep :=
  ({ ll := BitVec.ofNat 32 q.ll, ml := BitVec.ofNat 32 (q.mlBase + 3), off := (resolveOffset 0 0 q.ov q.ll rep).1 },
    (resolveOffset 0 0 q.ov q.ll rep).2)

theorem resolveAll_concat (rep : DecRep) (qs : List TrueSeq) (q : TrueSeq) : resolveAll rep (qs ++ [q]) =
    ((resolveAll rep qs).1 ++ [(resolveSeq (resolveAll rep qs).2 q).1], (resolveSeq (resolveAll rep qs).2 q).2) := by
  induction qs generalizing rep with
  | nil => rfl
  | cons x qs ih => simp [resolveAll, ih]

/-- The sequence decoded where the states show its codes and the reader stands above its extra bits (R476). -/
theorem SeqCursor.sequence_extras {dLL dOF dML : FseDT} {c : SeqCursor} {q : TrueSeq} {v : Nat} {fs : List BitField}
    (hq : q.InRange) (hv : LowFields v (fs ++ q.extras)) (hr : c.r = readerAbove v (fs ++ q.extras))
    (hll : (dLL.entry c.sLL).sym.toNat = llCode q.ll) (hof : (dOF.entry c.sOF).sym.toNat = ofCode q.ov)
    (hml : (dML.entry c.sML).sym.toNat = mlCode q.mlBase) (tag i : Nat) :
    c.sequence dLL dOF dML tag i
      = ((resolveSeq c.rep q).1, { c with r := readerAbove v fs, rep := (resolveSeq c.rep q).2 }) := by
  obtain ⟨lb, ln, mb, mn, hllRow, hlow, hmlRow, hlow', hextras, -⟩ := hq.extras_eq
  obtain ⟨-, hov, -⟩ := ofCode_spec hq.ov_pos hq.ov
  have hwide := hq.ll
  rw [hextras, List.append_cons, List.append_cons] at hv hr
  obtain ⟨hpeekOf, hskipOf⟩ := hv.read_last
  obtain ⟨hpeekMl, hskipMl⟩ := hv.of_append.read_last
  obtain ⟨hpeekLl, hskipLl⟩ := hv.of_append.of_append.read_last
  dsimp only at hpeekOf hskipOf hpeekMl hskipMl hpeekLl hskipLl
  simp only [SeqCursor.sequence, hll, hof, hml, hr, hllRow, hmlRow, readLength, hpeekOf, hskipOf, hpeekMl, hskipMl,
    hpeekLl, hskipLl, Nat.add_sub_cancel' hov, Nat.add_sub_cancel' hlow, Nat.add_sub_cancel' hlow', BitVec.toNat_ofNat,
    Nat.mod_eq_of_lt (show q.ll < 2 ^ 32 by omega), resolveOffset_tag hq.ov tag i, resolveSeq]

/-! ### The loops (R465, R476) -/

section Stream

variable (cLL cOF cML : FseCT) (dLL dOF dML : FseDT)

/-- The cursor with which R476 starts, from a reader above the three states. -/
def startCursor (r : Stream) (rep : DecRep) : SeqCursor :=
  { r := ((r.skip dLL.log).skip dOF.log).skip dML.log, sLL := r.peek dLL.log, sOF := (r.skip dLL.log).peek dOF.log
    sML := ((r.skip dLL.log).skip dOF.log).peek dML.log, rep := rep }

theorem decodeSeqStream_of_loop {rep : DecRep} {tag n p : Nat} {bs : List Byte} {r : Stream} {l : List DecodedSeq}
    {c : SeqCursor} (hlen : p < bs.length) (hopen : openStream (bs.drop p) = .ok r)
    (hloop : decodeSeqLoop dLL dOF dML tag n 0 (startCursor dLL dOF dML r rep) = (l, c)) (hpos : c.r.pos = 0) :
    decodeSeqStream dLL dOF dML rep tag n bs p
      = .ok { tLL := dLL, tOF := dOF, tML := dML, seqs := l, rep := c.rep } := by
  rw [startCursor] at hloop
  rw [decodeSeqStream, if_neg (not_le.2 hlen), hopen]
  simp only [shiftErr, hloop, if_pos hpos]

/-- The decoder's cursor above the fields `fs`, where the encoder's states are `sLL`, `sOF` and `sML`. -/
def cursorAbove (v : Nat) (fs : List BitField) (rep : DecRep) (sLL sOF sML : Nat) : SeqCursor :=
  { r := readerAbove v fs, sLL := (encFinish cLL sLL).val, sOF := (encFinish cOF sOF).val
    sML := (encFinish cML sML).val, rep := rep }

/-- The decoding tables undo the codes of a sequence, whose values are in range. -/
structure TrueSeq.Undone (q : TrueSeq) : Prop extends q.InRange where
  llUndone : Machine.Undone cLL dLL (llCode q.ll)
  ofUndone : Machine.Undone cOF dOF (ofCode q.ov)
  mlUndone : Machine.Undone cML dML (mlCode q.mlBase)

theorem seqFieldsLoop_fits {qs : List TrueSeq} (hqs : ∀ q ∈ qs, q.InRange) (sLL sOF sML : Nat) :
    ∀ f ∈ seqFieldsLoop cLL cOF cML qs sLL sOF sML, f.val < 2 ^ f.width := by
  have fits (v n : Nat) : v % 2 ^ n < 2 ^ n := Nat.mod_lt _ (Nat.two_pow_pos n)
  induction qs generalizing sLL sOF sML with
  | nil => simp [seqFieldsLoop, encFinish, fits]
  | cons q qs ih =>
    obtain ⟨hq, hqs⟩ := List.forall_mem_cons.1 hqs
    obtain ⟨-, -, -, -, -, -, -, -, -, hextras⟩ := hq.extras_eq
    simp only [seqFieldsLoop, List.forall_mem_append]
    exact ⟨⟨by simp [encField, fits], hextras⟩, ih hqs _ _ _⟩

variable {cLL cOF cML dLL dOF dML}

/-- A sequence decoded at a cursor whose states show its codes. -/
theorem cursorAbove_sequence {q : TrueSeq} (hq : q.InRange) {v : Nat} {fs : List BitField}
    (hv : LowFields v (fs ++ q.extras)) {rep : DecRep} {sLL sOF sML : Nat}
    (hll : (dLL.entry (encFinish cLL sLL).val).sym.toNat = llCode q.ll)
    (hof : (dOF.entry (encFinish cOF sOF).val).sym.toNat = ofCode q.ov)
    (hml : (dML.entry (encFinish cML sML).val).sym.toNat = mlCode q.mlBase) (tag i : Nat) :
    (cursorAbove cLL cOF cML v (fs ++ q.extras) rep sLL sOF sML).sequence dLL dOF dML tag i
      = ((resolveSeq rep q).1, cursorAbove cLL cOF cML v fs (resolveSeq rep q).2 sLL sOF sML) :=
  SeqCursor.sequence_extras hq hv rfl hll hof hml tag i

section States

variable {sLL sOF sML : Nat} (hokLL : cLL.stateOk sLL = true) (hokOF : cOF.stateOk sOF = true)
  (hokML : cML.stateOk sML = true)

include hokLL hokOF hokML

/-- The three state updates undo the encoder's three steps (R465, R476). -/
theorem cursorAbove_update {q : TrueSeq} (hq : q.Undone cLL cOF cML dLL dOF dML) {v : Nat} {fs : List BitField}
    (hv : LowFields v (fs ++ [encField cOF sOF (ofCode q.ov), encField cML sML (mlCode q.mlBase),
      encField cLL sLL (llCode q.ll)])) (rep : DecRep) :
    (cursorAbove cLL cOF cML v (fs ++ [encField cOF sOF (ofCode q.ov), encField cML sML (mlCode q.mlBase),
        encField cLL sLL (llCode q.ll)]) rep (encNext cLL sLL (llCode q.ll)) (encNext cOF sOF (ofCode q.ov))
        (encNext cML sML (mlCode q.mlBase))).update dLL dOF dML
      = cursorAbove cLL cOF cML v fs rep sLL sOF sML := by
  rw [List.append_cons, List.append_cons] at hv ⊢
  simp only [cursorAbove, SeqCursor.update, hq.llUndone.stepState hokLL hv, hq.mlUndone.stepState hokML hv.of_append,
    hq.ofUndone.stepState hokOF hv.of_append.of_append]

end States

variable (hlogLL : dLL.log = cLL.log) (hlogOF : dOF.log = cOF.log) (hlogML : dML.log = cML.log)

include hlogLL hlogOF hlogML

/-- The three states are read as the encoder left them (R465, R475). -/
theorem startCursor_finish {v sLL sOF sML : Nat} {fs : List BitField}
    (hv : LowFields v (fs ++ [encFinish cML sML, encFinish cOF sOF, encFinish cLL sLL])) (rep : DecRep) :
    startCursor dLL dOF dML (readerAbove v (fs ++ [encFinish cML sML, encFinish cOF sOF, encFinish cLL sLL])) rep
      = cursorAbove cLL cOF cML v fs rep sLL sOF sML := by
  rw [List.append_cons, List.append_cons] at hv ⊢
  obtain ⟨hpeekLL, hskipLL⟩ := hv.read_last
  obtain ⟨hpeekOF, hskipOF⟩ := hv.of_append.read_last
  obtain ⟨hpeekML, hskipML⟩ := hv.of_append.of_append.read_last
  simp only [show ∀ (c : FseCT) st, (encFinish c st).width = c.log from fun _ _ => rfl] at *
  simp only [startCursor, cursorAbove, hlogLL, hlogOF, hlogML, hpeekLL, hskipLL, hpeekOF, hskipOF, hpeekML, hskipML]

/-- Decoding the fields of R465's loop gives its sequences, the last encoded first, and goes on at the fields before
them with the states the loop began with. -/
theorem decodeSeqLoop_seqFieldsLoop {qs : List TrueSeq} (hqs : ∀ q ∈ qs, q.Undone cLL cOF cML dLL dOF dML)
    {sLL sOF sML v : Nat} (hokLL : cLL.stateOk sLL = true) (hokOF : cOF.stateOk sOF = true)
    (hokML : cML.stateOk sML = true) {fs : List BitField}
    (hv : LowFields v (fs ++ seqFieldsLoop cLL cOF cML qs sLL sOF sML)) (rep : DecRep) (tag i m : Nat)
    {l : List DecodedSeq} {c : SeqCursor}
    (h : decodeSeqLoop dLL dOF dML tag (m + 1) (i + qs.length)
      (cursorAbove cLL cOF cML v fs (resolveAll rep qs.reverse).2 sLL sOF sML) = (l, c)) :
    decodeSeqLoop dLL dOF dML tag (m + 1 + qs.length) i
        (startCursor dLL dOF dML (readerAbove v (fs ++ seqFieldsLoop cLL cOF cML qs sLL sOF sML)) rep)
      = ((resolveAll rep qs.reverse).1 ++ l, c) := by
  induction qs generalizing sLL sOF sML fs m l with
  | nil =>
    rw [seqFieldsLoop] at hv ⊢
    rw [startCursor_finish hlogLL hlogOF hlogML hv]
    exact h
  | cons q qs ih =>
    obtain ⟨hq, hqs⟩ := List.forall_mem_cons.1 hqs
    rw [seqFieldsLoop, ← List.append_assoc, ← List.append_assoc] at hv ⊢
    rw [List.reverse_cons, resolveAll_concat, List.length_cons, ← Nat.add_assoc] at h ⊢
    have hseq := cursorAbove_sequence hq.toInRange hv.of_append (rep := (resolveAll rep qs.reverse).2)
      (hq.llUndone.next_sym sLL hokLL) (hq.ofUndone.next_sym sOF hokOF) (hq.mlUndone.next_sym sML hokML) tag
      (i + qs.length)
    have hupdate := cursorAbove_update hokLL hokOF hokML hq hv.of_append.of_append
      (resolveSeq (resolveAll rep qs.reverse).2 q).2
    have hrest := ih hqs (hq.llUndone.next_ok sLL hokLL) (hq.ofUndone.next_ok sOF hokOF)
      (hq.mlUndone.next_ok sML hokML) hv (m + 1) (l := (resolveSeq (resolveAll rep qs.reverse).2 q).1 :: l) (by
        rw [decodeSeqLoop, hseq, if_neg (Nat.succ_ne_zero m), hupdate, h])
    rw [Nat.add_right_comm, hrest, List.append_assoc]
    rfl

/-- R475 and R476 undo R465: the stream of a section's fields decodes to its sequences. -/
theorem decodeSeqStream_seqFields {qs : List TrueSeq} (hne : qs ≠ [])
    (hqs : ∀ q ∈ qs, q.Undone cLL cOF cML dLL dOF dML) {cap p : Nat} {bs : List Byte}
    (hbs : bs.drop p = closedStream (seqFields cLL cOF cML qs) cap) (hbody : bs.drop p ≠ []) (rep : DecRep)
    (tag : Nat) :
    decodeSeqStream dLL dOF dML rep tag qs.length bs p = .ok
      { tLL := dLL, tOF := dOF, tML := dML, seqs := (resolveAll rep qs).1, rep := (resolveAll rep qs).2 } := by
  obtain ⟨init, q, rfl⟩ := (List.eq_nil_or_concat qs).resolve_left hne
  simp only [List.concat_eq_append, List.forall_mem_append, List.forall_mem_singleton] at hqs hbs ⊢
  obtain ⟨hinit, hq⟩ := hqs
  have hfields : seqFields cLL cOF cML (init ++ [q]) = q.extras ++ seqFieldsLoop cLL cOF cML init.reverse
      (encBegin cLL (llCode q.ll)) (encBegin cOF (ofCode q.ov)) (encBegin cML (mlCode q.mlBase)) := by
    simp [seqFields]
  rw [hfields] at hbs
  have hinit : ∀ q ∈ init.reverse, q.Undone cLL cOF cML dLL dOF dML := by simpa using hinit
  obtain ⟨-, -, -, -, -, -, -, -, -, hextras⟩ := hq.extras_eq
  obtain ⟨v, hopen, hv⟩ := openStream_closedStream (List.forall_mem_append.2 ⟨hextras,
    seqFieldsLoop_fits cLL cOF cML (fun q hq => (hinit q hq).toInRange) _ _ _⟩)
    (hbs ▸ hbody)
  have hlast := cursorAbove_sequence (fs := []) hq.toInRange hv.of_append (rep := (resolveAll rep init).2)
    hq.llUndone.begin_sym hq.ofUndone.begin_sym hq.mlUndone.begin_sym tag init.length
  have hloop := decodeSeqLoop_seqFieldsLoop hlogLL hlogOF hlogML hinit hq.llUndone.begin_ok hq.ofUndone.begin_ok
    hq.mlUndone.begin_ok hv rep tag 0 0 (l := [(resolveSeq (resolveAll rep init).2 q).1]) (by
      simp only [List.reverse_reverse, List.length_reverse, Nat.zero_add]
      rw [List.nil_append] at hlast
      rw [decodeSeqLoop, hlast, if_pos rfl]
      rfl)
  have hlen : p < bs.length := by
    by_contra hge
    exact hbody (List.drop_eq_nil_of_le (not_lt.1 hge))
  rw [List.reverse_reverse, List.length_reverse, Nat.add_comm] at hloop
  rw [resolveAll_concat, List.length_append]
  exact decodeSeqStream_of_loop dLL dOF dML hlen (hbs ▸ hopen) hloop rfl

end Stream

end Sys2Proof.Machine
end

section
/-! How a field of the sequences is coded (R460, R461): whatever mode is chosen, the decoder reads a table that undoes
the encoder's for every code that occurs (R475). -/

namespace Sys2Proof.Machine

/-! ### Counts of codes -/

/-- The highest value counted is the largest that occurs. -/
theorem lastNonzero_tally {m : Nat} {xs : List Nat} (hne : xs ≠ []) (hlt : ∀ x ∈ xs, x < m) :
    lastNonzero (tally m xs) ∈ xs ∧ ∀ x ∈ xs, x ≤ lastNonzero (tally m xs) := by
  obtain ⟨habove, hat⟩ := lastNonzero_spec (tally m xs)
  have hcounted : ∃ c ∈ tally m xs, c ≠ 0 :=
    exists_ne_zero_of_sum (by rw [tally_sum hlt]; exact (List.length_pos_iff.2 hne).ne')
  have hlast := hat hcounted
  rw [tally_getD (by simpa using lastNonzero_lt hcounted)] at hlast
  refine ⟨List.count_pos_iff.1 (Nat.pos_of_ne_zero hlast), fun x hx => not_lt.1 fun hgt => ?_⟩
  have hzero := habove x hgt
  rw [tally_getD (hlt x hx)] at hzero
  exact List.count_eq_zero.1 hzero hx

theorem lastNonzero_tally_congr {m : Nat} {xs ys : List Nat} (hne : xs ≠ []) (hlt : ∀ x ∈ xs, x < m)
    (hmem : ∀ x, x ∈ ys ↔ x ∈ xs) : lastNonzero (tally m ys) = lastNonzero (tally m xs) := by
  obtain ⟨hin, hle⟩ := lastNonzero_tally hne hlt
  obtain ⟨hin', hle'⟩ := lastNonzero_tally (xs := ys) (List.ne_nil_of_mem ((hmem _).2 hin))
    fun x hx => hlt x ((hmem x).1 hx)
  exact le_antisymm (hle _ ((hmem _).1 hin')) (hle' _ ((hmem _).2 hin))

theorem counted_le_sum (l : List Nat) : counted l ≤ l.sum := by
  induction l with
  | nil => exact le_rfl
  | cons c l ih =>
    rw [List.sum_cons, counted, List.countP_cons, Nat.add_comm]
    refine Nat.add_le_add ?_ ih
    split
    · next hc => exact of_decide_eq_true hc
    · exact Nat.zero_le _

theorem counted_tally_le {m : Nat} {xs : List Nat} (hlt : ∀ x ∈ xs, x < m) :
    counted (countsUpTo (tally m xs)) ≤ xs.length :=
  (counted_le_sum _).trans_eq ((countsUpTo_sum _).trans (tally_sum hlt))

/-- Where the largest count is all of them, one value occurs. -/
theorem eq_of_listMax_tally {m : Nat} {xs : List Nat} (hne : xs ≠ []) (hmax : listMax (tally m xs) = xs.length) :
    ∃ c, ∀ x ∈ xs, x = c := by
  have hmem := listMax_mem (l := tally m xs) (by rw [hmax]; exact (List.length_pos_iff.2 hne).ne')
  rw [hmax, tally, List.mem_map] at hmem
  obtain ⟨c, -, hc⟩ := hmem
  exact ⟨c, fun x hx => (List.count_eq_length.1 hc x hx).symm⟩

/-- One of the last value's occurrences taken from its count is the count without the last value (R461). -/
theorem tally_concat_set {m c : Nat} (hc : c < m) (init : List Nat) :
    (tally m (init ++ [c])).set c ((tally m (init ++ [c])).getD c 0 - 1) = tally m init := by
  rw [tally_getD hc]
  refine List.ext_getElem (by simp) fun i hi _ => ?_
  rw [List.getElem_set]
  split
  · next h => subst h; simp [tally]
  · next h => simp [tally, List.count_append, List.count_singleton, h]

/-! ### The distribution of a field (R461) -/

/-- A table of at least R201's log has a state for every sample or for every symbol up to the highest. -/
theorem le_two_pow_of_minTableLog {n ms tl : Nat} (h : minTableLog n ms ≤ tl) : n ≤ 2 ^ tl ∨ ms + 1 ≤ 2 ^ tl := by
  rw [minTableLog, min_le_iff] at h
  rcases h with h | h
  · have hn : n - 1 < 2 ^ (highestBit (n - 1) + 1) := Nat.lt_log2_self
    have := Nat.pow_le_pow_right (by decide : 0 < 2) h
    omega
  · by_cases h0 : ms = 0
    · exact .inr (by rw [h0]; exact Nat.one_le_two_pow)
    · rw [if_neg h0] at h
      have hms : ms < 2 ^ (highestBit ms + 1) := Nat.lt_log2_self
      have := Nat.pow_le_pow_right (by decide : 0 < 2) (Nat.le_of_succ_le h)
      omega

theorem fieldMax_bounds (f : Nat) : fieldMaxSym f < 64 ∧ 8 ≤ fieldMaxLog f ∧ fieldMaxLog f ≤ 9 := by
  unfold fieldMaxSym fieldMaxLog
  split <;> decide

/-- The log R461 takes fits the field. -/
theorem fieldLog_bounds {f ms : Nat} (hms : ms ≤ fieldMaxSym f) (n : Nat) :
    5 ≤ optimalTableLog (fieldMaxLog f) n ms 2 ∧ optimalTableLog (fieldMaxLog f) n ms 2 ≤ fieldMaxLog f
      ∧ minTableLog n ms ≤ optimalTableLog (fieldMaxLog f) n ms 2 := by
  obtain ⟨hmax, hlog, hlog'⟩ := fieldMax_bounds f
  have hbit : ms ≠ 0 → highestBit ms < 6 := fun h0 => (Nat.log2_lt h0).2 (by omega)
  have hmin : minTableLog n ms ≤ 7 := by
    rw [minTableLog]
    split <;> omega
  rw [optimalTableLog, Config.fseMinLog, Config.fseMaxLog]
  omega

/-- Taking one from the last code's count where it is above 1 leaves the counts of codes that are all that occur. -/
theorem reduced_eq_tally {m c : Nat} (hc : c < m) (init : List Nat) : ∃ ys,
    (if 1 < (tally m (init ++ [c])).getD c 0 then
      (tally m (init ++ [c])).set c ((tally m (init ++ [c])).getD c 0 - 1) else tally m (init ++ [c])) = tally m ys
    ∧ (if 1 < (tally m (init ++ [c])).getD c 0 then (init ++ [c]).length - 1 else (init ++ [c]).length) = ys.length
    ∧ (∀ x, x ∈ ys ↔ x ∈ init ++ [c]) ∧ ys.length ≤ (init ++ [c]).length := by
  split
  · next h1 =>
    rw [tally_getD hc, List.count_append, List.count_singleton_self] at h1
    have hagain : c ∈ init := List.count_pos_iff.1 (by omega)
    exact ⟨init, tally_concat_set hc init, by simp, by simpa using hagain, by simp⟩
  · exact ⟨_, rfl, rfl, fun _ => Iff.rfl, le_rfl⟩

/-- The counts R461 normalizes: of all codes, or of all but the last where the last occurs before. -/
theorem compressedField_eq_ok {f : Nat} {codes : List Nat} {x : FieldEnc} (hne : codes ≠ [])
    (hcodes : ∀ c ∈ codes, c ≤ fieldMaxSym f)
    (h : compressedField f codes (tally (fieldMaxSym f + 1) codes)
      (lastNonzero (tally (fieldMaxSym f + 1) codes)) = .ok x) :
    ∃ ys tl norm, tl = optimalTableLog (fieldMaxLog f) codes.length (lastNonzero (tally (fieldMaxSym f + 1) ys)) 2
      ∧ (∀ c, c ∈ ys ↔ c ∈ codes) ∧ ys.length ≤ codes.length
      ∧ normalize (countsUpTo (tally (fieldMaxSym f + 1) ys)) tl ys.length = .ok norm
      ∧ ncountBytes norm tl = some x.desc ∧ buildCT norm tl = some x.table ∧ x.mode = 2 := by
  obtain ⟨init, c, rfl⟩ := (List.eq_nil_or_concat codes).resolve_left hne
  rw [List.concat_eq_append] at *
  have hc : c < fieldMaxSym f + 1 := Nat.lt_succ_of_le (hcodes c (by simp))
  obtain ⟨ys, hcounts, htotal, hmem, hlen⟩ := reduced_eq_tally hc init
  have hms := lastNonzero_tally_congr hne (fun x hx => Nat.lt_succ_of_le (hcodes x hx)) hmem
  simp only [compressedField, List.getLast?_concat, Option.getD_some, decide_eq_true_eq] at h
  rw [hcounts, htotal, ← hms] at h
  split at h
  · cases h
  next norm hnorm =>
  generalize htl : optimalTableLog _ _ _ _ = tl at *
  split at h
  · next desc t hdesc ht =>
    cases h
    exact ⟨ys, tl, norm, htl.symm, hmem, hlen, hnorm, builtTable_eq_ok.1 hdesc, builtTable_eq_ok.1 ht, rfl⟩
  · cases h
  · cases h

/-- The distribution R461 makes of a field's codes: it fills its table, and every code that occurs has a share, the
highest one too. -/
theorem normalize_codes {m tl : Nat} {ys : List Nat} {norm : List Int} (hne : ys ≠ []) (hlt : ∀ y ∈ ys, y < m)
    (hlen : ys.length < 2 ^ 24) (h12 : tl ≤ 12) (hmin : ys.length ≤ 2 ^ tl ∨ lastNonzero (tally m ys) + 1 ≤ 2 ^ tl)
    (h : normalize (countsUpTo (tally m ys)) tl ys.length = .ok norm) :
    normConsistent norm tl = true ∧ norm.length ≤ m ∧ (∀ y ∈ ys, norm.getD y 0 ≠ 0) ∧ norm.getLast? ≠ some 0 := by
  have hpos := List.length_pos_iff.2 hne
  have htotal := tally_sum hlt
  have hsum : (countsUpTo (tally m ys)).sum = ys.length := (countsUpTo_sum _).trans htotal
  have hcounted : ∃ x ∈ tally m ys, x ≠ 0 := exists_ne_zero_of_sum (by omega)
  have hfew : counted (countsUpTo (tally m ys)) ≤ 2 ^ tl := by
    rcases hmin with hmin | hmin
    · exact (counted_tally_le hlt).trans hmin
    · exact (List.countP_le_length.trans (List.length_take_le _ _)).trans hmin
  obtain ⟨hshares, hslots⟩ := normalize_few hsum hpos hfew h12 hlen h
  refine ⟨normConsistent_iff.2 ⟨share_ge hshares, hslots⟩, ?_, fun y hy => ?_,
    share_getLast? hshares (countsUpTo_getLast? hcounted)⟩
  · rw [← hshares.length_eq]
    exact (List.length_take_le' _ _).trans_eq (tally_length m ys)
  · rw [Ne, share_eq_zero_iff hshares, countsUpTo_getD, tally_getD (hlt y hy)]
    exact (List.count_pos_iff.2 hy).ne'

/-! ### A coded field is read back (R475) -/

/-- The decoder reads the field `f` from its description as the table `d`, which undoes the encoder's for the codes. -/
structure FieldEnc.ReadsBack (x : FieldEnc) (f : Nat) (codes : List Nat) (d : FseDT) : Prop where
  mode : x.mode < 3
  log : d.log = x.table.log
  undone : ∀ c ∈ codes, Undone x.table d c
  read : ∀ (prev : Option FseDT) (bs rest : List Byte) (p : Nat), bs.drop p = x.desc ++ rest →
    readField f x.mode prev bs p = .ok (d, p + x.desc.length)

/-- Tables of one distribution in which every code has a share. -/
theorem undone_of_shares {norm : List Int} {tl : Nat} {c : FseCT} {d : FseDT} (h5 : 5 ≤ tl) (h12 : tl ≤ 12)
    (hc : checkedCT norm tl = .ok c) (hd : checkedDT norm tl = .ok d) {codes : List Nat}
    (hcodes : ∀ x ∈ codes, x < 256 ∧ norm.getD x 0 ≠ 0) : d.log = c.log ∧ ∀ x ∈ codes, Undone c d x := by
  obtain ⟨-, hclog, -, -, -, hfields⟩ := checkedCT_fields hc
  obtain ⟨hdlog, -⟩ := checkedDT_fields hd
  refine ⟨hdlog.trans hclog.symm, fun x hx => ?_⟩
  obtain ⟨hx256, hshare⟩ := hcodes x hx
  exact undone_of_has h5 h12 hc hd (by rwa [(hfields x hx256).1, bne_iff_ne])

section Modes

variable {f : Nat} {codes : List Nat}

/-- Mode Predefined: every code the default distribution describes has a share (R230). -/
theorem readsBack_default (hf : f < 3) {t : FseCT} (h : buildCT (defaultDist f).1 (defaultDist f).2 = some t)
    (hcodes : ∀ c ∈ codes, c < (defaultDist f).1.length) :
    ∃ d, ({ mode := 0, table := t, desc := [] } : FieldEnc).ReadsBack f codes d := by
  have hdist : ∀ f < 3, normConsistent (defaultDist f).1 (defaultDist f).2 = true
      ∧ 5 ≤ (defaultDist f).2 ∧ (defaultDist f).2 ≤ 12 ∧ (defaultDist f).1.length ≤ 256
      ∧ ∀ n ∈ (defaultDist f).1, n ≠ 0 := by decide
  obtain ⟨hok, h5, h12, hlen, hshare⟩ := hdist f hf
  obtain ⟨hc, d, hbuild, hd⟩ := checked_of_buildCT hok h
  obtain ⟨hlog, hundone⟩ := undone_of_shares h5 h12 hc hd (codes := codes) fun x hx => by
    have hlt := hcodes x hx
    refine ⟨by omega, ?_⟩
    rw [List.getD_eq_getElem _ _ hlt]
    exact hshare _ (List.getElem_mem hlt)
  exact ⟨d, (by decide : 0 < 3), hlog, hundone, fun prev bs rest p hbs => by rw [readField, hbuild]; rfl⟩

/-- Mode RLE: one code (R238, R242). -/
theorem readsBack_rle {x : Nat} (hx : x < 256) (hmax : x ≤ fieldMaxSym f) (hcodes : ∀ c ∈ codes, c = x) :
    ({ mode := 1, table := rleCT x, desc := [BitVec.ofNat 8 x] } : FieldEnc).ReadsBack f codes (rleDT x) := by
  refine ⟨(by decide : 1 < 3), rfl, fun c hc => ?_, fun prev bs rest p hbs => ?_⟩
  · rw [hcodes c hc]
    exact undone_rle hx
  have hbyte : bs[p]? = some (BitVec.ofNat 8 x) := by
    rw [← Nat.add_zero p, ← List.getElem?_drop, hbs]
    rfl
  have hvalue : (BitVec.ofNat 8 x).toNat = x := (BitVec.toNat_ofNat _ _).trans (Nat.mod_eq_of_lt hx)
  simp only [readField, hbyte, hvalue, if_neg (not_lt.2 hmax), List.length_singleton]

/-- Mode Compressed: the description is read back, and the tables are those of one distribution (R461). -/
theorem readsBack_compressed {x : FieldEnc} (hne : codes ≠ []) (hcodes : ∀ c ∈ codes, c ≤ fieldMaxSym f)
    (hlen : codes.length < 2 ^ 24)
    (h : compressedField f codes (tally (fieldMaxSym f + 1) codes)
      (lastNonzero (tally (fieldMaxSym f + 1) codes)) = .ok x) :
    ∃ d, x.ReadsBack f codes d := by
  obtain ⟨ys, tl, norm, htl, hmem, hshort, hnorm, hdesc, ht, hmode⟩ := compressedField_eq_ok hne hcodes h
  have hlt : ∀ y ∈ ys, y < fieldMaxSym f + 1 := fun y hy => Nat.lt_succ_of_le (hcodes y ((hmem y).1 hy))
  have hne' : ys ≠ [] := by
    obtain ⟨c, hc⟩ := List.exists_mem_of_ne_nil _ hne
    exact List.ne_nil_of_mem ((hmem c).2 hc)
  obtain ⟨hin, -⟩ := lastNonzero_tally hne' hlt
  obtain ⟨h5, hlog, hmin⟩ := fieldLog_bounds (Nat.le_of_lt_succ (hlt _ hin)) codes.length
  rw [← htl] at h5 hlog hmin
  obtain ⟨hmax, -, hmaxLog⟩ := fieldMax_bounds f
  obtain ⟨hok, hsize, hshare, hlast⟩ := normalize_codes hne' hlt (by omega) (by omega)
    ((le_two_pow_of_minTableLog hmin).imp_left hshort.trans) hnorm
  obtain ⟨hmins, hslots⟩ := normConsistent_iff.1 hok
  obtain ⟨hc, d, hbuild, hd⟩ := checked_of_buildCT hok ht
  obtain ⟨htables, hundone⟩ := undone_of_shares h5 (by omega) hc hd (codes := codes) fun c hc =>
    ⟨by have := hcodes c hc; omega, hshare c ((hmem c).2 hc)⟩
  refine ⟨d, by omega, htables, hundone, fun prev bs rest p hbs => ?_⟩
  obtain ⟨shown, zeros, hshown, hread⟩ := readNCount_ncountBytes h5 (by omega) hmins hslots hdesc hsize hlog rest
  obtain rfl : zeros = 0 := by
    by_contra h0
    exact hlast (by rw [hshown, List.getLast?_append, List.getLast?_replicate, if_neg h0, Option.some_or])
  rw [List.replicate_zero, List.append_nil] at hshown
  simp only [hmode, readField, hbs, hread, shiftErr, ← hshown, hbuild, builtTable]

/-- R460 selects Predefined only where it is allowed. -/
theorem selectType_eq_zero {factor largest n defLog : Nat} {ok : Bool}
    (h : selectType factor largest n defLog ok = 0) : ok = true := by
  cases ok with
  | true => rfl
  | false => simp [selectType, ite_eq_iff] at h

/-- R460 selects RLE only where one code occurs. -/
theorem selectType_eq_one {factor largest n defLog : Nat} {ok : Bool}
    (h : selectType factor largest n defLog ok = 1) : largest = n := by
  by_contra hne
  simp [selectType, hne, ite_eq_iff] at h

/-- Whatever mode R460 selects, the field is read back. -/
theorem chooseField_readsBack {factor : Nat} {x : FieldEnc} (hf : f < 3) (hne : codes ≠ [])
    (hcodes : ∀ c ∈ codes, c ≤ fieldMaxSym f) (hlen : codes.length < 2 ^ 24) (h : chooseField factor f codes = .ok x) :
    ∃ d, x.ReadsBack f codes d := by
  have hlt : ∀ c ∈ codes, c < fieldMaxSym f + 1 := fun c hc => Nat.lt_succ_of_le (hcodes c hc)
  obtain ⟨hin, hle⟩ := lastNonzero_tally hne hlt
  obtain ⟨hmax, -⟩ := fieldMax_bounds f
  have hdist : ∀ f < 3, 28 < (defaultDist 1).1.length ∧ (f ≠ 1 → fieldMaxSym f < (defaultDist f).1.length) := by decide
  obtain ⟨hof, hother⟩ := hdist f hf
  simp only [chooseField] at h
  rw [← tally] at h
  split at h
  · next hsel =>
    split at h
    · cases h
    next t ht =>
    cases h
    refine readsBack_default hf (builtTable_eq_ok.1 ht) fun c hc => ?_
    have hok := selectType_eq_zero hsel
    rcases eq_or_ne f 1 with rfl | h1
    · exact (hle c hc).trans_lt ((of_decide_eq_true hok).trans_lt hof)
    · exact (hcodes c hc).trans_lt (hother h1)
  · next hsel =>
    cases h
    obtain ⟨c, hc⟩ := eq_of_listMax_tally hne (selectType_eq_one hsel)
    exact ⟨_, readsBack_rle (by have := hcodes _ hin; omega) (hcodes _ hin) fun x hx => (hc x hx).trans (hc _ hin).symm⟩
  · exact readsBack_compressed hne hcodes hlen h

end Modes

end Sys2Proof.Machine
end

section
/-! SEQ_DECODE of the bytes SEQ_ENCODE left in memory (R465, R475, R483). -/

namespace Sys2Proof.Machine

/-! ### The bytes of a section (R465) -/

theorem nbSeqBytes_eq_cons {n : Nat} (h1 : 1 ≤ n) (hn : n ≤ 43690) : ∃ b bs, nbSeqBytes n = b :: bs ∧ b ≠ 0 := by
  have byte_ne {v : Nat} (h : v % 256 ≠ 0) : BitVec.ofNat 8 v ≠ 0 := fun h0 =>
    h (by simpa using congrArg BitVec.toNat h0)
  unfold nbSeqBytes
  split
  · exact ⟨_, _, rfl, byte_ne (by omega)⟩
  · split
    · exact ⟨_, _, rfl, byte_ne (by rw [Nat.shiftRight_eq_div_pow]; omega)⟩
    · exact ⟨_, _, rfl, by decide⟩

theorem putField_eq_ok {factor f cap p : Nat} {codes : List Nat} {x : FieldEnc}
    (h : putField factor f codes cap p = .ok x) : chooseField factor f codes = .ok x := by
  unfold putField at h
  split at h
  · cases h
  next hx =>
  split at h
  · cases h
  · rwa [← h]

/-- The modes byte (R465). -/
def modesByte (a b c : Nat) : Byte := BitVec.ofNat 8 (a * 2 ^ 6 + b * 2 ^ 4 + c * 2 ^ 2)

theorem modesByte_fields {a b c : Nat} (ha : a < 3) (hb : b < 3) (hc : c < 3) :
    (modesByte a b c).toNat % 4 = 0 ∧ (modesByte a b c).toNat / 2 ^ 6 % 4 = a
      ∧ (modesByte a b c).toNat / 2 ^ 4 % 4 = b ∧ (modesByte a b c).toNat / 2 ^ 2 % 4 = c := by
  have hvalue : (modesByte a b c).toNat = a * 2 ^ 6 + b * 2 ^ 4 + c * 2 ^ 2 := by
    rw [modesByte, BitVec.toNat_ofNat]
    omega
  rw [hvalue]
  omega

/-- The parts of a section of at least one sequence. -/
theorem encodeSome_eq_ok {factor cap : Nat} {qs : List TrueSeq} {out : List Byte}
    (h : encodeSome factor qs cap = .ok out) : ∃ fLL fOF fML room body,
      chooseField factor 0 (qs.map fun q => llCode q.ll) = .ok fLL
      ∧ chooseField factor 1 (qs.map fun q => ofCode q.ov) = .ok fOF
      ∧ chooseField factor 2 (qs.map fun q => mlCode q.mlBase) = .ok fML
      ∧ body = closedStream (seqFields fLL.table fOF.table fML.table qs) room ∧ body ≠ []
      ∧ out = nbSeqBytes qs.length
        ++ modesByte fLL.mode fOF.mode fML.mode :: (fLL.desc ++ (fOF.desc ++ (fML.desc ++ body))) := by
  simp only [encodeSome] at h
  split at h
  · cases h
  split at h
  · cases h
  next fLL hLL =>
  split at h
  · cases h
  next fOF hOF =>
  split at h
  · cases h
  next fML hML =>
  simp only [putStream] at h
  split at h
  · cases h
  next hbody =>
  refine ⟨fLL, fOF, fML, _, _, putField_eq_ok hLL, putField_eq_ok hOF, putField_eq_ok hML, rfl,
    fun hnil => hbody (by rw [hnil]; rfl), ?_⟩
  cases h
  simp [modesByte]

/-! ### The section read back (R475, R483) -/

theorem drop_length_add {bs xs ys : List Byte} {p : Nat} (h : bs.drop p = xs ++ ys) : bs.drop (p + xs.length) = ys := by
  rw [← List.drop_drop, h, List.drop_left]

@[simp] theorem resolveAll_length (rep : DecRep) (qs : List TrueSeq) : (resolveAll rep qs).1.length = qs.length := by
  induction qs generalizing rep with
  | nil => rfl
  | cons q qs ih => simp [resolveAll, ih]

/-- What R475 makes of a section, from its parts. -/
theorem decodeSequences_of_parts {dt : Vector (Option FseDT) 4} {rep : DecRep} {tag n p : Nat} {bs rest : List Byte}
    {b0 modes : Byte} {d : SeqDecoded} (hbs : bs = b0 :: rest) (h0 : b0 ≠ 0) (hcount : readNbSeq bs = .ok (n, p))
    (h1 : 1 ≤ n) (hn : n ≤ 43690) (hmodes : bs[p]? = some modes) (hlow : modes.toNat % 4 = 0)
    (htables : decodeSeqTables dt rep tag n modes.toNat bs (p + 1) = .ok d) :
    decodeSequences dt rep tag bs = .ok (some d) := by
  subst hbs
  simp only [decodeSequences, if_neg h0, hcount, if_neg (Nat.ne_of_gt h1), if_neg (not_lt.2 hn), hmodes, hlow, ne_eq,
    not_true_eq_false, if_false, htables]

/-- The codes of values in range are symbols of their fields (R451). -/
theorem TrueSeq.InRange.codes_le {q : TrueSeq} (h : q.InRange) :
    llCode q.ll ≤ fieldMaxSym 0 ∧ ofCode q.ov ≤ fieldMaxSym 1 ∧ mlCode q.mlBase ≤ fieldMaxSym 2 := by
  obtain ⟨-, -, -, hll, -⟩ := llRow_llCode h.ll
  obtain ⟨-, -, -, hml, -⟩ := mlRow_mlCode h.mlBase
  exact ⟨Nat.le_of_lt_succ hll, (ofCode_spec h.ov_pos h.ov).1, Nat.le_of_lt_succ hml⟩

/-- A field of a section's sequences, whose codes are symbols of the field, is read back. -/
theorem chooseField_map_readsBack {f factor : Nat} {qs : List TrueSeq} {code : TrueSeq → Nat} {x : FieldEnc}
    (hf : f < 3) (hne : qs ≠ []) (hlen : qs.length ≤ 43690) (hcode : ∀ q ∈ qs, code q ≤ fieldMaxSym f)
    (h : chooseField factor f (qs.map code) = .ok x) : ∃ d, x.ReadsBack f (qs.map code) d :=
  chooseField_readsBack hf (by simpa) (List.forall_mem_map.2 hcode) (by rw [List.length_map]; omega) h

/-- The decoder takes back a section of at least one sequence. -/
theorem decodeSequences_encodeSome {factor cap : Nat} {qs : List TrueSeq} {out : List Byte} (hne : qs ≠ [])
    (hlen : qs.length ≤ 43690) (hqs : ∀ q ∈ qs, q.InRange) (h : encodeSome factor qs cap = .ok out)
    (dt : Vector (Option FseDT) 4) (rep : DecRep) (tag : Nat) :
    ∃ tLL tOF tML, decodeSequences dt rep tag out = .ok (some
      { tLL := tLL, tOF := tOF, tML := tML, seqs := (resolveAll rep qs).1, rep := (resolveAll rep qs).2 }) := by
  obtain ⟨fLL, fOF, fML, room, body, hLL, hOF, hML, hstream, hbody, hout⟩ := encodeSome_eq_ok h
  have h1 : 1 ≤ qs.length := List.length_pos_iff.2 hne
  have hcodes {q : TrueSeq} (hq : q ∈ qs) := (hqs q hq).codes_le
  obtain ⟨dLL, hLL⟩ := chooseField_map_readsBack (by decide) hne hlen (fun q hq => (hcodes hq).1) hLL
  obtain ⟨dOF, hOF⟩ := chooseField_map_readsBack (by decide) hne hlen (fun q hq => (hcodes hq).2.1) hOF
  obtain ⟨dML, hML⟩ := chooseField_map_readsBack (by decide) hne hlen (fun q hq => (hcodes hq).2.2) hML
  obtain ⟨hlow, hmLL, hmOF, hmML⟩ := modesByte_fields hLL.mode hOF.mode hML.mode
  obtain ⟨b0, nb, hnb, h0⟩ := nbSeqBytes_eq_cons h1 hlen
  have hcount : readNbSeq out = .ok (qs.length, (nbSeqBytes qs.length).length) := by
    rw [hout]
    exact readNbSeq_nbSeqBytes hlen _
  have hmodes : out[(nbSeqBytes qs.length).length]? = some (modesByte fLL.mode fOF.mode fML.mode) := by
    simp [hout]
  have hdropLL : out.drop ((nbSeqBytes qs.length).length + 1) = fLL.desc ++ (fOF.desc ++ (fML.desc ++ body)) := by
    rw [hout, List.append_cons]
    exact List.drop_left' (by simp)
  have hdropOF := drop_length_add hdropLL
  have hdropML := drop_length_add hdropOF
  have hdropStream := drop_length_add hdropML
  have hundone : ∀ q ∈ qs, q.Undone fLL.table fOF.table fML.table dLL dOF dML := fun q hq =>
    { hqs q hq with
      llUndone := hLL.undone _ (List.mem_map_of_mem hq)
      ofUndone := hOF.undone _ (List.mem_map_of_mem hq)
      mlUndone := hML.undone _ (List.mem_map_of_mem hq) }
  refine ⟨dLL, dOF, dML, decodeSequences_of_parts (hout.trans (by rw [hnb, List.cons_append])) h0 hcount h1 hlen hmodes
    hlow ?_⟩
  rw [decodeSeqTables, hmLL, hmOF, hmML, hLL.read _ _ _ _ hdropLL]
  dsimp only
  rw [hOF.read _ _ _ _ hdropOF]
  dsimp only
  rw [hML.read _ _ _ _ hdropML]
  exact decodeSeqStream_seqFields hLL.log hOF.log hML.log hne hundone (hdropStream.trans hstream)
    (hdropStream ▸ hbody) rep tag

/-! ### The commands -/

/-- A store within its limits holds values in range, but for an Offset_Value of 0 (R49, R421, R431). -/
theorem SeqStore.trueSeqs_inRange {ss : SeqStore} {q : TrueSeq} (hq : q ∈ ss.trueSeqs) (hov : 1 ≤ q.ov) :
    q.InRange := by
  obtain ⟨⟨x, i⟩, -, rfl⟩ := List.mem_map.1 hq
  have hll := x.lla.isLt
  have hml := x.mla.isLt
  have hof := x.ofa.isLt
  refine ⟨?_, ?_, hov, hof⟩ <;> simp only [trueLL, trueMlBase] <;> split <;> omega

/-- A SEQ_ENCODE without error gave a section, which stands in its window, and returned its size. -/
theorem seqEncode_ok {s t : State} (h : exec .seqEncode s = .next t) (ht : t.errKind = 0) :
    ∃ out, encodeSequences s.params.selFactor s.ss.trueSeqs s.a1 = .ok out ∧ out.length < 2 ^ 31
      ∧ t.res[0] = res64 out.length ∧ t.mem.Holds s.a0 out := by
  obtain ⟨hw, -⟩ := passed_of_ok h ht
  have hw : windowOk s.a0 s.a1 = true := by simpa using hw
  cases hout : encodeSequences s.params.selFactor s.ss.trueSeqs s.a1 with
  | error e =>
    cases (exec_seqEncode_error hw hout).symm.trans h
    exact absurd ht (ErrCode.kind_ne_zero e.code)
  | ok out =>
    have hsize := (encodeSequences_length_le hout).trans_lt ((windowOk_iff _ _).1 hw).1
    cases (exec_seqEncode_ok hw hout).symm.trans h
    exact ⟨out, rfl, hsize, Vector.getElem_set_self _, State.writeOut_holds _ _ _ _⟩

/-- Settles O58: the window holds the section SEQ_ENCODE gave, the tables undo each other, and the bit stream reads
back. -/
theorem sequencesRoundTrip : Obligations.SequencesRoundTrip := by
  unfold Obligations.SequencesRoundTrip
  intro s t u _ hlimits hov hexec ht hu1 hu0 hmem
  obtain ⟨-, hcount, -⟩ := hlimits
  obtain ⟨out, hout, hsize, hres, hholds⟩ := seqEncode_ok hexec ht
  rw [hres, res64_toNat (by omega)] at hu1
  have hwin : u.window u.a0 u.a1 = out := by
    obtain ⟨rest, hrest⟩ := State.window_eq_append (u := u) (fun j hj => (hmem j (hu1 ▸ hj)).trans (hholds j hj)) hu1.ge
    have hlen := congrArg List.length hrest
    rw [State.window_length, List.length_append, hu1] at hlen
    rw [hrest, List.length_eq_zero_iff.1 (Nat.left_eq_add.1 hlen), List.append_nil]
  have hw : windowOk u.a0 u.a1 = true := (windowOk_iff _ _).2 ⟨hu1 ▸ hsize, hu0⟩
  rw [hres, ← s.ss.trueSeqs_length]
  rw [encodeSequences] at hout
  split at hout
  · next hempty =>
    have hnil := List.length_eq_zero_iff.1 hempty
    split at hout
    · cases hout
    cases hout
    rw [hnil]
    exact ⟨_, exec_seqDecode_empty hw hwin, rfl, rfl, rfl, by rw [res_set2]; rfl, by rw [res_set2]; rfl⟩
  · next hne =>
    have hne : s.ss.trueSeqs ≠ [] := fun hnil => hne (by rw [hnil]; rfl)
    obtain ⟨tLL, tOF, tML, hback⟩ := decodeSequences_encodeSome hne (s.ss.trueSeqs_length.trans_le hcount)
      (fun q hq => SeqStore.trueSeqs_inRange hq (hov q hq)) hout u.dt u.drep u.free
    rw [← hwin] at hback
    refine ⟨_, exec_seqDecode_some hw hback, rfl, rfl, rfl, ?_, ?_⟩ <;> simp only [res_set2]
    · rw [hu1]; rfl
    · exact congrArg res64 (resolveAll_length _ _)

end Sys2Proof.Machine
end

section
/-! The errors a command body can end with (R550, R553, R554): each is one that ZCORE raises, and only MalformedInput
has an offset. -/

namespace Sys2Proof.Machine

/-! ### Errors by their codes -/

/-- An error ZCORE raises: its code is not one of those held for the host (R553), and its offset is 0 unless its kind is
MalformedInput (R554). -/
def Err.Raisable (e : Err) : Prop := e.code.raised = true ∧ (e.code.kind ≠ 1 → e.off = 0)

/-- An error of reading a source: one ZCORE raises of kind MalformedInput, which goes with any offset (R554). -/
def Err.Located (e : Err) : Prop := e.code.raised = true ∧ e.code.kind = 1

theorem Err.Located.raisable {e : Err} (h : e.Located) : e.Raisable := ⟨h.1, fun hk => absurd h.2 hk⟩

theorem Err.Raisable.of_code {c : ErrCode} (h : c.raised = true) : Err.Raisable { code := c, off := 0 } :=
  ⟨h, fun _ => rfl⟩

/-- Every error a computation can end with meets `P`. -/
def FailsWith {α : Type} (P : Err → Prop) (x : Except Err α) : Prop := ∀ e, x = .error e → P e

section Rules

variable {α β : Type} {P Q : Err → Prop} {x : Except Err α} {e : Err}

theorem FailsWith.ok {a : α} : FailsWith P (.ok a : Except Err α) := nofun

theorem FailsWith.error (h : P e) : FailsWith P (.error e : Except Err α) := by
  rintro _ ⟨⟩
  exact h

/-- The error of a part is passed on. -/
theorem FailsWith.pass (h : FailsWith P x) (he : x = .error e) : FailsWith P (.error e : Except Err β) :=
  .error (h e he)

/-- A check before the rest of a computation. -/
theorem FailsWith.check {c : Prop} [Decidable c] (he : P e) (h : FailsWith P x) :
    FailsWith P (if c then .error e else x) := by
  split
  · exact .error he
  · exact h

theorem FailsWith.ite {c : Prop} [Decidable c] {y : Except Err α} (hx : FailsWith P x) (hy : FailsWith P y) :
    FailsWith P (if c then x else y) := by
  split
  · exact hx
  · exact hy

theorem FailsWith.mono (h : FailsWith P x) (hPQ : ∀ {e}, P e → Q e) : FailsWith Q x := fun e he => hPQ (h e he)

/-- An offset moved by the start of a nested source is still one of MalformedInput (R554). -/
theorem FailsWith.shift {base : Nat} (h : FailsWith Err.Located x) : FailsWith Err.Located (shiftErr base x) := by
  cases x with
  | ok a => exact .ok
  | error e => exact .error (h e rfl)

end Rules

/-! ### Reading: table descriptions and bit streams (R161, R223, R236, R240) -/

theorem ncConsume_located {len bits k : Nat} : FailsWith Err.Located (ncConsume len bits k) := .check ⟨rfl, rfl⟩ .ok

theorem ncRepeat_located {v len fuel bits n0 : Nat} : FailsWith Err.Located (ncRepeat v len fuel bits n0) := by
  induction fuel generalizing bits n0 with
  | zero => exact .ok
  | succ fuel ih =>
    rw [ncRepeat]
    split
    · split
      · next he => exact ncConsume_located.pass he
      · exact ih
    · exact .ok

theorem ncZeros_located {v len maxSym bits s : Nat} : FailsWith Err.Located (ncZeros v len maxSym bits s) := by
  simp only [ncZeros]
  split
  · next he => exact ncRepeat_located.pass he
  · split
    · next he => exact ncConsume_located.pass he
    · exact .check ⟨rfl, rfl⟩ .ok

theorem ncCount_located {v len bits threshold nb : Nat} {remaining : Int} :
    FailsWith Err.Located (ncCount v len bits threshold nb remaining) := by
  refine .ite ?_ ?_ <;> split
  · next he => exact ncConsume_located.pass he
  · exact .ok
  · next he => exact ncConsume_located.pass he
  · exact .ok

theorem ncLoop_located {v len maxSym fuel bits threshold nb : Nat} {remaining : Int} {prev0 : Bool} {norm : List Int} :
    FailsWith Err.Located (ncLoop v len maxSym fuel bits remaining threshold nb prev0 norm) := by
  induction fuel generalizing bits remaining threshold nb prev0 norm with
  | zero => exact .ok
  | succ fuel ih =>
    rw [ncLoop]
    refine .ite .ok ?_
    split
    · next he => exact FailsWith.pass (.ite ncZeros_located .ok) he
    · split
      · next he => exact ncCount_located.pass he
      · exact ih

theorem readNCount_located {bs : List Byte} {maxSym maxLog : Nat} :
    FailsWith Err.Located (readNCount bs maxSym maxLog) := by
  simp only [readNCount]
  split
  · next he => exact ncConsume_located.pass he
  · refine .check ⟨rfl, rfl⟩ ?_
    split
    · next he => exact ncLoop_located.pass he
    · exact .check ⟨rfl, rfl⟩ .ok

theorem openStream_located {bs : List Byte} : FailsWith Err.Located (openStream bs) := by
  unfold openStream
  split
  · exact .error ⟨rfl, rfl⟩
  · exact .check ⟨rfl, rfl⟩ .ok

theorem checkedCT_located {norm : List Int} {tl : Nat} : FailsWith Err.Located (checkedCT norm tl) := by
  refine .check ⟨rfl, rfl⟩ ?_
  split
  · exact .error ⟨rfl, rfl⟩
  · exact .ok

theorem checkedDT_located {norm : List Int} {tl : Nat} : FailsWith Err.Located (checkedDT norm tl) := by
  refine .check ⟨rfl, rfl⟩ ?_
  split
  · exact .error ⟨rfl, rfl⟩
  · exact .ok

theorem builtTable_located {α : Type} {t : Option α} : FailsWith Err.Located (builtTable t) := by
  cases t with
  | none => exact .error ⟨rfl, rfl⟩
  | some _ => exact .ok

/-! ### Reading: strings and literals sections (R275, R330, R355, R357, R380) -/

theorem decompress2Loop_located {t : FseDT} {cap len fuel sa sb o : Nat} {r : Stream} :
    FailsWith Err.Located (decompress2Loop t cap len fuel r sa sb o) := by
  induction fuel generalizing r sa sb o with
  | zero => exact .error ⟨rfl, rfl⟩
  | succ fuel ih =>
    refine .check ⟨rfl, rfl⟩ (.ite .ok ?_)
    split
    · next he => exact ih.pass he
    · exact .ok

theorem decompress2_located {t : FseDT} {bs : List Byte} {cap : Nat} :
    FailsWith Err.Located (decompress2 t bs cap) := by
  unfold decompress2
  split
  · next he => exact openStream_located.pass he
  · exact decompress2Loop_located

theorem readWeights_located {bs : List Byte} : FailsWith Err.Located (readWeights bs) := by
  unfold readWeights
  split
  · exact .error ⟨rfl, rfl⟩
  · refine .ite (.check ⟨rfl, rfl⟩ .ok) (.check ⟨rfl, rfl⟩ ?_)
    dsimp only
    split
    · next he => exact readNCount_located.shift.pass he
    · split
      · exact .error ⟨rfl, rfl⟩
      · split
        · next he => exact decompress2_located.shift.pass he
        · exact .ok

theorem completeWeights_located {w : List Nat} : FailsWith Err.Located (completeWeights w) :=
  .check ⟨rfl, rfl⟩ <| .check ⟨rfl, rfl⟩ <| .check ⟨rfl, rfl⟩ <| .check ⟨rfl, rfl⟩ <| .check ⟨rfl, rfl⟩ <|
    .check ⟨rfl, rfl⟩ .ok

theorem decodeHufTable_located {w : List Nat} : FailsWith Err.Located (decodeHufTable w) := by
  unfold decodeHufTable
  split
  · next he => exact completeWeights_located.pass he
  · exact .ok

theorem readHuf_located {bs : List Byte} : FailsWith Err.Located (readHuf bs) := by
  unfold readHuf
  split
  · next he => exact readWeights_located.pass he
  · split
    · next he => exact decodeHufTable_located.pass he
    · exact .ok

theorem dec1_located {t : HufDec} {bs : List Byte} {n : Nat} : FailsWith Err.Located (dec1 t bs n) := by
  unfold dec1
  split
  · next he => exact openStream_located.pass he
  · exact .ite .ok (.error ⟨rfl, rfl⟩)

theorem decodeStreams_located {t : HufDec} {bs : List Byte} {l : List (Nat × Nat × Nat)} :
    FailsWith Err.Located (decodeStreams t bs l) := by
  induction l with
  | nil => exact .ok
  | cons x l ih =>
    rw [decodeStreams]
    split
    · next he => exact dec1_located.shift.pass he
    · split
      · next he => exact ih.pass he
      · exact .ok

theorem dec4_located {t : HufDec} {bs : List Byte} {n : Nat} : FailsWith Err.Located (dec4 t bs n) :=
  .check ⟨rfl, rfl⟩ <| .check ⟨rfl, rfl⟩ <| .check ⟨rfl, rfl⟩ decodeStreams_located

theorem decodePlain_located {bs : List Byte} {kind sf : Nat} : FailsWith Err.Located (decodePlain bs kind sf) :=
  .check ⟨rfl, rfl⟩ <| .check ⟨rfl, rfl⟩ <| .ite (.check ⟨rfl, rfl⟩ .ok) (.check ⟨rfl, rfl⟩ .ok)

theorem codedSizes_located {bs : List Byte} {sf : Nat} : FailsWith Err.Located (codedSizes bs sf) :=
  .check ⟨rfl, rfl⟩ <| .check ⟨rfl, rfl⟩ <| .check ⟨rfl, rfl⟩ .ok

theorem decodeCodedStreams_located {t : HufDec} {bs : List Byte} {kind sf hs size comp d : Nat} :
    FailsWith Err.Located (decodeCodedStreams t bs kind sf hs size comp d) := by
  simp only [decodeCodedStreams]
  split
  · next he => exact FailsWith.pass (.shift (.ite dec1_located dec4_located)) he
  · exact .ok

theorem decodeLiterals_located {hd : Option HufDec} {bs : List Byte} :
    FailsWith Err.Located (decodeLiterals hd bs).2 := by
  unfold decodeLiterals
  split
  · exact .error ⟨rfl, rfl⟩
  dsimp only
  split
  · exact decodePlain_located
  split
  · next he => exact codedSizes_located.pass he
  split
  · split
    · next he => exact readHuf_located.shift.pass he
    · split
      · next he => exact decodeCodedStreams_located.pass he
      · exact .ok
  · split
    · exact .error ⟨rfl, rfl⟩
    · exact decodeCodedStreams_located

/-! ### Reading: sequences sections and their replay (R475, R521) -/

theorem readField_located {f m p : Nat} {prev : Option FseDT} {bs : List Byte} :
    FailsWith Err.Located (readField f m prev bs p) := by
  unfold readField
  split
  · split
    · next he => exact builtTable_located.pass he
    · exact .ok
  · split
    · exact .error ⟨rfl, rfl⟩
    · exact .check ⟨rfl, rfl⟩ .ok
  · split
    · next he => exact readNCount_located.shift.pass he
    · split
      · next he => exact builtTable_located.pass he
      · exact .ok
  · split
    · exact .error ⟨rfl, rfl⟩
    · exact .ok

theorem decodeSeqStream_located {tLL tOF tML : FseDT} {rep : DecRep} {tag n p : Nat} {bs : List Byte} :
    FailsWith Err.Located (decodeSeqStream tLL tOF tML rep tag n bs p) := by
  refine .check ⟨rfl, rfl⟩ ?_
  split
  · next he => exact openStream_located.shift.pass he
  · exact .ite .ok (.error ⟨rfl, rfl⟩)

theorem decodeSeqTables_located {dt : Vector (Option FseDT) 4} {rep : DecRep} {tag n modes p : Nat} {bs : List Byte} :
    FailsWith Err.Located (decodeSeqTables dt rep tag n modes bs p) := by
  unfold decodeSeqTables
  split
  · next he => exact readField_located.pass he
  · split
    · next he => exact readField_located.pass he
    · split
      · next he => exact readField_located.pass he
      · exact decodeSeqStream_located

theorem readNbSeq_located {bs : List Byte} : FailsWith Err.Located (readNbSeq bs) :=
  .ite .ok (.ite (.check ⟨rfl, rfl⟩ .ok) (.check ⟨rfl, rfl⟩ .ok))

theorem decodeSequences_located {dt : Vector (Option FseDT) 4} {rep : DecRep} {tag : Nat} {bs : List Byte} :
    FailsWith Err.Located (decodeSequences dt rep tag bs) := by
  unfold decodeSequences
  split
  · exact .error ⟨rfl, rfl⟩
  refine .ite (.check ⟨rfl, rfl⟩ .ok) ?_
  split
  · next he => exact readNbSeq_located.pass he
  refine .check ⟨rfl, rfl⟩ <| .check ⟨rfl, rfl⟩ ?_
  split
  · exact .error ⟨rfl, rfl⟩
  refine .check ⟨rfl, rfl⟩ ?_
  split
  · next he => exact decodeSeqTables_located.pass he
  · exact .ok

theorem replayLoop_located {m : Memory} {base hist cap window i : Nat} {qs : List DecodedSeq} {lits rev : List Byte} :
    FailsWith Err.Located (replayLoop m base hist cap window i qs lits rev) := by
  induction qs generalizing i lits rev with
  | nil => exact .check ⟨rfl, rfl⟩ .ok
  | cons q qs ih => exact .check ⟨rfl, rfl⟩ <| .check ⟨rfl, rfl⟩ <| .check ⟨rfl, rfl⟩ ih

/-! ### Writing: no error has an offset (R210, R322, R375, R465) -/

theorem norm2Share_raisable {vlog rstep acc : Nat} {l : List (Nat × Int)} :
    FailsWith Err.Raisable (norm2Share vlog rstep acc l) := by
  induction l generalizing acc with
  | nil => exact .ok
  | cons x l ih =>
    refine .ite (.check (.of_code rfl) ?_) ?_ <;> split
    · exact .ok
    · next he => exact ih.pass he
    · exact .ok
    · next he => exact ih.pass he

theorem normalize2_raisable {count : List Nat} {tl total : Nat} :
    FailsWith Err.Raisable (normalize2 count tl total) :=
  .ite .ok <| .ite .ok norm2Share_raisable

theorem normalize_raisable {count : List Nat} {tl total : Nat} : FailsWith Err.Raisable (normalize count tl total) :=
  .ite normalize2_raisable .ok

theorem normCommand_raisable {count : List Nat} {log total maxSym : Nat} :
    FailsWith Err.Raisable (normCommand count log total maxSym) :=
  .check (.of_code rfl) <| .check (.of_code rfl) <| .check (.of_code rfl) <|
    .check (.of_code rfl) normalize_raisable

theorem compressWeights_raisable {w : List Nat} {room : Nat} : FailsWith Err.Raisable (compressWeights w room) := by
  refine .ite .ok ?_
  split
  · next he => exact normalize_raisable.pass he
  · split
    · exact .ite .ok .ok
    · exact .error (.of_code rfl)

theorem writeRawWeights_raisable {c cap : Nat} {w : List Nat} : FailsWith Err.Raisable (writeRawWeights c w cap) :=
  .check (.of_code rfl) <| .check (.of_code rfl) .ok

theorem hufDescription_raisable {t : HufTable} {cap : Nat} : FailsWith Err.Raisable (hufDescription t cap) := by
  simp only [hufDescription]
  split
  · next he => exact FailsWith.pass (.ite compressWeights_raisable .ok) he
  · exact .ite .ok writeRawWeights_raisable
  · exact writeRawWeights_raisable

theorem encodeLiterals_raisable {tie : Config.HufTie} {ht0 ht1 : Option HufTable} {lits : List Byte} {cap : Nat} :
    FailsWith Err.Raisable (encodeLiterals tie ht0 ht1 lits cap).out := by
  obtain ⟨-, hsmall, -⟩ := encodeLiterals_fits tie ht0 ht1 lits cap
  exact fun e he => hsmall e he ▸ .of_code rfl

theorem builtTable_raisable {α : Type} {t : Option α} : FailsWith Err.Raisable (builtTable t) :=
  builtTable_located.mono Err.Located.raisable

theorem compressedField_raisable {f ms : Nat} {codes counts : List Nat} :
    FailsWith Err.Raisable (compressedField f codes counts ms) := by
  simp only [compressedField]
  split
  · next he => exact normalize_raisable.pass he
  · split
    · exact .ok
    · next he => exact builtTable_raisable.pass he
    · next he _ => exact builtTable_raisable.pass he

theorem chooseField_raisable {factor f : Nat} {codes : List Nat} :
    FailsWith Err.Raisable (chooseField factor f codes) := by
  simp only [chooseField]
  split
  · split
    · next he => exact builtTable_raisable.pass he
    · exact .ok
  · exact .ok
  · exact compressedField_raisable

theorem putField_raisable {factor f cap p : Nat} {codes : List Nat} :
    FailsWith Err.Raisable (putField factor f codes cap p) := by
  unfold putField
  split
  · next he => exact chooseField_raisable.pass he
  · exact .check (.of_code rfl) .ok

theorem putStream_raisable {fields : List BitField} {hdr : List Byte} {cap : Nat} :
    FailsWith Err.Raisable (putStream fields hdr cap) :=
  .check (.of_code rfl) .ok

theorem encodeSome_raisable {factor cap : Nat} {qs : List TrueSeq} :
    FailsWith Err.Raisable (encodeSome factor qs cap) := by
  simp only [encodeSome]
  refine .check (.of_code rfl) ?_
  split
  · next he => exact putField_raisable.pass he
  · split
    · next he => exact putField_raisable.pass he
    · split
      · next he => exact putField_raisable.pass he
      · exact putStream_raisable

theorem encodeSequences_raisable {factor cap : Nat} {qs : List TrueSeq} :
    FailsWith Err.Raisable (encodeSequences factor qs cap) := by
  unfold encodeSequences
  exact .ite (.check (.of_code rfl) .ok) encodeSome_raisable

/-! ### Checks that give a code (R166, R305, R421) -/

/-- Every code a check can give is one that ZCORE raises. -/
def GivesRaised (o : Option ErrCode) : Prop := ∀ c, o = some c → c.raised = true

theorem GivesRaised.none : GivesRaised none := nofun

theorem GivesRaised.check {c : Prop} [Decidable c] {e : ErrCode} {o : Option ErrCode} (he : e.raised = true)
    (h : GivesRaised o) : GivesRaised (if c then some e else o) := by
  split
  · rintro _ ⟨⟩
    exact he
  · exact h

theorem readerCheck_givesRaised {s : State} {n : Nat} : GivesRaised (s.readerCheck n) :=
  .check rfl <| .check rfl <| .check rfl .none

theorem hufBuildCheck_givesRaised {counts : List Nat} {maxBits maxSym : Nat} :
    GivesRaised (hufBuildCheck counts maxBits maxSym) :=
  .check rfl <| .check rfl <| .check rfl .none

theorem ssStoreCheck_givesRaised {ss : SeqStore} {addr ll code mlBase : Nat} :
    GivesRaised (ssStoreCheck ss addr ll code mlBase) :=
  .check rfl <| .check rfl <| .check rfl <| .check rfl <| .check rfl .none

theorem errorOfDecode_raised (e : DecodeError) : (errorOfDecode e).raised = true := by
  cases e <;> rfl

end Sys2Proof.Machine
end

section
/-! Every command and every step completes (R551, R559), and what it leaves in the error registers (R550, R553,
R554). -/

namespace Sys2Proof.Machine

/-! ### The ways a command completes -/

/-- The error registers: `ERRKIND`, `ERRCODE` and `ERROFF` (R550). -/
def State.errors (s : State) : BitVec 2 × Byte × DWord := (s.errKind, s.errCode, s.errOff)

theorem State.errors_eq_iff {s : State} {kind : BitVec 2} {code : Byte} {off : DWord} :
    s.errors = (kind, code, off) ↔ s.errKind = kind ∧ s.errCode = code ∧ s.errOff = off := by
  simp [errors]

/-- The outcome is a next state: its error registers are those of `s`, or clear, or those of an error ZCORE raises. -/
def Completes (s : State) (o : Out) : Prop :=
  ∃ t, o = .next t ∧
    (t.errors = s.errors ∨ t.errors = (0, 0, 0)
      ∨ ∃ e : Err, e.Raisable ∧ t.errors = (e.code.kind, e.code.byte, BitVec.ofNat 64 e.off))

section Rules

variable {s t u : State} {o : Out} {c : Prop} [Decidable c] {code : ErrCode} {e : Err} {a n : Nat}

theorem Completes.kept (h : t.errors = s.errors) : Completes s (.next t) := ⟨t, rfl, .inl h⟩

theorem Completes.cleared (h : t.errors = (0, 0, 0)) : Completes s (.next t) := ⟨t, rfl, .inr (.inl h)⟩

theorem Completes.raisedErr (he : e.Raisable) : Completes s (raiseErr e u) := ⟨_, rfl, .inr (.inr ⟨e, he, rfl⟩)⟩

theorem Completes.raised (h : code.raised = true) : Completes s (raise code u) := .raisedErr (.of_code h)

/-- An error that leaves any value in a window. -/
theorem Completes.raisedDst (he : e.Raisable) : Completes s (raiseDst e a n u) := .raisedErr (u := u.clobber a n) he

/-- A check that raises an error. -/
theorem Completes.check (h : code.raised = true) (ho : Completes s o) :
    Completes s (if c then raise code u else o) := by
  split
  · exact .raised h
  · exact ho

theorem Completes.checkDst (he : e.Raisable) (ho : Completes s o) :
    Completes s (if c then raiseDst e a n u else o) := by
  split
  · exact .raisedDst he
  · exact ho

/-- A command of a slot or state register (R115). -/
theorem Completes.four {k : BitVec 4} {f : Fin 4 → Out} (h : ∀ j, Completes s (f j)) :
    Completes s (withFour k s f) := by
  obtain ⟨j, hj⟩ | hr := withFour_cases (rfl : withFour k s f = _)
  · exact hj ▸ h j
  · exact hr ▸ .raised rfl

/-- A command of a table of a pair (R115). -/
theorem Completes.two {k : BitVec 4} {f : Fin 2 → Out} (h : ∀ j, Completes s (f j)) : Completes s (withTwo k s f) := by
  obtain ⟨j, hj⟩ | hr := withTwo_cases (rfl : withTwo k s f = _)
  · exact hj ▸ h j
  · exact hr ▸ .raised rfl

end Rules

/-! ### Commands whose body is more than a list of checks -/

section Commands

variable {s : State}

theorem execBrInit_completes : Completes s (execBrInit s) := by
  unfold execBrInit
  refine .check rfl ?_
  split
  · exact .raisedErr (.of_code rfl)
  · dsimp only
    split
    · exact .raisedErr ⟨rfl, fun h => absurd rfl h⟩
    · exact .kept rfl

theorem execBrPeek_completes : Completes s (execBrPeek s) := by
  unfold execBrPeek
  split
  · next h => exact .raised (readerCheck_givesRaised _ h)
  · exact .kept rfl

theorem execBrRead_completes : Completes s (execBrRead s) := by
  unfold execBrRead
  split
  · next h => exact .raised (readerCheck_givesRaised _ h)
  · exact .kept rfl

theorem execFseNorm_completes : Completes s (execFseNorm s) := by
  unfold execFseNorm
  split
  · next h => exact .raisedErr (normCommand_raisable _ h)
  · exact .kept rfl

theorem execFseWrnc_completes : Completes s (execFseWrnc s) := by
  unfold execFseWrnc
  refine .check rfl <| .check rfl ?_
  split <;> exact .checkDst (.of_code rfl) <| .kept rfl

theorem execFseRdnc_completes : Completes s (execFseRdnc s) := by
  unfold execFseRdnc
  refine .check rfl ?_
  split
  · next h => exact .raisedErr (readNCount_located _ h).raisable
  · exact .kept rfl

theorem execFseBuildCt_completes {slot : BitVec 4} : Completes s (execFseBuildCt slot s) := by
  refine .four fun k => .check rfl ?_
  split
  · next h => exact .raisedErr (checkedCT_located _ h).raisable
  · exact .kept rfl

theorem execFseRleCt_completes {slot : BitVec 4} : Completes s (execFseRleCt slot s) :=
  .four fun _ => .check rfl <| .kept rfl

theorem execFseBuildDt_completes {slot : BitVec 4} : Completes s (execFseBuildDt slot s) := by
  refine .four fun k => .check rfl ?_
  split
  · next h => exact .raisedErr (checkedDT_located _ h).raisable
  · exact .kept rfl

theorem execFseRleDt_completes {slot : BitVec 4} : Completes s (execFseRleDt slot s) :=
  .four fun _ => .check rfl <| .kept rfl

theorem execFseGetdt_completes {slot : BitVec 4} : Completes s (execFseGetdt slot s) := by
  refine .four fun k => ?_
  split
  · exact .raised rfl
  · exact .check rfl <| .kept rfl

theorem execFseGetct_completes {slot : BitVec 4} : Completes s (execFseGetct slot s) := by
  refine .four fun k => ?_
  split
  · exact .raised rfl
  · exact .check rfl <| .kept rfl

theorem execFseEncBegin_completes {slot sel : BitVec 4} : Completes s (execFseEncBegin slot sel s) := by
  refine .four fun k => .four fun e => ?_
  split
  · exact .raised rfl
  · exact .check rfl <| .kept rfl

theorem execFseEnc_completes {slot sel : BitVec 4} : Completes s (execFseEnc slot sel s) := by
  refine .four fun k => .four fun e => ?_
  split
  · exact .raised rfl
  · exact .check rfl <| .check rfl <| .check rfl <| .check rfl <| .kept rfl

theorem execFseEncFinish_completes {slot sel : BitVec 4} : Completes s (execFseEncFinish slot sel s) := by
  refine .four fun k => .four fun e => ?_
  split
  · exact .raised rfl
  · exact .check rfl <| .check rfl <| .check rfl <| .kept rfl

theorem execFseDecInit_completes {slot sel : BitVec 4} : Completes s (execFseDecInit slot sel s) := by
  refine .four fun k => .four fun e => ?_
  split
  · exact .raised rfl
  · exact .check rfl <| .check rfl <| .kept rfl

theorem execFseDec_completes {slot sel : BitVec 4} {u : Bool} : Completes s (execFseDec slot sel u s) := by
  refine .four fun k => .four fun e => ?_
  split
  · exact .raised rfl
  · refine .check rfl ?_
    cases u with
    | false => exact .kept rfl
    | true => exact .check rfl <| .check rfl <| .kept rfl

theorem execFseCompress2_completes {slot : BitVec 4} : Completes s (execFseCompress2 slot s) := by
  refine .four fun k => .check rfl ?_
  split
  · exact .raisedDst (.of_code rfl)
  · exact .checkDst (.of_code rfl) <| .kept rfl

theorem execFseDecompress2_completes {slot : BitVec 4} : Completes s (execFseDecompress2 slot s) := by
  refine .four fun k => .check rfl ?_
  split
  · exact .raisedDst (.of_code rfl)
  · split
    · next h => exact .raisedDst (decompress2_located _ h).raisable
    · exact .kept rfl

theorem execFseGetstate_completes {sel : BitVec 4} : Completes s (execFseGetstate sel s) := .four fun _ => .kept rfl

theorem execHufBuild_completes : Completes s (execHufBuild s) := by
  unfold execHufBuild
  split
  · next h => exact .raised (hufBuildCheck_givesRaised _ h)
  · exact .kept rfl

theorem execHufWrite_completes {sel : BitVec 4} : Completes s (execHufWrite sel s) := by
  refine .two fun e => .check rfl ?_
  split
  · exact .raisedDst (.of_code rfl)
  · split
    · next h => exact .raisedDst (hufDescription_raisable _ h)
    · exact .kept rfl

theorem execHufRead_completes : Completes s (execHufRead s) := by
  unfold execHufRead
  refine .check rfl ?_
  split
  · next h => exact .raisedErr (readHuf_located _ h).raisable
  · exact .kept rfl

theorem hufEncode_completes {enc : HufTable → List Byte → Nat → List Byte} {sel : BitVec 4} :
    Completes s (hufEncode enc sel s) := by
  refine .two fun e => .check rfl <| .checkDst (.of_code rfl) ?_
  split
  · exact .raisedDst (.of_code rfl)
  · exact .checkDst (.of_code rfl) <| .kept rfl

theorem hufDecode_completes {dec : HufDec → List Byte → Nat → Except Err (List Byte)}
    (hdec : ∀ {t bs n}, FailsWith Err.Located (dec t bs n)) : Completes s (hufDecode dec s) := by
  unfold hufDecode
  refine .check rfl <| .checkDst (.of_code rfl) ?_
  split
  · exact .raisedDst (.of_code rfl)
  · split
    · next h => exact .raisedDst (hdec _ h).raisable
    · exact .kept rfl

theorem execHufEst_completes {sel : BitVec 4} : Completes s (execHufEst sel s) := by
  refine .two fun e => .check rfl ?_
  split <;> exact .kept rfl

theorem execHufCommit_completes : Completes s (execHufCommit s) := by
  unfold execHufCommit
  split <;> exact .kept rfl

theorem execHufGetcode_completes {sel : BitVec 4} : Completes s (execHufGetcode sel s) := by
  refine .two fun e => .check rfl ?_
  split
  · exact .raised rfl
  · exact .kept rfl

theorem execHufGetdt_completes : Completes s (execHufGetdt s) := by
  unfold execHufGetdt
  split
  · exact .raised rfl
  · exact .check rfl <| .kept rfl

theorem execLitEncode_completes : Completes s (execLitEncode s) := by
  unfold execLitEncode
  refine .check rfl ?_
  dsimp only
  split
  · next h => exact .raisedDst (encodeLiterals_raisable _ h)
  · exact .kept rfl

theorem execLitDecode_completes : Completes s (execLitDecode s) := by
  unfold execLitDecode
  refine .check rfl ?_
  dsimp only
  split
  · next h => exact .raisedErr (decodeLiterals_located _ h).raisable
  · exact .kept rfl

theorem execSsStore_completes : Completes s (execSsStore s) := by
  unfold execSsStore
  split
  · next h => exact .raised (ssStoreCheck_givesRaised _ h)
  · exact .kept rfl

theorem execSsGet_completes : Completes s (execSsGet s) := by
  unfold execSsGet
  split
  · exact .raised rfl
  · exact .kept rfl

theorem execMfGet_completes {sel : BitVec 4} : Completes s (execMfGet sel s) :=
  .two fun _ => .check rfl <| .check rfl <| .kept rfl

theorem execSsGetlit_completes : Completes s (execSsGetlit s) := by
  unfold execSsGetlit
  split
  · exact .raised rfl
  · exact .kept rfl

theorem execSeqEncode_completes : Completes s (execSeqEncode s) := by
  unfold execSeqEncode
  refine .check rfl ?_
  split
  · next h => exact .raisedDst (encodeSequences_raisable _ h)
  · exact .kept rfl

theorem execSeqDecode_completes : Completes s (execSeqDecode s) := by
  unfold execSeqDecode
  refine .check rfl ?_
  split
  · next h => exact .raisedErr (decodeSequences_located _ h).raisable
  · exact .kept rfl
  · exact .kept rfl

theorem execSqGet_completes : Completes s (execSqGet s) := by
  unfold execSqGet
  split
  · exact .raised rfl
  · exact .kept rfl

theorem execReplay_completes : Completes s (execReplay s) := by
  unfold execReplay
  refine .check rfl <| .checkDst (.of_code rfl) ?_
  split
  · next h => exact .raisedDst (replayLoop_located _ h).raisable
  · exact .kept rfl

end Commands

/-! ### Every command, every step -/

theorem exec_completes (i : Instr) (s : State) : Completes s (exec i s) := by
  cases i with
  | nop => exact .kept rfl
  | reset => exact .cleared rfl
  | clrerr => exact .cleared rfl
  | bwInit => exact .check rfl <| .check rfl <| .kept rfl
  | bwAdd => exact .check rfl <| .check rfl <| .check rfl <| .check rfl <| .kept rfl
  | bwFlush => exact .check rfl <| .kept rfl
  | bwClose => exact .check rfl <| .check rfl <| .kept rfl
  | brInit => exact execBrInit_completes
  | brPeek => exact execBrPeek_completes
  | brRead => exact execBrRead_completes
  | brLoad => exact .check rfl <| .kept rfl
  | hist => exact .check rfl <| .kept rfl
  | fseOptlog => exact .check rfl <| .check rfl <| .kept rfl
  | fseNorm => exact execFseNorm_completes
  | fseWrnc => exact execFseWrnc_completes
  | fseRdnc => exact execFseRdnc_completes
  | fseLddef => exact .check rfl <| .kept rfl
  | fseBuildCt => exact execFseBuildCt_completes
  | fseRleCt => exact execFseRleCt_completes
  | fseBuildDt => exact execFseBuildDt_completes
  | fseRleDt => exact execFseRleDt_completes
  | fseSetcount => exact .check rfl <| .kept rfl
  | fseSetnorm => exact .check rfl <| .kept rfl
  | fseGetnorm => exact .check rfl <| .kept rfl
  | fseGetcount => exact .check rfl <| .kept rfl
  | fseGetdt => exact execFseGetdt_completes
  | fseGetct => exact execFseGetct_completes
  | fseEncBegin => exact execFseEncBegin_completes
  | fseEnc => exact execFseEnc_completes
  | fseEncFinish => exact execFseEncFinish_completes
  | fseDecInit => exact execFseDecInit_completes
  | fseDec => exact execFseDec_completes
  | fseCompress2 => exact execFseCompress2_completes
  | fseDecompress2 => exact execFseDecompress2_completes
  | fseGetstate => exact execFseGetstate_completes
  | hufOptlog => exact .check rfl <| .check rfl <| .kept rfl
  | hufBuild => exact execHufBuild_completes
  | hufWrite => exact execHufWrite_completes
  | hufRead => exact execHufRead_completes
  | hufEnc1 => exact hufEncode_completes
  | hufEnc4 => exact hufEncode_completes
  | hufDec1 => exact hufDecode_completes dec1_located
  | hufDec4 => exact hufDecode_completes dec4_located
  | hufEst => exact execHufEst_completes
  | hufCommit => exact execHufCommit_completes
  | hufDiscard => exact .kept rfl
  | hufGetcode => exact execHufGetcode_completes
  | hufGetdt => exact execHufGetdt_completes
  | litEncode => exact execLitEncode_completes
  | litDecode => exact execLitDecode_completes
  | litGet => exact .check rfl <| .kept rfl
  | mfReset => exact .check rfl <| .check rfl <| .check rfl <| .kept rfl
  | mfWindow => exact .check rfl <| .check rfl <| .kept rfl
  | mfBlock => exact .check rfl <| .check rfl <| .check rfl <| .check rfl <| .kept rfl
  | ssReset => exact .kept rfl
  | ssStore => exact execSsStore_completes
  | ssAppend => exact .check rfl <| .check rfl <| .kept rfl
  | ssCodes => exact .kept rfl
  | repInit => exact .kept rfl
  | repCommit => exact .kept rfl
  | ssGet => exact execSsGet_completes
  | repGet => exact .kept rfl
  | ssInfo => exact .kept rfl
  | mfGet => exact execMfGet_completes
  | ssGetlit => exact execSsGetlit_completes
  | seqEncode => exact execSeqEncode_completes
  | seqDecode => exact execSeqDecode_completes
  | drepInit => exact .kept rfl
  | sqGet => exact execSqGet_completes
  | drepGet => exact .kept rfl
  | replay => exact execReplay_completes

theorem issue_completes (w : BitVec 32) (s : State) : Completes s (issue w s) := by
  unfold issue
  split
  · exact .kept rfl
  · split
    · exact .raised (errorOfDecode_raised _)
    · exact exec_completes _ _

theorem step_completes (s : State) : Completes s (step s) := by
  unfold step
  split
  · exact .kept rfl
  · next a rest _ =>
    cases a with
    | setArg k v => exact .kept rfl
    | setByte a b => exact .kept rfl
    | command w => exact issue_completes w { s with host := rest, cmd := w }

/-! ### The error registers -/

/-- A command or step completes with legal error registers, if they were legal before it. -/
theorem Completes.errorOk {s t : State} (h : Completes s (.next t)) (hs : s.ErrorOk) : t.ErrorOk := by
  obtain ⟨_, ⟨⟩, h | h | ⟨e, ⟨hraised, hzero⟩, h⟩⟩ := h <;> obtain ⟨hkind, hcode, hoff⟩ := State.errors_eq_iff.1 h
  · unfold State.ErrorOk
    rwa [hkind, hcode, hoff]
  · exact ⟨.inl ⟨hkind, hcode⟩, fun _ => hoff⟩
  · refine ⟨.inr ⟨e.code, hraised, hkind, hcode⟩, fun hk => ?_⟩
    rw [hoff, hzero (hkind ▸ hk)]
    rfl

/-- Settles O13: a step keeps the error registers, clears them, or takes an error that ZCORE raises. -/
theorem stepKeepsErrors : Obligations.StepKeepsErrors := by
  unfold Obligations.StepKeepsErrors
  intro s t hs h
  exact (h ▸ step_completes s : Completes s (.next t)).errorOk hs

/-- Settles O8: a command without a pending error keeps the registers clear, clears them, or takes an error that ZCORE
raises. -/
theorem everyCommandCompletes : Obligations.EveryCommandCompletes := by
  unfold Obligations.EveryCommandCompletes
  refine ⟨fun s => ?_, fun i s hk hc => ?_⟩
  · obtain ⟨t, h, -⟩ := step_completes s
    exact ⟨t, h⟩
  · obtain ⟨t, h, ht⟩ := exec_completes i s
    refine ⟨t, h, ?_⟩
    obtain ht | ht | ⟨e, ⟨hraised, -⟩, ht⟩ := ht <;> obtain ⟨hkind, hcode, -⟩ := State.errors_eq_iff.1 ht
    · exact .inl ⟨hkind.trans hk, hcode.trans hc⟩
    · exact .inl ⟨hkind, hcode⟩
    · exact .inr ⟨e.code, hraised, hkind, hcode⟩

/-! ### Commands without operands -/

theorem exec_hufCommit_of_pending {s : State} (h : s.hpend = true) :
    exec .hufCommit s = .next { s with ht := s.ht.set 0 s.ht[1], hpend := false } :=
  congrArg Host.Outcome.next (if_pos h)

theorem exec_hufCommit_of_not_pending {s : State} (h : s.hpend = false) : exec .hufCommit s = .next s :=
  congrArg Host.Outcome.next (if_neg (ne_true_of_eq_false h))

/-- Settles O18: each command's body is the state its rule gives; HUF_COMMIT looks at `HPEND` first. -/
theorem stateCommands : Obligations.StateCommands := by
  unfold Obligations.StateCommands
  exact fun s => ⟨rfl, rfl, rfl, exec_hufCommit_of_pending, exec_hufCommit_of_not_pending, rfl, rfl, rfl, rfl, rfl⟩

end Sys2Proof.Machine
end

section
/-! A distribution in its registers (R41): `NORM[0..NMAX]` as a list, and R236's check of it. -/

namespace Sys2Proof.Machine

@[simp] theorem State.normList_length (s : State) : s.normList.length = s.nmax.toNat + 1 := by
  have := s.nmax.isLt
  simp only [State.normList, State.normAll, List.length_take, List.length_map, Vector.length_toList]
  omega

/-- The states the symbols below `x` take, summed symbol by symbol. -/
theorem firstSlot_eq_sum (norm : List Int) (x : Nat) :
    firstSlot norm x = ((List.range x).map fun y => countSlots (norm.getD y 0)).sum := by
  induction x with
  | zero => rfl
  | succ x ih =>
    rw [List.range_succ, List.map_append, List.sum_append, ← ih, List.map_singleton, List.sum_singleton, firstSlot,
      List.take_add_one, totalSlots_append, firstSlot, List.getD_eq_getElem?_getD]
    congr 1
    cases norm[x]? with
    | none => rfl
    | some c => simp [totalSlots]

theorem State.slotsBelow_eq (s : State) (x : Nat) : s.slotsBelow x = firstSlot s.normList x :=
  (firstSlot_eq_sum _ x).symm

theorem State.slotsBelow_nmax (s : State) : s.slotsBelow (s.nmax.toNat + 1) = totalSlots s.normList := by
  rw [State.slotsBelow_eq, firstSlot, List.take_of_length_le s.normList_length.le]

theorem forall_getD_iff {p : Int → Prop} (h0 : p 0) {norm : List Int} :
    (∀ x, p (norm.getD x 0)) ↔ ∀ c ∈ norm, p c := by
  refine ⟨fun h c hc => ?_, fun h x => ?_⟩
  · obtain ⟨x, hx⟩ := List.mem_iff_getElem?.1 hc
    simpa [hx] using h x
  · rw [List.getD_eq_getElem?_getD]
    cases hx : norm[x]? with
    | none => exact h0
    | some c => exact h c (List.mem_of_getElem? hx)

/-- R236's check of the registers. -/
theorem State.normConsistent_iff (s : State) : normConsistent s.normList s.nlog.toNat = true ↔
    (∀ x, -1 ≤ s.share x) ∧ s.slotsBelow (s.nmax.toNat + 1) = 2 ^ s.nlog.toNat := by
  rw [Machine.normConsistent_iff, s.slotsBelow_nmax, ← forall_getD_iff (p := (-1 ≤ ·)) (by decide)]
  rfl

theorem State.not_normConsistent {s : State}
    (h : (∃ x, s.share x < -1) ∨ s.slotsBelow (s.nmax.toNat + 1) ≠ 2 ^ s.nlog.toNat) :
    ¬ normConsistent s.normList s.nlog.toNat = true := by
  rw [s.normConsistent_iff, not_and_or, not_forall]
  exact h.imp_left fun ⟨x, hx⟩ => ⟨x, not_le.2 hx⟩

theorem State.DescriptionOk.consistent {s : State} (h : s.DescriptionOk) :
    normConsistent s.normList s.nlog.toNat = true :=
  let ⟨_, _, _, hmin, hfill⟩ := h
  s.normConsistent_iff.2 ⟨hmin, hfill⟩

end Sys2Proof.Machine
end

section
/-! R235's spread closes: after the last symbol the walk is back at place 0, so every distribution that fills its table
has a spread, and it puts the symbols where R235 says. -/

namespace Sys2Proof.Machine

/-! ### The end of the walk -/

section Walk

variable {size free : Nat}

/-- After its symbols R235's loop stands at the walk's next place. -/
theorem spreadLoop_place {n pos next : Nat} {syms : List Nat} (table : List Nat) (hn : n ≤ size + 1) (hpos : pos < free)
    (hnext : (walk size free n pos)[syms.length]? = some next) :
    (syms.foldl (fun (t : List Nat × Nat) s => (t.1.set t.2 s, spreadNext size free size t.2)) (table, pos)).2
      = next := by
  induction syms generalizing n pos table with
  | nil =>
    obtain _ | n := n
    · cases hnext
    rw [walk_succ_of_lt hpos] at hnext
    exact Option.some.inj hnext
  | cons s syms ih =>
    obtain _ | n := n
    · cases hnext
    rw [walk_succ_of_lt hpos, List.length_cons, List.getElem?_cons_succ] at hnext
    have hne : walk size free n ((pos + walkStep size) % size) ≠ [] := List.ne_nil_of_mem (List.mem_of_getElem? hnext)
    obtain ⟨hlt, m, hm, hwalk⟩ := spreadNext_walk (Nat.le_of_succ_le_succ hn) hne
    exact ih _ (hm.trans (Nat.le_of_succ_le hn)) hlt (hwalk ▸ hnext)

/-- The walk comes back to place 0. -/
theorem walk_returns (h0 : 0 < free) : walk size free (size + 1) 0 = walk size free size 0 ++ [0] := by
  have hwalk (n : Nat) := walk_eq_filter (size := size) (free := free) n 0
  simp only [Nat.zero_mul, Nat.zero_mod] at hwalk
  rw [hwalk, hwalk, List.range'_concat, List.map_append, List.filter_append]
  simp [h0]

theorem walk_eq_walkPlaces : walk size free size 0 = walkPlaces size free := by
  have hwalk := walk_eq_filter (size := size) (free := free) size 0
  rwa [Nat.zero_mul, Nat.zero_mod, ← List.range_eq_range', walkStep, Nat.shiftRight_eq_div_pow,
    Nat.shiftRight_eq_div_pow] at hwalk

end Walk

/-! ### The table of the spread -/

section Table

variable {norm : List Int} {tl : Nat} (htl : 5 ≤ tl) (hok : normConsistent norm tl = true)

include hok

/-- The places are shared out among the symbols at the top and those on the walk. -/
theorem size_eq_low_add_walk :
    2 ^ tl = (expand lowSlots 0 norm).length + (expand Int.toNat 0 norm).length := by
  obtain ⟨hmin, hfill⟩ := normConsistent_iff.1 hok
  rw [expand_length, expand_length, sum_lowSlots_add_toNat hmin, hfill]

include htl

theorem walkPlaces_length :
    (walkPlaces (2 ^ tl) (2 ^ tl - (expand lowSlots 0 norm).length)).length = (expand Int.toNat 0 norm).length := by
  have hsize := size_eq_low_add_walk hok
  rw [← walk_eq_walkPlaces, (walk_perm_range htl (Nat.sub_le _ _)).length_eq, List.length_range]
  omega

/-- R235: the table of the spread, and that its check at the end passes. -/
theorem spread_eq_scatter : spread norm tl = some
    (scatter
      (scatter (List.replicate (2 ^ tl) 0)
        (List.range' (2 ^ tl - (expand lowSlots 0 norm).length) (expand lowSlots 0 norm).length).reverse
        (expand lowSlots 0 norm))
      (walkPlaces (2 ^ tl) (2 ^ tl - (expand lowSlots 0 norm).length)) (expand Int.toNat 0 norm)) := by
  have hsize := size_eq_low_add_walk hok
  have hlen := walkPlaces_length htl hok
  rw [← walk_eq_walkPlaces] at hlen ⊢
  obtain ⟨free, hfree⟩ : ∃ free, free = 2 ^ tl - (expand lowSlots 0 norm).length := ⟨_, rfl⟩
  rw [← hfree] at hlen ⊢
  have hlow := spreadLow_eq_scatter (norm := norm) (size := 2 ^ tl) (free := free) (expand_length lowSlots 0 norm)
    (by omega)
  have hexpand : (norm.zipIdx.flatMap fun x => List.replicate x.1.toNat x.2) = expand Int.toNat 0 norm := rfl
  have hstart : 0 < free ∨ expand Int.toNat 0 norm = [] :=
    (Nat.eq_zero_or_pos free).symm.imp_right fun h0 => List.length_eq_zero_iff.1 (by omega)
  simp only [spread, hlow, hexpand]
  rw [spreadLoop_eq_scatter _ le_rfl hstart hlen.ge, if_pos]
  obtain h0 | hnil := hstart
  · exact spreadLoop_place _ le_rfl h0 (by rw [walk_returns h0, ← hlen, List.getElem?_concat_length])
  · rw [hnil]
    rfl

variable {syms : List Nat} (h : spread norm tl = some syms)

include h

/-- The symbols on the walk take its places in turn. -/
theorem spread_walk {j x : Nat} (hj : (expand Int.toNat 0 norm)[j]? = some x) :
    ∃ u, (walkPlaces (2 ^ tl) (2 ^ tl - (expand lowSlots 0 norm).length))[j]? = some u ∧ syms[u]? = some x := by
  have hlen := walkPlaces_length htl hok
  obtain rfl := Option.some.inj ((spread_eq_scatter htl hok).symm.trans h)
  have hperm := walk_perm_range htl (free := 2 ^ tl - (expand lowSlots 0 norm).length) (Nat.sub_le _ _)
  rw [walk_eq_walkPlaces] at hperm
  have hread := congrArg (·[j]?) (map_getElem?_scatter
    (scatter (List.replicate (2 ^ tl) 0)
      (List.range' (2 ^ tl - (expand lowSlots 0 norm).length) (expand lowSlots 0 norm).length).reverse
      (expand lowSlots 0 norm)) (hperm.nodup_iff.2 List.nodup_range) hlen fun p hp => by
        have := List.mem_range.1 (hperm.mem_iff.1 hp)
        rw [scatter_length, List.length_replicate]
        omega)
  obtain ⟨hlt, -⟩ := List.getElem?_eq_some_iff.1 hj
  rw [← hlen] at hlt
  refine ⟨_, List.getElem?_eq_getElem hlt, ?_⟩
  simpa [hj, hlt] using hread

/-- The symbols of share -1 stand at the top, the first the highest. -/
theorem spread_low {j x : Nat} (hj : (expand lowSlots 0 norm)[j]? = some x) : syms[2 ^ tl - 1 - j]? = some x := by
  have hsize := size_eq_low_add_walk hok
  obtain rfl := Option.some.inj ((spread_eq_scatter htl hok).symm.trans h)
  have hperm := walk_perm_range htl (free := 2 ^ tl - (expand lowSlots 0 norm).length) (Nat.sub_le _ _)
  rw [walk_eq_walkPlaces] at hperm
  obtain ⟨hlt, -⟩ := List.getElem?_eq_some_iff.1 hj
  rw [scatter_getElem?_of_notMem _ (fun hmem => by have := List.mem_range.1 (hperm.mem_iff.1 hmem); omega)]
  have hread := congrArg (·[j]?) (map_getElem?_scatter (List.replicate (2 ^ tl) 0)
    (List.nodup_reverse.2 (List.nodup_range' (s := 2 ^ tl - (expand lowSlots 0 norm).length)
      (n := (expand lowSlots 0 norm).length))) (vs := expand lowSlots 0 norm) (by simp) fun p hp => by
        simp only [List.mem_reverse, List.mem_range'_1] at hp
        rw [List.length_replicate]
        omega)
  rw [List.getElem?_map, List.getElem?_map, hj, List.getElem?_reverse (by simpa using hlt), List.length_range',
    List.getElem?_range' (by omega)] at hread
  simp only [Option.map_some, Option.some.injEq] at hread
  rw [← hread]
  congr 1
  omega

end Table

/-! ### The symbols of the registers -/

theorem expand_eq_flatMap_range (f : Int → Nat) (i : Nat) (norm : List Int) :
    expand f i norm = (List.range norm.length).flatMap fun x => List.replicate (f (norm.getD x 0)) (i + x) := by
  induction norm generalizing i with
  | nil => rfl
  | cons c norm ih =>
    rw [expand_cons, ih, List.length_cons, List.range_succ_eq_map, List.flatMap_cons, List.flatMap_map]
    simp [Nat.add_assoc, Nat.add_comm 1]

theorem State.walkSymbols_eq (s : State) : s.walkSymbols = expand Int.toNat 0 s.normList := by
  rw [expand_eq_flatMap_range, s.normList_length]
  simp [State.walkSymbols, State.share]

theorem State.lowSymbols_eq (s : State) : s.lowSymbols = expand lowSlots 0 s.normList := by
  rw [expand_eq_flatMap_range, s.normList_length, State.lowSymbols, ← List.filterMap_eq_filter,
    List.filterMap_eq_flatMap_toList]
  refine List.flatMap_congr fun x _ => ?_
  change _ = List.replicate (lowSlots (s.share x)) (0 + x)
  by_cases hx : s.share x = -1 <;> simp [Option.guard, lowSlots, hx]

/-- The spread's table is one that R235 spreads. -/
theorem State.DescriptionOk.spreads {s : State} (h : s.DescriptionOk) {syms : List Nat}
    (hsyms : spread s.normList s.nlog.toNat = some syms) : s.Spreads fun u => syms.getD u 0 := by
  obtain ⟨-, h5, -, -, -⟩ := id h
  have hok := h.consistent
  refine ⟨fun j x hj => ?_, fun j x hj => ?_⟩
  · rw [s.lowSymbols_eq] at hj
    exact congrArg (Option.getD · 0) (spread_low h5 hok hsyms hj)
  · rw [s.walkSymbols_eq] at hj
    rw [s.lowSymbols_eq]
    obtain ⟨u, hu, hx⟩ := spread_walk h5 hok hsyms hj
    exact ⟨u, hu, congrArg (Option.getD · 0) hx⟩

end Sys2Proof.Machine
end

section
/-! FSE_BUILD_CT (R236, R237): every field of the table of a distribution that fills it. -/

namespace Sys2Proof.Machine

/-! ### The states in `nextState` (R237) -/

theorem firstSlot_succ (norm : List Int) (x : Nat) :
    firstSlot norm (x + 1) = firstSlot norm x + countSlots (norm.getD x 0) := by
  rw [firstSlot_eq_sum, firstSlot_eq_sum, List.range_succ, List.map_append, List.sum_append]
  rfl

section Spread

variable {norm : List Int} {tl : Nat} {syms : List Nat} (h5 : 5 ≤ tl) (hok : normConsistent norm tl = true)
  (h : spread norm tl = some syms)

include h5 hok h

theorem spread_lt_length : ∀ y ∈ syms, y < norm.length := fun y hy =>
  lt_length_of_countSlots (spread_count h5 hok h y ▸ (List.count_pos_iff.2 hy).ne')

/-- Every state has a place, and every place a state. -/
theorem places_perm_range : (numbering (cumulative 0 norm) syms).Perm (List.range (2 ^ tl)) := by
  obtain ⟨-, hfill⟩ := normConsistent_iff.1 hok
  have hin := spread_lt_length h5 hok h
  have hcount := spread_count h5 hok h
  refine ((places_nodup hin fun x => (hcount x).le).subperm fun p hp => ?_).perm_of_length_le ?_
  · obtain ⟨u, hu⟩ := List.mem_iff_getElem?.1 hp
    obtain ⟨hlt, -⟩ := List.getElem?_eq_some_iff.1 hu
    rw [numbering_length] at hlt
    have hx := List.getElem?_eq_getElem hlt
    rw [places_getElem? hin hx] at hu
    obtain rfl := Option.some.inj hu
    have hr := count_take_lt_count hx
    have hplaces := (firstSlot_add_le norm syms[u]).1
    rw [hcount] at hr
    exact List.mem_range.2 (by omega)
  · rw [numbering_length, spread_length h, List.length_range]

variable (h12 : tl ≤ 12)

include h12

theorem nextStates_perm : ((nextStates norm syms (2 ^ tl)).map BitVec.toNat).Perm (List.range' (2 ^ tl) (2 ^ tl)) := by
  have hsize : 2 ^ tl ≤ 4096 := Nat.pow_le_pow_right (by decide) h12
  rw [nextStates_eq_scatter, spread_length h]
  refine ((scatter_perm _ ?_ ?_).map _).trans ?_
  · rw [List.length_replicate]
    exact places_perm_range h5 hok h
  · simp [numbering_length, spread_length h]
  · rw [List.map_map, List.map_congr_left (g := id), List.map_id]
    intro u hu
    rw [List.mem_range'_1] at hu
    exact (BitVec.toNat_ofNat _ _).trans (Nat.mod_eq_of_lt (by omega))

/-- A place among those of symbol `x` holds the occurrence of `x` that comes after as many others. -/
theorem exists_nextState {x i : Nat} (hlo : firstSlot norm x ≤ i) (hhi : i < firstSlot norm (x + 1)) :
    ∃ u, syms[u]? = some x ∧ (syms.take u).count x = i - firstSlot norm x
      ∧ ((nextStates norm syms (2 ^ tl)).getD i 0).toNat = 2 ^ tl + u := by
  obtain ⟨-, hfill⟩ := normConsistent_iff.1 hok
  have hcount := spread_count h5 hok h
  have hsize : 2 ^ tl ≤ 4096 := Nat.pow_le_pow_right (by decide) h12
  rw [firstSlot_succ, ← hcount] at hhi
  obtain ⟨u, hu, hr⟩ := exists_occurrence (l := syms) (x := x) (r := i - firstSlot norm x) (by omega)
  have hlt := (List.getElem?_eq_some_iff.1 hu).1
  rw [spread_length h] at hlt
  have hnext := nextStates_getElem? (spread_lt_length h5 hok h) (fun y => (hcount y).le) hfill.le hu
  rw [hr, Nat.add_sub_cancel' hlo] at hnext
  refine ⟨u, hu, hr, ?_⟩
  rw [List.getD_eq_getElem?_getD, hnext, Option.getD_some, BitVec.toNat_ofNat, Nat.mod_eq_of_lt (by omega)]

/-- Within a symbol's places the states rise. -/
theorem nextStates_lt {x i j : Nat} (hlo : firstSlot norm x ≤ i) (hij : i < j) (hhi : j < firstSlot norm (x + 1)) :
    ((nextStates norm syms (2 ^ tl)).getD i 0).toNat < ((nextStates norm syms (2 ^ tl)).getD j 0).toNat := by
  obtain ⟨u, hu, hru, hi⟩ := exists_nextState h5 hok h h12 hlo (hij.trans hhi)
  obtain ⟨v, hv, hrv, hj⟩ := exists_nextState h5 hok h h12 (hlo.trans hij.le) hhi
  rw [hi, hj]
  have huv : u < v := by
    by_contra hge
    obtain rfl | hlt := (not_lt.1 hge).eq_or_lt
    · omega
    · have := count_take_lt_count_take hv hlt
      omega
  omega

end Spread

/-! ### The deltas (R237) -/

/-- `dNB` and `dFS` of a symbol without states. -/
theorem deltas_getD_absent {norm : List Int} (hmin : ∀ c ∈ norm, -1 ≤ c) (tl total : Nat) {x : Nat}
    (hx : x < norm.length) (h0 : norm.getD x 0 = 0) :
    (deltas tl total norm).getD x (0, 0) = (((tl : Int) + 1) * 65536 - 2 ^ tl, 0) := by
  induction norm generalizing total x with
  | nil => cases hx
  | cons c norm ih =>
    obtain _ | x := x
    · obtain rfl : c = 0 := h0
      simp [deltas]
    · obtain ⟨d, hcons, -⟩ := deltas_cons tl total (hmin c (by simp)) norm
      rw [hcons, List.getD_cons_succ]
      exact ih (fun c hc => hmin c (by simp [hc])) _ (Nat.lt_of_succ_lt_succ hx) h0

section Built

variable {norm : List Int} {tl : Nat} {c : FseCT}

/-- R236's check decides whether a table is built. -/
theorem checkedCT_of_consistent (h5 : 5 ≤ tl) (hok : normConsistent norm tl = true) :
    ∃ c, checkedCT norm tl = .ok c ∧ c.maxSym = BitVec.ofNat 8 (norm.length - 1) := by
  have hbuild : ∃ c, buildCT norm tl = some c ∧ c.maxSym = BitVec.ofNat 8 (norm.length - 1) := by
    rw [buildCT, spread_eq_scatter h5 hok]
    exact ⟨_, rfl, rfl⟩
  obtain ⟨c, hc, hmax⟩ := hbuild
  exact ⟨c, by simp [checkedCT, hok, hc], hmax⟩

theorem checkedCT_of_inconsistent (hok : ¬ normConsistent norm tl = true) :
    checkedCT norm tl = .error { code := .fseCorrupt, off := 0 } := if_pos (by simpa using hok)

variable (h12 : tl ≤ 12) (h : checkedCT norm tl = .ok c) {x : Nat} (hx : x < 256)

include h12 h hx

theorem checkedCT_deltas_absent (hlt : x < norm.length) (h0 : norm.getD x 0 = 0) :
    c.deltaNb x = ((tl : Int) + 1) * 65536 - 2 ^ tl ∧ c.deltaFs x = 0 := by
  obtain ⟨hok, -, -, -, -, hfields⟩ := checkedCT_fields h
  obtain ⟨-, hdNB, hdFS⟩ := hfields x hx
  have hsize : (2 : Int) ^ tl ≤ 4096 := by exact_mod_cast Nat.pow_le_pow_right (n := 2) (by decide) h12
  have hpos : (0 : Int) < 2 ^ tl := by positivity
  rw [deltas_getD_absent (normConsistent_iff.1 hok).1 tl 0 hlt h0] at hdNB hdFS
  dsimp only at hdNB hdFS
  rw [BitVec.toInt_ofInt_eq_self (by decide) (by omega) (by omega)] at hdNB
  exact ⟨hdNB, hdFS⟩

theorem checkedCT_deltas_single (h1 : norm.getD x 0 = 1 ∨ norm.getD x 0 = -1) :
    c.deltaNb x = (tl : Int) * 65536 - 2 ^ tl ∧ c.deltaFs x = (firstSlot norm x : Int) - 1 := by
  have hone : countSlots (norm.getD x 0) = 1 := by obtain h1 | h1 := h1 <;> rw [h1] <;> rfl
  obtain ⟨-, hdNB, hdFS⟩ := checkedCT_deltas h12 h hx hone le_rfl
  simpa [mostBits, hdFS] using hdNB

theorem checkedCT_deltas_many {b : Nat} (h1 : 1 < norm.getD x 0) (hlo : 2 ^ b ≤ norm.getD x 0 - 1)
    (hhi : norm.getD x 0 - 1 < 2 ^ (b + 1)) :
    c.deltaNb x = ((tl : Int) - b) * 65536 - norm.getD x 0 * 2 ^ (tl - b)
      ∧ c.deltaFs x = (firstSlot norm x : Int) - norm.getD x 0 := by
  obtain ⟨k, hk⟩ := Int.eq_ofNat_of_zero_le (a := norm.getD x 0) (by omega)
  rw [hk] at h1 hlo hhi ⊢
  have hpos : 1 ≤ k := by omega
  obtain ⟨hle, hdNB, hdFS⟩ := checkedCT_deltas h12 h hx (k := k) (by rw [hk]; rfl) hpos
  have hbit : highestBit (k - 1) = b := by
    refine highestBit_eq ?_ ?_
    · zify [hpos]; exact_mod_cast hlo
    · zify [hpos]; exact_mod_cast hhi
  have hb : b < tl := (Nat.pow_lt_pow_iff_right (a := 2) (by decide)).1 (by zify at hle ⊢; omega)
  rw [mostBits, if_neg (by omega), hbit, Nat.cast_sub hb.le] at hdNB
  exact ⟨hdNB, hdFS⟩

end Built

/-! ### The command -/

/-- Settles O31: R236's check decides whether the table is built, since the spread of a distribution that fills its
table closes; its fields are those of R237. -/
theorem buildEncodingTable : Obligations.BuildEncodingTable := by
  unfold Obligations.BuildEncodingTable
  refine fun s k => ⟨fun hv => raises_of_raise ?_,
    fun hv hbad => raisesFrom_of_raiseErr (e := ⟨.fseCorrupt, 0⟩) ?_, fun hs => ?_⟩
  · simp [exec, execFseBuildCt, hv]
  · simp [exec, execFseBuildCt, hv, checkedCT_of_inconsistent (State.not_normConsistent hbad), State.setCT]
  obtain ⟨hv, h5, h12, -, -⟩ := id hs
  have hok := hs.consistent
  obtain ⟨T, hT, hmax⟩ := checkedCT_of_consistent h5 hok
  obtain ⟨-, hlog, syms, hsyms, hnext, hfields⟩ := checkedCT_fields hT
  refine ⟨T, fun u => syms.getD u 0, hs.spreads hsyms, ?_⟩
  simp only [hlog, hnext, s.slotsBelow_eq]
  refine ⟨?_, trivial, ?_, fun x => ?_, fun x hx => ?_,
    nextStates_perm h5 hok hsyms h12, fun x i hlo hhi => ?_, fun x i j hlo hij hhi => ?_⟩
  · simp [exec, execFseBuildCt, hv, hT, State.setCT]
  · simp [hmax]
  · obtain ⟨hhas, -, -⟩ := hfields x x.isLt
    rw [FseCT.has_fin] at hhas
    rw [hhas, bne_iff_ne]
    rfl
  · have hlt : x.val < s.normList.length := by rw [s.normList_length]; omega
    have hnb : T.dNB[x].toInt = T.deltaNb x := by rw [FseCT.deltaNb, at256_fin]
    have hfs : T.dFS[x].toInt = T.deltaFs x := by rw [FseCT.deltaFs, at256_fin]
    rw [hnb, hfs]
    exact ⟨checkedCT_deltas_absent h12 hT x.isLt hlt, checkedCT_deltas_single h12 hT x.isLt,
      fun b => checkedCT_deltas_many h12 hT x.isLt⟩
  · obtain ⟨u, hu, -, hi⟩ := exists_nextState h5 hok hsyms h12 hlo hhi
    rw [hi, Nat.add_sub_cancel_left]
    exact congrArg (Option.getD · 0) hu
  · exact nextStates_lt h5 hok hsyms h12 hlo hij hhi

end Sys2Proof.Machine
end

section
/-! FSE_BUILD_DT (R240, R241): every state of the table of a distribution that fills it. -/

namespace Sys2Proof.Machine

/-! ### The states' symbols -/

/-- The symbol at every state of a decoding table. -/
def FseDT.symbols (T : FseDT) : List Nat := T.entries.map fun e => e.sym.toNat

theorem FseDT.entry_sym (T : FseDT) (u : Nat) : (T.entry u).sym.toNat = T.symbols.getD u 0 := by
  rw [FseDT.entry, FseDT.symbols, List.getD_eq_getElem?_getD, List.getD_eq_getElem?_getD, List.getElem?_map]
  cases T.entries[u]? <;> rfl

theorem FseDT.countP_sym (T : FseDT) (x : Nat) :
    T.entries.countP (fun e => e.sym.toNat == x) = T.symbols.count x := by
  rw [FseDT.symbols, List.count, List.countP_map]
  rfl

/-- The earlier states of a state's symbol, counted by their symbols. -/
theorem FseDT.countP_take_sym (T : FseDT) (u : Nat) (e : FseEntry) :
    (T.entries.take u).countP (fun f => f.sym == e.sym) = (T.symbols.take u).count e.sym.toNat := by
  rw [FseDT.symbols, ← List.map_take, List.count, List.countP_map]
  refine List.countP_congr fun f _ => ?_
  simp [BitVec.toNat_inj]

theorem dtEntries_map_sym (tl u : Nat) {next syms : List Nat} (h : ∀ x ∈ syms, x < 256) :
    (dtEntries tl u next syms).map (fun e => e.sym.toNat) = syms := by
  induction syms generalizing u next with
  | nil => rfl
  | cons x syms ih =>
    obtain ⟨hx, hrest⟩ := List.forall_mem_cons.1 h
    rw [dtEntries, List.map_cons, ih _ hrest]
    exact congrArg (· :: syms) ((BitVec.toNat_ofNat _ _).trans (Nat.mod_eq_of_lt hx))

/-! ### Width and base (R241) -/

/-- The width and the base of the state numbered `y`, and the next states it leads to. -/
theorem stateEntry_fields {tl x y b : Nat} (h12 : tl ≤ 12) (hy : y < 2 ^ (tl + 1)) (hlo : 2 ^ b ≤ y)
    (hhi : y < 2 ^ (b + 1)) :
    (stateEntry tl x y).nb.toNat = tl - b ∧ (stateEntry tl x y).ns.toNat + 2 ^ tl = y * 2 ^ (tl - b)
      ∧ (stateEntry tl x y).ns.toNat + 2 ^ (stateEntry tl x y).nb.toNat ≤ 2 ^ tl := by
  have hb : b ≤ tl := Nat.lt_succ_iff.1 ((Nat.pow_lt_pow_iff_right (a := 2) (by decide)).1 (hlo.trans_lt hy))
  have hsize : 2 ^ tl ≤ 4096 := Nat.pow_le_pow_right (by decide) h12
  have hsplit : 2 ^ b * 2 ^ (tl - b) = 2 ^ tl := by rw [← pow_add, Nat.add_sub_cancel' hb]
  have hge : 2 ^ tl ≤ y * 2 ^ (tl - b) := hsplit ▸ Nat.mul_le_mul_right _ hlo
  have hlt : (y + 1) * 2 ^ (tl - b) ≤ 2 * 2 ^ tl := by
    rw [← hsplit, ← Nat.mul_assoc, ← pow_succ']
    exact Nat.mul_le_mul_right _ hhi
  rw [Nat.succ_mul] at hlt
  have hpos := Nat.two_pow_pos (tl - b)
  have hnb : (stateEntry tl x y).nb.toNat = tl - b := by
    rw [stateEntry, highestBit_eq hlo hhi, BitVec.toNat_ofNat, Nat.mod_eq_of_lt (by omega)]
  have hns : (stateEntry tl x y).ns.toNat = y * 2 ^ (tl - b) - 2 ^ tl := by
    rw [stateEntry, highestBit_eq hlo hhi, Nat.shiftLeft_eq, BitVec.toNat_ofNat, Nat.mod_eq_of_lt (by omega)]
  rw [hns, hnb]
  omega

section Built

variable {norm : List Int} {tl : Nat}

/-- R240's check decides whether a table is built. -/
theorem checkedDT_of_consistent (h5 : 5 ≤ tl) (hok : normConsistent norm tl = true) :
    ∃ T, checkedDT norm tl = .ok T := by
  have hbuild : ∃ T, buildDT norm tl = some T := by
    rw [buildDT, spread_eq_scatter h5 hok]
    exact ⟨_, rfl⟩
  obtain ⟨T, hT⟩ := hbuild
  exact ⟨T, by simp [checkedDT, hok, hT]⟩

theorem checkedDT_of_inconsistent (hok : ¬ normConsistent norm tl = true) :
    checkedDT norm tl = .error { code := .fseCorrupt, off := 0 } := if_pos (by simpa using hok)

variable {T : FseDT} {syms : List Nat} (h5 : 5 ≤ tl) (hok : normConsistent norm tl = true)
  (hsyms : spread norm tl = some syms) (hentries : T.entries = dtEntries tl 0 (norm.map countSlots) syms)

include h5 hok hsyms

/-- A symbol's states are numbered from its share on, so below twice the table's size. -/
theorem stateNumber_bounds {u x : Nat} (hx : syms[u]? = some x) :
    0 < countSlots (norm.getD x 0) + (syms.take u).count x
      ∧ countSlots (norm.getD x 0) + (syms.take u).count x < 2 ^ (tl + 1) := by
  have hr := count_take_lt_count hx
  rw [spread_count h5 hok hsyms] at hr
  have hfill := (normConsistent_iff.1 hok).2 ▸ (firstSlot_add_le norm x).1
  rw [pow_succ]
  omega

include hentries

theorem symbols_eq_spread (hlen : norm.length ≤ 256) : T.symbols = syms := by
  rw [FseDT.symbols, hentries]
  exact dtEntries_map_sym _ _ fun x hx => (spread_lt_length h5 hok hsyms x hx).trans_le hlen

theorem entry_eq_stateEntry {u x : Nat} (hx : syms[u]? = some x) :
    T.entry u = stateEntry tl x (countSlots (norm.getD x 0) + (syms.take u).count x) := by
  rw [FseDT.entry, hentries]
  exact congrArg (Option.getD · _) (dtEntries_getElem? tl (spread_lt_length h5 hok hsyms) hx)

end Built

/-! ### The command -/

/-- Settles O32: R240's check decides whether the table is built, since the spread of a distribution that fills its
table closes; each state is numbered from its symbol's share on. -/
theorem buildDecodingTable : Obligations.BuildDecodingTable := by
  unfold Obligations.BuildDecodingTable
  refine fun s k => ⟨fun hv => raisesFrom_of_raise ?_,
    fun hv hbad => raisesFrom_of_raiseErr (e := ⟨.fseCorrupt, 0⟩) ?_, fun hs => ?_⟩
  · simp [exec, execFseBuildDt, hv, State.setDT]
  · simp [exec, execFseBuildDt, hv, checkedDT_of_inconsistent (State.not_normConsistent hbad), State.setDT]
  obtain ⟨hv, h5, h12, -, -⟩ := id hs
  have hok := hs.consistent
  obtain ⟨T, hT⟩ := checkedDT_of_consistent h5 hok
  obtain ⟨hlog, syms, hsyms, hentries⟩ := checkedDT_fields hT
  have hsymbols := symbols_eq_spread h5 hok hsyms hentries (by rw [s.normList_length]; omega)
  refine ⟨T, ?_, hlog, ?_, ?_, fun x => ?_, fun u hu => ?_⟩
  · simp [exec, execFseBuildDt, hv, hT, State.setDT]
  · rw [hlog, ← spread_length hsyms, ← hsymbols, FseDT.symbols, List.length_map]
  · simp only [T.entry_sym, hsymbols]
    exact hs.spreads hsyms
  · rw [T.countP_sym, hsymbols, spread_count h5 hok hsyms]
    rfl
  · intro e y
    rw [hlog] at hu ⊢
    obtain ⟨x, hx⟩ : ∃ x, syms[u]? = some x := ⟨_, List.getElem?_eq_getElem (spread_length hsyms ▸ hu)⟩
    have hsym : e.sym.toNat = x := by
      rw [T.entry_sym, hsymbols]
      exact congrArg (Option.getD · 0) hx
    have hy : y = countSlots (s.normList.getD x 0) + (syms.take u).count x := by
      dsimp only [y]
      rw [T.countP_take_sym, hsymbols, hsym]
      rfl
    have he : e = stateEntry s.nlog.toNat x y := hy ▸ entry_eq_stateEntry h5 hok hsyms hentries hx
    obtain ⟨hpos, hlt⟩ := stateNumber_bounds h5 hok hsyms hx
    rw [← hy] at hpos hlt
    rw [he]
    refine ⟨fun b hlo hhi => ?_, ?_⟩
    · obtain ⟨hnb, hns, -⟩ := stateEntry_fields (x := x) h12 hlt hlo hhi
      exact ⟨hnb, hns⟩
    · obtain ⟨-, -, hnext⟩ := stateEntry_fields (x := x) h12 hlt (Nat.log2_self_le hpos.ne') Nat.lt_log2_self
      exact hnext

end Sys2Proof.Machine
end

section
/-! Normalization at the totals FSE_NORM accepts (R114, R210 to R215): the shares stay exact up to a total of `2^31`,
where the lemmas for a block's counts stop at `2^24`. -/

namespace Sys2Proof.Machine

/-! ### A count above its share of one state (R211) -/

/-- R211's product of a count above one state's worth is at least one state: a large count's by the quotient alone, a
small one's because the quotient's rounding costs less than one state. -/
theorem two_pow_scale_le_product {tl total c : Nat} (htl : tl ≤ 12) (hsmall : total < 2 ^ 31) (hc : c ≤ total)
    (h : total >>> tl < c) : 2 ^ (62 - tl) ≤ c * (2 ^ 62 / total) := by
  have h0 : 0 < total := (Nat.zero_lt_of_lt h).trans_le hc
  have hstates : total + 1 ≤ c * 2 ^ tl := by
    rw [Nat.shiftRight_eq_div_pow] at h
    exact (Nat.div_lt_iff_lt_mul (Nat.two_pow_pos tl)).1 h
  have hsplit : 2 ^ tl * 2 ^ (62 - tl) = 2 ^ 62 := by rw [← pow_add, Nat.add_sub_cancel' (by omega)]
  have hquot : 2 ^ 62 < (2 ^ 62 / total + 1) * total := Nat.lt_mul_of_div_lt (Nat.lt_succ_self _) h0
  have hmin : 2 ^ 31 ≤ 2 ^ 62 / total := (Nat.le_div_iff_mul_le h0).2 (by omega)
  generalize 2 ^ 62 / total = q at *
  generalize 2 ^ (62 - tl) = unit at *
  by_contra hlt
  have hcc : c * total < unit := calc
    c * total ≤ c * q := Nat.mul_le_mul_left c (hsmall.le.trans hmin)
    _ < unit := not_le.1 hlt
  have hbig : c * (2 ^ 62 + 1) ≤ c * ((q + 1) * total) := Nat.mul_le_mul_left c hquot
  have hstep : (total + 1) * unit ≤ c * 2 ^ 62 := by
    rw [← hsplit, ← Nat.mul_assoc]
    exact Nat.mul_le_mul_right _ hstates
  have hlt' : (c * q + 1) * total ≤ unit * total := Nat.mul_le_mul_right _ (not_le.1 hlt)
  nlinarith

theorem normShare_ge_one {tl total c : Nat} (htl : tl ≤ 12) (hsmall : total < 2 ^ 31) (hc : c ≤ total)
    (h : total >>> tl < c) : 1 ≤ normShare tl total c := by
  have hp : 1 ≤ (c * (2 ^ 62 / total)) >>> (62 - tl) := by
    rw [Nat.shiftRight_eq_div_pow]
    exact Nat.div_pos (two_pow_scale_le_product htl hsmall hc h) (Nat.two_pow_pos _)
  rw [normShare, if_neg (Nat.zero_lt_of_lt h).ne', if_neg (not_le.2 h)]
  dsimp only
  generalize (c * (2 ^ 62 / total)) >>> (62 - tl) = p at *
  split <;> omega

theorem normShare_is_share {tl total c : Nat} (htl : tl ≤ 12) (hsmall : total < 2 ^ 31) (hc : c ≤ total) :
    ShareFor c (normShare tl total c) := by
  rcases Nat.eq_zero_or_pos c with rfl | h0
  · simp [normShare, ShareFor]
  rcases Nat.lt_or_ge (total >>> tl) c with h | h
  · exact .of_pos h0.ne' (normShare_ge_one htl hsmall hc h)
  · rw [normShare, if_neg h0.ne', if_pos h]
    exact ⟨by omega, le_rfl⟩

/-! ### Both methods (R211, R214) -/

/-- R214's last loop hands out all the states that are left. -/
theorem norm2Share_fills {count : List Nat} {tl total : Nat} (hsum : count.sum = total) (htl : tl ≤ 12)
    (hsmall : total < 2 ^ 31) {norm out : List Int} (hmarked : List.Forall₂ (MarkedFor (total >>> tl)) count norm)
    (h0 : unassignedTotal count norm ≠ 0) {rest : Nat} (hrest : assignedSlots norm + rest = 2 ^ tl)
    (h : norm2Share (62 - tl) ((2 ^ (62 - tl) * rest + (2 ^ (62 - tl - 1) - 1)) / unassignedTotal count norm)
      (2 ^ (62 - tl - 1) - 1) (count.zip norm) = .ok out) :
    List.Forall₂ ShareFor count out ∧ totalSlots out = 2 ^ tl := by
  obtain ⟨hshares, hslots⟩ := norm2Share_spec hmarked h
  have hleft : unassignedTotal count norm ≤ total := hsum ▸ unassignedTotal_le hmarked
  have hunit : 2 ^ 50 ≤ 2 ^ (62 - tl) := Nat.pow_le_pow_right (by decide) (by omega)
  have hhalf : 2 ^ (62 - tl - 1) ≤ 2 ^ (62 - tl) := Nat.pow_le_pow_right (by decide) (by omega)
  rw [shareStep_shiftRight (Nat.pos_of_ne_zero h0) (by omega) (by omega), Nat.shiftRight_eq_div_pow,
    Nat.div_eq_of_lt (by omega)] at hslots
  exact ⟨hshares, by omega⟩

/-- R214 where every symbol is assigned: a state is left only where there are fewer symbols than states. -/
theorem shares_of_full_few {count : List Nat} {tl total : Nat} (hsum : count.sum = total) (hpos : 0 < total)
    {norm : List Int} (hmarked : List.Forall₂ (MarkedFor (total >>> tl)) count norm)
    (hfull : assignedSlots norm = count.length) {m rest : Nat} (hm : m = firstMax (count.map Nat.cast))
    (hrest : assignedSlots norm + rest = 2 ^ tl) :
    List.Forall₂ ShareFor count (norm.set m (norm.getD m 0 + rest))
      ∧ totalSlots (norm.set m (norm.getD m 0 + rest)) = 2 ^ tl := by
  obtain rfl | hleft := Nat.eq_zero_or_pos rest
  · have hall : ∀ x ∈ norm, x ≠ notYet := fun x hx => by
      have := List.countP_eq_length.1 (hfull.trans hmarked.length_eq) x hx
      simp_all
    rw [Nat.cast_zero, add_zero, set_getD_self]
    obtain ⟨hshares, hslots⟩ := shares_of_assigned hmarked hall
    exact ⟨hshares, hslots.trans hrest⟩
  · have hlen : count.length < 2 ^ tl := by omega
    obtain ⟨big, hbig, habove⟩ := exists_count_above hsum hpos hlen
    obtain ⟨top, htop, -, hmax⟩ := firstMax_spec (l := count.map Nat.cast)
      ⟨big, List.mem_map_of_mem hbig, by exact_mod_cast Nat.zero_lt_of_lt habove⟩
    obtain ⟨c, hc, rfl⟩ : ∃ c, count[m]? = some c ∧ (c : Int) = top := by simpa [hm] using htop
    rw [← hrest]
    exact shares_of_full hsum hpos hlen hmarked hfull hc
      fun x hx => by exact_mod_cast hmax x (List.mem_map_of_mem hx)

section Fills

variable {count : List Nat} {tl total : Nat} (hsum : count.sum = total) (hpos : 0 < total)
  (hfew : counted count ≤ 2 ^ tl)

include hsum hpos hfew

variable (htl : tl ≤ 12) (hsmall : total < 2 ^ 31)

include htl hsmall

theorem normalize2_fills {out : List Int} (h : normalize2 count tl total = .ok out) :
    List.Forall₂ ShareFor count out ∧ totalSlots out = 2 ^ tl := by
  unfold normalize2 at h
  extract_lets first total1 toDist1 norm total2 toDist m vlog mid at h
  have hmarked : List.Forall₂ (MarkedFor (total >>> tl)) count norm := by
    dsimp only [norm]
    split
    · exact norm2Second_marked (norm2First_marked tl total count)
    · exact norm2First_marked tl total count
  have hassigned := assignedSlots_add_count hmarked
  have htoDist : assignedSlots norm + toDist = 2 ^ tl := by omega
  split at h
  · next hfull =>
    cases h
    exact shares_of_full_few hsum hpos hmarked hfull (by simp [m, List.map_eq_flatMap]) htoDist
  split at h
  · next hzero =>
    cases h
    exact shares_of_roundRobin_few hsum hpos hfew hmarked hzero htoDist
  · next hzero => exact norm2Share_fills hsum htl hsmall hmarked hzero htoDist h

/-- Where every share of R211 is at most one state, the shares leave no state over. -/
theorem exists_normShare_pos_or_full : (∃ x ∈ count.map (normShare tl total), 0 < x)
    ∨ 2 ^ tl ≤ totalSlots (count.map (normShare tl total)) := by
  have hle : ∀ c ∈ count, c ≤ total := fun c hc => hsum ▸ List.le_sum_of_mem hc
  have hshares : List.Forall₂ ShareFor count (count.map (normShare tl total)) :=
    List.forall₂_map_right_iff.2 (List.forall₂_same.2 fun c hc => normShare_is_share htl hsmall (hle c hc))
  by_cases hlow : ∀ c ∈ count, c ≤ total >>> tl
  · exact .inr (counted_eq_of_le hsum hpos hfew hlow ▸ countP_le_totalSlots hshares)
  · push Not at hlow
    obtain ⟨c, hc, habove⟩ := hlow
    exact .inl ⟨_, List.mem_map_of_mem hc, normShare_ge_one htl hsmall (hle c hc) habove⟩

/-- R215: the shares fill the table, and stand where the counts do. -/
theorem normalize_fills {out : List Int} (h : normalize count tl total = .ok out) :
    List.Forall₂ ShareFor count out ∧ totalSlots out = 2 ^ tl := by
  have hle : ∀ c ∈ count, c ≤ total := fun c hc => hsum ▸ List.le_sum_of_mem hc
  have hshares : List.Forall₂ ShareFor count (count.map (normShare tl total)) :=
    List.forall₂_map_right_iff.2 (List.forall₂_same.2 fun c hc => normShare_is_share htl hsmall (hle c hc))
  have hpositive := exists_normShare_pos_or_full hsum hpos hfew htl hsmall
  simp only [normalize] at h
  generalize count.map (normShare tl total) = norm at *
  split at h
  · exact normalize2_fills hsum hpos hfew htl hsmall h
  next hfits =>
  cases h
  have hbig : ∃ x ∈ norm, 0 < x := by
    by_contra hnone
    have hfull := hpositive.resolve_left hnone
    push Not at hnone
    have hlargest := (forall_getD_iff (p := (· ≤ 0)) le_rfl).2 hnone (firstMax norm)
    zify at hfull
    omega
  obtain ⟨top, htop, htop0, -⟩ := firstMax_spec hbig
  rw [show norm.getD (firstMax norm) 0 = top by simp [htop]] at hfits ⊢
  obtain ⟨hset, hslots⟩ := shares_set hshares htop htop0 (rest := 2 ^ tl - (totalSlots norm : Int)) (by omega)
  exact ⟨hset, by zify; omega⟩

end Fills

end Sys2Proof.Machine
end

section
/-! FSE_NORM (R210 to R215): its checks in order, and the distribution it leaves in the registers. -/

namespace Sys2Proof.Machine

/-! ### A list of shares in the registers (R41) -/

/-- A list of shares, one for each symbol up to the highest, in the registers and back. -/
theorem State.setNorm_normList (s : State) {norm : List Int} (log : Nat) (h0 : norm ≠ []) (hlen : norm.length ≤ 256)
    (hfits : ∀ c ∈ norm, -2 ^ 15 ≤ c ∧ c < 2 ^ 15) : (s.setNorm norm log).normList = norm := by
  have hpos := List.length_pos_iff.2 h0
  have hmax : (s.setNorm norm log).nmax.toNat + 1 = norm.length := by
    rw [State.setNorm_nmax, BitVec.toNat_ofNat]
    omega
  refine List.ext_getElem (by rw [State.normList_length, hmax]) fun i hi hi' => ?_
  have hreg := normRegisters_toInt hfits ⟨i, by omega⟩
  rw [List.getD_eq_getElem _ _ hi'] at hreg
  simpa [State.normList, State.normAll] using hreg

/-- A list of shares that fill the table fits the registers. -/
theorem shares_fit {norm : List Int} {tl : Nat} (h12 : tl ≤ 12) (hfill : totalSlots norm = 2 ^ tl) :
    ∀ c ∈ norm, -2 ^ 15 ≤ c ∧ c < 2 ^ 15 := by
  intro c hc
  have hle : countSlots c ≤ totalSlots norm := List.le_sum_of_mem (List.mem_map_of_mem hc)
  have hsize : 2 ^ tl ≤ 4096 := Nat.pow_le_pow_right (by decide) h12
  rw [countSlots] at hle
  omega

/-! ### The checks (R210) -/

/-- The operands R210 and R114 accept. -/
abbrev NormOperandsOk (log total maxSym : Nat) : Prop := maxSym ≤ 255 ∧ 5 ≤ log ∧ log ≤ 12 ∧ total < 2 ^ 31

/-- R210's checks, in order. -/
theorem normCommand_eq (count : List Nat) (log total maxSym : Nat) : normCommand count log total maxSym =
    if ¬ NormOperandsOk log total maxSym then .error ⟨.argRange, 0⟩
    else if total ≠ count.sum then .error ⟨.argRange, 0⟩
    else if total < 2 ∨ total ∈ count then .error ⟨.needsRle, 0⟩
    else if log < minTableLog total maxSym then .error ⟨.argRange, 0⟩
    else normalize count log total := by
  simp only [normCommand, NormOperandsOk, Bool.or_eq_true, Bool.not_eq_true', symbolOk_eq_false, countOk_eq_false,
    decide_eq_true_eq, List.any_eq_true, beq_iff_eq, exists_eq_right, not_and_or, not_le, not_lt, or_assoc]

/-- What R210 has checked where it gives a distribution. -/
theorem normCommand_ok {norm : List Int} {counts : List Nat} {log total maxSym : Nat}
    (h : normCommand counts log total maxSym = .ok norm) : NormOperandsOk log total maxSym ∧ counts.sum = total
      ∧ 2 ≤ total ∧ minTableLog total maxSym ≤ log ∧ normalize counts log total = .ok norm := by
  rw [normCommand_eq] at h
  split at h
  · cases h
  next hrange =>
  split at h
  · cases h
  next hsum =>
  split at h
  · cases h
  next hsome =>
  split at h
  · cases h
  next hlog => exact ⟨not_not.1 hrange, (not_not.1 hsum).symm, by omega, not_lt.1 hlog, h⟩

theorem State.countList_length (s : State) {maxSym : Nat} (h : maxSym ≤ 255) :
    (s.countList maxSym).length = maxSym + 1 := by
  simp only [State.countList, List.length_take, List.length_map, Vector.length_toList]
  omega

theorem State.countList_getElem? (s : State) {maxSym : Nat} (x : Fin 256) (h : x.val ≤ maxSym) :
    (s.countList maxSym)[x.val]? = some s.counts[x].toNat := by
  rw [State.countList, List.getElem?_take_of_lt (by omega), List.getElem?_map]
  simp

/-! ### The distribution -/

/-- R215 with R210's checks: the shares fill the table, and stand where the counts do. -/
theorem normalize_of_checks {count : List Nat} {norm : List Int} {log total maxSym : Nat}
    (hlen : count.length = maxSym + 1) (hrange : NormOperandsOk log total maxSym) (hsum : count.sum = total)
    (htwo : 2 ≤ total) (hlog : minTableLog total maxSym ≤ log) (h : normalize count log total = .ok norm) :
    List.Forall₂ ShareFor count norm ∧ totalSlots norm = 2 ^ log := by
  obtain ⟨-, -, h12, hsmall⟩ := hrange
  refine normalize_fills hsum (by omega) ?_ h12 hsmall h
  obtain hsamples | hsymbols := le_two_pow_of_minTableLog hlog
  · exact (counted_le_sum count).trans (hsum.le.trans hsamples)
  · exact List.countP_le_length.trans (hlen.le.trans hsymbols)

theorem exec_fseNorm_of_error {s : State} {e : Err} (h : normCommand (s.countList s.a2) s.a0 s.a1 s.a2 = .error e) :
    exec .fseNorm s = raiseErr e { s with nvalid := false } := by
  simp only [exec, execFseNorm, h]

theorem exec_fseNorm_of_ok {s : State} {norm : List Int}
    (h : normCommand (s.countList s.a2) s.a0 s.a1 s.a2 = .ok norm) : exec .fseNorm s = .next (s.setNorm norm s.a0) := by
  simp only [exec, execFseNorm, h]

/-- Where R214 gives no distribution, the error is ARG_RANGE. -/
theorem norm2Share_fails {vlog rstep acc : Nat} {l : List (Nat × Int)} :
    FailsWith (· = ⟨.argRange, 0⟩) (norm2Share vlog rstep acc l) := by
  induction l generalizing acc with
  | nil => exact .ok
  | cons x l ih =>
    refine .ite (.check rfl ?_) ?_ <;> split
    · exact .ok
    · next he => exact ih.pass he
    · exact .ok
    · next he => exact ih.pass he

theorem normalize_fails {count : List Nat} {tl total : Nat} :
    FailsWith (· = ⟨.argRange, 0⟩) (normalize count tl total) :=
  .ite (.ite .ok (.ite .ok norm2Share_fails)) .ok

/-- Settles O26: R210's checks in order; a distribution it gives fits the registers, since its shares fill the table. -/
theorem normalizeCommand : Obligations.NormalizeCommand := by
  unfold Obligations.NormalizeCommand
  intro s counts u inRange
  have hcommand := normCommand_eq counts s.a0 s.a1 s.a2
  have raises {c : ErrCode} (h : normCommand counts s.a0 s.a1 s.a2 = .error ⟨c, 0⟩) : RaisesFrom .fseNorm s u c 0 :=
    raisesFrom_of_raiseErr (exec_fseNorm_of_error h)
  refine ⟨fun hr => raises ?_, fun hr hsum => raises ?_, fun hr hsum hrle => raises ?_,
    fun hr hsum h2 hmem hlog => raises ?_, fun hr hsum h2 hmem hlog => ?_⟩
  · rw [hcommand, if_pos hr]
  · rw [hcommand, if_neg (not_not.2 hr), if_pos hsum]
  · rw [hcommand, if_neg (not_not.2 hr), if_neg (not_not.2 hsum), if_pos hrle]
  · rw [hcommand, if_neg (not_not.2 hr), if_neg (not_not.2 hsum), if_neg (not_or.2 ⟨not_lt.2 h2, hmem⟩), if_pos hlog]
  have hpassed : normCommand counts s.a0 s.a1 s.a2 = normalize counts s.a0 s.a1 := by
    rw [hcommand, if_neg (not_not.2 hr), if_neg (not_not.2 hsum), if_neg (not_or.2 ⟨not_lt.2 h2, hmem⟩),
      if_neg (not_lt.2 hlog)]
  refine ⟨fun e he => raises ?_, fun norm hnorm => ?_⟩
  · rw [hpassed, he, normalize_fails e he]
  · obtain ⟨hmax, -, h12, -⟩ := id hr
    have hlen := s.countList_length hmax
    obtain ⟨hshares, hfill⟩ := normalize_of_checks hlen hr hsum.symm h2 hlog hnorm
    have hmaxSym : norm.length - 1 = s.a2 := by rw [← hshares.length_eq, hlen, Nat.add_sub_cancel]
    refine ⟨normRegisters norm, ?_, normRegisters_toInt (shares_fit h12 hfill)⟩
    rw [exec_fseNorm_of_ok (hpassed.trans hnorm), State.setNorm, hmaxSym]

/-- Settles O27: what FSE_NORM leaves is the list R211 to R214 give, whose shares fill the table. -/
theorem normalizePostconditions : Obligations.NormalizePostconditions := by
  unfold Obligations.NormalizePostconditions
  intro s t hs ht hok
  cases hnorm : normCommand (s.countList s.a2) s.a0 s.a1 s.a2 with
  | error e =>
    rw [exec_fseNorm_of_error hnorm] at ht
    cases ht
    exact absurd hok (ErrCode.kind_ne_zero _)
  | ok norm =>
    rw [exec_fseNorm_of_ok hnorm] at ht
    cases ht
    obtain ⟨hrange, hsum, h2, hlog, hnormalize⟩ := normCommand_ok hnorm
    obtain ⟨hmax, -, h12, -⟩ := id hrange
    have hlen := s.countList_length hmax
    obtain ⟨hshares, hfill⟩ := normalize_of_checks hlen hrange hsum h2 hlog hnormalize
    have hsize : norm.length = s.a2 + 1 := by rw [← hshares.length_eq, hlen]
    have hlist := s.setNorm_normList s.a0 (List.ne_nil_of_length_pos (by omega)) (by omega) (shares_fit h12 hfill)
    have hnmax : (s.setNorm norm s.a0).nmax.toNat = s.a2 := by
      rw [State.setNorm_nmax, BitVec.toNat_ofNat]
      omega
    refine ⟨rfl, ?_, fun x hx => ?_⟩
    · rw [State.slotsBelow_nmax, hlist, hfill, State.setNorm_nlog, BitVec.toNat_ofNat, Nat.mod_eq_of_lt (by omega)]
    · rw [hnmax] at hx
      rw [State.share, hlist, share_eq_zero_iff hshares, List.getD_eq_getElem?_getD, s.countList_getElem? x hx]
      exact ⟨BitVec.toNat_eq (y := 0#32) |>.symm, (forall_getD_iff (p := (-1 ≤ ·)) (by decide)).2 (share_ge hshares) _⟩

end Sys2Proof.Machine
end

section
/-! FSE_WRNC and FSE_RDNC (R220 to R224): their checks in order, and the description of a distribution that fills its
table, which ends with its last share. -/

namespace Sys2Proof.Machine

/-! ### A round of the writer's loop (R220) -/

/-- The zeros a round passes over. -/
abbrev roundZeros (prev0 : Bool) (norm : List Int) : Nat := if prev0 then leadingZeros norm else 0

section Round

variable {fuel threshold nb : Nat} {remaining : Int} {prev0 : Bool} {norm : List Int} (hmore : 1 < remaining)

include hmore

theorem ncountLoop_of_nil (h : norm.drop (roundZeros prev0 norm) = []) :
    ncountLoop (fuel + 1) remaining threshold nb prev0 norm = none := by
  rw [ncountLoop, if_neg (not_le.2 hmore)]
  extract_lets z maxv
  rw [show norm.drop z = [] from h]

/-- A round writes its zeros and one count, and the loop goes on with the rest. -/
theorem ncountLoop_of_cons {c : Int} {rest : List Int} (h : norm.drop (roundZeros prev0 norm) = c :: rest) :
    ncountLoop (fuel + 1) remaining threshold nb prev0 norm
      = (ncountLoop fuel (remaining - c.natAbs) (shrink (remaining - c.natAbs) 14 threshold nb).1
          (shrink (remaining - c.natAbs) 14 threshold nb).2 (countValue remaining threshold c == 1) rest).map
          fun gs => (if prev0 then zeroRun (roundZeros prev0 norm) else [])
            ++ countField remaining threshold nb c :: gs := by
  rw [ncountLoop, if_neg (not_le.2 hmore)]
  extract_lets z maxv
  rw [show norm.drop z = c :: rest from h]
  dsimp only
  split <;> next hrest =>
    exact (congrArg (Option.map fun gs => (if prev0 then zeroRun z else [])
      ++ countField remaining threshold nb c :: gs) hrest).symm

end Round

theorem leadingZeros_append {norm : List Int} (h : norm.drop (leadingZeros norm) ≠ []) (tail : List Int) :
    leadingZeros (norm ++ tail) = leadingZeros norm := by
  induction norm with
  | nil => exact absurd rfl h
  | cons c norm ih =>
    rw [leadingZeros] at h
    rw [List.cons_append, leadingZeros, leadingZeros]
    split
    · next h0 =>
      rw [if_pos h0, List.drop_succ_cons] at h
      rw [ih h]
    · rfl

theorem drop_roundZeros_append {prev0 : Bool} {norm rest : List Int} {c : Int}
    (h : norm.drop (roundZeros prev0 norm) = c :: rest) (tail : List Int) :
    roundZeros prev0 (norm ++ tail) = roundZeros prev0 norm
      ∧ (norm ++ tail).drop (roundZeros prev0 norm) = c :: (rest ++ tail) := by
  have hsame : roundZeros prev0 (norm ++ tail) = roundZeros prev0 norm := by
    cases prev0 with
    | false => rfl
    | true => exact leadingZeros_append (ne_of_eq_of_ne h (List.cons_ne_nil _ _)) tail
  have hle : roundZeros prev0 norm ≤ norm.length := by
    by_contra hgt
    rw [List.drop_eq_nil_of_le (not_le.1 hgt).le] at h
    cases h
  exact ⟨hsame, by rw [List.drop_append_of_le_length hle, h, List.cons_append]⟩

/-- What R220's loop writes does not depend on what follows the last count it takes. -/
theorem ncountLoop_append {fuel fuel' : Nat} {remaining : Int} {threshold nb : Nat} {prev0 : Bool} {norm : List Int}
    {fs : List BitField} (h : ncountLoop fuel remaining threshold nb prev0 norm = some fs) (hfuel : fuel ≤ fuel')
    (tail : List Int) : ncountLoop fuel' remaining threshold nb prev0 (norm ++ tail) = some fs := by
  induction fuel generalizing fuel' remaining threshold nb prev0 norm fs with
  | zero => cases h
  | succ fuel ih =>
    obtain ⟨fuel', rfl⟩ : ∃ k, fuel' = k + 1 := ⟨fuel' - 1, by omega⟩
    rcases le_or_gt remaining 1 with hdone | hmore
    · rw [ncountLoop, if_pos hdone] at h ⊢
      exact h
    cases hdrop : norm.drop (roundZeros prev0 norm) with
    | nil =>
      rw [ncountLoop_of_nil hmore hdrop] at h
      cases h
    | cons c rest =>
      obtain ⟨hsame, hdrop'⟩ := drop_roundZeros_append hdrop tail
      rw [ncountLoop_of_cons hmore hdrop] at h
      obtain ⟨gs, hgs, hfs⟩ := Option.map_eq_some_iff.1 h
      rw [ncountLoop_of_cons hmore (hsame ▸ hdrop'), hsame, ih hgs (Nat.le_of_succ_le_succ hfuel)]
      exact congrArg some hfs

theorem ncountBytes_append {norm : List Int} {tl : Nat} {hdr : List Byte} (h : ncountBytes norm tl = some hdr)
    (tail : List Int) : ncountBytes (norm ++ tail) tl = some hdr := by
  unfold ncountBytes ncountFields at h ⊢
  cases hfs : ncountLoop (norm.length + 1) (2 ^ tl + 1) (2 ^ tl) (tl + 1) false norm with
  | none => simp [hfs] at h
  | some fs =>
    rw [ncountLoop_append hfs (by simp) tail]
    rw [hfs] at h
    exact h

/-! ### The writer's loop ends (R220) -/

/-- A round leaves the counts after its own still to be described. -/
theorem Describes.next {remaining : Int} {threshold nb z : Nat} {norm rest : List Int} {c : Int}
    (hd : Describes remaining threshold nb norm) (hdrop : norm.drop z = c :: rest)
    (hz : norm.take z = List.replicate z 0) :
    Describes (remaining - c.natAbs) (shrink (remaining - c.natAbs) 14 threshold nb).1
      (shrink (remaining - c.natAbs) 14 threshold nb).2 rest := by
  have hnorm : norm = List.replicate z 0 ++ c :: rest := by rw [← hz, ← hdrop, List.take_append_drop]
  have hmin := hd.min
  have hfill := hd.fill
  have hhigh := hd.high
  rw [hnorm] at hmin
  rw [hnorm, totalSlots_append, totalSlots_replicate_zero, totalSlots_cons, countSlots] at hfill
  rw [hd.pow] at hhigh
  obtain ⟨hnext, hnb⟩ := shrink_bracketed (remaining := remaining - c.natAbs) (fuel := 14) hd.nb_le hd.nb_pos (by omega)
    (by omega)
  rw [← hd.pow] at hnext hnb
  exact { hnext with
    nb_le := hnb.trans hd.nb_le
    min := fun x hx => hmin x (by simp [hx])
    fill := by omega }

/-- R220's loop ends where the counts fill the table: it does not run out of them. -/
theorem exists_ncountLoop {fuel : Nat} {remaining : Int} {threshold nb : Nat} {norm : List Int}
    (hd : Describes remaining threshold nb norm) (hfuel : norm.length < fuel) (prev0 : Bool) :
    ∃ fs, ncountLoop fuel remaining threshold nb prev0 norm = some fs := by
  induction fuel generalizing remaining threshold nb prev0 norm with
  | zero => exact absurd hfuel (Nat.not_lt_zero _)
  | succ fuel ih =>
    have hfill := hd.fill
    rcases le_or_gt remaining 1 with hdone | hmore
    · exact ⟨[], by rw [ncountLoop, if_pos hdone, if_pos (by omega)]⟩
    have hz : norm.take (roundZeros prev0 norm) = List.replicate (roundZeros prev0 norm) 0 := by
      cases prev0 with
      | false => rfl
      | true =>
        have := congrArg (List.take (leadingZeros norm)) (eq_leadingZeros_append norm)
        simpa [roundZeros] using this
    cases hdrop : norm.drop (roundZeros prev0 norm) with
    | nil =>
      have hzeros : totalSlots norm = 0 := by
        rw [← List.take_append_drop (roundZeros prev0 norm) norm, hz, hdrop, List.append_nil, totalSlots_replicate_zero]
      omega
    | cons c rest =>
      have hlen := congrArg List.length hdrop
      rw [List.length_drop, List.length_cons] at hlen
      obtain ⟨gs, hgs⟩ := ih (hd.next hdrop hz) (by omega) (countValue remaining threshold c == 1)
      exact ⟨_, by rw [ncountLoop_of_cons hmore hdrop, hgs]; rfl⟩

/-- The whole of a distribution that fills its table is still to be described at the start. -/
theorem describes_start {norm : List Int} {tl : Nat} (h5 : 5 ≤ tl) (h12 : tl ≤ 12)
    (hok : normConsistent norm tl = true) : Describes (2 ^ tl + 1) (2 ^ tl) (tl + 1) norm := by
  obtain ⟨hmin, hfill⟩ := normConsistent_iff.1 hok
  have hone : (1 : Int) < 2 ^ tl := by exact_mod_cast Nat.one_lt_two_pow (n := tl) (by omega)
  exact {
    pow := rfl
    nb_pos := by omega
    low := by push_cast; omega
    high := by push_cast; omega
    nb_le := by omega
    min := hmin
    fill := by rw [hfill]; push_cast; rfl }

theorem exists_ncountBytes {norm : List Int} {tl : Nat} (h5 : 5 ≤ tl) (h12 : tl ≤ 12)
    (hok : normConsistent norm tl = true) : ∃ hdr, ncountBytes norm tl = some hdr := by
  obtain ⟨fs, hfs⟩ := exists_ncountLoop (describes_start h5 h12 hok) (Nat.lt_succ_self _) false
  exact ⟨_, by rw [ncountBytes, ncountFields, hfs]⟩

end Sys2Proof.Machine
end

section
/-! FSE_WRNC and FSE_RDNC (R221 to R224): their checks in order and their results, and a description read back. -/

namespace Sys2Proof.Machine

/-! ### What the reader gives (R223) -/

theorem totalSlots_nil : totalSlots [] = 0 := rfl

/-- The reader's loop takes as many states as the counts it reads have. -/
theorem ncLoop_slots {v len maxSym fuel bits bits' threshold nb : Nat} {remaining left : Int} {prev0 : Bool}
    {norm out : List Int}
    (h : ncLoop v len maxSym fuel bits remaining threshold nb prev0 norm = .ok (bits', left, out)) :
    left + totalSlots out = remaining + totalSlots norm := by
  induction fuel generalizing bits remaining threshold nb prev0 norm with
  | zero =>
    cases h
    rfl
  | succ fuel ih =>
    rw [ncLoop] at h
    split at h
    · cases h
      rfl
    split at h
    · cases h
    split at h
    · cases h
    next c _ =>
    have hnext := ih h
    rw [totalSlots_append, totalSlots_append, totalSlots_replicate_zero, totalSlots_cons, totalSlots_nil,
      countSlots] at hnext
    omega

/-- A description that is read has a log within the limits, and its shares fill the table. -/
theorem readNCount_ok {bs : List Byte} {maxSym maxLog : Nat} {d : NCount} (h : readNCount bs maxSym maxLog = .ok d) :
    d.log ≤ maxLog ∧ d.maxSym = d.norm.length - 1 ∧ totalSlots d.norm = 2 ^ d.log := by
  simp only [readNCount] at h
  split at h
  · cases h
  split at h
  · cases h
  next hlog =>
  split at h
  · cases h
  next hloop =>
  split at h
  · cases h
  next hone =>
  cases h
  have hslots := ncLoop_slots hloop
  refine ⟨not_lt.1 hlog, rfl, ?_⟩
  rw [not_not.1 hone, totalSlots_nil] at hslots
  zify
  omega

/-! ### The commands -/

section Commands

variable {s : State}

theorem exec_fseWrnc_invalid (hv : s.nvalid = false) : exec .fseWrnc s = raise .stateInvalid s := by
  simp [exec, execFseWrnc, hv]

theorem exec_fseWrnc_bad (hv : s.nvalid = true) (hw : windowOk s.a0 s.a1 = false) :
    exec .fseWrnc s = raise .argRange s := by
  simp [exec, execFseWrnc, hv, hw]

variable (hw : windowOk s.a0 s.a1 = true)

include hw

section Write

variable (hv : s.nvalid = true) {hdr : List Byte} (h : ncountBytes s.normAll s.nlog.toNat = some hdr)

include hv h

theorem exec_fseWrnc_small (hfit : s.a1 < hdr.length) :
    exec .fseWrnc s = raiseDst ⟨.dstTooSmall, 0⟩ s.a0 s.a1 s := by
  simp only [exec, execFseWrnc, hv, hw, h, if_pos hfit, Bool.not_true, Bool.false_eq_true, if_false]

theorem exec_fseWrnc_ok (hfit : hdr.length ≤ s.a1) :
    exec .fseWrnc s = .next ((s.writeOut s.a0 s.a1 hdr).setRes0 (res64 hdr.length)) := by
  simp only [exec, execFseWrnc, hv, hw, h, if_neg (not_lt.2 hfit), Bool.not_true, Bool.false_eq_true, if_false]

end Write

section Read

variable (h2 : s.a2 ≤ 255) (h5 : 5 ≤ s.a3) (h12 : s.a3 ≤ 12)

include h2 h5 h12

theorem exec_fseRdnc_error {e : Err} (h : readNCount (s.window s.a0 s.a1) s.a2 s.a3 = .error e) :
    exec .fseRdnc s = raiseErr e { s with nvalid := false } := by
  simp [exec, execFseRdnc, hw, (symbolOk_iff _).2 h2, not_lt.2 h5, not_lt.2 h12, h]

theorem exec_fseRdnc_ok {d : NCount} (h : readNCount (s.window s.a0 s.a1) s.a2 s.a3 = .ok d) :
    exec .fseRdnc s = .next { s with
      norm := normRegisters d.norm, nmax := BitVec.ofNat 8 d.maxSym, nlog := BitVec.ofNat 4 d.log, nvalid := true
      res := ((s.res.set 0 (res64 d.used)).set 1 (res64 d.log)).set 2 (res64 d.maxSym) } := by
  obtain ⟨-, hmax, -⟩ := readNCount_ok h
  simp [exec, execFseRdnc, hw, (symbolOk_iff _).2 h2, not_lt.2 h5, not_lt.2 h12, h, hmax, State.setNorm, State.setRes0,
    State.setRes1, State.setRes2]

end Read

end Commands

theorem exec_fseRdnc_bad {s : State} (h : windowOk s.a0 s.a1 = false ∨ 255 < s.a2 ∨ s.a3 < 5 ∨ 12 < s.a3) :
    exec .fseRdnc s = raise .argRange s := by
  refine if_pos ?_
  simpa only [Bool.or_eq_true, Bool.not_eq_true', symbolOk_eq_false, decide_eq_true_eq, or_assoc] using h

/-- Settles O28: the checks in order; a description that is read fits the registers, since its shares fill the table. -/
theorem descriptionCommands : Obligations.DescriptionCommands := by
  unfold Obligations.DescriptionCommands
  intro s windowBad
  refine ⟨fun hv => raises_of_raise (exec_fseWrnc_invalid hv),
    fun hv hbad => raises_of_raise (exec_fseWrnc_bad hv (windowOk_false_of hbad)),
    fun hv hw hdr h => ⟨fun hfit => ?_, fun hfit => ?_⟩,
    fun hbad => raises_of_raise (exec_fseRdnc_bad (hbad.imp_left windowOk_false_of)),
    fun hw h2 h5 h12 => ⟨fun e he => ?_, fun d hd => ⟨_, exec_fseRdnc_ok (windowOk_of_not hw) h2 h5 h12 hd, ?_⟩⟩⟩
  · exact raisesDst_of_raiseDst (e := ⟨.dstTooSmall, 0⟩) (exec_fseWrnc_small (windowOk_of_not hw) hv h hfit)
  · exact delivers_size (exec_fseWrnc_ok (windowOk_of_not hw) hv h hfit) hfit
  · exact raisesFrom_of_raiseErr (exec_fseRdnc_error (windowOk_of_not hw) h2 h5 h12 he)
  · obtain ⟨hlog, -, hfill⟩ := readNCount_ok hd
    exact normRegisters_toInt (shares_fit (hlog.trans h12) hfill)

/-! ### The round trip (R224) -/

theorem State.normAll_getD (s : State) (x : Fin 256) : s.normAll.getD x.val 0 = s.norm[x].toInt := by
  rw [State.normAll, List.getD_eq_getElem?_getD, List.getElem?_map]
  simp

/-- Above NMAX the registers hold no share. -/
theorem State.normAll_eq_append {s : State} (h : ∀ x : Fin 256, s.nmax.toNat < x.val → s.norm[x] = 0) :
    ∃ zeros, s.normAll = s.normList ++ List.replicate zeros 0 := by
  suffices hzero : ∀ c ∈ s.normAll.drop (s.nmax.toNat + 1), c = 0 from
    ⟨_, by rw [← List.eq_replicate_of_mem hzero, State.normList, List.take_append_drop]⟩
  intro c hc
  obtain ⟨i, hi, rfl⟩ := List.mem_iff_getElem.1 hc
  rw [List.length_drop] at hi
  have hlen : s.normAll.length = 256 := by simp [State.normAll]
  have hx := s.normAll_getD ⟨s.nmax.toNat + 1 + i, by omega⟩
  rw [h _ (by dsimp only; omega), List.getD_eq_getElem _ _ (by omega)] at hx
  rw [List.getElem_drop]
  exact hx

theorem getD_append_zeros (l : List Int) (zeros x : Nat) :
    (l ++ List.replicate zeros 0).getD x 0 = l.getD x 0 := by
  rcases Nat.lt_or_ge x l.length with hx | hx
  · exact List.getD_append _ _ _ _ hx
  · rw [List.getD_append_right _ _ _ _ hx, List.getD_eq_getElem?_getD (l := List.replicate zeros 0),
      List.getElem?_getD_replicate_default_eq, List.getD_eq_default _ _ hx]

/-- The registers hold a list of shares again that is theirs but for zeros at its end. -/
theorem normRegisters_of_append {s : State} {shown : List Int} {zeros : Nat}
    (h : s.normAll = shown ++ List.replicate zeros 0) : normRegisters shown = s.norm := by
  refine Vector.ext fun i hi => ?_
  have hx := s.normAll_getD ⟨i, hi⟩
  rw [h, getD_append_zeros] at hx
  rw [normRegisters, tab256_getElem, hx]
  exact BitVec.ofInt_toInt

/-- An FSE_WRNC without error of a distribution that fills its table leaves the description in its window. -/
theorem fseWrnc_ok {s t : State} {hdr : List Byte} (hv : s.nvalid = true)
    (hhdr : ncountBytes s.normAll s.nlog.toNat = some hdr) (h : exec .fseWrnc s = .next t) (ht : t.errKind = 0) :
    windowOk s.a0 s.a1 = true ∧ hdr.length ≤ s.a1 ∧ t.res[0] = res64 hdr.length ∧ t.mem.Holds s.a0 hdr := by
  cases hw : windowOk s.a0 s.a1 with
  | false =>
    cases (exec_fseWrnc_bad hv hw).symm.trans h
    exact absurd ht (ErrCode.kind_ne_zero .argRange)
  | true =>
    rcases Nat.lt_or_ge s.a1 hdr.length with hsmall | hfit
    · cases (exec_fseWrnc_small hw hv hhdr hsmall).symm.trans h
      exact absurd ht (ErrCode.kind_ne_zero .dstTooSmall)
    · cases (exec_fseWrnc_ok hw hv hhdr hfit).symm.trans h
      exact ⟨rfl, hfit, by simp, State.writeOut_holds _ _ _ _⟩

/-- Settles O29: the description of the shares up to NMAX is that of all the registers, and it reads back. -/
theorem descriptionRoundTrip : Obligations.DescriptionRoundTrip := by
  unfold Obligations.DescriptionRoundTrip
  intro s t u hs hd habove hexec ht hmem hu0 hu1 hmax h255 hlog h12
  obtain ⟨hv, h5, hlog12, -, -⟩ := id hd
  have hok := hd.consistent
  obtain ⟨hmin, hfill⟩ := normConsistent_iff.1 hok
  obtain ⟨hdr, hhdr⟩ := exists_ncountBytes h5 hlog12 hok
  obtain ⟨zeros, hall⟩ := State.normAll_eq_append habove
  obtain ⟨hw, hfit, hres, hholds⟩ := fseWrnc_ok hv (hall ▸ ncountBytes_append hhdr _) hexec ht
  have hsize : u.a1 = hdr.length := by rw [hu1, hres, res64_toNat (hfit.trans_lt s.a1_lt)]
  rw [← hmem, ← hu0] at hholds
  obtain ⟨rest, hwin⟩ := State.window_eq_append hholds hsize.ge
  obtain ⟨shown, more, hshown, hread⟩ := readNCount_ncountBytes h5 hlog12 hmin hfill hhdr (maxSym := u.a2)
    (by rw [s.normList_length]; omega) hlog rest
  have hwu : windowOk u.a0 u.a1 = true := by
    rw [windowOk_iff] at hw ⊢
    omega
  refine ⟨_, exec_fseRdnc_ok hwu h255 (h5.trans hlog) h12 (hwin ▸ hread), rfl, ?_, ?_, rfl, ?_, ?_⟩
  · exact normRegisters_of_append (zeros := more + zeros)
      (by rw [hall, hshown, List.append_assoc, List.replicate_append_replicate])
  · simp
  · have hlen := congrArg List.length hshown
    rw [s.normList_length, List.length_append] at hlen
    dsimp only
    rw [BitVec.toNat_ofNat]
    exact (Nat.mod_le _ _).trans (by omega)
  · rw [hres]
    simp

end Sys2Proof.Machine
end

section
/-! HIST, FSE_OPTLOG and HUF_OPTLOG (R200 to R202, R300): their checks and what they return. -/

namespace Sys2Proof.Machine

/-! ### HIST (R200) -/

theorem lastNonzero_of_zeros {l : List Nat} (h : ∀ x ∈ l, x = 0) : lastNonzero l = 0 := by
  induction l using List.reverseRecOn with
  | nil => rfl
  | append_singleton l y ih =>
    have hy : y = 0 := h y (by simp)
    have hlast : lastNonzero (l ++ [y]) = if 0 < y then l.length else lastNonzero l := by
      simp [lastNonzero, List.zipIdx_append]
    rw [hlast, if_neg (by omega), ih fun x hx => h x (by simp [hx])]

section Counts

variable (bs : List Byte)

theorem histogram_getD (x : Fin 256) : (histogram bs).getD x.val 0 = bs.count (BitVec.ofNat 8 x.val) := by
  simp [histogram]

theorem histogram_le : ∀ c ∈ histogram bs, c ≤ bs.length := by
  intro c hc
  obtain ⟨x, -, rfl⟩ := List.mem_map.1 hc
  exact List.count_le_length

/-- A byte occurs where the bytes do. -/
theorem histogram_ne_zero (h : bs ≠ []) : ∃ c ∈ histogram bs, c ≠ 0 :=
  exists_ne_zero_of_sum (by rwa [histogram_sum, ne_eq, List.length_eq_zero_iff])

theorem lastNonzero_histogram_lt : lastNonzero (histogram bs) < 256 := by
  by_cases h : ∃ c ∈ histogram bs, c ≠ 0
  · exact histogram_length bs ▸ lastNonzero_lt h
  · push Not at h
    rw [lastNonzero_of_zeros h]
    decide

theorem histogram_getD_le_listMax (x : Fin 256) : (histogram bs).getD x.val 0 ≤ listMax (histogram bs) := by
  rw [List.getD_eq_getElem _ _ (by rw [histogram_length]; exact x.isLt)]
  exact le_listMax (List.getElem_mem _)

/-- The largest count is that of a symbol. -/
theorem exists_histogram_eq_listMax : ∃ x : Fin 256, (histogram bs).getD x.val 0 = listMax (histogram bs) := by
  by_cases h0 : listMax (histogram bs) = 0
  · exact ⟨0, (histogram_getD_le_listMax bs 0).antisymm (h0.le.trans (Nat.zero_le _))⟩
  · obtain ⟨i, hi, hget⟩ := List.mem_iff_getElem.1 (listMax_mem h0)
    exact ⟨⟨i, histogram_length bs ▸ hi⟩, (List.getD_eq_getElem _ _ hi).trans hget⟩

/-- The counts of fewer than `2 ^ 32` bytes fit their registers. -/
theorem histogramRegisters_toNat {bs : List Byte} (h : bs.length < 2 ^ 32) (x : Fin 256) :
    (tab256 (fun i => BitVec.ofNat 32 ((histogram bs).getD i 0)) : Vector Word 256)[x].toNat
      = (histogram bs).getD x.val 0 := by
  have := List.count_le_length (a := BitVec.ofNat 8 x.val) (l := bs)
  rw [tab256_get, BitVec.toNat_ofNat, Nat.mod_eq_of_lt]
  rw [histogram_getD]
  omega

end Counts

/-- Settles O24: the counts fit their registers, since the window has fewer than `2^31` bytes. -/
theorem histogramOfWindow : Obligations.Histogram := by
  unfold Obligations.Histogram
  refine fun s => ⟨fun hw => raises_of_raise ?_, fun hlen hwin => ?_⟩
  · simp [exec, execHist, windowOk_false_of hw]
  have hw : windowOk s.a0 s.a1 = true := windowOk_of_not (by omega)
  obtain ⟨bs, hbs⟩ : ∃ bs, bs = s.window s.a0 s.a1 := ⟨_, rfl⟩
  have hsize : bs.length = s.a1 := by rw [hbs, State.window_length]
  have hfits := histogramRegisters_toNat (bs := bs) (by omega)
  have hmax : (BitVec.ofNat 8 (lastNonzero (histogram bs))).toNat = lastNonzero (histogram bs) := by
    rw [BitVec.toNat_ofNat, Nat.mod_eq_of_lt (lastNonzero_histogram_lt bs)]
  have hlargest : (BitVec.ofNat 32 (listMax (histogram bs))).toNat = listMax (histogram bs) := by
    have := listMax_le (histogram_le bs)
    rw [BitVec.toNat_ofNat, Nat.mod_eq_of_lt (by omega)]
  obtain ⟨habove, hat⟩ := lastNonzero_spec (histogram bs)
  refine ⟨tab256 fun i => BitVec.ofNat 32 ((histogram bs).getD i 0), BitVec.ofNat 8 (lastNonzero (histogram bs)),
    BitVec.ofNat 32 (listMax (histogram bs)), ?_, fun x => ?_, fun h0 => ?_, fun x hx h0 => ?_, fun x hx => ?_,
    fun x => ?_, ?_⟩
  · rw [← res64_toNat_zeroExtend (by decide), ← res64_toNat_zeroExtend (by decide), hmax, hlargest]
    simp [exec, execHist, hw, ← hbs, State.setRes0, State.setRes1]
  · rw [hfits, histogram_getD, hbs]
  · rw [lastNonzero_of_zeros fun c hc => Nat.le_zero.1 ((histogram_le bs c hc).trans (hsize.trans h0).le)]
    rfl
  · have hne : bs ≠ [] := List.ne_nil_of_length_pos (hsize ▸ h0)
    rw [ne_eq, ← BitVec.toNat_inj, hfits, ← hx, hmax]
    exact hat (histogram_ne_zero bs hne)
  · rw [← BitVec.toNat_inj, hfits]
    exact habove x.val (hmax ▸ hx)
  · rw [BitVec.le_def, hfits, hlargest]
    exact histogram_getD_le_listMax bs x
  · obtain ⟨x, hx⟩ := exists_histogram_eq_listMax bs
    exact ⟨x, BitVec.eq_of_toNat_eq ((hfits x).trans (hx.trans hlargest.symm))⟩

/-! ### FSE_OPTLOG and HUF_OPTLOG (R201, R202, R300) -/

/-- The command of R202 and R300 with the largest log `most` its operand may be. -/
def optlogAnswer (most minus : Nat) (s : State) : Out :=
  if s.a0 < 1 ∨ most < s.a0 ∨ 255 < s.a2 ∨ 2 ^ 31 ≤ s.a1 then raise .argRange s
  else if s.a1 < 2 then raise .needsRle s
  else .next { s with res := s.res.set 0 (res64 (optimalTableLog s.a0 s.a1 s.a2 minus)) }

theorem exec_fseOptlog (s : State) : exec .fseOptlog s = optlogAnswer 12 2 s := by
  simp only [exec, execFseOptlog, optlogAnswer, Bool.or_eq_true, Bool.not_eq_true', symbolOk_eq_false, countOk_eq_false,
    decide_eq_true_eq, or_assoc, State.setRes0]

theorem exec_hufOptlog (s : State) : exec .hufOptlog s = optlogAnswer 11 1 s := by
  simp only [exec, execHufOptlog, optlogAnswer, Bool.or_eq_true, Bool.not_eq_true', symbolOk_eq_false, countOk_eq_false,
    decide_eq_true_eq, or_assoc, State.setRes0]

/-- R202's formula over the integers: where the samples are too few for the subtraction, R201's least log decides. -/
theorem optimalTableLog_eq (maxLog n maxSym minus : Nat) : (optimalTableLog maxLog n maxSym minus : Int) =
    min (max (max (min (maxLog : Int) (Nat.log2 (n - 1) - minus))
      (min (Nat.log2 (n - 1) + 1) (if maxSym = 0 then 1 else Nat.log2 maxSym + 2))) 5) 12 := by
  simp only [optimalTableLog, minTableLog, highestBit, Config.fseMinLog, Config.fseMaxLog]
  split <;> omega

section Optlog

variable {i : Instr} {s : State} {most minus : Nat} (hi : exec i s = optlogAnswer most minus s)

include hi

theorem optlog_argRange (h : s.a0 < 1 ∨ most < s.a0 ∨ 255 < s.a2 ∨ 2 ^ 31 ≤ s.a1) : Raises i s .argRange 0 :=
  raises_of_raise (hi.trans (if_pos h))

variable (h1 : 1 ≤ s.a0) (hmost : s.a0 ≤ most) (h255 : s.a2 ≤ 255)

include h1 hmost h255

theorem optlog_needsRle (h : s.a1 < 2) : Raises i s .needsRle 0 :=
  raises_of_raise (hi.trans ((if_neg (by omega)).trans (if_pos h)))

theorem optlog_ok (h2 : 2 ≤ s.a1) (h31 : s.a1 < 2 ^ 31) {log : Int}
    (hlog : (optimalTableLog s.a0 s.a1 s.a2 minus : Int) = log) :
    exec i s = .next { s with res := s.res.set 0 (res64 log.toNat) } ∧ 5 ≤ log ∧ log ≤ 12 := by
  subst hlog
  refine ⟨hi.trans ((if_neg (by omega)).trans (if_neg (by omega))), ?_⟩
  rw [optimalTableLog_eq]
  omega

end Optlog

/-- Settles O25: both commands' checks, and R202's log over the integers. -/
theorem tableLogs : Obligations.TableLogs := by
  unfold Obligations.TableLogs
  intro s minLog log
  have hfse := exec_fseOptlog s
  have hhuf := exec_hufOptlog s
  exact ⟨optlog_argRange hfse, optlog_argRange hhuf, optlog_needsRle hfse, optlog_needsRle hhuf,
    fun h1 h12 h255 h2 h31 => optlog_ok hfse h1 h12 h255 h2 h31 (optimalTableLog_eq _ _ _ 2),
    fun h1 h11 h255 h2 h31 => optlog_ok hhuf h1 h11 h255 h2 h31 (optimalTableLog_eq _ _ _ 1)⟩

end Sys2Proof.Machine
end

section
/-! The commands that show a distribution, a count, a table or a state register, and the cost estimate (R247 to R250,
R280, R340, R341, R360). -/

namespace Sys2Proof.Machine

/-! ### Result registers -/

theorem res64_toNat_bool (b : Bool) : res64 b.toNat = if b then 1 else 0 := by cases b <;> rfl

/-- A state with its first two, three or all result registers written. -/
theorem State.setRes_two (s : State) (a b : DWord) :
    (s.setRes0 a).setRes1 b = { s with res := #v[a, b, s.res[2], s.res[3]] } :=
  congrArg (fun r => { s with res := r }) (res_set2 s.res a b)

theorem State.setRes_three (s : State) (a b c : DWord) :
    ((s.setRes0 a).setRes1 b).setRes2 c = { s with res := #v[a, b, c, s.res[3]] } :=
  congrArg (fun r => { s with res := r }) (res_set3 s.res a b c)

theorem State.setRes_four (s : State) (a b c d : DWord) :
    (((s.setRes0 a).setRes1 b).setRes2 c).setRes3 d = { s with res := #v[a, b, c, d] } :=
  congrArg (fun r => { s with res := r }) (res_set4 s.res a b c d)

section Fse

variable {s : State}

/-! ### Distributions, counts and state registers (R247, R248, R280) -/

theorem exec_fseGetnorm {x : Fin 256} (h : s.a0 = x.val) : exec .fseGetnorm s = .next { s with
    res := #v[s.norm[x].signExtend 64, s.nmax.zeroExtend 64, s.nlog.zeroExtend 64, if s.nvalid then 1 else 0] } := by
  simp (disch := decide) only [exec, execFseGetnorm, h, symbolOk_fin, at256_fin, State.setRes_four, res64_toNat_bool,
    res64_toNat_zeroExtend, Bool.not_true, Bool.false_eq_true, if_false]

theorem exec_fseGetcount {x : Fin 256} (h : s.a0 = x.val) : exec .fseGetcount s = .next { s with
    res := #v[s.counts[x].zeroExtend 64, s.hmax.zeroExtend 64, s.hlargest.zeroExtend 64, s.res[3]] } := by
  simp (disch := decide) only [exec, execFseGetcount, h, symbolOk_fin, at256_fin, State.setRes_three,
    res64_toNat_zeroExtend, Bool.not_true, Bool.false_eq_true, if_false]

theorem fseGet_argRange (h : 255 < s.a0) : Raises .fseGetnorm s .argRange 0 ∧ Raises .fseGetcount s .argRange 0 := by
  have hsym := (symbolOk_eq_false _).2 h
  exact ⟨raises_of_raise (by simp [exec, execFseGetnorm, hsym]),
    raises_of_raise (by simp [exec, execFseGetcount, hsym])⟩

theorem exec_fseGetstate (e : Fin 4) : exec (.fseGetstate (nib e)) s = .next { s with
    res := #v[(s.es[e]).zeroExtend 64, (s.ds[e]).zeroExtend 64, s.res[2], s.res[3]] } := by
  simp (disch := decide) only [exec, execFseGetstate, withFour_nib, State.setRes_two, res64_toNat_zeroExtend]

/-! ### Tables (R249, R250) -/

variable {k : Fin 4}

theorem exec_fseGetdt_invalid (h : s.dt[k] = none) : exec (.fseGetdt (nib k)) s = raise .stateInvalid s := by
  simp only [exec, execFseGetdt, withFour_nib, h]

theorem exec_fseGetct_invalid (h : s.ct[k] = none) : exec (.fseGetct (nib k)) s = raise .stateInvalid s := by
  simp only [exec, execFseGetct, withFour_nib, h]

theorem exec_fseGetdt {T : FseDT} (hT : s.dt[k] = some T) : exec (.fseGetdt (nib k)) s =
    if 2 ^ T.log ≤ s.a0 then raise .argRange s
    else .next { s with res := #v[(T.entry s.a0).sym.zeroExtend 64, (T.entry s.a0).nb.zeroExtend 64,
      (T.entry s.a0).ns.zeroExtend 64, res64 T.log] } := by
  simp (disch := decide) only [exec, execFseGetdt, withFour_nib, hT, State.setRes_four, res64_toNat_zeroExtend]

theorem exec_fseGetct_argRange {T : FseCT} (hT : s.ct[k] = some T) (h : 255 < s.a0 ∨ 2 ^ max T.log 1 ≤ s.a1) :
    exec (.fseGetct (nib k)) s = raise .argRange s := by
  simp only [exec, execFseGetct, withFour_nib, hT]
  exact if_pos (by simpa only [Bool.or_eq_true, Bool.not_eq_true', symbolOk_eq_false, decide_eq_true_eq] using h)

theorem exec_fseGetct {T : FseCT} (hT : s.ct[k] = some T) {x : Fin 256} (h : s.a0 = x.val)
    (h1 : s.a1 < 2 ^ max T.log 1) :
    exec (.fseGetct (nib k)) s = .next { s with
      res := #v[T.deltaRead s.free 0 x.val, T.deltaRead s.free 1 x.val, (T.nextState.getD s.a1 0).zeroExtend 64,
        res64 (T.present[x].toNat ||| (T.log <<< 8) ||| (T.maxSym.toNat <<< 16))]
      free := s.free + 1 } := by
  simp (disch := decide) only [exec, execFseGetct, withFour_nib, hT, h, symbolOk_fin, not_le.2 h1, at256_fin,
    State.setRes_four, res64_toNat_zeroExtend, Bool.not_true, Bool.or_false, decide_false, Bool.false_eq_true, if_false]

end Fse

/-- R250: what `dNB` and `dFS` show. -/
theorem FseCT.deltaRead_of_set (T : FseCT) (tag i : Nat) {x : Fin 256}
    (h : T.present[x] = true ∨ T.log ≠ 0 ∧ x.val ≤ T.maxSym.toNat) :
    T.deltaRead tag i x.val = (if i = 0 then T.dNB else T.dFS)[x].signExtend 64 := by
  have hset : T.deltaUnset x.val = false := by
    rw [FseCT.deltaUnset, at256_fin]
    obtain h | ⟨h, -⟩ := h <;> simp [h]
  have hshown : (!T.present[x] && decide (T.maxSym.toNat < x.val)) = false := by
    obtain h | ⟨-, h⟩ := h
    · simp [h]
    · simp [not_lt.2 h]
  rw [FseCT.deltaRead, hset, at256_fin, hshown, at256_fin]
  rfl

theorem FseCT.deltaRead_of_absent (T : FseCT) (tag i : Nat) {x : Fin 256} (h : T.present[x] = false)
    (hx : T.maxSym.toNat < x.val) : T.deltaRead tag i x.val = 0 := by
  simp [FseCT.deltaRead, FseCT.deltaUnset, at256_fin, h, hx, not_le.2 hx]

/-! ### Huffman tables (R340, R341, R360) -/

section Huffman

variable {s : State} {e : Fin 2}

theorem HufTable.lenOf_fin (T : HufTable) (x : Fin 256) : T.lenOf x.val = T.len[x].toNat := by
  rw [HufTable.lenOf, at256_fin]

theorem huf_argRange (h : 255 < s.a0) :
    Raises (.hufEst (nib e)) s .argRange 0 ∧ Raises (.hufGetcode (nib e)) s .argRange 0 := by
  have hsym := (symbolOk_eq_false _).2 h
  exact ⟨raises_of_raise (by simp [exec, execHufEst, hsym]), raises_of_raise (by simp [exec, execHufGetcode, hsym])⟩

/-- An invalid table has estimate 0 and encodes nothing (R360), and no code to show (R340). -/
theorem huf_invalid (h : s.a0 ≤ 255) (hT : s.ht[e] = none) :
    exec (.hufEst (nib e)) s = .next { s with res := (s.res.set 0 0).set 1 0 }
      ∧ Raises (.hufGetcode (nib e)) s .stateInvalid 0 := by
  have hsym := (symbolOk_iff _).2 h
  refine ⟨?_, raises_of_raise ?_⟩
  · simp only [exec, execHufEst, withTwo_nib, hsym, hT, Bool.not_true, Bool.false_eq_true, if_false]
    rfl
  · simp only [exec, execHufGetcode, withTwo_nib, hsym, hT, Bool.not_true, Bool.false_eq_true, if_false]

theorem exec_hufGetcode {T : HufTable} (hT : s.ht[e] = some T) {x : Fin 256} (h : s.a0 = x.val) :
    exec (.hufGetcode (nib e)) s = .next { s with
      res := #v[T.len[x].zeroExtend 64, res64 (T.valRead s.free x.val), T.maxSym.zeroExtend 64, T.maxBits.zeroExtend 64]
      free := s.free + 1 } := by
  simp (disch := decide) only [exec, execHufGetcode, withTwo_nib, hT, h, symbolOk_fin, T.lenOf_fin, State.setRes_four,
    res64_toNat_zeroExtend, Bool.not_true, Bool.false_eq_true, if_false]

theorem HufTable.valRead_of_code (T : HufTable) (tag : Nat) {x : Fin 256} (h : T.len[x] ≠ 0) :
    res64 (T.valRead tag x.val) = T.val[x].zeroExtend 64 := by
  have hlen : T.lenOf x.val ≠ 0 := by
    rw [T.lenOf_fin]
    exact fun h0 => h (BitVec.eq_of_toNat_eq h0)
  rw [HufTable.valRead, if_neg hlen, HufTable.valOf, at256_fin, res64_toNat_zeroExtend (by decide)]

theorem exec_hufGetdt {d : HufDec} (hd : s.hd = some d) : exec .hufGetdt s =
    if 2 ^ d.log ≤ s.a0 then raise .argRange s
    else .next { s with
      res := #v[(d.entry s.a0).sym.zeroExtend 64, (d.entry s.a0).nb.zeroExtend 64, res64 d.log, s.res[3]] } := by
  simp (disch := decide) only [exec, execHufGetdt, hd, State.setRes_three, res64_toNat_zeroExtend]

/-- A sum over the counts up to a symbol. -/
theorem State.countList_zipIdx_map (s : State) (g : Nat → Nat → Nat) (x : Fin 256) :
    (s.countList x.val).zipIdx.map (fun c => g c.1 c.2)
      = (List.range (x.val + 1)).map fun y => g (s.counts.toList.getD y 0).toNat y := by
  have hlen := s.countList_length (Nat.le_of_lt_succ x.isLt)
  refine List.ext_getElem (by simp [hlen]) fun y hy hy' => ?_
  rw [List.length_map, List.length_range] at hy'
  simp [State.countList, List.getD_eq_getElem?_getD, show y < 256 by omega]

theorem exec_hufEst {T : HufTable} (hT : s.ht[e] = some T) {x : Fin 256} (h : s.a0 = x.val) :
    exec (.hufEst (nib e)) s = .next { s with
      res := (s.res.set 0 (res64 (((List.range (x.val + 1)).map fun y =>
        (s.counts.toList.getD y 0).toNat * T.lenOf y).sum / 8))).set 1
          (if T.canEncode (s.countList x.val) then 1 else 0) } := by
  rw [← s.countList_zipIdx_map (fun c y => c * T.lenOf y)]
  simp only [exec, execHufEst, withTwo_nib, hT, h, symbolOk_fin, HufTable.estimate, State.setRes0, State.setRes1,
    res64_toNat_bool, Bool.not_true, Bool.false_eq_true, if_false]

/-- R360: a table encodes the counted symbols where it has a code for each. -/
theorem HufTable.canEncode_countList (T : HufTable) (s : State) (x : Fin 256) : T.canEncode (s.countList x.val) = true ↔
    x.val ≤ T.maxSym.toNat ∧ ∀ y : Fin 256, y.val ≤ x.val → s.counts[y] ≠ 0 → T.len[y] ≠ 0 := by
  have hlen := s.countList_length (Nat.le_of_lt_succ x.isLt)
  have hcode (y : Fin 256) : 0 < T.lenOf y.val ↔ T.len[y] ≠ 0 := by
    rw [T.lenOf_fin, Nat.pos_iff_ne_zero, ne_eq, ne_eq, ← BitVec.toNat_inj]
    rfl
  have hcount (y : Fin 256) : s.counts[y].toNat = 0 ↔ s.counts[y] = 0 := (BitVec.toNat_inj (y := 0)).trans Iff.rfl
  rw [HufTable.canEncode, Bool.and_eq_true, decide_eq_true_eq, hlen, Nat.succ_le_succ_iff, List.all_eq_true]
  refine and_congr_right fun _ => ⟨fun h y hy h0 => ?_, fun h => ?_⟩
  · have hmem : (s.counts[y].toNat, y.val) ∈ (s.countList x.val).zipIdx :=
      List.mem_zipIdx_iff_getElem?.2 (s.countList_getElem? y hy)
    have := h _ hmem
    rw [Bool.or_eq_true, beq_iff_eq, decide_eq_true_eq, hcount, hcode] at this
    exact this.resolve_left h0
  · rintro ⟨c, y⟩ hmem
    have hget := List.mem_zipIdx_iff_getElem?.1 hmem
    have hy := (List.getElem?_eq_some_iff.1 hget).1
    dsimp only at hget hy
    rw [hlen] at hy
    obtain ⟨y, rfl⟩ : ∃ z : Fin 256, z.val = y := ⟨⟨y, by omega⟩, rfl⟩
    obtain rfl := Option.some.inj ((s.countList_getElem? y (Nat.le_of_lt_succ hy)).symm.trans hget)
    rw [Bool.or_eq_true, beq_iff_eq, decide_eq_true_eq, hcount, hcode]
    exact or_iff_not_imp_left.2 (h y (Nat.le_of_lt_succ hy))

end Huffman

/-- Settles O33: each command's checks, and what it shows. -/
theorem tableInspection : Obligations.TableInspection := by
  unfold Obligations.TableInspection
  refine ⟨fun s => ⟨fseGet_argRange, fun x hx => ⟨exec_fseGetnorm hx, exec_fseGetcount hx⟩, fun k => ?_,
    fun k T hT => ?_, exec_fseGetstate⟩, fun s => ⟨fun h e => huf_argRange h, fun e => huf_invalid,
    fun e T hT x hx => ?_, fun h => ?_, fun d hd => ?_⟩⟩
  · exact ⟨fun h => raises_of_raise (exec_fseGetdt_invalid h), fun h => raises_of_raise (exec_fseGetct_invalid h),
      fun T hT => ⟨fun h => raises_of_raise ((exec_fseGetdt hT).trans (if_pos h)),
        fun h => (exec_fseGetdt hT).trans (if_neg (not_le.2 h))⟩⟩
  · refine ⟨fun h => raises_of_raise (exec_fseGetct_argRange hT h), fun x hx h1 =>
      ⟨_, _, _, exec_fseGetct hT hx h1, fun h => ?_, fun h hlt => ?_, fun h hle => ?_⟩⟩
    · exact ⟨T.deltaRead_of_set _ 0 (.inl h), T.deltaRead_of_set _ 1 (.inl h)⟩
    · exact ⟨T.deltaRead_of_absent _ 0 h hlt, T.deltaRead_of_absent _ 1 h hlt⟩
    · exact ⟨T.deltaRead_of_set _ 0 (.inr ⟨h, hle⟩), T.deltaRead_of_set _ 1 (.inr ⟨h, hle⟩)⟩
  · exact ⟨⟨_, exec_hufEst hT hx, T.canEncode_countList s x⟩, _, _, exec_hufGetcode hT hx, T.valRead_of_code _⟩
  · exact raises_of_raise (by simp only [exec, execHufGetdt, h])
  · exact ⟨fun h => raises_of_raise ((exec_hufGetdt hd).trans (if_pos h)),
      fun h => (exec_hufGetdt hd).trans (if_neg (not_le.2 h))⟩

end Sys2Proof.Machine
end
